-- ==== Sys2Proof/Word.lean ====
section
/-! DEFINITION. The words and numbers of the Arbenta AL8: hub time, round numbers, frame counts, ports and cars. -/

namespace Sys2Proof

/-- A byte on a link (R175). -/
abbrev Byte := BitVec 8

/-- Hub time: a 32-bit count of microseconds that wraps (R1). -/
abbrev HubTime := BitVec 32

/-- A round number, 16 bits, wrapping (R8). -/
abbrev RoundNo := BitVec 16

/-- A cabinet's frame count, 16 bits, wrapping (R68). -/
abbrev FrameCount := BitVec 16

/-- A link port, and the seat that belongs to it (00_scope, "Seats and the pacer"). -/
abbrev PortId := Fin 8

/-- A car: seats 0 to 7, and the pacer at index 8 (00_scope). -/
abbrev CarId := Fin 9

end Sys2Proof
end

