-- ==== Sys2Proof/Syntax.lean ====
section
/-! DEFINITION. The commands of the hub: one constructor per row of spec/opcode_table.json, with the operands the row's
event carries. -/

namespace Sys2Proof

/-- The order in which a seat's cabinet writes the bytes of a number (R19, R20). -/
inductive ByteOrder where
  | highFirst
  | lowFirst
  deriving DecidableEq, Repr

/-- The six service requests (00_scope, R184). -/
inductive ServiceKind where
  | hello
  | enter
  | ready
  | withdraw
  | query
  | setup
  deriving DecidableEq, Repr

/-- A frame as the receiver reads it (R182): its arrival stamp S, the byte order that held when its start byte arrived
(R19), its kind byte, its payload and the CRC it carries. The length byte is the payload's length. -/
structure RxFrame where
  stamp : HubTime
  order : ByteOrder
  kind : Byte
  payload : List Byte
  crc : BitVec 16
  deriving DecidableEq, Repr

/-- What a frame that passed its check hands on (R182, R184): its arrival stamp, the byte order that held when its start
byte arrived, and its payload. -/
structure Inbound where
  stamp : HubTime
  order : ByteOrder
  payload : List Byte
  deriving DecidableEq, Repr

/-- The commands, in the order of spec/opcode_table.json. -/
inductive Instr where
  /-- Power-on, or RESET_N low (R17). -/
  | reset
  /-- RESET_N released (R193). -/
  | resetRelease
  /-- The round timer reaches the next boundary (R9). -/
  | roundBoundary
  /-- The round computation in flight completes (R14). -/
  | roundComputationEnd
  /-- A correctly framed byte has arrived whole at port `p` (R177, R182). -/
  | byteReceived (p : PortId) (b : Byte)
  /-- A byte whose stop bit reads 0 has arrived at port `p` (R175). -/
  | framingError (p : PortId)
  /-- The lock watch of port `p` expires (R178). -/
  | lockWatchExpiry (p : PortId)
  /-- The last CRC byte of frame `f` has arrived at port `p` (R182). -/
  | frameArrival (p : PortId) (f : RxFrame)
  /-- An ECHO that passed its check arrives at port `p` (R180). -/
  | echo (p : PortId) (m : Inbound)
  /-- The echo wait of port `p` expires (R180). -/
  | echoWaitExpiry (p : PortId)
  /-- The retrain wait of port `p` expires (R181). -/
  | retrainWaitExpiry (p : PortId)
  /-- The transmitter of port `p` has finished a frame or a filler byte (R185). -/
  | frameBoundary (p : PortId)
  /-- The last byte of the reply of port `p` has left (R185). -/
  | replyTransmitted (p : PortId)
  /-- A service request of kind `k` that passed its check arrives at port `p` (R26). -/
  | serviceRequestArrival (p : PortId) (k : ServiceKind) (m : Inbound)
  /-- The service engine takes a HELLO (R20, R27). -/
  | hello
  /-- The service engine takes an ENTER (R43). -/
  | enter
  /-- The service engine takes a READY (R47). -/
  | ready
  /-- The service engine takes a WITHDRAW (R60). -/
  | withdraw
  /-- The service engine takes a QUERY of the RACE table (R33). -/
  | queryRace
  /-- The service engine takes a QUERY of the SEAT table (R33). -/
  | querySeat
  /-- The service engine takes a QUERY of the FIT table (R33). -/
  | queryFit
  /-- The service engine takes a QUERY of the LINK table (R33). -/
  | queryLink
  /-- The service engine takes a QUERY of the LAPS table (R33). -/
  | queryLaps
  /-- The service engine takes a QUERY of the FINISH table (R33). -/
  | queryFinish
  /-- The service engine takes a QUERY of the PARAM table (R33). -/
  | queryParam
  /-- The service engine takes a SETUP (R34). -/
  | setup
  /-- The service of the request in service completes (R28). -/
  | serviceComplete
  /-- A REPORT that passed its check arrives at port `p` (R85). -/
  | report (p : PortId) (m : Inbound)
  /-- The lobby timer expires (R46). -/
  | lobbyExpiry
  /-- The grid timer expires (R49). -/
  | gridExpiry
  /-- The finish-window timer expires (R56). -/
  | finishWindowExpiry
  /-- The race-limit timer expires (R56). -/
  | raceLimitExpiry
  /-- The results-hold timer expires (R58). -/
  | resultsHoldExpiry
  /-- The void timer expires (R61). -/
  | voidExpiry
  /-- The silence timer of seat `p` expires (R137). -/
  | silenceExpiry (p : PortId)
  /-- The drop timer of seat `p` expires (R145). -/
  | dropExpiry (p : PortId)
  /-- The anchor age timer of seat `p` expires (R3). -/
  | anchorAgeExpiry (p : PortId)
  /-- Race time reaches the pacer's next crossing (R156). -/
  | pacerCrossing
  deriving DecidableEq, Repr

end Sys2Proof
end

