-- ==== Sys2Proof/Config.lean ====
section
/-! DEFINITION. The free values: what the manual leaves open and the model does not choose. Every constant here is
opaque, so no proof can use a value of it. -/

namespace Sys2Proof

/-- Which of the events due at one instant is taken next, for the n-th choice (R16, R26, R133, R150, R187: the outcome of
each order is given, the order is not). Log 3. -/
opaque Config.tieOrder : Nat → Nat

/-- Whether a start bit counts as earlier than a change of its port's byte order made within the same microsecond, for the n-th
such choice (R19: the order that holds when the start byte arrives). Log 29. -/
opaque Config.startBitFirst : Nat → Bool

/-- How long the n-th service takes; used modulo 41, since a service completes at most 40 µs after its take (R28). Log 4. -/
opaque Config.serviceDelay : Nat → Nat

/-- How long the n-th round computation takes; used modulo 2,001 (R14: within 2,000 µs of its boundary). Log 5. -/
opaque Config.computationDelay : Nat → Nat

/-- The code of HIGH_FIRST in a QUERY SEAT reply: R188 lists no code for a byte order. Log 12. -/
opaque Config.highFirstCode : Byte

/-- The code of LOW_FIRST in a QUERY SEAT reply. Log 12. -/
opaque Config.lowFirstCode : Byte

/-- The code of stall phase SILENT in a QUERY SEAT reply: R188 lists no code for a stall phase. Log 12. -/
opaque Config.silentCode : Byte

/-- The code of stall phase RECOVERING in a QUERY SEAT reply. Log 12. -/
opaque Config.recoveringCode : Byte

/-- The code of a provisional finish list in a QUERY FINISH reply: R188 lists none. Log 12. -/
opaque Config.provisionalCode : Byte

/-- The code of a final finish list in a QUERY FINISH reply. Log 12. -/
opaque Config.finalCode : Byte

end Sys2Proof
end

