-- ==== Sys2Proof/Machine/State.lean ====
section
/-! DEFINITION. The state of the hub, as plain data, grouped by the block that owns each piece (00_scope, block diagram),
and the state after reset. -/

namespace Sys2Proof.Machine

/-! ## Names -/

/-- The seat states (R18). -/
inductive SeatState where
  | vacant
  | linked
  | entered
  | ready
  | running
  | stalled
  | finished
  | retired
  deriving DecidableEq, Repr

/-- The stall phases of a STALLED seat (R135). -/
inductive StallPhase where
  | silent
  | recovering
  deriving DecidableEq, Repr

/-- Whether a cabinet's reports carry a speed (R19, R83). -/
inductive ReportForm where
  | full
  | short
  deriving DecidableEq, Repr

/-- Why a car left the race (R60, R145), or an entrant the grid (R49). -/
inductive RetireReason where
  | linkLost
  | withdrawn
  | notReady
  deriving DecidableEq, Repr

/-- The race states (R39). -/
inductive RaceState where
  | idle
  | lobby
  | grid
  | countdown
  | racing
  | finishing
  | results
  | void
  deriving DecidableEq, Repr

/-- The states of a clock fit (R65). -/
inductive FitState where
  | fitNone
  | fitSettling
  | fitTracking
  deriving DecidableEq, Repr

/-- The link states (R176). -/
inductive LinkState where
  | down
  | training
  | up
  deriving DecidableEq, Repr

/-- The pacer modes (R151). -/
inductive PacerMode where
  | off
  | running
  | ranked
  deriving DecidableEq, Repr

/-- The states of the pacer record while it has one (R18). -/
inductive PacerState where
  | running
  | finished
  deriving DecidableEq, Repr

/-- A lap field: PRE_LINE, or a count of completed laps (00_scope, "Distance, speed and progress"). -/
inductive Lap where
  | preLine
  | count (k : Nat)
  deriving DecidableEq, Repr

/-- A single-shot timer: stopped, or running to an expiry instant (R15). -/
abbrev Timer := Option HubTime

/-! ## Timebase (R1, R5, R6, R8, R11) -/

structure Timebase where
  hubTime : HubTime
  period : Nat
  pendingPeriod : Option Nat
  lastBoundary : Option HubTime
  nextBoundary : HubTime
  roundNumber : RoundNo
  roundDemand : Bool
  deriving DecidableEq, Repr

/-! ## Settings (R34 to R36) -/

/-- One segment of the pacer profile: its share in 256ths of the lap and its speed in cm/s (R152). -/
structure ProfileSegment where
  share : Nat
  speed : Nat
  deriving DecidableEq, Repr

/-- The sixteen settings, in the units of R36's table; `profile` holds the derived share of its last segment too. -/
structure Settings where
  roundPeriod : Nat
  horizon : Nat
  swapMargin : Nat
  jumpTolerance : Nat
  jumpPenalty : Nat
  lobbyTime : Nat
  gridTime : Nat
  countdown : Nat
  finishWindow : Nat
  raceLimit : Nat
  resultsHold : Nat
  minimumField : Nat
  stallLimit : Nat
  dropLimit : Nat
  pacerMode : PacerMode
  profile : List ProfileSegment
  deriving DecidableEq, Repr

/-! ## Service engine (R27 to R30) -/

/-- A value of an outbound payload: how many bytes it takes, and the value (two's complement when negative, R189). -/
structure Field where
  width : Nat
  value : Int
  deriving DecidableEq, Repr

/-- The reasons of a REFUSED reply (R30). -/
inductive Reason where
  | notLinked
  | wrongState
  | closed
  | mismatch
  | notSynced
  | badValue
  | seatHeld
  deriving DecidableEq, Repr

/-- A reply as the take decides it (R30). `reason` is present exactly when the result is REFUSED. `order` is present when
R20 fixes the byte order in which the reply is written, and absent when the seat's order at placement does (R19). -/
structure Reply where
  kind : ServiceKind
  reason : Option Reason
  clamped : Bool
  body : List Field
  order : Option ByteOrder
  deriving DecidableEq, Repr

/-- The request in service (R28): its port, its reply, when it was taken, and the number of the free value that says how
long it takes. -/
structure InService where
  port : PortId
  reply : Reply
  takenAt : HubTime
  draw : Nat
  deriving DecidableEq, Repr

structure ServiceEngine where
  pointer : PortId
  inService : Option InService
  deriving DecidableEq, Repr

/-! ## Seat table (R18, R135) -/

/-- The four parameters a HELLO declares (R19), present together in every seat state but VACANT. -/
structure Cabinet where
  id : BitVec 32
  framePeriod : Nat
  form : ReportForm
  order : ByteOrder
  deriving DecidableEq, Repr

structure Seat where
  state : SeatState
  stallPhase : Option StallPhase
  recoveryRun : Option Nat
  cabinet : Option Cabinet
  gridPosition : Option Nat
  retireReason : Option RetireReason
  gridProgress : Option Int
  jumped : Bool
  penalty : Nat
  frozenProgress : Option Int
  retireProgress : Option Int
  retireTime : Option Int
  duplicates : Nat
  outOfOrder : Nat
  implausible : Nat
  resyncs : Nat
  silenceTimer : Timer
  dropTimer : Timer
  deriving DecidableEq, Repr

/-! ## Clock fit unit (R65) -/

/-- The last report the fit took as its reference: its frame count Fa and its hub time A (R65). -/
structure Anchor where
  frame : FrameCount
  time : HubTime
  deriving DecidableEq, Repr

/-- A fit record; `period` and `nominal` are in 1/256 µs (R65). -/
structure Fit where
  phase : FitState
  anchor : Option Anchor
  period : Option Nat
  nominal : Option Nat
  inGate : Nat
  outliers : Nat
  ageTimer : Timer
  deriving DecidableEq, Repr

/-! ## Report unit (R88) -/

/-- The car flags of a report (R83). -/
structure CarFlags where
  pit : Bool
  offCourse : Bool
  wrongWay : Bool
  deriving DecidableEq, Repr

structure CarState where
  time : HubTime
  lap : Lap
  distance : Nat
  progress : Int
  speed : Int
  flags : CarFlags
  deriving DecidableEq, Repr

/-- A seat's latest and previous car states (R88). -/
structure CarRecord where
  latest : Option CarState
  previous : Option CarState
  deriving DecidableEq, Repr

/-! ## Lap timing unit (R118, R129) -/

structure Crossing where
  lap : Nat
  time : HubTime
  resolved : Bool
  deriving DecidableEq, Repr

structure LapEntry where
  time : Int
  unverified : Bool
  deriving DecidableEq, Repr

structure BestLap where
  lap : Nat
  time : Int
  deriving DecidableEq, Repr

/-- A car's raw and corrected finish, race times in µs (R128). -/
structure FinishTimes where
  raw : Int
  corrected : Int
  deriving DecidableEq, Repr

structure LapRecord where
  highWater : Option Lap
  lastCrossing : Option Crossing
  history : List LapEntry
  bestLap : Option BestLap
  finish : Option FinishTimes
  deriving DecidableEq, Repr

structure FastestLap where
  car : CarId
  lap : Nat
  time : Int
  deriving DecidableEq, Repr

/-- An entry of the finish list (R129). -/
structure FinishEntry where
  car : CarId
  raw : Int
  corrected : Int
  deriving DecidableEq, Repr

/-! ## Standings engine (R100) -/

/-- A car's standings entry; its position is its place in the list, counted from 1 (R112). -/
structure StandingsEntry where
  car : CarId
  projected : Option Int
  stale : Bool
  deriving DecidableEq, Repr

/-! ## Race controller (R39) -/

structure Descriptor where
  track : Nat
  lapLength : Nat
  lapCount : Nat
  deriving DecidableEq, Repr

structure Race where
  state : RaceState
  descriptor : Option Descriptor
  entryList : List PortId
  fieldList : List CarId
  t0 : Option HubTime
  epoch : Option HubTime
  lights : Option Nat
  resultsRound : Option RoundNo
  seenMarks : Vector (Option Bool) 8
  lobbyTimer : Timer
  gridTimer : Timer
  finishWindowTimer : Timer
  raceLimitTimer : Timer
  resultsHoldTimer : Timer
  voidTimer : Timer
  pacerMode : Option PacerMode
  deriving DecidableEq, Repr

/-! ## Pacer generator (R153, R156) -/

/-- A scaled segment: λ and σ in cm, the speed u in cm/s, τ and θ in µs (R153). -/
structure Segment where
  length : Nat
  start : Nat
  speed : Nat
  time : Nat
  startTime : Nat
  deriving DecidableEq, Repr

structure ScaledProfile where
  segments : List Segment
  lapTime : Nat
  deriving DecidableEq, Repr

structure PacerCrossing where
  lap : Nat
  raceTime : Nat
  deriving DecidableEq, Repr

structure PacerGenerator where
  scaled : Option ScaledProfile
  nextCrossing : Option PacerCrossing
  deriving DecidableEq, Repr

/-! ## Event queue (R162, R163) -/

inductive Event where
  | lap (car : CarId) (k : Nat) (time : Int) (fastest unverified : Bool)
  | finish (car : CarId) (lap : Nat) (corrected : Int) (jumped unverified : Bool)
  | jump (seat : PortId) (raceTime : Int)
  | stall (seat : PortId) (raceTime : Int) (rejoin : Bool)
  | resume (seat : PortId) (raceTime : Int)
  | retire (seat : PortId) (raceTime : Option Int) (reason : RetireReason)
  | pass (passer passed : CarId) (raceTime : Int)
  deriving DecidableEq, Repr

structure EventQueue where
  list : List Event
  overflow : Bool
  deriving DecidableEq, Repr

/-! ## Round assembler (R13, R102, R165, R171) -/

/-- The ten flags of a car entry (R170). -/
structure EntryFlags where
  stale : Bool
  stalled : Bool
  recovering : Bool
  jumped : Bool
  finished : Bool
  retired : Bool
  pacer : Bool
  car : CarFlags
  deriving DecidableEq, Repr

/-- A car entry of a ROUND's field part (R169); `ranked` says that it has a position. -/
structure CarEntry where
  car : CarId
  laps : Lap
  flags : EntryFlags
  ranked : Bool
  progress : Int
  speed : Option Int
  finish : Option Int
  best : Option BestLap
  deriving DecidableEq, Repr

/-- What a snapshot holds of one car of the field (R13). -/
structure SnapCar where
  car : CarId
  state : SeatState
  phase : Option StallPhase
  latest : Option CarState
  highWater : Option Lap
  frozen : Option Int
  retireProgress : Option Int
  finish : Option FinishTimes
  best : Option BestLap
  jumped : Bool
  deriving DecidableEq, Repr

/-- What a snapshot holds of one seat: what its personal part needs (R13, R172), and the four counters of its reports (R99). -/
structure SnapSeat where
  state : SeatState
  fit : FitState
  period : Option Nat
  lastFitted : Option HubTime
  duplicates : Nat
  outOfOrder : Nat
  implausible : Nat
  resyncs : Nat
  deriving DecidableEq, Repr

/-- The pacer generator's answer at a reference instant (R155). -/
structure PacerView where
  progress : Int
  speed : Int
  deriving DecidableEq, Repr

/-- The snapshot of a sending boundary (R13), or the copy taken at RESULTS entry (R113). -/
structure Snapshot where
  instant : HubTime
  raceState : RaceState
  descriptor : Option Descriptor
  entries : List (PortId × Bool)
  linkedSeats : List (PortId × BitVec 32)
  lights : Option Nat
  timers : List Nat
  epoch : Option HubTime
  resultsRound : Option RoundNo
  seats : Vector SnapSeat 8
  cars : List SnapCar
  finishList : List FinishEntry
  standings : List StandingsEntry
  results : List CarEntry
  pacer : Option SnapCar
  pacerView : Option PacerView
  deriving DecidableEq, Repr

/-- A round computation in flight (R14, R102, R165). `ranking` is present when the boundary ranked. `addressees` are the
ports UP at the boundary that have not gone DOWN since (R14, R173). `superseded` is set when the race has entered RESULTS,
VOID or IDLE since the boundary (R102). -/
structure Computation where
  number : RoundNo
  snapshot : Snapshot
  ranking : Option (List StandingsEntry)
  drained : List Event
  overflow : Bool
  addressees : List PortId
  superseded : Bool
  startedAt : HubTime
  draw : Nat
  deriving DecidableEq, Repr

structure Assembler where
  computation : Option Computation
  results : List CarEntry
  deriving DecidableEq, Repr

/-! ## Link ports (R176) -/

/-- The stage of the current probe, or the retrain wait after a failed pass (R179 to R181). -/
inductive ProbeStage where
  | due
  | sending
  | waiting
  | passFailed
  deriving DecidableEq, Repr

structure Training where
  probe : Nat
  stage : ProbeStage
  errors : Nat
  least : Option Int
  sentAt : HubTime
  echoWait : Timer
  retrainWait : Timer
  deriving DecidableEq, Repr

/-- A request in a service buffer (R26). -/
structure Request where
  kind : ServiceKind
  order : ByteOrder
  payload : List Byte
  deriving DecidableEq, Repr

/-- A reply in its slot: the payload as written, and whether its flags carry OVERRUN (R30). -/
structure ReplySlot where
  payload : List Byte
  carriesOverrun : Bool
  deriving DecidableEq, Repr

/-- The receiver (R182): hunting, having seen 0xD3, or reading the bytes that follow the start marker. -/
inductive Receiver where
  | hunting
  | marker (stamp : HubTime) (order : ByteOrder)
  | reading (stamp : HubTime) (order : ByteOrder) (got : List Byte)
  deriving DecidableEq, Repr

/-- What is on the transmit line: filler, or the bytes of one frame from start marker to CRC (R182, R185). -/
inductive Sending where
  | filler
  | probe (bytes : List Byte)
  | reply (bytes : List Byte)
  | round (bytes : List Byte)
  deriving DecidableEq, Repr

/-- A frame that passed its check and waits to be handed on by its kind (R184). -/
inductive Handed where
  | report (m : Inbound)
  | service (k : ServiceKind) (m : Inbound)
  | echo (m : Inbound)
  deriving DecidableEq, Repr

/-- A port record. `lostSinceReply` says that a request has been discarded since the reply in the slot was written (R30);
`sendEnds` is when the last byte on the line leaves; `arrived` and `handed` are the model's own staging of a frame between
its last byte and its handling (log 9). -/
structure Port where
  link : LinkState
  lockWatch : Timer
  training : Option Training
  delay : Nat
  errorCount : Nat
  buffer : Option Request
  reply : Option ReplySlot
  round : Option (List Byte)
  overrun : Bool
  lostSinceReply : Bool
  receiver : Receiver
  sending : Sending
  sendEnds : HubTime
  arrived : Option RxFrame
  handed : Option Handed
  deriving DecidableEq, Repr

/-! ## The whole -/

/-- The hub. `resetHeld` is RESET_N low. `orderTrail` is the model's own memory of the byte orders that held at a start bit
(R19, log 29): entry k holds the order of each port as hub time left the microsecond `hubTime − 1 − k`. `freeDraws` counts the
free values drawn (the model's own, log 23), and `pending` is the queue of commands, first in first out. -/
structure State where
  resetHeld : Bool
  time : Timebase
  engine : ServiceEngine
  settings : Settings
  seats : Vector Seat 8
  pacerRecord : Option PacerState
  fits : Vector Fit 8
  cars : Vector CarRecord 8
  lapRecords : Vector LapRecord 9
  fastestLap : Option FastestLap
  finishList : List FinishEntry
  standings : List StandingsEntry
  race : Race
  pacer : PacerGenerator
  events : EventQueue
  assembler : Assembler
  ports : Vector Port 8
  orderTrail : Vector (Vector ByteOrder 8) 6
  freeDraws : Nat
  pending : List Instr
  deriving DecidableEq, Repr

/-- The hub has no fault: a bad frame is counted, a bad request is refused in its reply, a bad report is counted (R30, R87,
R183). -/
inductive Fault where
  deriving DecidableEq, Repr

/-- Why a command has no meaning. -/
inductive Refusal where
  /-- Raised by `exec` for a row that has no meaning yet; safe. -/
  | notModelled (mnemonic : String)
  deriving DecidableEq, Repr

/-! ## Reset values -/

/-- R17. -/
def Timebase.reset : Timebase :=
  { hubTime := 0, period := 16000, pendingPeriod := none, lastBoundary := none, nextBoundary := 16000,
    roundNumber := 0, roundDemand := false }

/-- The defaults of R36's table. -/
def Settings.default : Settings :=
  { roundPeriod := 16000, horizon := 100000, swapMargin := 30, jumpTolerance := 50, jumpPenalty := 5000,
    lobbyTime := 30, gridTime := 15, countdown := 5000, finishWindow := 30, raceLimit := 900, resultsHold := 10,
    minimumField := 2, stallLimit := 250, dropLimit := 5, pacerMode := .off,
    profile := [{ share := 256, speed := 2000 }] }

/-- R18: the engine holds no request, and the pointer holds port 7. -/
def ServiceEngine.reset : ServiceEngine := { pointer := 7, inService := none }

/-- R18, R135. -/
def Seat.reset : Seat :=
  { state := .vacant, stallPhase := none, recoveryRun := none, cabinet := none, gridPosition := none,
    retireReason := none, gridProgress := none, jumped := false, penalty := 0, frozenProgress := none,
    retireProgress := none, retireTime := none, duplicates := 0, outOfOrder := 0, implausible := 0, resyncs := 0,
    silenceTimer := none, dropTimer := none }

/-- R65. -/
def Fit.reset : Fit :=
  { phase := .fitNone, anchor := none, period := none, nominal := none, inGate := 0, outliers := 0, ageTimer := none }

/-- R98. -/
def CarRecord.empty : CarRecord := { latest := none, previous := none }

/-- R118. -/
def LapRecord.empty : LapRecord :=
  { highWater := none, lastCrossing := none, history := [], bestLap := none, finish := none }

/-- R39. -/
def Race.reset : Race :=
  { state := .idle, descriptor := none, entryList := [], fieldList := [], t0 := none, epoch := none, lights := none,
    resultsRound := none, seenMarks := Vector.replicate 8 none, lobbyTimer := none, gridTimer := none,
    finishWindowTimer := none, raceLimitTimer := none, resultsHoldTimer := none, voidTimer := none, pacerMode := none }

/-- R153. -/
def PacerGenerator.reset : PacerGenerator := { scaled := none, nextCrossing := none }

/-- R162. -/
def EventQueue.empty : EventQueue := { list := [], overflow := false }

/-- R17, R171. -/
def Assembler.reset : Assembler := { computation := none, results := [] }

/-- R176. The error count is 255, since a reset counts as a loss of lock. `sendEnds` is 0 (log 23). -/
def Port.reset : Port :=
  { link := .down, lockWatch := none, training := none, delay := 0, errorCount := 255, buffer := none, reply := none,
    round := none, overrun := false, lostSinceReply := false, receiver := .hunting, sending := .filler, sendEnds := 0,
    arrived := none, handed := none }

/-- The hub with RESET_N low: every block at its reset values (R17, R18, R39, R65, R98, R100, R118, R135, R153, R162, R171,
R176, R193), every port's order HIGH_FIRST up to now, its seat being VACANT (R19), and an empty command queue. -/
def State.reset : State :=
  { resetHeld := true, time := Timebase.reset, engine := ServiceEngine.reset, settings := Settings.default,
    seats := Vector.replicate 8 Seat.reset, pacerRecord := none, fits := Vector.replicate 8 Fit.reset,
    cars := Vector.replicate 8 CarRecord.empty, lapRecords := Vector.replicate 9 LapRecord.empty, fastestLap := none,
    finishList := [], standings := [], race := Race.reset, pacer := PacerGenerator.reset, events := EventQueue.empty,
    assembler := Assembler.reset, ports := Vector.replicate 8 Port.reset,
    orderTrail := Vector.replicate 6 (Vector.replicate 8 .highFirst), freeDraws := 0, pending := [] }

end Sys2Proof.Machine
end

