-- ==== Sys2Proof/Machine/Ops.lean ====
section
/-! DEFINITION. The shared operations: numbers, hub time and timers, reading and writing the records, and appending an
event. -/

namespace Sys2Proof.Machine

/-! ## Numbers (00_scope, "Rounding and width") -/

/-- The nearer limit of the range when `x` lies outside it. -/
def clampInt (lo hi x : Int) : Int := max lo (min hi x)

def clampNat (lo hi x : Nat) : Nat := max lo (min hi x)

/-- The quotient rounded toward plus infinity. -/
def ceilDiv (a b : Nat) : Nat := (a + b - 1) / b

/-- A counter raised by 1 that saturates at `limit`. -/
def bump (limit n : Nat) : Nat := min limit (n + 1)

/-- A duration in ms, in µs (R15). -/
def ofMs (n : Nat) : Nat := n * 1000

/-- A duration in s, in µs (R15). -/
def ofS (n : Nat) : Nat := n * 1000000

/-- PRE_LINE counts as −1 wherever laps are compared or used in arithmetic (00_scope). -/
def Lap.number : Lap → Int
  | .preLine => -1
  | .count k => k

/-- Round `a` is at or after round `b` (R8). -/
def roundAtOrAfter (a b : RoundNo) : Bool := decide ((a - b).toNat < 32768)

/-! ## Hub time and timers (R2, R15) -/

/-- The difference of two hub times, read signed (R2). -/
def diff (a b : HubTime) : Int := (a - b).toInt

/-- `h` moved by `n` µs, modulo 2^32. -/
def shiftTime (h : HubTime) (n : Int) : HubTime := h + BitVec.ofInt 32 n

/-- Start or restart: the expiry instant is the hub time now plus the duration (R15). -/
def startTimer (now : HubTime) (micros : Nat) : Timer := some (now + BitVec.ofNat 32 micros)

/-- Hub time has reached the expiry instant of a running timer (R15). -/
def expired (now : HubTime) : Timer → Bool
  | none => false
  | some instant => decide (0 ≤ diff now instant)

/-- The remaining time of a running timer, never negative (R15, R16). -/
def remaining (at_ : HubTime) (t : Timer) : Option Nat := t.map fun instant => (diff instant at_).toNat

/-- The hub time now (R1). -/
def State.now (s : State) : HubTime := s.time.hubTime

/-- Race time at hub time `h` (R4). It is used only where E is present; without E it is 0 (log 21). -/
def State.raceTime (s : State) (h : HubTime) : Int :=
  match s.race.epoch with
  | some e => diff h e
  | none => 0

/-! ## Seats, ports and cars -/

def allPorts : List PortId := [0, 1, 2, 3, 4, 5, 6, 7]

/-- The car of a cabinet seat. -/
def carOf (p : PortId) : CarId := p.castSucc

/-- Index 8 names the pacer. -/
def pacerCar : CarId := 8

/-- The seat of a car, none for the pacer. -/
def seatOf (c : CarId) : Option PortId := if h : c.val < 8 then some ⟨c.val, h⟩ else none

/-- Apply `f` to each of eight records. -/
def map8 {α β : Type} (f : PortId → α → β) (v : Vector α 8) : Vector β 8 :=
  #v[f 0 v[0], f 1 v[1], f 2 v[2], f 3 v[3], f 4 v[4], f 5 v[5], f 6 v[6], f 7 v[7]]

def State.seat (s : State) (p : PortId) : Seat := s.seats[p]

def State.setSeat (s : State) (p : PortId) (x : Seat) : State := { s with seats := s.seats.set p x }

def State.fit (s : State) (p : PortId) : Fit := s.fits[p]

def State.setFit (s : State) (p : PortId) (x : Fit) : State := { s with fits := s.fits.set p x }

def State.car (s : State) (p : PortId) : CarRecord := s.cars[p]

def State.setCar (s : State) (p : PortId) (x : CarRecord) : State := { s with cars := s.cars.set p x }

def State.port (s : State) (p : PortId) : Port := s.ports[p]

def State.setPort (s : State) (p : PortId) (x : Port) : State := { s with ports := s.ports.set p x }

def State.lapRecord (s : State) (c : CarId) : LapRecord := s.lapRecords[c]

def State.setLapRecord (s : State) (c : CarId) (x : LapRecord) : State :=
  { s with lapRecords := s.lapRecords.set c x }

/-- RUNNING, STALLED, FINISHED or RETIRED: a seat in the field (R38, R87). -/
def SeatState.inField : SeatState → Bool
  | .running | .stalled | .finished | .retired => true
  | .vacant | .linked | .entered | .ready => false

/-- COUNTDOWN, RACING or FINISHING: the states in which cars are judged, timed and ranked (R97, R102, R136). -/
def RaceState.live : RaceState → Bool
  | .countdown | .racing | .finishing => true
  | .idle | .lobby | .grid | .results | .void => false

def State.portUp (s : State) (p : PortId) : Bool := (s.port p).link == .up

/-- A seat's byte order: the one its cabinet declared, and HIGH_FIRST while it is VACANT (R19). -/
def Seat.order (x : Seat) : ByteOrder :=
  match x.cabinet with
  | some c => c.order
  | none => .highFirst

/-- The byte order of a port is its seat's (R19). -/
def State.orderAt (s : State) (p : PortId) : ByteOrder := (s.seat p).order

/-- L of the race descriptor; 0 without one (log 21). -/
def State.lapLength (s : State) : Nat :=
  match s.race.descriptor with
  | some d => d.lapLength
  | none => 0

/-- N of the race descriptor; 0 without one (log 21). -/
def State.lapCount (s : State) : Nat :=
  match s.race.descriptor with
  | some d => d.lapCount
  | none => 0

/-! ## The event queue (R162, R164) -/

/-- The queue has room for 32 events (R162). -/
def eventRoom : Nat := 32

/-- R164: an event joins at the tail; when the queue is full it is dropped and the overflow flag is set. -/
def EventQueue.append (q : EventQueue) (e : Event) : EventQueue :=
  if q.list.length < eventRoom then { q with list := q.list ++ [e] } else { q with overflow := true }

def appendEvent (e : Event) (s : State) : State := { s with events := s.events.append e }

/-! ## Fixed durations (R3, R61, R177, R179, R181) -/

def anchorAgeLimit : Nat := ofS 600
def voidTime : Nat := ofS 3
def lockWatchTime : Nat := ofMs 50
def echoWaitTime : Nat := ofMs 2
def retrainWaitTime : Nat := ofS 1

/-- One byte takes 5 µs on the line (R175). -/
def byteTime : Nat := 5

/-! ## Commands and reset -/

/-- While RESET_N is low every block is held at its reset values (R193), so a command changes nothing; otherwise its effect
is `f`. Log 2. -/
def whileRunning (f : State → State) (s : State) : Host.Outcome State Fault Refusal :=
  .next (if s.resetHeld then s else f s)

end Sys2Proof.Machine
end

