-- ==== Sys2Proof/Machine/ClockFit.lean ====
section
/-! DEFINITION. The clock fit unit: the first report (R67), classification (R68), prediction and the gate (R70, R71), the
in-gate update (R72 to R74), outliers (R75, R76), resync (R77, R78), the resets of a fit (R3, R80), and the expiry of the
anchor age timer. -/

namespace Sys2Proof.Machine

/-- The classes of R79. -/
inductive FitClass where
  | first
  | inGate
  | outlier
  | resync
  | duplicate
  | outOfOrder
  deriving DecidableEq, Repr

/-- What the fit hands on (R79): the record, the class, and the fitted time unless the report is discarded. -/
structure FitResult where
  fit : Fit
  kind : FitClass
  fitted : Option HubTime
  deriving DecidableEq, Repr

/-- G, kφ and kp of R71, by whether the fit tracks. -/
def gateOf (tracking : Bool) : Int := if tracking then 1500 else 4000
def phaseGain (tracking : Bool) : Nat := if tracking then 3 else 1
def periodGain (tracking : Bool) : Nat := if tracking then 6 else 3

/-- R73: the band Pn − Pn/32 to Pn + Pn/32. -/
def clampPeriod (nominal : Nat) (p : Int) : Nat :=
  (clampInt ((nominal - nominal / 32 : Nat) : Int) ((nominal + nominal / 32 : Nat) : Int) p).toNat

/-- R67: a first report. -/
def Fit.first (f : Fit) (frame : FrameCount) (observed now : HubTime) : FitResult :=
  { fit :=
      { f with
        phase := .fitSettling, anchor := some { frame := frame, time := observed }, period := f.nominal, inGate := 0
        outliers := 0, ageTimer := startTimer now anchorAgeLimit }
    kind := .first
    fitted := some observed }

/-- R78: a resync; the period is kept. -/
def Fit.resync (f : Fit) (frame : FrameCount) (observed now : HubTime) : FitResult :=
  { fit :=
      { f with
        phase := .fitSettling, anchor := some { frame := frame, time := observed }, inGate := 0, outliers := 0
        ageTimer := startTimer now anchorAgeLimit }
    kind := .resync
    fitted := some observed }

/-- R70: the hub time predicted for a frame `advance` frames after the anchor. -/
def predict (a : Anchor) (period advance : Nat) : HubTime :=
  a.time + BitVec.ofNat 32 ((advance * period + 128) / 256)

/-- R72, R74: an in-gate update with error `e`. -/
def Fit.inGateUpdate (f : Fit) (frame : FrameCount) (advance : Nat) (predicted : HubTime) (e : Int) (now : HubTime) :
    FitResult :=
  let tracking := f.phase == .fitTracking
  let time := shiftTime predicted (Int.tdiv e (2 ^ phaseGain tracking))
  let step := Int.tdiv (e * 256) (advance * 2 ^ periodGain tracking)
  let run := bump 15 f.inGate
  { fit :=
      { f with
        phase := if tracking || decide (8 ≤ run) then .fitTracking else .fitSettling
        anchor := some { frame := frame, time := time }
        period := f.period.map fun p => clampPeriod (f.nominal.getD 0) ((p : Int) + step)
        inGate := run
        outliers := 0
        ageTimer := startTimer now anchorAgeLimit }
    kind := .inGate
    fitted := some time }

/-- R75: an outlier that the fit coasts over. -/
def Fit.coast (f : Fit) (frame : FrameCount) (predicted now : HubTime) : FitResult :=
  { fit :=
      { f with
        anchor := some { frame := frame, time := predicted }, inGate := 0, outliers := f.outliers + 1
        ageTimer := startTimer now anchorAgeLimit }
    kind := .outlier
    fitted := some predicted }

/-- R70 to R76: a normal report. -/
def Fit.normal (f : Fit) (a : Anchor) (frame : FrameCount) (advance : Nat) (observed now : HubTime) : FitResult :=
  let predicted := predict a (f.period.getD 0) advance
  let e := diff observed predicted
  let gate := gateOf (f.phase == .fitTracking)
  if -gate ≤ e ∧ e ≤ gate then f.inGateUpdate frame advance predicted e now
  else if 2 ≤ f.outliers then f.resync frame observed now
  else f.coast frame predicted now

/-- R67 to R79: a report with frame count `frame` and observation time `observed`. -/
def Fit.take (f : Fit) (frame : FrameCount) (observed now : HubTime) : FitResult :=
  match f.phase, f.anchor with
  | .fitNone, _ => f.first frame observed now
  | _, none => f.first frame observed now
  | _, some a =>
    let advance := (frame - a.frame).toNat
    if advance = 0 then { fit := f, kind := .duplicate, fitted := none }
    else if advance ≤ 16 then f.normal a frame advance observed now
    else if advance ≤ 32767 then f.resync frame observed now
    else { fit := f, kind := .outOfOrder, fitted := none }

/-- R69, R78, R92: the seat counter that a class raises. -/
def Seat.countClass (x : Seat) : FitClass → Seat
  | .duplicate => { x with duplicates := bump 255 x.duplicates }
  | .outOfOrder => { x with outOfOrder := bump 255 x.outOfOrder }
  | .resync => { x with resyncs := bump 255 x.resyncs }
  | .first | .inGate | .outlier => x

/-- R3, R80: back to FIT_NONE with P written as Pn; the anchor age timer is stopped. -/
def Fit.toNone (f : Fit) : Fit :=
  { f with phase := .fitNone, anchor := none, period := f.nominal, inGate := 0, outliers := 0, ageTimer := none }

/-- R21, R80: an accepted HELLO declares the nominal frame period, in µs. -/
def Fit.declare (f : Fit) (framePeriod : Nat) : Fit := { f with nominal := some (framePeriod * 256) }.toNone

/-- R3: the anchor age timer of a seat's fit expires. -/
def anchorAgeExpires (p : PortId) (s : State) : State :=
  if expired s.now (s.fit p).ageTimer then s.setFit p (s.fit p).toNone else s

/-- ANCHOR_AGE_EXPIRY. -/
def execAnchorAgeExpiry (p : PortId) (s : State) : Host.Outcome State Fault Refusal :=
  whileRunning (anchorAgeExpires p) s

end Sys2Proof.Machine
end

