-- ==== Sys2Proof/Machine/Operands.lean ====
section
/-! DEFINITION. Reading inbound payloads: multi-byte fields in a seat's byte order, and the layouts of R190. -/

namespace Sys2Proof.Machine

/-- The number a run of bytes writes in a byte order (R19). -/
def readNat (order : ByteOrder) (bytes : List Byte) : Nat :=
  match order with
  | .highFirst => bytes.foldl (fun acc b => acc * 256 + b.toNat) 0
  | .lowFirst => bytes.foldr (fun b acc => acc * 256 + b.toNat) 0

/-- The field of `width` bytes at `offset` of a payload. -/
def readField (order : ByteOrder) (payload : List Byte) (offset width : Nat) : Nat :=
  readNat order ((payload.drop offset).take width)

/-- A 16-bit field read as two's complement (R189). -/
def signed16 (n : Nat) : Int := (BitVec.ofNat 16 n).toInt

/-! ## REPORT (R83, R190) -/

structure ReportFields where
  frame : FrameCount
  roundSeen : RoundNo
  lap : Lap
  distance : Nat
  speed : Int
  flags : CarFlags
  deriving DecidableEq, Repr

/-- The payload length of each report form (R188). -/
def ReportForm.length : ReportForm → Nat
  | .full => 10
  | .short => 8

/-- The fields of a REPORT. The word at offset 5 is one 24-bit field: bits 0 to 19 the distance, then PIT, OFF_COURSE,
WRONG_WAY and PRE_LINE; the lap code is not read when PRE_LINE is set. `speed` is read in the FULL form only. -/
def readReport (m : Inbound) : ReportFields :=
  let word := readField m.order m.payload 5 3
  { frame := BitVec.ofNat 16 (readField m.order m.payload 0 2)
    roundSeen := BitVec.ofNat 16 (readField m.order m.payload 2 2)
    lap := if word.testBit 23 then .preLine else .count (readField m.order m.payload 4 1)
    distance := word % 2 ^ 20
    speed := signed16 (readField m.order m.payload 8 2)
    flags := { pit := word.testBit 20, offCourse := word.testBit 21, wrongWay := word.testBit 22 } }

/-! ## HELLO (R20, R190) -/

/-- The byte order a HELLO's marker declares, read HIGH_FIRST; none for any other marker (R20). A payload too short to
hold a marker declares none. -/
def markerOrder (payload : List Byte) : Option ByteOrder :=
  match payload with
  | a :: b :: _ =>
    let marker := readNat .highFirst [a, b]
    if marker = 0x5A3C then some .highFirst else if marker = 0x3C5A then some .lowFirst else none
  | _ => none

/-- The code of a report form (R188). -/
def formOfCode (n : Nat) : Option ReportForm :=
  if n = 0 then some .full else if n = 1 then some .short else none

/-! ## ENTER (R40, R190) -/

def readDescriptor (order : ByteOrder) (payload : List Byte) : Descriptor :=
  { track := readField order payload 0 2, lapLength := readField order payload 2 3,
    lapCount := readField order payload 5 1 }

/-- The ranges of R40. -/
def Descriptor.inRange (d : Descriptor) : Bool :=
  decide (d.track ≤ 65535) && decide (10000 ≤ d.lapLength) && decide (d.lapLength ≤ 1048575) &&
    decide (1 ≤ d.lapCount) && decide (d.lapCount ≤ 99)

/-! ## SETUP (R34, R36, R189, R190) -/

/-- An item of a SETUP: a setting 0 to 14 with its value, or a pacer profile as sent (the shares of segments 1 to n − 1 and
the n speeds). -/
inductive SetupItem where
  | value (number value : Nat)
  | profile (shares speeds : List Nat)
  deriving DecidableEq, Repr

def SetupItem.number : SetupItem → Nat
  | .value k _ => k
  | .profile _ _ => 15

/-- `n` fields of `width` bytes each. -/
def readMany (order : ByteOrder) (width : Nat) : Nat → List Byte → List Nat
  | 0, _ => []
  | n + 1, bytes => readNat order (bytes.take width) :: readMany order width n (bytes.drop width)

/-- R189: the items of a SETUP payload, or none where an item's setting number exceeds 15, its segment count lies outside 1
to 8, or the payload ends within an item. `fuel` bounds the number of items. -/
def parseSetup (order : ByteOrder) : Nat → List Byte → Option (List SetupItem)
  | _, [] => some []
  | 0, _ :: _ => none
  | fuel + 1, number :: rest =>
    if number.toNat ≤ 14 then
      if rest.length < 4 then none
      else (parseSetup order fuel (rest.drop 4)).map
        (SetupItem.value number.toNat (readNat order (rest.take 4)) :: ·)
    else if number.toNat = 15 then
      match rest with
      | [] => none
      | count :: body =>
        let n := count.toNat
        if n < 1 ∨ 8 < n ∨ body.length < (n - 1) + 2 * n then none
        else (parseSetup order fuel (body.drop ((n - 1) + 2 * n))).map
          (SetupItem.profile (readMany order 1 (n - 1) body) (readMany order 2 n (body.drop (n - 1))) :: ·)
    else none

/-! ## PROBE and ECHO (R179) -/

/-- The payload of probe `k`: its number, then pattern bytes (k × 37 + j × 11) modulo 256 for j from 0 to 31 (R179). -/
def probePayload (k : Nat) : List Byte :=
  BitVec.ofNat 8 k :: (List.range 32).map fun j => BitVec.ofNat 8 (k * 37 + j * 11)

end Sys2Proof.Machine
end

