-- ==== Sys2Proof/Machine/Flags.lean ====
section
/-! DEFINITION. The codes of named values (R188) and the flag bits of hub frames (R191). -/

namespace Sys2Proof.Machine

/-! ## Codes (R188) -/

def serviceCode : ServiceKind → Nat
  | .hello => 0x21
  | .enter => 0x22
  | .ready => 0x23
  | .withdraw => 0x24
  | .query => 0x25
  | .setup => 0x26

def reportCode : Byte := 0x10
def echoCode : Byte := 0x30
def roundCode : Byte := 0x40
def replyCode : Byte := 0x41
def probeCode : Byte := 0x42

/-- The service kind of a kind byte, none for the other kinds (R184, R188). -/
def serviceOfCode (kind : Byte) : Option ServiceKind :=
  if kind = 0x21 then some .hello
  else if kind = 0x22 then some .enter
  else if kind = 0x23 then some .ready
  else if kind = 0x24 then some .withdraw
  else if kind = 0x25 then some .query
  else if kind = 0x26 then some .setup
  else none

def SeatState.code : SeatState → Nat
  | .vacant => 0
  | .linked => 1
  | .entered => 2
  | .ready => 3
  | .running => 4
  | .stalled => 5
  | .finished => 6
  | .retired => 7

def RaceState.code : RaceState → Nat
  | .idle => 0
  | .lobby => 1
  | .grid => 2
  | .countdown => 3
  | .racing => 4
  | .finishing => 5
  | .results => 6
  | .void => 7

def FitState.code : FitState → Nat
  | .fitNone => 0
  | .fitSettling => 1
  | .fitTracking => 2

def LinkState.code : LinkState → Nat
  | .down => 0
  | .training => 1
  | .up => 2

def ReportForm.code : ReportForm → Nat
  | .full => 0
  | .short => 1

def PacerMode.code : PacerMode → Nat
  | .off => 0
  | .running => 1
  | .ranked => 2

def pacerModeOfCode (n : Nat) : Option PacerMode :=
  if n = 0 then some .off else if n = 1 then some .running else if n = 2 then some .ranked else none

/-- The result code of a reply: ACCEPTED, or REFUSED with its reason. -/
def resultCode : Option Reason → Nat
  | none => 0
  | some .notLinked => 1
  | some .wrongState => 2
  | some .closed => 3
  | some .mismatch => 4
  | some .notSynced => 5
  | some .badValue => 6
  | some .seatHeld => 7

/-- The reason code of a RETIRE event (R191). -/
def RetireReason.code : RetireReason → Nat
  | .linkLost => 1
  | .withdrawn => 2
  | .notReady => 3

/-! ## Flag bits (R191) -/

def bit (b : Bool) (k : Nat) : Nat := if b then 2 ^ k else 0

/-- The flags byte of a REPLY: bit 0 CLAMPED, bit 1 OVERRUN. -/
def replyFlags (clamped overrun : Bool) : Nat := bit clamped 0 + bit overrun 1

/-- Bits 0 to 9 of a car entry's word (R191). -/
def EntryFlags.bits (f : EntryFlags) : Nat :=
  bit f.stale 0 + bit f.stalled 1 + bit f.recovering 2 + bit f.jumped 3 + bit f.finished 4 + bit f.retired 5 +
    bit f.pacer 6 + bit f.car.pit 7 + bit f.car.offCourse 8 + bit f.car.wrongWay 9

/-- The word at offset 2 of a car entry: the flags, then which optional items are present and whether the car has a
position (R191). -/
def CarEntry.word (e : CarEntry) : Nat :=
  e.flags.bits + bit e.speed.isSome 10 + bit e.finish.isSome 11 + bit e.best.isSome 12 + bit e.ranked 13

/-- Byte 0 of an event: its kind in bits 0 to 3 and its flags or reason in bits 4 and 5 (R191). -/
def Event.kindByte : Event → Nat
  | .lap _ _ _ fastest unverified => 1 + bit fastest 4 + bit unverified 5
  | .finish _ _ _ jumped unverified => 2 + bit jumped 4 + bit unverified 5
  | .jump _ _ => 3
  | .stall _ _ rejoin => 4 + bit rejoin 4
  | .resume _ _ => 5
  | .retire _ _ reason => 6 + reason.code * 16
  | .pass _ _ _ => 7

/-- The status word of a ROUND (R191). -/
def roundStatus (race : RaceState) (overflow resultsMark raceTimePresent : Bool) (eventCount : Nat) : Nat :=
  race.code + bit (race != .idle) 3 + bit overflow 4 + bit resultsMark 5 + bit raceTimePresent 6 + eventCount * 2 ^ 7

/-- Byte 0 of a ROUND's personal part: the seat, its state, and its fit state, 3 for a VACANT seat (R188, R191). -/
def personalByte (p : PortId) (state : SeatState) (fit : FitState) : Nat :=
  p.val + state.code * 8 + (if state = .vacant then 3 else fit.code) * 64

end Sys2Proof.Machine
end

