-- ==== Sys2Proof/Machine/Frames.lean ====
section
/-! DEFINITION. Writing frames: fields in a byte order (R189), the CRC and the frame around a payload (R182), and the layout
of a REPLY (R191). -/

namespace Sys2Proof.Machine

/-! ## Fields -/

/-- The low `width` bytes of a number, high byte first. -/
def highFirstBytes : Nat → Nat → List Byte
  | 0, _ => []
  | width + 1, n => BitVec.ofNat 8 (n / 256 ^ width) :: highFirstBytes width n

/-- A field written in a byte order, negative values in two's complement (R189). -/
def Field.bytes (order : ByteOrder) (f : Field) : List Byte :=
  let high := highFirstBytes f.width (f.value % 256 ^ f.width).toNat
  match order with
  | .highFirst => high
  | .lowFirst => high.reverse

def writeFields (order : ByteOrder) (fields : List Field) : List Byte := fields.flatMap (Field.bytes order)

def byteField (n : Nat) : Field := { width := 1, value := n }
def wordField (n : Nat) : Field := { width := 2, value := n }
def longField (n : Int) : Field := { width := 4, value := n }

/-- An absent QUERY item (R191). -/
def absentItem : List Field := [byteField 0]

/-- A present QUERY item: the presence byte 1, then its value (R191). -/
def presentItem (fields : List Field) : List Field := byteField 1 :: fields

def optionItem {α : Type} (f : α → List Field) : Option α → List Field
  | none => absentItem
  | some x => presentItem (f x)

/-! ## CRC and frame (R182) -/

/-- One bit through x^16 + x^12 + x^5 + 1. -/
def crcBit (crc : BitVec 16) (b : Bool) : BitVec 16 :=
  if (crc.getLsbD 15) != b then (crc <<< 1) ^^^ 0x1021#16 else crc <<< 1

/-- One byte, most significant bit first. -/
def crcByte (crc : BitVec 16) (b : Byte) : BitVec 16 :=
  [7, 6, 5, 4, 3, 2, 1, 0].foldl (fun c i => crcBit c (b.getLsbD i)) crc

/-- The CRC over a run of bytes, from 0xFFFF, without inversion. -/
def crc16 (bytes : List Byte) : BitVec 16 := bytes.foldl crcByte 0xFFFF#16

/-- The CRC of a frame: over the kind byte, the length byte and the payload. -/
def frameCrc (kind : Byte) (payload : List Byte) : BitVec 16 :=
  crc16 (kind :: BitVec.ofNat 8 payload.length :: payload)

/-- A frame's bytes on the line: start marker, kind, length, payload, CRC high byte first. -/
def wireBytes (kind : Byte) (payload : List Byte) : List Byte :=
  0xD3#8 :: 0x2B#8 :: kind :: BitVec.ofNat 8 payload.length ::
    (payload ++ highFirstBytes 2 (frameCrc kind payload).toNat)

/-- What a transmitter sends between frames (R175). -/
def fillerByte : Byte := 0x00#8

/-- The bytes of what is on the transmit line (R175, R185). -/
def Sending.bytes : Sending → List Byte
  | .filler => [fillerByte]
  | .probe bytes => bytes
  | .reply bytes => bytes
  | .round bytes => bytes

/-- How long a run of bytes takes on the line (R175). -/
def lineTime (bytes : List Byte) : BitVec 32 := BitVec.ofNat 32 (bytes.length * byteTime)

/-! ## REPLY (R30, R191) -/

def Reply.payload (r : Reply) (overrun : Bool) (order : ByteOrder) : List Byte :=
  writeFields order
    (byteField (serviceCode r.kind) :: byteField (resultCode r.reason) :: byteField (replyFlags r.clamped overrun) :: r.body)

end Sys2Proof.Machine
end

