-- ==== Sys2Proof/Machine/Pacer.lean ====
section
/-! DEFINITION. The pacer generator: scaling the profile at COUNTDOWN entry (R153), and the pacer's progress and speed at any
race time (R155). -/

namespace Sys2Proof.Machine

/-- R153: the segments from the one that starts at `start` cm and `startTime` µs on. The last segment takes what is left of
the lap. -/
def scaleSegments (lapLength : Nat) : List ProfileSegment → Nat → Nat → List Segment
  | [], _, _ => []
  | [g], start, startTime =>
    [{ length := lapLength - start, start := start, speed := g.speed,
       time := ceilDiv ((lapLength - start) * 1000000) g.speed, startTime := startTime }]
  | g :: rest, start, startTime =>
    let length := lapLength * g.share / 256
    let time := ceilDiv (length * 1000000) g.speed
    { length := length, start := start, speed := g.speed, time := time, startTime := startTime } ::
      scaleSegments lapLength rest (start + length) (startTime + time)

/-- The scaled segment table and Tp, the sum of the segment times (R153). -/
def scaleProfile (profile : List ProfileSegment) (lapLength : Nat) : ScaledProfile :=
  let segments := scaleSegments lapLength profile 0 0
  { segments := segments, lapTime := (segments.map (·.time)).sum }

/-- R155: the pacer's progress and speed at race time `t`. -/
def ScaledProfile.view (table : ScaledProfile) (lapLength lapCount : Nat) (t : Int) : PacerView :=
  if t ≤ 0 then { progress := 0, speed := 0 }
  else
    let k := t.toNat / table.lapTime
    let r := t.toNat % table.lapTime
    if lapCount ≤ k then { progress := lapCount * lapLength, speed := 0 }
    else
      match table.segments.find? (fun g => r < g.startTime + g.time) with
      | some g => { progress := k * lapLength + (g.start + g.speed * (r - g.startTime) / 1000000), speed := g.speed }
      | none => { progress := k * lapLength, speed := 0 }

/-- The generator answers only while its table is present (R155). -/
def State.pacerViewAt (s : State) (t : Int) : Option PacerView :=
  s.pacer.scaled.map fun table => table.view s.lapLength s.lapCount t

end Sys2Proof.Machine
end

