-- ==== Sys2Proof/Machine/Standings.lean ====
section
/-! DEFINITION. The snapshot (R13), projection (R103 to R105), the ranking (R106 to R112), and car entries (R160, R169,
R170). -/

namespace Sys2Proof.Machine

/-! ## The snapshot (R13) -/

/-- The seat state under which a car of the field is ranked and shown; the pacer record's for the pacer (R151). -/
def State.carSeatState (s : State) (c : CarId) : SeatState :=
  match seatOf c with
  | some p => (s.seat p).state
  | none =>
    match s.pacerRecord with
    | some .running => .running
    | some .finished => .finished
    | none => .vacant

def State.snapCar (s : State) (c : CarId) : SnapCar :=
  let lap := s.lapRecord c
  match seatOf c with
  | some p =>
    let x := s.seat p
    { car := c, state := x.state, phase := x.stallPhase, latest := (s.car p).latest, highWater := lap.highWater,
      frozen := x.frozenProgress, retireProgress := x.retireProgress, finish := lap.finish, best := lap.bestLap,
      jumped := x.jumped }
  | none =>
    { car := c, state := s.carSeatState c, phase := none, latest := none, highWater := lap.highWater, frozen := none,
      retireProgress := none, finish := lap.finish, best := lap.bestLap, jumped := false }

def State.snapSeat (s : State) (p : PortId) : SnapSeat :=
  let fit := s.fit p
  let x := s.seat p
  { state := x.state, fit := fit.phase
    period := if fit.phase = .fitNone then none else fit.period
    lastFitted := fit.anchor.map (·.time)
    duplicates := x.duplicates, outOfOrder := x.outOfOrder, implausible := x.implausible, resyncs := x.resyncs }

/-- The remaining times of the controller timers that belong to the race state and run, in the order ROUND lists them
(R63, R167, R191). -/
def State.controllerTimers (s : State) (at_ : HubTime) : List Nat :=
  let timers : List Timer :=
    match s.race.state with
    | .lobby => [s.race.lobbyTimer]
    | .grid => [s.race.gridTimer]
    | .racing => [s.race.raceLimitTimer]
    | .finishing => [s.race.raceLimitTimer, s.race.finishWindowTimer]
    | .results => [s.race.resultsHoldTimer]
    | .void => [s.race.voidTimer]
    | .idle | .countdown => []
  timers.filterMap (remaining at_)

/-- The linked seats with their cabinet ids, in seat order (R13, R168). -/
def State.linkedSeats (s : State) : List (PortId × BitVec 32) :=
  allPorts.filterMap fun p =>
    let x := s.seat p
    if x.state = .linked then x.cabinet.map fun c => (p, c.id) else none

/-- The copy of everything a ROUND reports, at reference instant `b` (R13). The pacer generator's answer is taken at race
time b − E, and the record of an unranked pacer in COUNTDOWN, RACING, FINISHING and RESULTS. -/
def State.snapshot (s : State) (b : HubTime) : Snapshot :=
  { instant := b
    raceState := s.race.state
    descriptor := s.race.descriptor
    entries := s.race.entryList.map fun p => (p, (s.seat p).state == .ready)
    linkedSeats := s.linkedSeats
    lights := s.race.lights
    timers := s.controllerTimers b
    epoch := s.race.epoch
    resultsRound := s.race.resultsRound
    seats := #v[s.snapSeat 0, s.snapSeat 1, s.snapSeat 2, s.snapSeat 3, s.snapSeat 4, s.snapSeat 5, s.snapSeat 6,
      s.snapSeat 7]
    cars := s.race.fieldList.map s.snapCar
    finishList := s.finishList
    standings := s.standings
    results := s.assembler.results
    pacer :=
      if s.race.pacerMode = some .running ∧ (s.race.state.live || s.race.state == .results) = true then
        some (s.snapCar pacerCar)
      else none
    pacerView := if s.race.epoch.isSome then s.pacerViewAt (s.raceTime b) else none }

def Snapshot.lapLength (snap : Snapshot) : Nat :=
  match snap.descriptor with
  | some d => d.lapLength
  | none => 0

def Snapshot.lapCount (snap : Snapshot) : Nat :=
  match snap.descriptor with
  | some d => d.lapCount
  | none => 0

/-- B − E, or 0 while E is absent (log 21). -/
def Snapshot.raceTime (snap : Snapshot) : Int :=
  match snap.epoch with
  | some e => diff snap.instant e
  | none => 0

def Snapshot.carOf? (snap : Snapshot) (c : CarId) : Option SnapCar := snap.cars.find? fun x => x.car == c

/-! ## Projection (R103 to R105) -/

/-- The clamp of R105: −L to N × L − 1. -/
def clampProgress (lapLength lapCount : Nat) (p : Int) : Int :=
  clampInt (-(lapLength : Int)) ((lapCount : Int) * lapLength - 1) p

/-- R103: the projected progress of a RUNNING car's latest state, and whether it is stale. -/
def projectCar (horizon lapLength lapCount : Nat) (b : HubTime) (cs : CarState) : Int × Bool :=
  let age := diff b cs.time
  let dt := clampInt 0 horizon age
  (clampProgress lapLength lapCount (cs.progress + Int.tdiv (cs.speed * dt) 1000000), decide ((horizon : Int) < age))

/-- A car's ranking progress and stale flag (R103 to R105). A car that is neither STALLED, FINISHED nor RETIRED and has no
latest state stands at −L and is stale (R104). -/
def Snapshot.rankingEntry (snap : Snapshot) (horizon : Nat) (x : SnapCar) : StandingsEntry :=
  let lapLength := snap.lapLength
  let lapCount := snap.lapCount
  let fixed (p : Int) : StandingsEntry :=
    { car := x.car, projected := some (clampProgress lapLength lapCount p), stale := false }
  match x.state with
  | .finished => { car := x.car, projected := some ((lapCount : Int) * lapLength), stale := false }
  | .stalled => fixed (x.frozen.getD (-(lapLength : Int)))
  | .retired => fixed (x.retireProgress.getD (-(lapLength : Int)))
  | .vacant | .linked | .entered | .ready | .running =>
    if x.car = pacerCar then fixed ((snap.pacerView.map (·.progress)).getD 0)
    else
      match x.latest with
      | some cs =>
        let (p, stale) := projectCar horizon lapLength lapCount snap.instant cs
        { car := x.car, projected := some p, stale := stale }
      | none => { car := x.car, projected := some (-(lapLength : Int)), stale := true }

/-! ## The three groups (R106 to R112) -/

/-- A car being ranked: its standings entry and whether it is STALLED. -/
structure Contender where
  entry : StandingsEntry
  stalled : Bool
  deriving DecidableEq, Repr

def Contender.progress (c : Contender) : Int := c.entry.projected.getD 0

/-- R108: one car beats another when it is not STALLED and leads it by more than the swap margin. -/
def Contender.beats (margin : Nat) (a b : Contender) : Bool :=
  !a.stalled && decide (b.progress + margin < a.progress)

/-- R109 step 2: `c` placed at the bottom of the list and moved up past each car it beats. `below` is the list so far,
bottom first. Answers the list, bottom first, and the cars passed, nearest first. -/
def climb (margin : Nat) (c : Contender) : List Contender → List Contender × List CarId
  | [] => ([c], [])
  | x :: above =>
    if c.beats margin x then
      let (rest, passed) := climb margin c above
      (x :: rest, x.entry.car :: passed)
    else (c :: x :: above, [])

/-- R109: the running group rebuilt by insertion in the order given, from the list so far (bottom first). Answers the group,
bottom first, and the moves made, in order. -/
def insertAll (margin : Nat) : List Contender → List Contender → List Contender × List (CarId × CarId)
  | [], built => (built, [])
  | c :: rest, built =>
    let (built', passed) := climb margin c built
    let (final, moves) := insertAll margin rest built'
    (final, passed.map (fun d => (c.entry.car, d)) ++ moves)

/-- R111: the greatest retire progress first, then the lower seat number. -/
def Contender.retiredBefore (a b : Contender) : Bool :=
  decide (b.progress < a.progress) || (a.progress == b.progress && decide (a.entry.car ≤ b.entry.car))

def insertRetired (c : Contender) : List Contender → List Contender
  | [] => [c]
  | x :: rest => if c.retiredBefore x then c :: x :: rest else x :: insertRetired c rest

/-- R102, R106 to R112: the field ranked from a snapshot, with the previous standings' order; the new standings and the
moves, each a passer and the car passed. -/
def Snapshot.rank (snap : Snapshot) (horizon margin : Nat) (previous : List CarId) :
    List StandingsEntry × List (CarId × CarId) :=
  let contender (x : SnapCar) : Contender :=
    { entry := snap.rankingEntry horizon x, stalled := x.state == .stalled }
  let cars := previous.filterMap snap.carOf?
  let finished := (snap.finishList.filterMap fun f => snap.carOf? f.car).filter (·.state == .finished)
  let running := cars.filter fun x => x.state != .finished && x.state != .retired
  let retired := cars.filter (·.state == .retired)
  let (group, moves) := insertAll margin (running.map contender) []
  ((finished.map contender ++ group.reverse ++ (retired.map contender).foldr insertRetired []).map (·.entry), moves)

/-! ## Car entries (R160, R169, R170) -/

/-- A car's entry from a snapshot and its ranking (R169, R170); a ranked pacer's speed is the generator's and it never
carries STALE (R160). -/
def Snapshot.carEntry (snap : Snapshot) (e : StandingsEntry) : CarEntry :=
  match snap.carOf? e.car with
  | none =>
    { car := e.car, laps := .preLine, ranked := true, progress := e.projected.getD 0, speed := none, finish := none,
      best := none
      flags := { stale := e.stale, stalled := false, recovering := false, jumped := false, finished := false,
                 retired := false, pacer := e.car == pacerCar,
                 car := { pit := false, offCourse := false, wrongWay := false } } }
  | some x =>
    let isPacer := e.car == pacerCar
    { car := e.car
      laps := x.highWater.getD .preLine
      ranked := true
      progress := e.projected.getD 0
      speed := if isPacer then snap.pacerView.map (·.speed) else x.latest.map (·.speed)
      finish := if x.state = .finished then x.finish.map (·.corrected) else none
      best := x.best
      flags :=
        { stale := e.stale && !isPacer
          stalled := x.state == .stalled
          recovering := x.phase == some .recovering
          jumped := x.jumped
          finished := x.state == .finished
          retired := x.state == .retired
          pacer := isPacer
          car := (x.latest.map (·.flags)).getD { pit := false, offCourse := false, wrongWay := false } } }

/-- The entry of an unranked pacer, built at the reference instant (R117, R160). -/
def Snapshot.pacerEntry (snap : Snapshot) : List CarEntry :=
  match snap.pacer with
  | none => []
  | some x =>
    [{ car := pacerCar
       laps := x.highWater.getD .preLine
       ranked := false
       progress := (snap.pacerView.map (·.progress)).getD 0
       speed := snap.pacerView.map (·.speed)
       finish := none
       best := x.best
       flags :=
         { stale := false, stalled := false, recovering := false, jumped := false, finished := x.state == .finished,
           retired := false, pacer := true, car := { pit := false, offCourse := false, wrongWay := false } } }]

/-! ## What other blocks read (R114) -/

/-- A car's last projected progress, as it stands in its standings entry. -/
def State.lastProjected (s : State) (c : CarId) : Option Int :=
  (s.standings.find? fun e => e.car == c).bind (·.projected)

/-- The PASS events of a ranking, in the order its moves are made (R110). -/
def appendPasses (raceTime : Int) (moves : List (CarId × CarId)) (s : State) : State :=
  moves.foldl (fun t m => appendEvent (.pass m.1 m.2 raceTime) t) s

/-- The standings of a countdown: the field list in order, with no projected progress and no stale flag (R101). -/
def initialStandings (field : List CarId) : List StandingsEntry :=
  field.map fun c => { car := c, projected := none, stale := false }

end Sys2Proof.Machine
end

