-- ==== Sys2Proof/Machine/Race.lean ====
section
/-! DEFINITION. The race controller: entry into IDLE, RESULTS, VOID and COUNTDOWN, closing the lobby and the grid, leaving the
entry list, the checks that end a race, and the expiries of the controller timers. -/

namespace Sys2Proof.Machine

/-! ## Seats leaving the race -/

/-- A seat becomes VACANT: its cabinet id and parameters become absent (R25, R62). -/
def Seat.vacate (x : Seat) : Seat := { x with state := .vacant, cabinet := none }

/-- R62 step 3 and R60: the race fields return to their reset values, and both health timers are cancelled. -/
def Seat.clearRaceFields (x : Seat) : Seat :=
  { x with
    stallPhase := none, recoveryRun := none, gridPosition := none, retireReason := none, gridProgress := none,
    jumped := false, penalty := 0, frozenProgress := none, retireProgress := none, retireTime := none,
    silenceTimer := none, dropTimer := none }

/-- R59, R61, R62: a seat the race still holds becomes LINKED if its link is UP and VACANT if it is not; every seat loses its
race fields. -/
def Seat.release (up : Bool) (x : Seat) : Seat :=
  match x.state with
  | .vacant => x.clearRaceFields
  | .linked => x.clearRaceFields
  | .entered | .ready | .running | .stalled | .finished | .retired =>
    if up then { x.clearRaceFields with state := .linked } else x.clearRaceFields.vacate

/-! ## Entry into IDLE (R62) -/

/-- The computation in flight may no longer install its standings (R102). -/
def Assembler.supersede (a : Assembler) : Assembler :=
  { a with computation := a.computation.map fun c => { c with superseded := true } }

/-- R62. The settings, the fits, the counters, the ports and the round demand flag are kept. -/
def enterIdle (s : State) : State :=
  { s with
    race := Race.reset
    seats := map8 (fun p x => x.release (s.portUp p)) s.seats
    cars := Vector.replicate 8 CarRecord.empty
    pacerRecord := none
    pacer := PacerGenerator.reset
    lapRecords := Vector.replicate 9 LapRecord.empty
    fastestLap := none
    finishList := []
    standings := []
    events := EventQueue.empty
    assembler := { s.assembler.supersede with results := [] } }

/-! ## RESULTS (R57 to R59) -/

/-- A cabinet seat of the field that is still counted: it has not withdrawn in RESULTS (R58). -/
def State.counted (s : State) (p : PortId) : Bool :=
  s.race.fieldList.contains (carOf p) && (s.seat p).state.inField

/-- R58: every counted seat whose link is UP has its seen mark set. -/
def State.allSeen (s : State) : Bool :=
  allPorts.all fun p => !(s.counted p && s.portUp p) || s.race.seenMarks[p] == some true

/-- R58, R59: in RESULTS, once the condition holds, the results are released and the race enters IDLE. -/
def checkRelease (s : State) : State :=
  if s.race.state = .results ∧ s.allSeen = true then enterIdle s else s

/-- The previous standings of the final ranking: those of the computation in flight, or the live ones (R113). -/
def State.recentStandings (s : State) : List StandingsEntry :=
  match s.assembler.computation with
  | some c => if c.superseded then s.standings else c.ranking.getD s.standings
  | none => s.standings

/-- R113, R171: the final standings at reference instant `h`, frozen with the results entries. -/
def finalStandings (h : HubTime) (s : State) : State :=
  let snap := s.snapshot h
  let (entries, moves) :=
    snap.rank s.settings.horizon s.settings.swapMargin (s.recentStandings.map (·.car))
  let t := appendPasses (s.raceTime h) moves s
  { t with
    standings := entries
    assembler := { t.assembler.supersede with results := entries.map snap.carEntry } }

/-- R57: the race stands in RESULTS under k_res; the controller timers, the health timers of the field and the pacer's
crossings stop. -/
def haltRace (resultsRound : RoundNo) (s : State) : State :=
  { s with
    race := { s.race with
      state := .results, resultsRound := some resultsRound, lights := none, finishWindowTimer := none,
      raceLimitTimer := none }
    seats := map8 (fun p x =>
      if s.race.fieldList.contains (carOf p) then { x with silenceTimer := none, dropTimer := none } else x) s.seats
    pacer := { s.pacer with nextCrossing := none } }

/-- R57, R58: every counted seat's seen mark is clear and the results-hold timer starts. -/
def startResultsHold (s : State) : State :=
  { s with
    race := { s.race with
      seenMarks := map8 (fun p _ => if s.counted p then some false else none) s.race.seenMarks
      resultsHoldTimer := startTimer s.now (ofS s.settings.resultsHold) } }

/-- R57, with k_res given: the number of the next boundary, or of the boundary being handled (R53). -/
def enterResults (resultsRound : RoundNo) (s : State) : State :=
  checkRelease (startResultsHold (finalStandings s.now (haltRace resultsRound s)))

/-- The number of the next round boundary (R8). -/
def State.nextRound (s : State) : RoundNo := s.time.roundNumber + 1

/-- Every car of the field is FINISHED or RETIRED (R56). -/
def State.everyoneDone (s : State) : Bool :=
  s.race.fieldList.all fun c =>
    match s.carSeatState c with
    | .finished | .retired => true
    | .vacant | .linked | .entered | .ready | .running | .stalled => false

/-- R56, everyone done, in RACING or FINISHING. -/
def checkEveryoneDone (resultsRound : RoundNo) (s : State) : State :=
  if (s.race.state = .racing ∨ s.race.state = .finishing) ∧ s.everyoneDone = true then enterResults resultsRound s else s

/-- R55: the race enters FINISHING and the finish-window timer starts. -/
def enterFinishing (s : State) : State :=
  { s with
    race := { s.race with
      state := .finishing
      finishWindowTimer := startTimer s.now (ofS s.settings.finishWindow) } }

/-- The race controller is told of a finish (R53, R55, R56). -/
def finishNotice (s : State) : State :=
  match s.race.state with
  | .racing => checkEveryoneDone s.nextRound (enterFinishing s)
  | .finishing => checkEveryoneDone s.nextRound s
  | .idle | .lobby | .grid | .countdown | .results | .void => s

/-! ## VOID (R61) -/

/-- R61, R101: every controller timer and the silence timer of every READY seat is cancelled, the standings are emptied and
the void timer starts. -/
def enterVoid (s : State) : State :=
  { s with
    race := { s.race with
      state := .void, lights := none, lobbyTimer := none, gridTimer := none, finishWindowTimer := none,
      raceLimitTimer := none, resultsHoldTimer := none, voidTimer := startTimer s.now voidTime }
    seats := map8 (fun _ x => if x.state = .ready then { x with silenceTimer := none } else x) s.seats
    standings := []
    assembler := s.assembler.supersede }

/-- R54: in COUNTDOWN, once every cabinet seat of the field is RETIRED, the race enters VOID. -/
def checkCountdownVoid (s : State) : State :=
  if s.race.state = .countdown ∧
      (allPorts.all fun p => !s.race.fieldList.contains (carOf p) || (s.seat p).state == .retired) = true then
    enterVoid s
  else s

/-- The race controller is told of a retirement: R54 in COUNTDOWN, R56 in RACING or FINISHING. -/
def retirementNotice (s : State) : State := checkEveryoneDone s.nextRound (checkCountdownVoid s)

/-! ## COUNTDOWN (R50, R51) -/

/-- R7: the hub time of the first boundary at or after `h`. -/
def Timebase.firstBoundary (t : Timebase) (h : HubTime) : HubTime :=
  let period := t.pendingPeriod.getD t.period
  let ahead := diff h t.nextBoundary
  if ahead ≤ 0 then t.nextBoundary
  else t.nextBoundary + BitVec.ofNat 32 (ceilDiv ahead.toNat period * period)

/-- R119: the lap high-water captured from the latest car state. -/
def captureHighWater (latest : Option CarState) : Lap :=
  match latest with
  | none => .preLine
  | some cs =>
    match cs.lap with
    | .preLine => .preLine
    | .count _ => .count 0

/-- A lap timing record at COUNTDOWN entry (R119). -/
def LapRecord.start (highWater : Lap) : LapRecord := { LapRecord.empty with highWater := some highWater }

/-- The place of an item in a list, counted from 1 (00_scope, "Lists"). -/
def placeIn {α : Type} [DecidableEq α] (x : α) (l : List α) : Option Nat :=
  if x ∈ l then some (l.idxOf x + 1) else none

/-- R50, R51, R95, R101, R119, R151, R153, R156. -/
def enterCountdown (s : State) : State :=
  let list := s.race.entryList
  let mode := s.settings.pacerMode
  let field := list.map carOf ++ (if mode = .ranked then [pacerCar] else [])
  let table := scaleProfile s.settings.profile s.lapLength
  let records := map8 (fun p r => if list.contains p then LapRecord.start (captureHighWater (s.car p).latest) else r)
    (Vector.replicate 8 LapRecord.empty)
  { s with
    race := { s.race with
      state := .countdown
      t0 := some s.now
      epoch := some (s.time.firstBoundary (s.now + BitVec.ofNat 32 (ofMs s.settings.countdown)))
      fieldList := field
      entryList := []
      lights := some 0
      gridTimer := none
      pacerMode := some mode }
    seats := map8 (fun p x =>
      if list.contains p then
        { x with
          state := .running
          gridPosition := placeIn p list
          gridProgress := (s.car p).latest.map (·.progress) }
      else x) s.seats
    pacerRecord := if mode = .off then none else some .running
    pacer :=
      if mode = .off then s.pacer
      else { scaled := some table, nextCrossing := some { lap := 1, raceTime := table.lapTime } }
    lapRecords := records.push (if mode = .off then LapRecord.empty else LapRecord.start (.count 0))
    standings := initialStandings field }

/-! ## The entry list (R41, R44, R45) -/

/-- The seat leaves the entry list (R41). -/
def leaveEntryList (p : PortId) (s : State) : State :=
  { s with race := { s.race with entryList := s.race.entryList.filter (· != p) } }

/-- R49 step 1 for one entrant: it becomes LINKED, loses its car state, and a RETIRE event with NOT_READY is appended. -/
def dropNotReady (p : PortId) (s : State) : State :=
  if (s.seat p).state = .ready then s
  else
    appendEvent (.retire p none .notReady)
      (((leaveEntryList p s).setSeat p { s.seat p with state := .linked }).setCar p CarRecord.empty)

/-- R49: the grid closes. -/
def closeGrid (s : State) : State :=
  let s1 := s.race.entryList.foldl (fun t p => dropNotReady p t) s
  let s2 : State := { s1 with race := { s1.race with gridTimer := none } }
  if s2.settings.minimumField ≤ s2.race.entryList.length then enterCountdown s2 else enterVoid s2

/-- R47, R49: the grid closes once every seat on a non-empty entry list is READY. -/
def checkAllReady (s : State) : State :=
  if s.race.entryList ≠ [] ∧ (s.race.entryList.all fun p => (s.seat p).state == .ready) = true then closeGrid s else s

/-- R45: the consequences of a departure from the entry list, as it now stands. -/
def departure (s : State) : State :=
  match s.race.state with
  | .lobby => if s.race.entryList = [] then enterIdle s else s
  | .grid => if s.race.entryList = [] then enterVoid s else checkAllReady s
  | .idle | .countdown | .racing | .finishing | .results | .void => s

/-- R46: the lobby closes. -/
def closeLobby (s : State) : State :=
  if s.settings.minimumField ≤ s.race.entryList.length then
    { s with
      race := { s.race with
        state := .grid, lobbyTimer := none, gridTimer := startTimer s.now (ofS s.settings.gridTime) } }
  else enterVoid s

/-! ## Expiries of the controller timers (R15, R63) -/

/-- R46. -/
def lobbyExpires (s : State) : State :=
  if expired s.now s.race.lobbyTimer then
    let t : State := { s with race := { s.race with lobbyTimer := none } }
    if t.race.state = .lobby then closeLobby t else t
  else s

/-- R49. -/
def gridExpires (s : State) : State :=
  if expired s.now s.race.gridTimer then
    let t : State := { s with race := { s.race with gridTimer := none } }
    if t.race.state = .grid then closeGrid t else t
  else s

/-- R56. -/
def finishWindowExpires (s : State) : State :=
  if expired s.now s.race.finishWindowTimer then
    let t : State := { s with race := { s.race with finishWindowTimer := none } }
    if t.race.state = .finishing then enterResults t.nextRound t else t
  else s

/-- R56. -/
def raceLimitExpires (s : State) : State :=
  if expired s.now s.race.raceLimitTimer then
    let t : State := { s with race := { s.race with raceLimitTimer := none } }
    if t.race.state = .racing ∨ t.race.state = .finishing then enterResults t.nextRound t else t
  else s

/-- R58, R59. -/
def resultsHoldExpires (s : State) : State :=
  if expired s.now s.race.resultsHoldTimer then
    let t : State := { s with race := { s.race with resultsHoldTimer := none } }
    if t.race.state = .results then enterIdle t else t
  else s

/-- R61, R62. -/
def voidExpires (s : State) : State :=
  if expired s.now s.race.voidTimer then
    let t : State := { s with race := { s.race with voidTimer := none } }
    if t.race.state = .void then enterIdle t else t
  else s

/-- LOBBY_EXPIRY. -/
def execLobbyExpiry (s : State) : Host.Outcome State Fault Refusal := whileRunning lobbyExpires s

/-- GRID_EXPIRY. -/
def execGridExpiry (s : State) : Host.Outcome State Fault Refusal := whileRunning gridExpires s

/-- FINISH_WINDOW_EXPIRY. -/
def execFinishWindowExpiry (s : State) : Host.Outcome State Fault Refusal := whileRunning finishWindowExpires s

/-- RACE_LIMIT_EXPIRY. -/
def execRaceLimitExpiry (s : State) : Host.Outcome State Fault Refusal := whileRunning raceLimitExpires s

/-- RESULTS_HOLD_EXPIRY. -/
def execResultsHoldExpiry (s : State) : Host.Outcome State Fault Refusal := whileRunning resultsHoldExpires s

/-- VOID_EXPIRY. -/
def execVoidExpiry (s : State) : Host.Outcome State Fault Refusal := whileRunning voidExpires s

end Sys2Proof.Machine
end

