-- ==== Sys2Proof/Machine/Health.lean ====
section
/-! DEFINITION. Seat health: stall, recovery, readmission, retirement and rejoin (R135 to R149), and the expiries of the
silence and drop timers. -/

namespace Sys2Proof.Machine

/-- R139: the progress at which a stalling seat freezes. -/
def State.freezeAt (s : State) (p : PortId) : Int :=
  let fallback : Int := ((s.car p).latest.map (·.progress)).getD (-(s.lapLength : Int))
  clampProgress s.lapLength s.lapCount ((s.lastProjected (carOf p)).getD fallback)

/-- R138, R147: a RUNNING seat becomes STALLED, by silence in phase SILENT or by a rejoin in phase RECOVERING with run 0; its
drop timer starts and a STALL event is appended. -/
def stallSeat (p : PortId) (rejoin : Bool) (s : State) : State :=
  appendEvent (.stall p (s.raceTime s.now) rejoin)
    (s.setSeat p
      { s.seat p with
        state := .stalled
        stallPhase := some (if rejoin then .recovering else .silent)
        recoveryRun := if rejoin then some 0 else none
        frozenProgress := some (s.freezeAt p)
        silenceTimer := none
        dropTimer := startTimer s.now (ofS s.settings.dropLimit) })

/-- R143: readmission. -/
def readmit (p : PortId) (s : State) : State :=
  appendEvent (.resume p (s.raceTime s.now))
    (s.setSeat p
      { s.seat p with
        state := .running, stallPhase := none, recoveryRun := none, frozenProgress := none, dropTimer := none
        silenceTimer := startTimer s.now (ofMs s.settings.stallLimit) })

/-- R60, R145: the seat becomes RETIRED with a reason, a retire progress and the race time now; its stall fields become
absent, its timers are cancelled, a RETIRE event is appended, and the race controller is told. -/
def retireSeat (p : PortId) (reason : RetireReason) (progress : Int) (s : State) : State :=
  let t := s.raceTime s.now
  retirementNotice
    (appendEvent (.retire p (some t) reason)
      (s.setSeat p
        { s.seat p with
          state := .retired, stallPhase := none, recoveryRun := none, frozenProgress := none
          retireReason := some reason, retireProgress := some progress, retireTime := some t
          silenceTimer := none, dropTimer := none }))

/-- R137: the silence timer of a seat expires. -/
def silenceExpires (p : PortId) (s : State) : State :=
  if expired s.now (s.seat p).silenceTimer then
    let t := s.setSeat p { s.seat p with silenceTimer := none }
    match (t.seat p).state with
    | .ready => if t.race.state = .grid then t.setSeat p { t.seat p with state := .entered } else t
    | .running => if t.race.state.live then stallSeat p false t else t
    | .vacant | .linked | .entered | .stalled | .finished | .retired => t
  else s

/-- R145: the drop timer of a seat expires. -/
def dropExpires (p : PortId) (s : State) : State :=
  if expired s.now (s.seat p).dropTimer then
    let t := s.setSeat p { s.seat p with dropTimer := none }
    if (t.seat p).state = .stalled ∧ t.race.state.live = true then
      retireSeat p .linkLost ((t.seat p).frozenProgress.getD (-(t.lapLength : Int))) t
    else t
  else s

/-- R147: a HELLO with the seat's own cabinet id from a RUNNING or STALLED seat in COUNTDOWN, RACING or FINISHING. A seat
already STALLED keeps its frozen progress and its drop timer, which starts only if it is stopped (R144). -/
def rejoin (p : PortId) (s : State) : State :=
  let x := s.seat p
  match x.state with
  | .running => stallSeat p true s
  | .stalled =>
    s.setSeat p
      { x with
        stallPhase := some .recovering
        recoveryRun := some 0
        dropTimer :=
          match x.dropTimer with
          | some t => some t
          | none => startTimer s.now (ofS s.settings.dropLimit) }
  | .vacant | .linked | .entered | .ready | .finished | .retired => s

/-- SILENCE_EXPIRY. -/
def execSilenceExpiry (p : PortId) (s : State) : Host.Outcome State Fault Refusal := whileRunning (silenceExpires p) s

/-- DROP_EXPIRY. -/
def execDropExpiry (p : PortId) (s : State) : Host.Outcome State Fault Refusal := whileRunning (dropExpires p) s

end Sys2Proof.Machine
end

