-- ==== Sys2Proof/Machine/Service.lean ====
section
/-! DEFINITION. The service engine: the service buffer (R26), the arbiter and the take (R27, R28), HELLO (R20 to R24), ENTER,
READY and WITHDRAW (R31, R42 to R47, R60), and the completion of a service (R28, R30). -/

namespace Sys2Proof.Machine

/-! ## Replies -/

def Reply.accept (k : ServiceKind) (clamped : Bool) (body : List Field) : Reply :=
  { kind := k, reason := none, clamped := clamped, body := body, order := none }

def Reply.refuse (k : ServiceKind) (reason : Reason) (body : List Field) : Reply :=
  { kind := k, reason := some reason, clamped := false, body := body, order := none }

/-- The payload of every reply to ENTER, READY or WITHDRAW: the seat's state, its entry position or 0, and the race state, as
the request left them (03, "ENTER"; R64, R191). -/
def State.raceReply (s : State) (p : PortId) : List Field :=
  [byteField (s.seat p).state.code, byteField ((placeIn p s.race.entryList).getD 0), byteField s.race.state.code]

/-! ## HELLO (R20 to R24) -/

/-- The payload of every HELLO reply: the seat number and the port's present link delay D (R20). -/
def State.helloBody (s : State) (p : PortId) : List Field := [byteField p.val, wordField (s.port p).delay]

/-- A new cabinet at the seat: LINKED, counters 0, car state dropped (R22, R23). -/
def newCabinet (p : PortId) (s : State) : State :=
  (s.setSeat p
    { s.seat p with
      state := .linked, silenceTimer := none, duplicates := 0, outOfOrder := 0, implausible := 0, resyncs := 0 }).setCar
    p CarRecord.empty

/-- R21 to R24, R147: an accepted HELLO writes the parameters, resets the fit and changes the seat by its state. -/
def acceptHello (p : PortId) (c : Cabinet) (s : State) : State :=
  let x := s.seat p
  let same := x.cabinet.map (·.id) == some c.id
  let s1 := (s.setSeat p { x with cabinet := some c }).setFit p ((s.fit p).declare c.framePeriod)
  match x.state with
  | .vacant => newCabinet p s1
  | .linked => if same then s1 else newCabinet p s1
  | .entered | .ready =>
    if same then s1.setSeat p { s1.seat p with state := .entered, silenceTimer := none }
    else departure (newCabinet p (leaveEntryList p s1))
  | .running | .stalled => if s.race.state.live then rejoin p s1 else s1
  | .finished | .retired => s1

/-- R20, R24, R29: the checks of a HELLO, in their order. -/
def decideHello (p : PortId) (q : Request) (s : State) : State × Reply :=
  let marker := markerOrder q.payload
  let refuse (reason : Reason) : State × Reply := (s, { Reply.refuse .hello reason (s.helloBody p) with order := marker })
  if q.payload.length ≠ 9 then refuse .badValue
  else
    match marker with
    | none => refuse .badValue
    | some order =>
      let id := BitVec.ofNat 32 (readField order q.payload 2 4)
      let declared := readField order q.payload 6 2
      let framePeriod := clampNat 12000 25000 declared
      if id = 0 then refuse .badValue
      else
        match formOfCode (readField order q.payload 8 1) with
        | none => refuse .badValue
        | some form =>
          if (s.seat p).state.inField = true ∧ (s.seat p).cabinet.map (·.id) ≠ some id then refuse .seatHeld
          else
            (acceptHello p { id := id, framePeriod := framePeriod, form := form, order := order } s,
              { Reply.accept .hello (declared != framePeriod) (s.helloBody p) with order := some order })

/-! ## ENTER (R40 to R43) -/

/-- The seat joins the entry list at its tail and becomes ENTERED (R41). -/
def joinEntryList (p : PortId) (s : State) : State :=
  let t := s.setSeat p { s.seat p with state := .entered }
  { t with race := { t.race with entryList := t.race.entryList ++ [p] } }

/-- R42: an ENTER accepted in IDLE creates the lobby. -/
def openLobby (p : PortId) (d : Descriptor) (s : State) : State :=
  joinEntryList p
    { s with
      race := { s.race with
        state := .lobby, descriptor := some d, entryList := []
        lobbyTimer := startTimer s.now (ofS s.settings.lobbyTime) } }

/-- R43: an ENTER accepted in LOBBY; the eighth entrant closes the lobby. -/
def joinLobby (p : PortId) (s : State) : State :=
  let t := joinEntryList p s
  if t.race.entryList.length = 8 then closeLobby t else t

def acceptWith (k : ServiceKind) (p : PortId) (t : State) : State × Reply := (t, Reply.accept k false (t.raceReply p))

def refuseWith (k : ServiceKind) (p : PortId) (reason : Reason) (s : State) : State × Reply :=
  (s, Reply.refuse k reason (s.raceReply p))

/-- R29, R40, R42, R43. -/
def decideEnter (p : PortId) (q : Request) (s : State) : State × Reply :=
  let d := readDescriptor q.order q.payload
  if (s.seat p).state = .vacant then refuseWith .enter p .notLinked s
  else if q.payload.length ≠ 6 then refuseWith .enter p .badValue s
  else
    match s.race.state with
    | .idle => if d.inRange then acceptWith .enter p (openLobby p d s) else refuseWith .enter p .badValue s
    | .lobby =>
      if (s.seat p).state ≠ .linked then refuseWith .enter p .wrongState s
      else if !d.inRange then refuseWith .enter p .badValue s
      else if s.race.descriptor ≠ some d then refuseWith .enter p .mismatch s
      else acceptWith .enter p (joinLobby p s)
    | .grid | .countdown | .racing | .finishing | .results | .void => refuseWith .enter p .closed s

/-! ## READY (R47) -/

/-- R47: the seat becomes READY, its silence timer starts, and the grid closes once every entrant is READY. -/
def acceptReady (p : PortId) (s : State) : State :=
  checkAllReady
    (s.setSeat p
      { s.seat p with state := .ready, silenceTimer := startTimer s.now (ofMs s.settings.stallLimit) })

/-- R29, R47. -/
def decideReady (p : PortId) (q : Request) (s : State) : State × Reply :=
  if (s.seat p).state = .vacant then refuseWith .ready p .notLinked s
  else if q.payload.length ≠ 0 then refuseWith .ready p .badValue s
  else if s.race.state = .grid ∧ (s.seat p).state = .entered then
    if (s.fit p).phase = .fitTracking then acceptWith .ready p (acceptReady p s) else refuseWith .ready p .notSynced s
  else refuseWith .ready p .wrongState s

/-! ## WITHDRAW (R44, R60) -/

/-- R44: an entrant leaves the entry list and becomes LINKED. -/
def withdrawEntrant (p : PortId) (s : State) : State :=
  let t := leaveEntryList p s
  departure ((t.setSeat p { t.seat p with state := .linked, silenceTimer := none }).setCar p CarRecord.empty)

/-- R60: the retire progress of a withdrawal. -/
def State.withdrawProgress (s : State) (p : PortId) : Int :=
  let behind : Int := -(s.lapLength : Int)
  let x := s.seat p
  if x.state = .stalled then x.frozenProgress.getD behind
  else (s.lastProjected (carOf p)).getD (((s.car p).latest.map (·.progress)).getD behind)

/-- R60, R98: a field seat withdrawn in RESULTS becomes LINKED at once, keeps its grid position, loses every other race field and
its car state (log 11), and is no longer counted; the release is checked. -/
def withdrawInResults (p : PortId) (s : State) : State :=
  let x := s.seat p
  checkRelease
    ((s.setSeat p { x.clearRaceFields with state := .linked, gridPosition := x.gridPosition }).setCar p CarRecord.empty)

/-- R29, R44, R60. -/
def decideWithdraw (p : PortId) (q : Request) (s : State) : State × Reply :=
  if (s.seat p).state = .vacant then refuseWith .withdraw p .notLinked s
  else if q.payload.length ≠ 0 then refuseWith .withdraw p .badValue s
  else
    match s.race.state with
    | .lobby | .grid =>
      if (s.seat p).state = .entered ∨ (s.seat p).state = .ready then acceptWith .withdraw p (withdrawEntrant p s)
      else refuseWith .withdraw p .wrongState s
    | .countdown | .racing | .finishing =>
      if (s.seat p).state = .running ∨ (s.seat p).state = .stalled then
        acceptWith .withdraw p (retireSeat p .withdrawn (s.withdrawProgress p) s)
      else refuseWith .withdraw p .wrongState s
    | .results =>
      if (s.seat p).state.inField then acceptWith .withdraw p (withdrawInResults p s)
      else refuseWith .withdraw p .wrongState s
    | .idle | .void => refuseWith .withdraw p .wrongState s

/-! ## The arbiter and the take (R27, R28) -/

/-- A port is eligible when its service buffer holds a request and its reply slot is empty (R27). -/
def State.eligible (s : State) (p : PortId) : Bool := (s.port p).buffer.isSome && (s.port p).reply.isNone

/-- pointer + 1, pointer + 2 and so on, modulo 8, through the pointer itself last (R27). -/
def arbiterOrder (pointer : PortId) : List PortId :=
  [pointer + 1, pointer + 2, pointer + 3, pointer + 4, pointer + 5, pointer + 6, pointer + 7, pointer]

/-- The port and the request the engine takes next, if it is free and a port is eligible (R27). -/
def State.nextRequest (s : State) : Option (PortId × Request) :=
  if s.engine.inService.isSome then none
  else
    match (arbiterOrder s.engine.pointer).find? s.eligible with
    | some p => (s.port p).buffer.map fun q => (p, q)
    | none => none

/-- Taking a request empties that port's buffer and sets the pointer to that port (R27). -/
def takeFrom (p : PortId) (s : State) : State :=
  let t := s.setPort p { s.port p with buffer := none }
  { t with engine := { t.engine with pointer := p } }

/-- The decided reply stands with the engine until the service completes (R28). -/
def inServiceAfter (p : PortId) (now : HubTime) (d : State × Reply) : State :=
  { d.1 with
    engine := { d.1.engine with inService := some { port := p, reply := d.2, takenAt := now, draw := d.1.freeDraws } }
    freeDraws := d.1.freeDraws + 1 }

/-- R27, R28, R31: the engine takes the next request, if it is one that `wanted` accepts, and carries it out at the take.
Otherwise it waits. -/
def serve (wanted : Request → Bool) (decision : PortId → Request → State → State × Reply) (s : State) : State :=
  match s.nextRequest with
  | some (p, q) => if wanted q then inServiceAfter p s.now (decision p q (takeFrom p s)) else s
  | none => s

/-- HELLO. -/
def execHello (s : State) : Host.Outcome State Fault Refusal :=
  whileRunning (serve (fun q => q.kind == .hello) decideHello) s

/-- ENTER. -/
def execEnter (s : State) : Host.Outcome State Fault Refusal :=
  whileRunning (serve (fun q => q.kind == .enter) decideEnter) s

/-- READY. -/
def execReady (s : State) : Host.Outcome State Fault Refusal :=
  whileRunning (serve (fun q => q.kind == .ready) decideReady) s

/-- WITHDRAW. -/
def execWithdraw (s : State) : Host.Outcome State Fault Refusal :=
  whileRunning (serve (fun q => q.kind == .withdraw) decideWithdraw) s

/-! ## Arrival and completion (R26, R28, R30) -/

/-- R26 for one port in UP: an empty buffer takes the request; a full one discards it and sets the overrun flag. -/
def Port.takeIn (q : Port) (r : Request) : Port :=
  match q.buffer with
  | none => { q with buffer := some r }
  | some _ => { q with overrun := true, lostSinceReply := true }

/-- R26, R184: a service request that passed its check arrives. -/
def requestArrives (p : PortId) (k : ServiceKind) (m : Inbound) (s0 : State) : State :=
  let s := s0.setPort p { s0.port p with handed := none }
  match (s.port p).link with
  | .up => s.setPort p ((s.port p).takeIn { kind := k, order := m.order, payload := m.payload })
  | .training | .down => s

/-- SERVICE_REQUEST_ARRIVAL. -/
def execServiceRequestArrival (p : PortId) (k : ServiceKind) (m : Inbound) (s : State) :
    Host.Outcome State Fault Refusal :=
  whileRunning (requestArrives p k m) s

/-- The reply written into its slot, carrying the overrun flag as it stands (R30). -/
def Port.writeReply (q : Port) (r : Reply) (order : ByteOrder) : Port :=
  { q with
    reply := some { payload := r.payload q.overrun order, carriesOverrun := q.overrun }
    lostSinceReply := false }

/-- R11, R28, R30: the service completes; an ACCEPTED result sets the round demand flag, and the reply is written, or
discarded if the port is not UP. -/
def serviceCompletes (s : State) : State :=
  match s.engine.inService with
  | none => s
  | some v =>
    let t : State :=
      { s with
        engine := { s.engine with inService := none }
        time := { s.time with roundDemand := s.time.roundDemand || v.reply.reason.isNone } }
    if t.portUp v.port then
      t.setPort v.port ((t.port v.port).writeReply v.reply (v.reply.order.getD (t.orderAt v.port)))
    else t

/-- SERVICE_COMPLETE. -/
def execServiceComplete (s : State) : Host.Outcome State Fault Refusal := whileRunning serviceCompletes s

end Sys2Proof.Machine
end

