-- ==== Sys2Proof/Machine/Query.lean ====
section
/-! DEFINITION. QUERY (R32, R33): the entries of the seven tables, and the takes of the seven kinds of QUERY. -/

namespace Sys2Proof.Machine

/-! ## Items (R191) -/

/-- A code or value up to 255 takes one byte. -/
def byteItem : Option Nat → List Field := optionItem fun n => [byteField n]

/-- A round number or track id takes two bytes. -/
def wordItem : Option Nat → List Field := optionItem fun n => [wordField n]

/-- Everything else takes four bytes. -/
def longItem : Option Int → List Field := optionItem fun n => [longField n]

/-- A list is a count byte followed by its members. -/
def listItem : Option (List Field) → List Field := optionItem fun l => byteField l.length :: l

def timeItem (h : Option HubTime) : List Field := longItem (h.map fun x => (x.toNat : Int))

def boolCode (b : Bool) : Nat := if b then 1 else 0

/-! ## The entries (R33) -/

/-- The entry list is present in LOBBY and GRID, and in a VOID entered from them (03, "The race record"). -/
def State.visibleEntryList (s : State) : Option (List PortId) :=
  match s.race.state with
  | .lobby | .grid => some s.race.entryList
  | .void => if s.race.epoch.isNone then some s.race.entryList else none
  | .idle | .countdown | .racing | .finishing | .results => none

/-- RACE, index 0. A list of no running timers is absent (log 13). -/
def raceEntry (s : State) : List Field :=
  let timers := s.controllerTimers s.now
  byteItem (some s.race.state.code) ++
    optionItem (fun (d : Descriptor) => [wordField d.track, { width := 3, value := d.lapLength }, byteField d.lapCount])
      s.race.descriptor ++
    listItem (s.visibleEntryList.map fun l => l.map fun p => byteField p.val) ++
    listItem (if s.race.epoch.isSome then some (s.race.fieldList.map fun c => byteField c.val) else none) ++
    timeItem s.race.epoch ++ timeItem s.race.t0 ++
    listItem (if timers = [] then none else some (timers.map fun (n : Nat) => longField n)) ++
    wordItem (s.race.resultsRound.map (·.toNat)) ++
    optionItem (fun (f : FastestLap) => [byteField f.car.val, byteField f.lap, longField f.time]) s.fastestLap

/-- The code of a byte order, which the manual does not give (log 12). -/
def orderCode : ByteOrder → Byte
  | .highFirst => Config.highFirstCode
  | .lowFirst => Config.lowFirstCode

/-- The code of a stall phase, which the manual does not give (log 12). -/
def phaseCode : StallPhase → Byte
  | .silent => Config.silentCode
  | .recovering => Config.recoveringCode

/-- SEAT 0 to 7, its items in the order of R33. R33 gives no order to the four counters; they stand as the seat record's table has
them: duplicates, out-of-order, implausible, resyncs (DESIGN CHOICE, log 32). -/
def seatEntry (s : State) (p : PortId) : List Field :=
  let x := s.seat p
  byteItem (some x.state.code) ++ byteItem (x.stallPhase.map fun f => (phaseCode f).toNat) ++ byteItem x.recoveryRun ++
    longItem (x.cabinet.map fun c => (c.id.toNat : Int)) ++ longItem (x.cabinet.map fun c => (c.framePeriod : Int)) ++
    byteItem (x.cabinet.map fun c => c.form.code) ++ byteItem (x.cabinet.map fun c => (orderCode c.order).toNat) ++
    byteItem (placeIn p s.race.entryList) ++ byteItem x.gridPosition ++ byteItem (x.retireReason.map (·.code)) ++
    longItem x.retireProgress ++ longItem x.retireTime ++ byteItem (some (boolCode x.jumped)) ++
    longItem (some (x.penalty : Int)) ++ byteItem (some x.duplicates) ++ byteItem (some x.outOfOrder) ++
    byteItem (some x.implausible) ++ byteItem (some x.resyncs)

/-- SEAT 8, the pacer: its seat state where the record has one, no cabinet, counters 0 (R33, R151). -/
def pacerSeatEntry (s : State) : List Field :=
  byteItem (s.pacerRecord.map fun _ => (s.carSeatState pacerCar).code) ++ byteItem none ++ byteItem none ++
    longItem none ++ longItem none ++ byteItem none ++ byteItem none ++ byteItem none ++ byteItem none ++
    byteItem none ++ longItem none ++ longItem none ++ byteItem (some (boolCode false)) ++ longItem (some 0) ++
    byteItem (some 0) ++ byteItem (some 0) ++ byteItem (some 0) ++ byteItem (some 0)

/-- FIT 0 to 7. In FIT_NONE Fa, A and P are absent. -/
def fitEntry (s : State) (p : PortId) : List Field :=
  let f := s.fit p
  byteItem (some f.phase.code) ++ longItem (f.anchor.map fun a => (a.frame.toNat : Int)) ++
    timeItem (f.anchor.map (·.time)) ++
    longItem (if f.phase = .fitNone then none else f.period.map fun n : Nat => (n : Int)) ++
    longItem (f.nominal.map fun n : Nat => (n : Int)) ++ byteItem (some f.inGate) ++ byteItem (some f.outliers)

/-- LINK 0 to 7. -/
def linkEntry (s : State) (p : PortId) : List Field :=
  let q := s.port p
  byteItem (some q.link.code) ++ wordItem (some q.delay) ++ byteItem (some q.errorCount)

/-- LAPS: the lap time of lap `k` and its UNVERIFIED mark; absent for a lap not completed. -/
def lapsEntry (s : State) (c : CarId) (k : Nat) : List Field :=
  let entry := (s.lapRecord c).history[k - 1]?
  longItem (entry.map (·.time)) ++ byteItem (entry.map fun e => boolCode e.unverified)

/-- FINISH: the entry at a position; absent beyond the present length. Positions are final in RESULTS and provisional before
(R130); the codes are not given (log 12). -/
def finishEntryAt (s : State) (position : Nat) : List Field :=
  let entry := s.finishList[position - 1]?
  byteItem (entry.map fun e => e.car.val) ++ longItem (entry.map (·.raw)) ++ longItem (entry.map (·.corrected)) ++
    byteItem (entry.map fun _ =>
      (if s.race.state = .results then Config.finalCode else Config.provisionalCode).toNat)

/-- The value of settings 0 to 13. -/
def Settings.get (s : Settings) : Nat → Nat
  | 0 => s.roundPeriod
  | 1 => s.horizon
  | 2 => s.swapMargin
  | 3 => s.jumpTolerance
  | 4 => s.jumpPenalty
  | 5 => s.lobbyTime
  | 6 => s.gridTime
  | 7 => s.countdown
  | 8 => s.finishWindow
  | 9 => s.raceLimit
  | 10 => s.resultsHold
  | 11 => s.minimumField
  | 12 => s.stallLimit
  | 13 => s.dropLimit
  | _ => 0

/-- Settings whose range lies within 255 take one byte, the others four (R191, log 13). -/
def settingItem (k : Nat) (value : Nat) : List Field :=
  if k = 5 ∨ k = 6 ∨ k = 8 ∨ k = 10 ∨ k = 11 ∨ k = 13 then byteItem (some value) else longItem (some (value : Int))

/-- PARAM 0 to 15. -/
def paramEntry (s : State) (k : Nat) : List Field :=
  if k = 15 then
    let segments := s.settings.profile
    byteItem (some segments.length) ++
      (segments.dropLast.flatMap fun g => byteItem (some g.share)) ++
      longItem (segments.getLast?.map fun g => (g.share : Int)) ++
      segments.flatMap fun g => longItem (some (g.speed : Int))
  else if k = 14 then byteItem (some s.settings.pacerMode.code)
  else if k = 0 then
    settingItem 0 s.settings.roundPeriod ++ longItem (some (s.time.period : Int)) ++
      longItem (s.time.pendingPeriod.map fun n : Nat => (n : Int))
  else settingItem k (s.settings.get k)

/-! ## The checks (R29, R32) -/

/-- The port or seat of an index 0 to 7. -/
def portOfIndex (n : Nat) : Option PortId := if h : n < 8 then some ⟨n, h⟩ else none

/-- The car of an index 0 to 8. -/
def carOfIndex (n : Nat) : Option CarId := if h : n < 9 then some ⟨n, h⟩ else none

/-- The byte at an offset of a payload. -/
def byteAt (payload : List Byte) (offset : Nat) : Nat := readField .highFirst payload offset 1

/-- R29, R32: a QUERY of one table. `entry` answers none for an index outside the table's range. A table code that names none
of the seven is refused BAD_VALUE whatever the length (R189). -/
def decideQuery (table length : Nat) (entry : List Byte → State → Option (List Field)) (p : PortId) (q : Request)
    (s : State) : State × Reply :=
  if (s.seat p).state = .vacant then (s, Reply.refuse .query .notLinked [])
  else if q.payload.length ≠ length ∨ byteAt q.payload 0 ≠ table then (s, Reply.refuse .query .badValue [])
  else
    match entry q.payload s with
    | none => (s, Reply.refuse .query .badValue [])
    | some items =>
      (s, Reply.accept .query false (byteField table :: byteField (byteAt q.payload 1) :: items))

/-- A QUERY of a table, or one whose payload names none of the seven tables, which any QUERY step takes (log 17). -/
def asksTable (table : Nat) (q : Request) : Bool :=
  q.kind == .query && (q.payload.isEmpty || byteAt q.payload 0 == table || decide (7 ≤ byteAt q.payload 0))

def queryRaceItems (payload : List Byte) (s : State) : Option (List Field) :=
  if byteAt payload 1 = 0 then some (raceEntry s) else none

def querySeatItems (payload : List Byte) (s : State) : Option (List Field) :=
  (carOfIndex (byteAt payload 1)).map fun c =>
    match seatOf c with
    | some p => seatEntry s p
    | none => pacerSeatEntry s

def queryFitItems (payload : List Byte) (s : State) : Option (List Field) :=
  (portOfIndex (byteAt payload 1)).map fun p => fitEntry s p

def queryLinkItems (payload : List Byte) (s : State) : Option (List Field) :=
  (portOfIndex (byteAt payload 1)).map fun p => linkEntry s p

/-- While no race descriptor is held, N is absent and no lap lies in 1 to N (R32). -/
def queryLapsItems (payload : List Byte) (s : State) : Option (List Field) :=
  let k := byteAt payload 2
  match carOfIndex (byteAt payload 1), s.race.descriptor with
  | some c, some d => if 1 ≤ k ∧ k ≤ d.lapCount then some (lapsEntry s c k) else none
  | _, _ => none

def queryFinishItems (payload : List Byte) (s : State) : Option (List Field) :=
  let position := byteAt payload 1
  if 1 ≤ position ∧ position ≤ 9 then some (finishEntryAt s position) else none

def queryParamItems (payload : List Byte) (s : State) : Option (List Field) :=
  let k := byteAt payload 1
  if k ≤ 15 then some (paramEntry s k) else none

/-- QUERY_RACE. -/
def execQueryRace (s : State) : Host.Outcome State Fault Refusal :=
  whileRunning (serve (asksTable 0) (decideQuery 0 2 queryRaceItems)) s

/-- QUERY_SEAT. -/
def execQuerySeat (s : State) : Host.Outcome State Fault Refusal :=
  whileRunning (serve (asksTable 1) (decideQuery 1 2 querySeatItems)) s

/-- QUERY_FIT. -/
def execQueryFit (s : State) : Host.Outcome State Fault Refusal :=
  whileRunning (serve (asksTable 2) (decideQuery 2 2 queryFitItems)) s

/-- QUERY_LINK. -/
def execQueryLink (s : State) : Host.Outcome State Fault Refusal :=
  whileRunning (serve (asksTable 3) (decideQuery 3 2 queryLinkItems)) s

/-- QUERY_LAPS. -/
def execQueryLaps (s : State) : Host.Outcome State Fault Refusal :=
  whileRunning (serve (asksTable 4) (decideQuery 4 3 queryLapsItems)) s

/-- QUERY_FINISH. -/
def execQueryFinish (s : State) : Host.Outcome State Fault Refusal :=
  whileRunning (serve (asksTable 5) (decideQuery 5 2 queryFinishItems)) s

/-- QUERY_PARAM. -/
def execQueryParam (s : State) : Host.Outcome State Fault Refusal :=
  whileRunning (serve (asksTable 6) (decideQuery 6 2 queryParamItems)) s

end Sys2Proof.Machine
end

