-- ==== Sys2Proof/Machine/LapTiming.lean ====
section
/-! DEFINITION. The lap timing unit: the time of a crossing (R121, R122), recording it (R123 to R127), the finish and the
finish list (R128, R129), and the pacer's crossings (R132, R156, R157). -/

namespace Sys2Proof.Machine

/-! ## The time of a crossing -/

/-- R121: the line progress of a car state, without the cap at N × L. -/
def CarState.lineProgress (lapLength : Nat) (cs : CarState) : Int :=
  match cs.lap with
  | .preLine => (cs.distance : Int) - lapLength
  | .count k => (k : Int) * lapLength + cs.distance

/-- The longest interval across which a crossing is interpolated, in µs (R121). -/
def longestInterval : Int := 2000000

/-- R121, R122: the crossing time of the line into lap `k`, and whether it is resolved. -/
def crossingTime (lapLength k : Nat) (previous : Option CarState) (latest : CarState) : HubTime × Bool :=
  match previous with
  | none => (latest.time, false)
  | some before =>
    let x : Int := (k : Int) * lapLength
    let interval := diff latest.time before.time
    let q0 := before.lineProgress lapLength
    let q1 := latest.lineProgress lapLength
    if 1 ≤ interval ∧ interval ≤ longestInterval ∧ q0 < x ∧ x ≤ q1 then
      (shiftTime before.time (Int.fdiv ((x - q0) * interval) (q1 - q0)), true)
    else (latest.time, false)

/-! ## The finish list (R129) -/

/-- The order of the finish list: corrected finish, then raw finish, then seat number. -/
def FinishEntry.before (a b : FinishEntry) : Bool :=
  decide (a.corrected < b.corrected) ||
    (a.corrected == b.corrected && (decide (a.raw < b.raw) || (a.raw == b.raw && decide (a.car < b.car))))

/-- R129: a finish is inserted directly below the last entry that orders before it. -/
def insertFinish (e : FinishEntry) : List FinishEntry → List FinishEntry
  | [] => [e]
  | x :: rest => if (x :: rest).any (·.before e) then x :: insertFinish e rest else e :: x :: rest

/-! ## The finish (R128) -/

/-- R128 step 3: the seat, or the pacer record, becomes FINISHED. -/
def makeFinished (c : CarId) (s : State) : State :=
  match seatOf c with
  | some p =>
    s.setSeat p
      { s.seat p with
        state := .finished, stallPhase := none, recoveryRun := none, frozenProgress := none, silenceTimer := none
        dropTimer := none }
  | none => { s with pacerRecord := some .finished }

/-- The penalty of a car as it stands: its seat's, and 0 for the pacer (R128). -/
def State.penaltyOf (s : State) (c : CarId) : Nat :=
  match seatOf c with
  | some p => (s.seat p).penalty
  | none => 0

/-- R128. An unranked pacer's finish enters no list, appends no event and is not told (R132, R157). -/
def finishCar (c : CarId) (crossing : HubTime) (unverified ranked : Bool) (s : State) : State :=
  let raw := s.raceTime crossing
  let penalty := s.penaltyOf c
  let corrected := raw + penalty
  let s1 := s.setLapRecord c { s.lapRecord c with finish := some { raw := raw, corrected := corrected } }
  let s2 := makeFinished c s1
  if ranked then
    let s3 : State := { s2 with finishList := insertFinish { car := c, raw := raw, corrected := corrected } s2.finishList }
    finishNotice (appendEvent (.finish c s.lapCount corrected (decide (0 < penalty)) unverified) s3)
  else s2

/-! ## Recording a crossing (R123 to R127) -/

/-- R125: the best lap after a lap entry. -/
def betterLap (best : Option BestLap) (k : Nat) (time : Int) (unverified : Bool) : Option BestLap :=
  if unverified then best
  else
    match best with
    | none => some { lap := k, time := time }
    | some b => if time < b.time then some { lap := k, time := time } else some b

/-- R126: whether a lap takes the race fastest lap. -/
def takesFastest (fastest : Option FastestLap) (time : Int) (unverified : Bool) : Bool :=
  !unverified &&
    match fastest with
    | none => true
    | some f => decide (time < f.time)

/-- R124: the lap time of the crossing into lap `k`: from E for lap 1, else from the car's last crossing. -/
def State.lapTimeOf (s : State) (c : CarId) (k : Nat) (crossing : HubTime) : Int :=
  if k = 1 then s.raceTime crossing
  else
    match (s.lapRecord c).lastCrossing with
    | some last => diff crossing last.time
    | none => s.raceTime crossing

/-- R124: whether the entry of lap `k` bears the UNVERIFIED mark. -/
def State.lapUnverified (s : State) (c : CarId) (k : Nat) (time : Int) (resolved stalled : Bool) : Bool :=
  stalled || !resolved || decide (time ≤ 0) ||
    (decide (2 ≤ k) &&
      match (s.lapRecord c).lastCrossing with
      | some last => !last.resolved
      | none => false)

/-- R123 to R128: one crossing into lap `k`. `ranked` is false for an unranked pacer, whose laps are neither compared nor
announced (R132). -/
def recordCrossing (c : CarId) (k : Nat) (crossing : HubTime) (resolved stalled ranked : Bool) (s : State) : State :=
  let r := s.lapRecord c
  let last : Crossing := { lap := k, time := crossing, resolved := resolved }
  if k = 0 then s.setLapRecord c { r with lastCrossing := some last, highWater := some (.count 0) }
  else
    let time := s.lapTimeOf c k crossing
    let unverified := s.lapUnverified c k time resolved stalled
    let s1 := s.setLapRecord c
      { r with
        lastCrossing := some last
        highWater := some (.count k)
        history := r.history ++ [{ time := time, unverified := unverified }]
        bestLap := betterLap r.bestLap k time unverified }
    let fastest := ranked && takesFastest s.fastestLap time unverified
    let s2 : State := if fastest then { s1 with fastestLap := some { car := c, lap := k, time := time } } else s1
    let s3 := if ranked then appendEvent (.lap c k time fastest unverified) s2 else s2
    if k = s.lapCount then finishCar c crossing unverified ranked s3 else s3

/-- R120: the crossings of one report, from lap `k` on, `n` of them in rising order of lap. -/
def recordCrossings (c : CarId) (previous : Option CarState) (latest : CarState) (stalled : Bool) :
    Nat → Nat → State → State
  | 0, _, s => s
  | n + 1, k, s =>
    let (time, resolved) := crossingTime s.lapLength k previous latest
    recordCrossings c previous latest stalled n (k + 1) (recordCrossing c k time resolved stalled true s)

/-- R120: the lap timing unit takes a car-accepted report of seat `p`; a new lap not above the high-water is no crossing. -/
def takeCarReport (p : PortId) (previous : Option CarState) (latest : CarState) (s : State) : State :=
  let high := ((s.lapRecord (carOf p)).highWater.getD .preLine).number
  let new := latest.lap.number
  recordCrossings (carOf p) previous latest ((s.seat p).state == .stalled) (new - high).toNat (high + 1).toNat s

/-! ## The pacer's crossings (R132, R156, R157) -/

/-- Race time has reached the pacer's next crossing in RACING or FINISHING (R156). -/
def State.pacerCrossingDue (s : State) : Option PacerCrossing :=
  if s.race.state = .racing ∨ s.race.state = .finishing then
    s.pacer.nextCrossing.filter fun x => (x.raceTime : Int) ≤ s.raceTime s.now
  else none

/-- R156: the next crossing after the one into lap `k`. -/
def State.crossingAfter (s : State) (k : Nat) : Option PacerCrossing :=
  if k < s.lapCount then
    s.pacer.scaled.map fun table => { lap := k + 1, raceTime := (k + 1) * table.lapTime }
  else none

/-- R132, R156, R157: the pacer's crossing at E + k × Tp, resolved. -/
def pacerCrosses (s : State) : State :=
  match s.pacerCrossingDue, s.race.epoch with
  | some x, some e =>
    let s1 : State := { s with pacer := { s.pacer with nextCrossing := s.crossingAfter x.lap } }
    recordCrossing pacerCar x.lap (e + BitVec.ofNat 32 x.raceTime) true false
      (s.race.pacerMode == some .ranked) s1
  | _, _ => s

/-- PACER_CROSSING. -/
def execPacerCrossing (s : State) : Host.Outcome State Fault Refusal := whileRunning pacerCrosses s

end Sys2Proof.Machine
end

