-- ==== Sys2Proof/Machine/Report.lean ====
section
/-! DEFINITION. The path of one REPORT (R84, R85): the clock fit, plausibility (R86, R87), car state and speed (R88 to R91),
the seat table (R93, R141 to R143), the jump check (R95, R96), lap timing (R97) and round-seen (R94). -/

namespace Sys2Proof.Machine

/-! ## Plausibility and the new car state -/

/-- R86: a lap code from 0 to N, or PRE_LINE, is in range. -/
def lapInRange (lapCount : Nat) : Lap → Bool
  | .preLine => true
  | .count k => decide (k ≤ lapCount)

/-- R87: a lap within one of the lap of the latest car state; a seat with no car state passes. -/
def lapContinuous (latest : Option CarState) (lap : Lap) : Bool :=
  match latest with
  | none => true
  | some cs => decide (cs.lap.number - 1 ≤ lap.number) && decide (lap.number ≤ cs.lap.number + 1)

/-- R86, R87: whether the car fields of a report are plausible; the continuity check is for seats in the field. -/
def plausible (lapCount : Nat) (inField : Bool) (latest : Option CarState) (lap : Lap) : Bool :=
  lapInRange lapCount lap && (!inField || lapContinuous latest lap)

/-- R86: a report's progress, from its lap and its clamped distance, capped at N × L. -/
def reportProgress (d : Descriptor) (lap : Lap) (distance : Nat) : Int :=
  match lap with
  | .preLine => (distance : Int) - d.lapLength
  | .count k => min ((k : Int) * d.lapLength + distance) ((d.lapCount : Int) * d.lapLength)

def clampSpeed (v : Int) : Int := clampInt (-4096) 16383 v

/-- R90: the speed of a SHORT report, from the state it replaces as latest. -/
def derivedSpeed (latest : Option CarState) (progress : Int) (time : HubTime) : Int :=
  match latest with
  | none => 0
  | some before =>
    let interval := diff time before.time
    if interval ≤ 0 then before.speed
    else clampSpeed (Int.tdiv ((progress - before.progress) * 1000000) interval)

/-- R86, R88 to R91: the car state of a plausible report. -/
def newCarState (d : Descriptor) (form : ReportForm) (latest : Option CarState) (r : ReportFields) (time : HubTime) :
    CarState :=
  let distance := min r.distance (d.lapLength - 1)
  let progress := reportProgress d r.lap distance
  { time := time, lap := r.lap, distance := distance, progress := progress
    speed := match form with
      | .full => clampSpeed r.speed
      | .short => derivedSpeed latest progress time
    flags := r.flags }

/-! ## The steps of R85 -/

/-- R142: the recovery run after a report of a class. -/
def nextRecoveryRun (run : Nat) : FitClass → Nat
  | .inGate => run + 1
  | .outlier | .resync | .first | .duplicate | .outOfOrder => 0

/-- Step 3: the seat table is told of a car-accepted report (R93, R141, R142, R143). -/
def seatTold (p : PortId) (kind : FitClass) (s : State) : State :=
  let x := s.seat p
  let restart := s.setSeat p { x with silenceTimer := startTimer s.now (ofMs s.settings.stallLimit) }
  match x.state with
  | .ready => if s.race.state = .grid then restart else s
  | .running => if s.race.state.live then restart else s
  | .stalled =>
    if s.race.state.live then
      match x.stallPhase with
      | some .recovering =>
        let run := nextRecoveryRun (x.recoveryRun.getD 0) kind
        if 4 ≤ run then readmit p s else s.setSeat p { x with recoveryRun := some run }
      | some .silent | none => s.setSeat p { x with stallPhase := some .recovering, recoveryRun := some 0 }
    else s
  | .vacant | .linked | .entered | .finished | .retired => s

/-- Step 4: a field seat with no grid progress takes it from this report (R95); otherwise a RUNNING seat's report fitted
before E is judged for a jump start (R96). -/
def judgeJump (p : PortId) (cs : CarState) (s : State) : State :=
  let x := s.seat p
  if s.race.state.live && x.state.inField then
    match x.gridProgress with
    | none => s.setSeat p { x with gridProgress := some cs.progress }
    | some grid =>
      let t := s.raceTime cs.time
      if x.state = .running ∧ t < 0 ∧ grid + s.settings.jumpTolerance < cs.progress ∧ x.jumped = false then
        appendEvent (.jump p t) (s.setSeat p { x with jumped := true, penalty := ofMs s.settings.jumpPenalty })
      else s
  else s

/-- Step 5: a car-accepted report of a RUNNING or STALLED seat in COUNTDOWN, RACING or FINISHING reaches the lap timing unit
(R97). -/
def handToLapTiming (p : PortId) (previous : Option CarState) (cs : CarState) (s : State) : State :=
  if s.race.state.live ∧ ((s.seat p).state = .running ∨ (s.seat p).state = .stalled) then takeCarReport p previous cs s
  else s

/-- Step 2 for a seat that keeps car fields, and steps 3 to 5 when the report is car-accepted (R85 to R88). -/
def carStage (p : PortId) (d : Descriptor) (form : ReportForm) (r : ReportFields) (kind : FitClass) (time : HubTime)
    (s : State) : State :=
  let x := s.seat p
  let latest := (s.car p).latest
  if plausible d.lapCount x.state.inField latest r.lap then
    let cs := newCarState d form latest r time
    handToLapTiming p latest cs
      (judgeJump p cs (seatTold p kind (s.setCar p { latest := some cs, previous := latest })))
  else s.setSeat p { x with implausible := bump 255 x.implausible }

/-- Step 2 to 5 by the seat's state: a LINKED seat keeps no car fields (R84). Without a descriptor no seat keeps any
(log 21). -/
def carFields (p : PortId) (form : ReportForm) (r : ReportFields) (kind : FitClass) (time : HubTime) (s : State) : State :=
  match (s.seat p).state, s.race.descriptor with
  | .vacant, _ | .linked, _ => s
  | _, none => s
  | _, some d => carStage p d form r kind time s

/-- Step 6: the round-seen of a field seat's report; in RESULTS it sets the seat's seen mark when it is at or after k_res,
and the release is checked (R58, R94). -/
def captureRoundSeen (p : PortId) (roundSeen : RoundNo) (s : State) : State :=
  if s.race.state = .results ∧ (s.seat p).state.inField = true then
    match s.race.resultsRound with
    | some k =>
      if roundAtOrAfter roundSeen k then
        checkRelease { s with race := { s.race with seenMarks := s.race.seenMarks.set p (some true) } }
      else checkRelease s
    | none => checkRelease s
  else s

/-- R66, R85: a REPORT of the right length from a seat that is not VACANT. D is the link delay as the whole report is handled
(log 30). -/
def reportPath (p : PortId) (form : ReportForm) (m : Inbound) (s : State) : State :=
  let r := readReport m
  let observed := m.stamp - BitVec.ofNat 32 (s.port p).delay
  let result := (s.fit p).take r.frame observed s.now
  let s1 := (s.setFit p result.fit).setSeat p ((s.seat p).countClass result.kind)
  match result.fitted with
  | none => s1
  | some time => captureRoundSeen p r.roundSeen (carFields p form r result.kind time s1)

/-- R183: a fault at a port in UP raises its error count, which saturates at 254. -/
def Port.countError (q : Port) : Port := { q with errorCount := bump 254 q.errorCount }

/-- R19, R66, R84, R184: a REPORT that passed its check arrives. -/
def reportArrives (p : PortId) (m : Inbound) (s0 : State) : State :=
  let s := s0.setPort p { s0.port p with handed := none }
  match (s.port p).link with
  | .up =>
    match (s.seat p).state, (s.seat p).cabinet with
    | .vacant, _ => s
    | _, none => s
    | _, some c =>
      if m.payload.length = c.form.length then reportPath p c.form m s else s.setPort p (s.port p).countError
  | .training | .down => s

/-- REPORT. -/
def execReport (p : PortId) (m : Inbound) (s : State) : Host.Outcome State Fault Refusal :=
  whileRunning (reportArrives p m) s

end Sys2Proof.Machine
end

