-- ==== Sys2Proof/Machine/Links.lean ====
section
/-! DEFINITION. Cabinet links: lock and its loss (R177, R178), the receiver and frame checking (R182 to R184), training (R179
to R181), and the transmitter (R185, R186). -/

namespace Sys2Proof.Machine

/-! ## Training (R179 to R181) -/

/-- The probe takes 195 µs on the line (R179). -/
def probeTime : Int := 195

/-- R179: a training pass begins at probe 0 with no probe errors, and the error count is set to 0. The send stamp 0 of a record
whose first probe has yet to be sent is a DESIGN CHOICE (log 33): R179 gives a stamp only to a probe that leaves. -/
def Port.startPass (q : Port) : Port :=
  { q with
    training := some
      { probe := 0, stage := .due, errors := 0, least := none, sentAt := 0, echoWait := none, retrainWait := none }
    errorCount := 0 }

/-- R181: D from the least round-trip measure, floor(m / 2) clamped to 0 to 4,095. -/
def delayOf (least : Int) : Nat := (clampInt 0 4095 (Int.fdiv least 2)).toNat

/-- R181: the pass ends after probe 15 with the training record `t`. -/
def Port.endPass (q : Port) (now : HubTime) (t : Training) : Port :=
  if t.errors ≤ 3 then
    { q with
      link := .up, training := none, errorCount := t.errors, buffer := none, reply := none, round := none
      delay := match t.least with
        | some m => delayOf m
        | none => q.delay }
  else
    { q with
      errorCount := t.errors
      training := some { t with stage := .passFailed, echoWait := none, retrainWait := startTimer now retrainWaitTime } }

/-- The lesser of the least measure so far and a new one (R180). -/
def leastOf (least : Option Int) (m : Int) : Int :=
  match least with
  | none => m
  | some l => min l m

/-- R180: the current probe is resolved, with one probe error when there is no measure. -/
def Port.resolve (q : Port) (now : HubTime) (t : Training) (measure : Option Int) : Port :=
  let t1 : Training :=
    match measure with
    | some m => { t with least := some (leastOf t.least m), echoWait := none }
    | none => { t with errors := t.errors + 1, echoWait := none }
  let q1 : Port := if measure.isSome then q else { q with errorCount := q.errorCount + 1 }
  if 15 ≤ t.probe then q1.endPass now t1
  else { q1 with training := some { t1 with probe := t.probe + 1, stage := .due } }

/-- R180: the training record of a port in TRAINING whose echo wait runs. -/
def Port.awaiting (q : Port) : Option Training :=
  if q.link = .training then q.training.filter (·.echoWait.isSome) else none

/-- R180: an ECHO judged while the echo wait of probe k runs. An ECHO with a number other than k, or none at all (log 18), is
discarded. -/
def Port.judgeEcho (q : Port) (now : HubTime) (m : Inbound) : Port :=
  match q.awaiting with
  | none => q
  | some t =>
    match m.payload with
    | [] => q
    | number :: _ =>
      if number.toNat ≠ t.probe then q
      else if m.payload = probePayload t.probe then q.resolve now t (some (diff m.stamp t.sentAt - probeTime))
      else q.resolve now t none

/-- R180, R184: an ECHO that passed its check arrives; outside an echo wait it is discarded. -/
def echoArrives (p : PortId) (m : Inbound) (s : State) : State :=
  s.setPort p (({ s.port p with handed := none } : Port).judgeEcho s.now m)

/-- R180: the echo wait expires, a missing echo. -/
def echoWaitExpires (p : PortId) (s : State) : State :=
  match (s.port p).awaiting with
  | some t => if expired s.now t.echoWait then s.setPort p ((s.port p).resolve s.now t none) else s
  | none => s

/-- R181: the retrain wait expires and a new pass begins. -/
def retrainWaitExpires (p : PortId) (s : State) : State :=
  match (s.port p).training with
  | some t =>
    if (s.port p).link = .training ∧ expired s.now t.retrainWait = true then s.setPort p (s.port p).startPass else s
  | none => s

/-- ECHO. -/
def execEcho (p : PortId) (m : Inbound) (s : State) : Host.Outcome State Fault Refusal := whileRunning (echoArrives p m) s

/-- ECHO_WAIT_EXPIRY. -/
def execEchoWaitExpiry (p : PortId) (s : State) : Host.Outcome State Fault Refusal := whileRunning (echoWaitExpires p) s

/-- RETRAIN_WAIT_EXPIRY. -/
def execRetrainWaitExpiry (p : PortId) (s : State) : Host.Outcome State Fault Refusal :=
  whileRunning (retrainWaitExpires p) s

/-! ## Frames (R182 to R184) -/

/-- R180, R182, R183: a frame that fails its check: a fault in UP, a corrupt echo while an echo wait runs, and otherwise
nothing. -/
def Port.frameFails (q : Port) (now : HubTime) : Port :=
  match q.link with
  | .up => q.countError
  | .training =>
    match q.awaiting with
    | some t => q.resolve now t none
    | none => q
  | .down => q

/-- R184: what a frame that passed its check is handed on as, none for a kind the hub does not receive. -/
def handOn (f : RxFrame) : Option Handed :=
  let m : Inbound := { stamp := f.stamp, order := f.order, payload := f.payload }
  if f.kind = reportCode then some (.report m)
  else if f.kind = echoCode then some (.echo m)
  else (serviceOfCode f.kind).map fun k => .service k m

/-- R182 to R184 at one port: the frame is checked against its CRC and handed on by its kind; a kind the hub does not receive
is a fault in UP. A port in DOWN receives no frame. -/
def Port.checkFrame (q : Port) (now : HubTime) (f : RxFrame) : Port :=
  if q.link = .down then q
  else if f.crc = frameCrc f.kind f.payload then
    match handOn f with
    | some h => { q with handed := some h }
    | none => if q.link = .up then q.countError else q
  else q.frameFails now

/-- R182: a frame's last CRC byte has arrived. -/
def frameArrives (p : PortId) (f : RxFrame) (s : State) : State :=
  s.setPort p (({ s.port p with arrived := none } : Port).checkFrame s.now f)

/-- FRAME_ARRIVAL. -/
def execFrameArrival (p : PortId) (f : RxFrame) (s : State) : Host.Outcome State Fault Refusal :=
  whileRunning (frameArrives p f) s

/-! ## The receiver (R175, R177, R182) -/

/-- The hub time at which the start bit of a byte arrived that is now whole: ten line bits at 2 Mbit/s earlier (log 7). -/
def startOfByte (now : HubTime) : HubTime := now - BitVec.ofNat 32 byteTime

/-- R182: the frame held by the bytes that followed a start marker, once its last CRC byte is among them. -/
def wholeFrame (stamp : HubTime) (order : ByteOrder) (got : List Byte) : Option RxFrame :=
  match got with
  | kind :: length :: rest =>
    if rest.length = length.toNat + 2 then
      some { stamp := stamp, order := order, kind := kind, payload := rest.take length.toNat,
             crc := BitVec.ofNat 16 (readNat .highFirst (rest.drop length.toNat)) }
    else none
  | _ => none

/-- R182: the receiver takes a correctly framed byte; it answers the receiver after it, and the frame this byte completes. -/
def Receiver.take (r : Receiver) (now : HubTime) (order : ByteOrder) (b : Byte) : Receiver × Option RxFrame :=
  match r with
  | .hunting => (if b = 0xD3#8 then .marker (startOfByte now) order else .hunting, none)
  | .marker stamp held =>
    if b = 0x2B#8 then (.reading stamp held [], none)
    else if b = 0xD3#8 then (.marker (startOfByte now) order, none)
    else (.hunting, none)
  | .reading stamp held got =>
    match wholeFrame stamp held (got ++ [b]) with
    | some f => (.hunting, some f)
    | none => (.reading stamp held (got ++ [b]), none)

/-- R177: a correctly framed byte at one port. In DOWN it gains lock, starts the lock watch and the first training pass, and
is not the start of any frame; otherwise it restarts the lock watch and reaches the receiver. -/
def Port.takeByte (q : Port) (now : HubTime) (order : ByteOrder) (b : Byte) : Port :=
  let watched : Port := { q with lockWatch := startTimer now lockWatchTime }
  if q.link = .down then
    ({ watched with link := .training, receiver := .hunting, arrived := none, handed := none } : Port).startPass
  else
    let (receiver, frame) := q.receiver.take now order b
    { watched with
      receiver := receiver
      arrived := match frame with
        | some f => some f
        | none => q.arrived }

/-- R19: the orders that held at port `p` in the microsecond in which the start bit of a byte now whole arrived: as that
microsecond began, and as it ended (log 29). -/
def State.ordersAtStart (s : State) (p : PortId) : ByteOrder × ByteOrder := (s.orderTrail[5][p], s.orderTrail[4][p])

/-- R19, R38, R66, R83: the order that held when the start bit of a byte now whole arrived. Where the order changed within that
very microsecond the spec does not say which came first, and a free value does (log 29). -/
def State.orderAtStart (s : State) (p : PortId) : ByteOrder :=
  let (began, ended) := s.ordersAtStart p
  if began = ended then ended else if Config.startBitFirst s.freeDraws then began else ended

/-- R177, R182: a correctly framed byte, now whole, arrives. The order a frame is read in is the one at its start bit (R19), and
a free value drawn for it is counted (log 29). -/
def byteArrives (p : PortId) (b : Byte) (s : State) : State :=
  let (began, ended) := s.ordersAtStart p
  let t := s.setPort p ((s.port p).takeByte s.now (s.orderAtStart p) b)
  if began = ended then t else { t with freeDraws := t.freeDraws + 1 }

/-- R175, R182: a framing error. Inside a frame it ends the frame as a failure; between frames it changes nothing but that the
two marker bytes no longer follow at once (log 8). The lock watch is not restarted. -/
def Port.takeFramingError (q : Port) (now : HubTime) : Port :=
  match q.receiver with
  | .hunting => q
  | .marker _ _ => { q with receiver := .hunting }
  | .reading _ _ _ => ({ q with receiver := .hunting } : Port).frameFails now

def framingErrorArrives (p : PortId) (s : State) : State := s.setPort p ((s.port p).takeFramingError s.now)

/-- BYTE_RECEIVED. -/
def execByteReceived (p : PortId) (b : Byte) (s : State) : Host.Outcome State Fault Refusal :=
  whileRunning (byteArrives p b) s

/-- FRAMING_ERROR. -/
def execFramingError (p : PortId) (s : State) : Host.Outcome State Fault Refusal := whileRunning (framingErrorArrives p) s

/-! ## Loss of lock (R178) -/

/-- The transmitter begins `x` at `now`; its last byte leaves when its bytes have been on the line (R175, R185). -/
def Port.send (q : Port) (now : HubTime) (x : Sending) : Port :=
  { q with sending := x, sendEnds := now + lineTime x.bytes }

/-- The line sends one filler byte from `now` (R175, R185). -/
def Port.sendFiller (q : Port) (now : HubTime) : Port := q.send now .filler

/-- R178 step 4: a frame being transmitted is abandoned at once and filler follows; a filler byte on the line is no frame and
goes on. -/
def Port.abandonFrame (q : Port) (now : HubTime) : Port :=
  match q.sending with
  | .filler => q
  | .probe _ | .reply _ | .round _ => q.sendFiller now

/-- R178 steps 1 to 5 at the port: D is kept. -/
def Port.loseLock (q : Port) (now : HubTime) : Port :=
  ({ q with
      link := .down, lockWatch := none, errorCount := 255, training := none, receiver := .hunting, buffer := none
      reply := none, round := none, overrun := false, lostSinceReply := false, arrived := none, handed := none } :
    Port).abandonFrame now

/-- A pre-race seat becomes VACANT and loses its car state; a READY seat's silence timer is cancelled (R25). -/
def vacateSeat (p : PortId) (s : State) : State :=
  (s.setSeat p { (s.seat p).vacate with silenceTimer := none }).setCar p CarRecord.empty

/-- R25, R58, R146: the seat table and the race controller are told that a port is DOWN. -/
def linkDownAtSeat (p : PortId) (s : State) : State :=
  match (s.seat p).state with
  | .vacant => s
  | .linked => vacateSeat p s
  | .entered | .ready => departure (vacateSeat p (leaveEntryList p s))
  | .running | .stalled | .finished | .retired => checkRelease s

/-- R14: a port that goes DOWN during a computation receives no frame from it. -/
def Assembler.dropAddressee (a : Assembler) (p : PortId) : Assembler :=
  { a with computation := a.computation.map fun c => { c with addressees := c.addressees.filter (· != p) } }

/-- R178: the port loses lock. -/
def loseLock (p : PortId) (s : State) : State :=
  let t := s.setPort p ((s.port p).loseLock s.now)
  linkDownAtSeat p { t with assembler := t.assembler.dropAddressee p }

/-- R178: the lock watch expires, in TRAINING or in UP. -/
def lockWatchExpires (p : PortId) (s : State) : State :=
  if expired s.now (s.port p).lockWatch then
    if (s.port p).link = .down then s.setPort p { s.port p with lockWatch := none } else loseLock p s
  else s

/-- LOCK_WATCH_EXPIRY. -/
def execLockWatchExpiry (p : PortId) (s : State) : Host.Outcome State Fault Refusal :=
  whileRunning (lockWatchExpires p) s

/-! ## The transmitter (R185, R186) -/

/-- The last byte on the line has left. -/
def Port.sent (q : Port) (now : HubTime) : Bool := decide (0 ≤ diff now q.sendEnds)

/-- R30, R185: a reply's transmission completes; the slot is emptied, and a reply that carried OVERRUN clears the overrun flag
unless a request has been discarded since it was written. -/
def Port.completeReply (q : Port) : Port :=
  match q.reply with
  | none => { q with sending := .filler }
  | some r =>
    { q with
      sending := .filler, reply := none
      overrun := if r.carriesOverrun && !q.lostSinceReply then false else q.overrun }

/-- R179: when a probe's last byte has left, its echo wait starts. -/
def Port.completeProbe (q : Port) (now : HubTime) : Port :=
  match q.training with
  | some t =>
    if t.stage = .sending then
      { q with
        sending := .filler
        training := some { t with stage := .waiting, echoWait := startTimer now echoWaitTime } }
    else { q with sending := .filler }
  | none => { q with sending := .filler }

/-- What the end of the frame on the line does (R179, R185); a ROUND or a filler byte has no effect. -/
def Port.completeSending (q : Port) (now : HubTime) : Port :=
  match q.sending with
  | .reply _ => q.completeReply
  | .probe _ => q.completeProbe now
  | .round _ => { q with sending := .filler }
  | .filler => q

/-- R179, R185 in TRAINING: the next PROBE when one is due, stamped with the hub time at which its start byte leaves. -/
def Port.sendProbe (q : Port) (now : HubTime) : Port :=
  match q.training with
  | some t =>
    if t.stage = .due then
      { q.send now (.probe (wireBytes probeCode (probePayload t.probe))) with
        training := some { t with stage := .sending, sentAt := now } }
    else q.sendFiller now
  | none => q.sendFiller now

/-- R185 in UP: the reply, else the ROUND, which leaves its slot, else filler. -/
def Port.sendWaiting (q : Port) (now : HubTime) : Port :=
  match q.reply, q.round with
  | some r, _ => q.send now (.reply (wireBytes replyCode r.payload))
  | none, some payload => { q.send now (.round (wireBytes roundCode payload)) with round := none }
  | none, none => q.sendFiller now

/-- R185: the transmitter chooses what to send next by the link state. -/
def Port.sendNext (q : Port) (now : HubTime) : Port :=
  match q.link with
  | .down => q.sendFiller now
  | .training => q.sendProbe now
  | .up => q.sendWaiting now

/-- R185: a frame boundary of the transmitter; while a byte is still on the line there is none. -/
def frameBoundary (p : PortId) (s : State) : State :=
  if (s.port p).sent s.now then s.setPort p (((s.port p).completeSending s.now).sendNext s.now) else s

/-- R185, R186: the last byte of the reply on the line has left. That instant is a frame boundary too, so a waiting ROUND begins
before the service engine can write another reply (log 31). -/
def replyLeaves (p : PortId) (s : State) : State :=
  match (s.port p).sending with
  | .reply _ =>
    if (s.port p).sent s.now then s.setPort p ((s.port p).completeReply.sendNext s.now) else s
  | .filler | .probe _ | .round _ => s

/-- FRAME_BOUNDARY. -/
def execFrameBoundary (p : PortId) (s : State) : Host.Outcome State Fault Refusal := whileRunning (frameBoundary p) s

/-- REPLY_TRANSMITTED. -/
def execReplyTransmitted (p : PortId) (s : State) : Host.Outcome State Fault Refusal := whileRunning (replyLeaves p) s

end Sys2Proof.Machine
end

