-- ==== Sys2Proof/Machine/Reset.lean ====
section
/-! DEFINITION. Reset (R17, R193) and its release. -/

namespace Sys2Proof.Machine

/-- RESET: every block is at its reset values and hub time stands at 0. The command queue is no part of the hub, and the
free values do not start again (log 2, log 23). -/
def execReset (s : State) : Host.Outcome State Fault Refusal :=
  .next { State.reset with freeDraws := s.freeDraws, pending := s.pending }

/-- RESET_RELEASE: hub time begins to count and each transmitter begins sending filler (R193); a release when RESET_N is high
already is none. -/
def execResetRelease (s : State) : Host.Outcome State Fault Refusal :=
  .next
    (if s.resetHeld then { s with resetHeld := false, ports := map8 (fun _ q => q.sendFiller s.now) s.ports } else s)

end Sys2Proof.Machine
end

