-- ==== Sys2Proof/Machine/Rounds.lean ====
section
/-! DEFINITION. The round boundary (R5 to R10, R52, R53), the round computation (R14, R102, R165), and the ROUND frames (R167 to
R173, R191). -/

namespace Sys2Proof.Machine

/-! ## The contents of a ROUND (R167 to R172, R191) -/

/-- The results mark: the ROUND's number is k_res (R167). -/
def Computation.resultsMark (c : Computation) : Bool := c.snapshot.resultsRound == some c.number

/-- An event's seven bytes (R191). -/
def Event.fields (e : Event) : List Field :=
  byteField e.kindByte ::
    match e with
    | .lap car k time _ _ => [byteField car.val, byteField k, longField time]
    | .finish car k corrected _ _ => [byteField car.val, byteField k, longField corrected]
    | .jump seat t => [byteField seat.val, byteField 0xFF, longField t]
    | .stall seat t _ => [byteField seat.val, byteField 0xFF, longField t]
    | .resume seat t => [byteField seat.val, byteField 0xFF, longField t]
    | .retire seat t _ => [byteField seat.val, byteField 0xFF, longField (t.getD 0)]
    | .pass passer passed t => [byteField passer.val, byteField passed.val, longField t]

/-- The laps byte of a car entry: 255 for PRE_LINE (R191). -/
def Lap.byte : Lap → Nat
  | .preLine => 255
  | .count k => k

/-- A car entry (R191). -/
def CarEntry.fields (e : CarEntry) : List Field :=
  [byteField e.car.val, byteField e.laps.byte, wordField e.word, longField e.progress] ++
    (match e.speed with
      | some v => [{ width := 2, value := v }]
      | none => []) ++
    (match e.finish with
      | some t => [longField t]
      | none => []) ++
    (match e.best with
      | some b => [byteField b.lap, longField b.time]
      | none => [])

/-- The race descriptor and the entry list with ready flags (R168, R191). -/
def Snapshot.lobbyPart (snap : Snapshot) : List Field :=
  (match snap.descriptor with
    | some d => [wordField d.track, { width := 3, value := d.lapLength }, byteField d.lapCount]
    | none => []) ++
    byteField snap.entries.length :: snap.entries.map fun e => byteField (e.1.val + bit e.2 7)

/-- The car entries of a ROUND's field part: the boundary's ranking, or in RESULTS the frozen entries, then an unranked
pacer (R169, R171). -/
def Computation.carEntries (c : Computation) : List CarEntry :=
  let cars :=
    match c.snapshot.raceState with
    | .results => c.snapshot.results
    | .countdown | .racing | .finishing => (c.ranking.getD []).map c.snapshot.carEntry
    | .idle | .lobby | .grid | .void => []
  cars ++ c.snapshot.pacerEntry

/-- The race part or field part (R168, R169, R171). -/
def Computation.part (c : Computation) : List Field :=
  match c.snapshot.raceState with
  | .idle =>
    byteField c.snapshot.linkedSeats.length ::
      c.snapshot.linkedSeats.flatMap fun e => [byteField e.1.val, longField (e.2.toNat : Int)]
  | .lobby | .grid | .void => c.snapshot.lobbyPart
  | .countdown | .racing | .finishing | .results =>
    byteField c.carEntries.length :: c.carEntries.flatMap CarEntry.fields

/-- The personal part of one addressee (R172, R191). -/
def Snapshot.personalPart (snap : Snapshot) (p : PortId) : List Field :=
  let x := snap.seats[p]
  byteField (personalByte p x.state x.fit) ::
    if x.state = .vacant then []
    else
      match x.period, x.lastFitted with
      | some period, some t => [longField (period : Int), longField (t.toNat : Int), longField (diff snap.instant t)]
      | _, _ => []

/-- The common part (R167, R191). -/
def Computation.commonPart (c : Computation) : List Field :=
  let snap := c.snapshot
  [wordField c.number.toNat,
    wordField (roundStatus snap.raceState c.overflow c.resultsMark snap.epoch.isSome c.drained.length)] ++
    (if snap.epoch.isSome then [longField snap.raceTime] else []) ++
    (match snap.lights with
      | some n => [byteField n]
      | none => []) ++
    (snap.timers.map fun (n : Nat) => longField n) ++
    (match snap.resultsRound with
      | some k => [wordField k.toNat]
      | none => []) ++
    c.drained.flatMap Event.fields

/-- The payload of the ROUND of port `p`, in a byte order (R173, R191). -/
def Computation.payloadFor (c : Computation) (p : PortId) (order : ByteOrder) : List Byte :=
  writeFields order (c.commonPart ++ c.part ++ c.snapshot.personalPart p)

/-! ## Placing the frames (R173) -/

/-- The frame of one addressee enters its ROUND slot, replacing an unsent ROUND, if the port is UP. -/
def placeRound (c : Computation) (s : State) (p : PortId) (q : Port) : Port :=
  if c.addressees.contains p && q.link == .up then { q with round := some (c.payloadFor p (s.orderAt p)) } else q

/-- R14, R102, R173: the computation ends. Its frames are placed, and its standings become the live ones unless the race has
entered RESULTS, VOID or IDLE since the boundary. -/
def computationEnds (s : State) : State :=
  match s.assembler.computation with
  | none => s
  | some c =>
    { s with
      assembler := { s.assembler with computation := none }
      ports := map8 (placeRound c s) s.ports
      standings :=
        if c.superseded then s.standings
        else
          match c.ranking with
          | some r => r
          | none => s.standings }

/-- ROUND_COMPUTATION_END. -/
def execRoundComputationEnd (s : State) : Host.Outcome State Fault Refusal := whileRunning computationEnds s

/-! ## The boundary (R9) -/

/-- R5, R6, R8: the round number advances, a pending period is installed, and the next boundary is placed. -/
def Timebase.advanceRound (t : Timebase) : Timebase :=
  let period := t.pendingPeriod.getD t.period
  { t with
    roundNumber := t.roundNumber + 1
    period := period
    pendingPeriod := none
    lastBoundary := some t.nextBoundary
    nextBoundary := t.nextBoundary + BitVec.ofNat 32 period }

/-- R53: the green, at the boundary whose hub time is E. -/
def green (s : State) : State :=
  let racing : State :=
    { s with
      race := { s.race with
        state := .racing, lights := none, raceLimitTimer := startTimer s.now (ofS s.settings.raceLimit) } }
  checkEveryoneDone s.time.roundNumber (if racing.finishList = [] then racing else enterFinishing racing)

/-- R52: the lights at a boundary at hub time `b` before E: floor((b − t0) × 6 / (E − t0)), capped at 5. -/
def lightsAt (b t0 e : HubTime) : Nat :=
  (min 5 (Int.fdiv (diff b t0 * 6) (diff e t0))).toNat

/-- What the race controller does at a boundary at hub time `b` (R52, R53). -/
def raceAtBoundary (b : HubTime) (s : State) : State :=
  if s.race.state = .countdown then
    match s.race.t0, s.race.epoch with
    | some t0, some e =>
      if b = e then green s else { s with race := { s.race with lights := some (lightsAt b t0 e) } }
    | _, _ => s
  else s

/-- R10: whether the boundary sends: FULL cadence outside IDLE; in IDLE every sixteenth round, or on demand. -/
def State.sends (s : State) : Bool :=
  s.race.state != .idle || s.time.roundNumber.toNat % 16 == 0 || s.time.roundDemand

/-- R165: up to 8 of the oldest events, removed from the head of the queue; the overflow flag is cleared. -/
def drainLimit : Nat := 8

def EventQueue.drain (q : EventQueue) : EventQueue := { list := q.list.drop drainLimit, overflow := false }

/-- R13, R14, R102, R165: a sending boundary clears the demand flag, takes the snapshot, ranks in COUNTDOWN, RACING and
FINISHING, drains the queue, and begins the round computation. -/
def beginComputation (b : HubTime) (s : State) : State :=
  let snap := s.snapshot b
  let previous := s.standings.map (·.car)
  let ranking :=
    if s.race.state.live then some (snap.rank s.settings.horizon s.settings.swapMargin previous) else none
  let t := appendPasses snap.raceTime ((ranking.map (·.2)).getD []) s
  { t with
    time := { t.time with roundDemand := false }
    events := t.events.drain
    assembler := { t.assembler with
      computation := some
        { number := t.time.roundNumber
          snapshot := snap
          ranking := ranking.map (·.1)
          drained := t.events.list.take drainLimit
          overflow := t.events.overflow
          addressees := allPorts.filter t.portUp
          superseded := false
          startedAt := b
          draw := t.freeDraws } }
    freeDraws := t.freeDraws + 1 }

/-- R9: the round boundary at hub time `b`. -/
def boundaryAt (b : HubTime) (s : State) : State :=
  let t := raceAtBoundary b { s with time := s.time.advanceRound }
  if t.sends then beginComputation b t else t

/-- R5: the boundary is raised when hub time reaches the next boundary, and is stamped with it. -/
def roundBoundary (s : State) : State :=
  if 0 ≤ diff s.now s.time.nextBoundary then boundaryAt s.time.nextBoundary s else s

/-- ROUND_BOUNDARY. -/
def execRoundBoundary (s : State) : Host.Outcome State Fault Refusal := whileRunning roundBoundary s

end Sys2Proof.Machine
end

