-- ==== Sys2Proof/Machine/Setup.lean ====
section
/-! DEFINITION. SETUP (R34 to R37): the checks of the item list as a whole, clamping, and writing every item at once. -/

namespace Sys2Proof.Machine

/-- The ranges of settings 0 to 13 (R36, table). -/
def settingRange : Nat → Nat × Nat
  | 0 => (8000, 50000)
  | 1 => (0, 250000)
  | 2 => (0, 1000)
  | 3 => (0, 1000)
  | 4 => (0, 30000)
  | 5 => (5, 120)
  | 6 => (5, 60)
  | 7 => (2000, 10000)
  | 8 => (5, 120)
  | 9 => (60, 1800)
  | 10 => (3, 60)
  | 11 => (1, 8)
  | 12 => (50, 2000)
  | 13 => (1, 30)
  | _ => (0, 0)

/-- A numeric setting's value clamped into its range (R35). -/
def clampSetting (k v : Nat) : Nat := clampNat (settingRange k).1 (settingRange k).2 v

/-- A numeric setting written (R35). -/
def Settings.put (s : Settings) (k v : Nat) : Settings :=
  match k with
  | 0 => { s with roundPeriod := v }
  | 1 => { s with horizon := v }
  | 2 => { s with swapMargin := v }
  | 3 => { s with jumpTolerance := v }
  | 4 => { s with jumpPenalty := v }
  | 5 => { s with lobbyTime := v }
  | 6 => { s with gridTime := v }
  | 7 => { s with countdown := v }
  | 8 => { s with finishWindow := v }
  | 9 => { s with raceLimit := v }
  | 10 => { s with resultsHold := v }
  | 11 => { s with minimumField := v }
  | 12 => { s with stallLimit := v }
  | 13 => { s with dropLimit := v }
  | _ => s

def clampShare (v : Nat) : Nat := clampNat 1 255 v
def clampSegmentSpeed (v : Nat) : Nat := clampNat 100 16383 v

/-- R36 steps 2 to 5: the profile with the derived share of its last segment, or none when the clamped shares of the others
add to more than 255. -/
def buildProfile (shares speeds : List Nat) : Option (List ProfileSegment) :=
  let clamped := shares.map clampShare
  if 255 < clamped.sum then none
  else
    some (List.zipWith (fun share speed => { share := share, speed := clampSegmentSpeed speed })
      (clamped ++ [256 - clamped.sum]) speeds)

/-- R34, R36: whether an item refuses the request. -/
def SetupItem.refused : SetupItem → Bool
  | .value k v => k == 14 && (pacerModeOfCode v).isNone
  | .profile shares speeds => (buildProfile shares speeds).isNone

/-- R35, R36: whether an item's value was clamped. -/
def SetupItem.clamped : SetupItem → Bool
  | .value k v => k != 14 && clampSetting k v != v
  | .profile shares speeds =>
    (shares.any fun v => clampShare v != v) || (speeds.any fun v => clampSegmentSpeed v != v)

/-- R35, R36: one item written; setting 0 is also the timebase's pending period (R6). -/
def SetupItem.write (s : State) : SetupItem → State
  | .value k v =>
    if k = 14 then
      match pacerModeOfCode v with
      | some mode => { s with settings := { s.settings with pacerMode := mode } }
      | none => s
    else
      let t : State := { s with settings := s.settings.put k (clampSetting k v) }
      if k = 0 then { t with time := { t.time with pendingPeriod := some (clampSetting 0 v) } } else t
  | .profile shares speeds =>
    match buildProfile shares speeds with
    | some segments => { s with settings := { s.settings with profile := segments } }
    | none => s

/-- The mask of a SETUP reply: bit s set when setting s was clamped (R191). -/
def clampMask (items : List SetupItem) : Nat := (items.map fun i => if i.clamped then 2 ^ i.number else 0).sum

/-- R29, R34 to R36, R189: the checks of a SETUP in their order, and the write of every item at once. A payload that does not
parse fails the length check (log 15). -/
def decideSetup (p : PortId) (q : Request) (s : State) : State × Reply :=
  let refuse (reason : Reason) : State × Reply := (s, Reply.refuse .setup reason [])
  if (s.seat p).state = .vacant then refuse .notLinked
  else
    match parseSetup q.order q.payload.length q.payload with
    | none => refuse .badValue
    | some items =>
      if s.race.state ≠ .idle then refuse .wrongState
      else if items = [] ∨ ¬(items.map (·.number)).Nodup ∨ (items.any (·.refused)) = true then refuse .badValue
      else
        (items.foldl SetupItem.write s, Reply.accept .setup (items.any (·.clamped)) [wordField (clampMask items)])

/-- SETUP. -/
def execSetup (s : State) : Host.Outcome State Fault Refusal :=
  whileRunning (serve (fun q => q.kind == .setup) decideSetup) s

end Sys2Proof.Machine
end

