-- ==== Sys2Proof/Machine/Dispatch.lean ====
section
/-! DEFINITION. One arm per command. -/

namespace Sys2Proof.Machine

def exec (i : Instr) (s : State) : Host.Outcome State Fault Refusal :=
  match i with
  | .reset => Sys2Proof.Machine.execReset s
  | .resetRelease => Sys2Proof.Machine.execResetRelease s
  | .roundBoundary => Sys2Proof.Machine.execRoundBoundary s
  | .roundComputationEnd => Sys2Proof.Machine.execRoundComputationEnd s
  | .byteReceived p b => Sys2Proof.Machine.execByteReceived p b s
  | .framingError p => Sys2Proof.Machine.execFramingError p s
  | .lockWatchExpiry p => Sys2Proof.Machine.execLockWatchExpiry p s
  | .frameArrival p f => Sys2Proof.Machine.execFrameArrival p f s
  | .echo p m => Sys2Proof.Machine.execEcho p m s
  | .echoWaitExpiry p => Sys2Proof.Machine.execEchoWaitExpiry p s
  | .retrainWaitExpiry p => Sys2Proof.Machine.execRetrainWaitExpiry p s
  | .frameBoundary p => Sys2Proof.Machine.execFrameBoundary p s
  | .replyTransmitted p => Sys2Proof.Machine.execReplyTransmitted p s
  | .serviceRequestArrival p k m => Sys2Proof.Machine.execServiceRequestArrival p k m s
  | .hello => Sys2Proof.Machine.execHello s
  | .enter => Sys2Proof.Machine.execEnter s
  | .ready => Sys2Proof.Machine.execReady s
  | .withdraw => Sys2Proof.Machine.execWithdraw s
  | .queryRace => Sys2Proof.Machine.execQueryRace s
  | .querySeat => Sys2Proof.Machine.execQuerySeat s
  | .queryFit => Sys2Proof.Machine.execQueryFit s
  | .queryLink => Sys2Proof.Machine.execQueryLink s
  | .queryLaps => Sys2Proof.Machine.execQueryLaps s
  | .queryFinish => Sys2Proof.Machine.execQueryFinish s
  | .queryParam => Sys2Proof.Machine.execQueryParam s
  | .setup => Sys2Proof.Machine.execSetup s
  | .serviceComplete => Sys2Proof.Machine.execServiceComplete s
  | .report p m => Sys2Proof.Machine.execReport p m s
  | .lobbyExpiry => Sys2Proof.Machine.execLobbyExpiry s
  | .gridExpiry => Sys2Proof.Machine.execGridExpiry s
  | .finishWindowExpiry => Sys2Proof.Machine.execFinishWindowExpiry s
  | .raceLimitExpiry => Sys2Proof.Machine.execRaceLimitExpiry s
  | .resultsHoldExpiry => Sys2Proof.Machine.execResultsHoldExpiry s
  | .voidExpiry => Sys2Proof.Machine.execVoidExpiry s
  | .silenceExpiry p => Sys2Proof.Machine.execSilenceExpiry p s
  | .dropExpiry p => Sys2Proof.Machine.execDropExpiry p s
  | .anchorAgeExpiry p => Sys2Proof.Machine.execAnchorAgeExpiry p s
  | .pacerCrossing => Sys2Proof.Machine.execPacerCrossing s

end Sys2Proof.Machine
end

