-- ==== Sys2Proof/Machine/Idle.lean ====
section
/-! DEFINITION. What a step does on an empty queue: the hub's clock (log 1). If an event of the hub is due at the present
microsecond its command is put in the queue; otherwise hub time advances by one. -/

namespace Sys2Proof.Machine

def onlyIf (b : Bool) (i : Instr) : List Instr := if b then [i] else []

/-- A frame that has arrived whole and is not yet handled: its handling belongs to the arrival (R66, R184), so it comes before
every other event. -/
def Port.arrivalDue (q : Port) (p : PortId) : List Instr :=
  (match q.handed with
    | some (.report m) => [.report p m]
    | some (.service k m) => [.serviceRequestArrival p k m]
    | some (.echo m) => [.echo p m]
    | none => []) ++
    (match q.arrived with
      | some f => [.frameArrival p f]
      | none => [])

/-- The events of one port due at hub time `now` (R178, R180, R181, R185). -/
def Port.eventsDue (q : Port) (now : HubTime) (p : PortId) : List Instr :=
  onlyIf (q.link != .down && expired now q.lockWatch) (.lockWatchExpiry p) ++
    (match q.training with
      | some t =>
        onlyIf (q.link == .training && expired now t.echoWait) (.echoWaitExpiry p) ++
          onlyIf (q.link == .training && expired now t.retrainWait) (.retrainWaitExpiry p)
      | none => []) ++
    (match q.sending with
      | .reply _ => onlyIf (q.sent now) (.replyTransmitted p)
      | .filler | .probe _ | .round _ => onlyIf (q.sent now) (.frameBoundary p))

/-- The events of one seat due now (R3, R137, R145). -/
def State.seatEventsDue (s : State) (p : PortId) : List Instr :=
  onlyIf (expired s.now (s.seat p).silenceTimer) (.silenceExpiry p) ++
    onlyIf (expired s.now (s.seat p).dropTimer) (.dropExpiry p) ++
    onlyIf (expired s.now (s.fit p).ageTimer) (.anchorAgeExpiry p)

/-- The step that takes a request (R27, R188). -/
def takeStep (q : Request) : Instr :=
  match q.kind with
  | .hello => .hello
  | .enter => .enter
  | .ready => .ready
  | .withdraw => .withdraw
  | .setup => .setup
  | .query =>
    match byteAt q.payload 0 with
    | 1 => .querySeat
    | 2 => .queryFit
    | 3 => .queryLink
    | 4 => .queryLaps
    | 5 => .queryFinish
    | 6 => .queryParam
    | _ => .queryRace

/-- The service engine's events due now: a completion whose time has come (R28), or the take of the next request (R27). -/
def State.engineEventsDue (s : State) : List Instr :=
  match s.engine.inService with
  | some v =>
    onlyIf (decide (((Config.serviceDelay v.draw % 41 : Nat) : Int) ≤ diff s.now v.takenAt)) .serviceComplete
  | none =>
    match s.nextRequest with
    | some (_, q) => [takeStep q]
    | none => []

/-- The race controller's timers, the round timer, the computation and the pacer (R5, R14, R63, R156). -/
def State.raceEventsDue (s : State) : List Instr :=
  onlyIf (expired s.now s.race.lobbyTimer) .lobbyExpiry ++
    onlyIf (expired s.now s.race.gridTimer) .gridExpiry ++
    onlyIf (expired s.now s.race.finishWindowTimer) .finishWindowExpiry ++
    onlyIf (expired s.now s.race.raceLimitTimer) .raceLimitExpiry ++
    onlyIf (expired s.now s.race.resultsHoldTimer) .resultsHoldExpiry ++
    onlyIf (expired s.now s.race.voidTimer) .voidExpiry ++
    onlyIf (decide (0 ≤ diff s.now s.time.nextBoundary)) .roundBoundary ++
    (match s.assembler.computation with
      | some c =>
        onlyIf (decide (((Config.computationDelay c.draw % 2001 : Nat) : Int) ≤ diff s.now c.startedAt))
          .roundComputationEnd
      | none => []) ++
    onlyIf s.pacerCrossingDue.isSome .pacerCrossing

/-- The events of the hub due at the present microsecond. -/
def State.eventsDue (s : State) : List Instr :=
  match allPorts.flatMap fun p => (s.port p).arrivalDue p with
  | [] =>
    (allPorts.flatMap fun p => (s.port p).eventsDue s.now p) ++ allPorts.flatMap s.seatEventsDue ++ s.engineEventsDue ++
      s.raceEventsDue
  | due => due

/-- Which of several due events is taken first: a free choice (log 3). -/
def chooseEvent (draw : Nat) (first : Instr) (rest : List Instr) : Instr :=
  ((first :: rest)[Config.tieOrder draw % (rest.length + 1)]?).getD first

/-- The trail of byte orders as hub time leaves a microsecond: the orders that hold join it, and the oldest leave it
(log 29). -/
def State.nextTrail (s : State) : Vector (Vector ByteOrder 8) 6 :=
  let old := s.orderTrail
  #v[map8 (fun _ x => x.order) s.seats, old[0], old[1], old[2], old[3], old[4]]

/-- Hub time advances by one (R1). -/
def tick (s : State) : State :=
  { s with time := { s.time with hubTime := s.time.hubTime + 1 }, orderTrail := s.nextTrail }

/-- The step on an empty queue. While RESET_N is low nothing happens and hub time stands at 0 (R17). -/
def idleStep (s : State) : State :=
  if s.resetHeld then s
  else
    match s.eventsDue with
    | [] => tick s
    | [c] => { s with pending := [c] }
    | c :: d :: rest => { s with pending := [chooseEvent s.freeDraws c (d :: rest)], freeDraws := s.freeDraws + 1 }

end Sys2Proof.Machine
end

