-- ==== Sys2Proof/Safety.lean ====
section
/-! DEFINITION. The terms in which claims are stated: the invariants of the hub, and what a command leaves as it was. -/

namespace Sys2Proof.Machine

/-! ## Invariants -/

/-- R162: the queue holds at most 32 events, and the frames being built carry at most 8. -/
def State.eventsBounded (s : State) : Bool :=
  decide (s.events.list.length ≤ 32) &&
    match s.assembler.computation with
    | some c => decide (c.drained.length ≤ 8)
    | none => true

/-- R180, R181, R183 at one port: in DOWN the error count is 255; in UP it is at most 254; in TRAINING it is the probe errors
of the pass, of which there are at most as many as probes resolved, and no echo wait runs after a failed pass. -/
def Port.countSound (q : Port) : Bool :=
  match q.link with
  | .down => q.errorCount == 255
  | .up => decide (q.errorCount ≤ 254)
  | .training =>
    match q.training with
    | some t =>
      t.errors == q.errorCount && decide (t.probe ≤ 15) && decide (t.errors ≤ 16) &&
        ((t.stage == .passFailed && t.echoWait.isNone) || decide (t.errors ≤ t.probe))
    | none => false

def State.countsSound (s : State) : Bool := allPorts.all fun p => (s.port p).countSound

/-- R73: a period lies in the band Pn − Pn/32 to Pn + Pn/32. -/
def inBand (nominal period : Nat) : Bool :=
  decide (nominal - nominal / 32 ≤ period) && decide (period ≤ nominal + nominal / 32)

/-- R65, R73 at one fit: in FIT_NONE there is no anchor, no age timer runs and the runs are 0; outside it the anchor is
present and the period lies in its band. The runs stay in their ranges. -/
def Fit.sound (f : Fit) : Bool :=
  (match f.phase with
    | .fitNone => f.anchor.isNone && f.ageTimer.isNone && f.inGate == 0 && f.outliers == 0 && f.period == f.nominal
    | .fitSettling | .fitTracking =>
      f.anchor.isSome &&
        match f.nominal, f.period with
        | some n, some p => inBand n p
        | _, _ => false) &&
    decide (f.inGate ≤ 15) && decide (f.outliers ≤ 2)

/-- Every fit is sound, and a seat with a cabinet has a nominal period (R21, R65). -/
def State.fitsSound (s : State) : Bool :=
  allPorts.all fun p => (s.fit p).sound && ((s.seat p).cabinet.isNone || (s.fit p).nominal.isSome)

/-- R92: the four counters of a seat are at most 255. -/
def Seat.countersFit (x : Seat) : Bool :=
  decide (x.duplicates ≤ 255) && decide (x.outOfOrder ≤ 255) && decide (x.implausible ≤ 255) && decide (x.resyncs ≤ 255)

def State.countersFit (s : State) : Bool := allPorts.all fun p => (s.seat p).countersFit

/-- R36, R152: 1 to 8 segments, each share at least 1, the shares adding to 256, each speed in 100 to 16,383 cm/s. -/
def profileSound (profile : List ProfileSegment) : Bool :=
  decide (1 ≤ profile.length) && decide (profile.length ≤ 8) && decide ((profile.map (·.share)).sum = 256) &&
    profile.all fun g => decide (1 ≤ g.share) && decide (100 ≤ g.speed) && decide (g.speed ≤ 16383)

def within (lo hi n : Nat) : Bool := decide (lo ≤ n) && decide (n ≤ hi)

/-- The ranges of R36's table. -/
def Settings.sound (x : Settings) : Bool :=
  within 8000 50000 x.roundPeriod && within 0 250000 x.horizon && within 0 1000 x.swapMargin &&
    within 0 1000 x.jumpTolerance && within 0 30000 x.jumpPenalty && within 5 120 x.lobbyTime && within 5 60 x.gridTime &&
    within 2000 10000 x.countdown && within 5 120 x.finishWindow && within 60 1800 x.raceLimit &&
    within 3 60 x.resultsHold && within 1 8 x.minimumField && within 50 2000 x.stallLimit && within 1 30 x.dropLimit &&
    profileSound x.profile

/-- The settings lie in their ranges, and so do the current and the pending round period (R5, R6, R35, R36). -/
def State.settingsSound (s : State) : Bool :=
  s.settings.sound && within 8000 50000 s.time.period &&
    match s.time.pendingPeriod with
    | some n => within 8000 50000 n
    | none => true

/-- ENTERED or READY: the states of a listed seat (R41). -/
def SeatState.entrant : SeatState → Bool
  | .entered | .ready => true
  | .vacant | .linked | .running | .stalled | .finished | .retired => false

/-- R41: a seat stands on the entry list at most once, and each listed seat is ENTERED or READY. -/
def State.entryListSound (s : State) : Bool :=
  decide s.race.entryList.Nodup && s.race.entryList.all fun p => (s.seat p).state.entrant

/-- R129: no entry of the finish list orders before one that stands above it. -/
def finishOrdered : List FinishEntry → Bool
  | [] => true
  | x :: rest => (rest.all fun y => !y.before x) && finishOrdered rest

/-- R192: what bounds the frames of a computation: at most 8 events, 8 entrants, 8 linked seats and 9 car entries; one controller
timer, in FINISHING two; lights in COUNTDOWN alone and a results round in RESULTS alone; and in FINISHING nine entries never all
with a finish time. -/
def Computation.framesBounded (c : Computation) : Bool :=
  let snap := c.snapshot
  decide (c.drained.length ≤ 8) && decide (snap.entries.length ≤ 8) && decide (snap.linkedSeats.length ≤ 8) &&
    decide (c.carEntries.length ≤ 9) && decide (snap.timers.length ≤ if snap.raceState = .finishing then 2 else 1) &&
    (snap.lights.isNone || snap.raceState == .countdown) && (snap.resultsRound.isNone || snap.raceState == .results) &&
    (snap.raceState != .finishing || decide (c.carEntries.length ≤ 8) || c.carEntries.any (·.finish.isNone))

/-- IDLE, LOBBY and GRID: the states before a field stands (R39). -/
def RaceState.beforeField : RaceState → Bool
  | .idle | .lobby | .grid => true
  | .countdown | .racing | .finishing | .results | .void => false

/-- What keeps every ROUND within 255 payload bytes (R192): the lights and the results round belong to their race states (R52,
R57); the field, the standings and the finish list name a car once (R50, R100, R129), and the pacer is in the field only when
ranked (R151); the finish list is empty before a field stands, and a car on it is RUNNING or STALLED no more (R128), nor does
the pacer cross again (R156); FINISHING ends once everyone is done (R56); the frozen entries number at most the field (R171); and
the computation in flight is bounded and ranks a car once. -/
def State.roundsSound (s : State) : Bool :=
  let r := s.race
  (r.lights.isNone || r.state == .countdown) && (r.resultsRound.isNone || r.state == .results) &&
    decide r.fieldList.Nodup && (!r.fieldList.contains pacerCar || r.pacerMode == some .ranked) &&
    decide (s.standings.map (·.car)).Nodup && decide (s.finishList.map (·.car)).Nodup &&
    (s.finishList.isEmpty || !r.state.beforeField) &&
    (s.finishList.all fun f =>
      s.carSeatState f.car != .running && s.carSeatState f.car != .stalled &&
        (f.car != pacerCar || s.pacer.nextCrossing.isNone)) &&
    (r.state != .finishing || !s.everyoneDone) &&
    (r.state != .results ||
      decide (s.assembler.results.length + (if r.pacerMode = some .running then 1 else 0) ≤ 9)) &&
    match s.assembler.computation with
    | some c => c.framesBounded && decide (((c.ranking.getD []).map (·.car)).Nodup)
    | none => true

/-! ## What a command leaves as it was -/

/-- Ports, seats, fits and car states of every index but `p` are as they were. -/
def OthersKept (p : PortId) (s t : State) : Prop :=
  ∀ r : PortId, r ≠ p → t.port r = s.port r ∧ t.seat r = s.seat r ∧ t.fit r = s.fit r ∧ t.car r = s.car r

/-- Nothing outside the records of ports, seats, fits and cars, the service engine and the count of free values has
changed. -/
def OutsideKept (s t : State) : Prop :=
  { t with ports := s.ports, seats := s.seats, fits := s.fits, cars := s.cars, engine := s.engine,
           freeDraws := s.freeDraws } = s

/-- The state after the take of the request of port `p` (R27, R28), with the reply decided: the buffer is empty, the arbiter
pointer names the port, and the engine holds the reply. Nothing else changes. -/
def State.taken (s : State) (p : PortId) (reply : Reply) : State :=
  { s.setPort p { s.port p with buffer := none } with
    engine := { pointer := p, inService := some { port := p, reply := reply, takenAt := s.now, draw := s.freeDraws } }
    freeDraws := s.freeDraws + 1 }

/-- After a take the engine holds this reply for port `p` (R27, R28). -/
def Answered (p : PortId) (reply : Reply) (s t : State) : Prop :=
  t.engine = { pointer := p, inService := some { port := p, reply := reply, takenAt := s.now, draw := s.freeDraws } } ∧
    t.freeDraws = s.freeDraws + 1 ∧ t.port p = { s.port p with buffer := none }

/-- The state as the request of port `p` is taken, but for the service engine: its buffer is empty (R27). -/
def State.emptied (s : State) (p : PortId) : State := s.setPort p { s.port p with buffer := none }

/-- `t` is `s` but for the service engine and the count of free values. -/
def KeptButEngine (s t : State) : Prop := { t with engine := s.engine, freeDraws := s.freeDraws } = s

/-- The command `c` answers the request of port `p`; where the reply refuses it, nothing but the engine has changed (R29). -/
def AnswersOrRefuses (c : Instr) (p : PortId) (s : State) : Prop :=
  ∃ t reply, exec c s = .next t ∧ Answered p reply s t ∧ (reply.reason.isSome = true → t = s.taken p reply)

/-! ## What the ends of a lobby and a grid leave -/

/-- R59, R61, R62: entry into IDLE from `s`. The race record, the standings, the lap records, the finish list and the event queue
are emptied; a seat the race held becomes LINKED if its link is UP and VACANT if not, and every seat loses its race fields; a
computation in flight installs no standings; fits, counters, settings, ports and hub time are kept. -/
def EntersIdle (s t : State) : Prop :=
  t.race = Race.reset ∧ t.standings = [] ∧ t.finishList = [] ∧ t.fastestLap = none ∧
  t.events = { list := [], overflow := false } ∧ t.pacerRecord = none ∧
  t.pacer = { scaled := none, nextCrossing := none } ∧
  t.assembler =
    { computation := s.assembler.computation.map fun c => { c with superseded := true }, results := [] } ∧
  (∀ c, t.lapRecord c = LapRecord.empty) ∧ (∀ p, t.car p = { latest := none, previous := none }) ∧
  (∀ p,
    let x := s.seat p
    let held : Prop := x.state ≠ .vacant ∧ x.state ≠ .linked
    (t.seat p).state = (if held then (if s.portUp p then .linked else .vacant) else x.state) ∧
    (t.seat p).cabinet = (if held ∧ s.portUp p = false then none else x.cabinet) ∧
    (t.seat p).gridPosition = none ∧ (t.seat p).stallPhase = none ∧ (t.seat p).recoveryRun = none ∧
    (t.seat p).frozenProgress = none ∧ (t.seat p).retireReason = none ∧ (t.seat p).retireProgress = none ∧
    (t.seat p).retireTime = none ∧ (t.seat p).gridProgress = none ∧ (t.seat p).jumped = false ∧
    (t.seat p).penalty = 0 ∧ (t.seat p).silenceTimer = none ∧ (t.seat p).dropTimer = none ∧
    (t.seat p).duplicates = x.duplicates ∧ (t.seat p).outOfOrder = x.outOfOrder ∧
    (t.seat p).implausible = x.implausible ∧ (t.seat p).resyncs = x.resyncs) ∧
  t.fits = s.fits ∧ t.settings = s.settings ∧ t.ports = s.ports ∧ t.time = s.time ∧ t.resetHeld = s.resetHeld ∧
  t.orderTrail = s.orderTrail ∧ t.pending = s.pending

/-- R61, R101: entry into VOID from `s`. Every controller timer and the silence timers of READY seats are cancelled, the void
timer of 3 s starts, the standings are emptied, and nothing else changes but the service engine. -/
def EntersVoid (s t : State) : Prop :=
  t.race = { s.race with
    state := .void, lights := none, lobbyTimer := none, gridTimer := none, finishWindowTimer := none,
    raceLimitTimer := none, resultsHoldTimer := none, voidTimer := startTimer s.now 3000000 } ∧
  (∀ p, t.seat p =
    { s.seat p with silenceTimer := if (s.seat p).state = .ready then none else (s.seat p).silenceTimer }) ∧
  t.standings = [] ∧
  t.assembler =
    { s.assembler with computation := s.assembler.computation.map fun c => { c with superseded := true } } ∧
  KeptButEngine s { t with race := s.race, seats := s.seats, standings := s.standings, assembler := s.assembler }

/-- R49 to R51, R95, R101, R119, R151, R153, R156: the grid closes in `s`. Entrants that are not READY become LINKED and lose
their car state. With enough READY seats the race enters COUNTDOWN: t0 is now, E is the first boundary at or after t0 plus the
countdown, the field is the READY seats in entry order with a ranked pacer last, each is RUNNING with its grid position, and the
standings stand in that order. With too few it enters VOID with them still listed. -/
def ClosesGrid (s t : State) : Prop :=
  let ready := s.race.entryList.filter fun p => (s.seat p).state == .ready
  let late := s.race.entryList.filter fun p => (s.seat p).state != .ready
  let mode := s.settings.pacerMode
  let field := ready.map carOf ++ (if mode = .ranked then [pacerCar] else [])
  (∀ p ∈ late, t.seat p = { s.seat p with state := .linked } ∧ t.car p = { latest := none, previous := none }) ∧
  (∀ p, p ∉ late → t.car p = s.car p) ∧
  (∀ p, p ∉ s.race.entryList → (s.seat p).state ≠ .ready → t.seat p = s.seat p) ∧
  t.events = late.foldl (fun q p => q.append (.retire p none .notReady)) s.events ∧
  (ready.length < s.settings.minimumField →
    t.race = { s.race with
      state := .void, entryList := ready, lights := none, lobbyTimer := none, gridTimer := none,
      finishWindowTimer := none, raceLimitTimer := none, resultsHoldTimer := none,
      voidTimer := startTimer s.now 3000000 } ∧
    t.standings = [] ∧ t.lapRecords = s.lapRecords ∧ t.pacer = s.pacer ∧ t.pacerRecord = s.pacerRecord ∧
    ∀ p ∈ ready, t.seat p = { s.seat p with silenceTimer := none }) ∧
  (s.settings.minimumField ≤ ready.length →
    t.race = { s.race with
      state := .countdown, entryList := [], fieldList := field, t0 := some s.now,
      epoch := some (s.time.firstBoundary (s.now + BitVec.ofNat 32 (s.settings.countdown * 1000))),
      lights := some 0, gridTimer := none, pacerMode := some mode } ∧
    (∀ (i : Nat) (p : PortId), ready[i]? = some p →
      t.seat p = { s.seat p with
        state := .running, gridPosition := some (i + 1), gridProgress := (s.car p).latest.map (·.progress) } ∧
      t.lapRecord (carOf p) =
        { highWater := some (match (s.car p).latest with
            | some cs => if cs.lap = .preLine then .preLine else .count 0
            | none => .preLine),
          lastCrossing := none, history := [], bestLap := none, finish := none }) ∧
    t.standings = field.map (fun c => { car := c, projected := none, stale := false }) ∧
    (mode = .off → t.pacerRecord = none) ∧
    (mode ≠ .off → t.pacerRecord = some .running ∧
      t.pacer.scaled = some (scaleProfile s.settings.profile s.lapLength) ∧
      t.pacer.nextCrossing =
        some { lap := 1, raceTime := (scaleProfile s.settings.profile s.lapLength).lapTime } ∧
      (t.lapRecord pacerCar).highWater = some (.count 0))) ∧
  t.fits = s.fits ∧ t.settings = s.settings ∧ t.ports = s.ports ∧ t.time = s.time ∧ t.finishList = s.finishList ∧
  t.fastestLap = s.fastestLap ∧ t.assembler.results = s.assembler.results

/-- R45: the consequences of a departure from the entry list, whose list and seat stand in `s` as the departure left them. An
empty list takes a lobby to IDLE and a grid to VOID, a grid of READY seats alone closes at once, and otherwise the race stays. -/
def Departed (s t : State) : Prop :=
  (s.race.state = .lobby → s.race.entryList = [] → EntersIdle s t) ∧
  (s.race.state = .grid → s.race.entryList = [] → EntersVoid s t) ∧
  (s.race.state = .grid → s.race.entryList ≠ [] → (∀ p ∈ s.race.entryList, (s.seat p).state = .ready) →
    ClosesGrid s t) ∧
  ((s.race.state ≠ .lobby ∧ s.race.state ≠ .grid) ∨ (s.race.state = .lobby ∧ s.race.entryList ≠ []) ∨
      (s.race.state = .grid ∧ ∃ p ∈ s.race.entryList, (s.seat p).state ≠ .ready) → KeptButEngine s t)

/-! ## What the ends of a race leave -/

/-- R56: every car of the field, a ranked pacer included, is FINISHED or RETIRED. -/
def AllDone (s : State) : Prop :=
  ∀ c ∈ s.race.fieldList, s.carSeatState c = .finished ∨ s.carSeatState c = .retired

/-- R57, R58, R113, R171: the race enters RESULTS from `s` under the results round `k` and stays there. The race timers, the health
timers of the field and the pacer's crossings stop, every counted seat's seen mark is clear and the hold timer starts; the
standings are the final ranking at hub time now with its PASS events appended, and the results entries are frozen from them and
the copy taken at the entry. Nothing else changes but the service engine. -/
def EntersResults (k : RoundNo) (s t : State) : Prop :=
  t.race = { s.race with
    state := .results, resultsRound := some k, lights := none, finishWindowTimer := none, raceLimitTimer := none
    resultsHoldTimer := startTimer s.now (s.settings.resultsHold * 1000000), seenMarks := t.race.seenMarks } ∧
  (∀ p : PortId, t.race.seenMarks[p] = if s.counted p = true then some false else none) ∧
  (∀ p, t.seat p =
    if carOf p ∈ s.race.fieldList then { s.seat p with silenceTimer := none, dropTimer := none } else s.seat p) ∧
  t.pacer = { s.pacer with nextCrossing := none } ∧
  (let final := (s.snapshot s.now).rank s.settings.horizon s.settings.swapMargin (s.recentStandings.map (·.car))
   t.standings = final.1 ∧
     t.events = final.2.foldl (fun q m => q.append (.pass m.1 m.2 (s.raceTime s.now))) s.events) ∧
  t.assembler =
    { computation := s.assembler.computation.map fun c => { c with superseded := true }
      results := t.standings.map (s.snapshot s.now).carEntry } ∧
  KeptButEngine s { t with
    race := s.race, seats := s.seats, pacer := s.pacer, standings := s.standings, events := s.events,
    assembler := s.assembler }

/-- R57 to R59: the race leaves `s` for RESULTS under `k`; with no counted seat whose link is UP the results are released at once
and the race stands in IDLE. -/
def EndsRace (k : RoundNo) (s t : State) : Prop :=
  ((∃ p, s.counted p = true ∧ s.portUp p = true) → EntersResults k s t) ∧
  ((∀ p, s.counted p = true → s.portUp p = false) → EntersIdle s t)

/-- R54, R56: what follows a retirement that stands in `s`. In COUNTDOWN the race enters VOID once every cabinet seat of the field
is RETIRED; in RACING and FINISHING it ends under the number of the next boundary once every car is done. -/
def RetirementTold (s t : State) : Prop :=
  let inRace : Prop := s.race.state = .racing ∨ s.race.state = .finishing
  (s.race.state = .countdown → (∀ r, carOf r ∈ s.race.fieldList → (s.seat r).state = .retired) → EntersVoid s t) ∧
  (s.race.state = .countdown → (∃ r, carOf r ∈ s.race.fieldList ∧ (s.seat r).state ≠ .retired) → KeptButEngine s t) ∧
  (inRace → AllDone s → EndsRace (s.time.roundNumber + 1) s t) ∧ (inRace → ¬AllDone s → KeptButEngine s t)

/-- R53, R55, R56: what follows a finish that stands in `s`. In COUNTDOWN the race stays; in RACING it enters FINISHING with the
finish-window timer started; and in RACING and FINISHING it ends under the number of the next boundary once every car is done. -/
def FinishTold (s t : State) : Prop :=
  let inRace : Prop := s.race.state = .racing ∨ s.race.state = .finishing
  let told : State :=
    if s.race.state = .racing then
      { s with race := { s.race with
        state := .finishing, finishWindowTimer := startTimer s.now (s.settings.finishWindow * 1000000) } }
    else s
  (s.race.state = .countdown → KeptButEngine s t) ∧
  (inRace → AllDone s → EndsRace (s.time.roundNumber + 1) told t) ∧ (inRace → ¬AllDone s → KeptButEngine told t)

/-- R10, R13, R14, R102, R165: a boundary at hub time `b` that sends, from `u` as the race controller left it. The demand flag is
cleared, and a computation begins with the snapshot of `u`; in COUNTDOWN, RACING and FINISHING the field is ranked and the PASS
events appended; and up to 8 events are drained with the overflow flag. -/
def BeginsComputation (b : HubTime) (u t : State) : Prop :=
  ∃ c, t.assembler = { u.assembler with computation := some c } ∧
    c.number = u.time.roundNumber ∧ c.startedAt = b ∧ c.superseded = false ∧ c.addressees = allPorts.filter u.portUp ∧
    c.snapshot = u.snapshot b ∧
    (let ranked := c.snapshot.rank u.settings.horizon u.settings.swapMargin (u.standings.map (·.car))
     let moves := if u.race.state.live = true then ranked.2 else []
     let queue := moves.foldl (fun q m => q.append (.pass m.1 m.2 c.snapshot.raceTime)) u.events
     c.ranking = (if u.race.state.live = true then some ranked.1 else none) ∧
       c.drained = queue.list.take 8 ∧ c.overflow = queue.overflow ∧
       t.events = { list := queue.list.drop 8, overflow := false }) ∧
    t.time = { u.time with roundDemand := false } ∧
    { t with time := u.time, events := u.events, freeDraws := u.freeDraws, assembler := u.assembler } = u

/-! ## The receiver over a run of bytes -/

/-- The remaining steps of the receiver over a run of bytes that arrive back to back, the first of them whole at `now`
(R175, R182): the receiver after it and the frames it completed, oldest first. -/
def receive (order : ByteOrder) : Receiver → HubTime → List Byte → Receiver × List RxFrame
  | r, _, [] => (r, [])
  | r, now, b :: rest =>
    let (r1, frame) := r.take now order b
    let (r2, frames) := receive order r1 (now + 5) rest
    (r2, frame.toList ++ frames)

end Sys2Proof.Machine
end

