-- ==== Sys2Proof/Certificates/Slice0/Obligations.lean ====
section
/-! DEFINITION. The statements for the provers, each a named proposition about the model. -/

open Sys2Proof Sys2Proof.Machine

/-! ## The step, time and reset -/

/-- A step carries out the command at the front of the queue with the queue's rest. This says how the model runs commands (log
1); no rule of the spec names the queue. -/
def Obligations.StepRunsFrontCommand : Prop :=
  ∀ (c : Instr) (rest : List Instr) (s : State),
    step { s with pending := c :: rest } = exec c { s with pending := rest }

/-- On an empty queue hub time advances by one when no event of the hub is due (R1), the byte orders that held joining the trail
(R19, log 29); a due event is raised while hub time stands (R5, R15); and hub time stands while RESET_N is low (R17). While no
arrived frame waits to be handled, a round boundary, a controller timer's expiry and a seat's timer's expiry are due exactly
when hub time has reached them. That a step on an empty queue is one microsecond, and that it raises what is due, is the model's
choice (log 1); which of several due events is raised is free (log 3). -/
def Obligations.EmptyQueueRunsTheClock : Prop :=
  ∀ s : State, s.pending = [] →
    (s.resetHeld = false → s.eventsDue = [] →
      ∃ trail, step s = .next { s with
          time := { s.time with hubTime := s.time.hubTime + 1 }, orderTrail := trail } ∧
        ∀ p : PortId, trail[0][p] = s.orderAt p ∧ trail[1][p] = s.orderTrail[0][p] ∧ trail[2][p] = s.orderTrail[1][p] ∧
          trail[3][p] = s.orderTrail[2][p] ∧ trail[4][p] = s.orderTrail[3][p] ∧ trail[5][p] = s.orderTrail[4][p]) ∧
    (s.resetHeld = false → s.eventsDue ≠ [] →
      ∃ c ∈ s.eventsDue, ∃ draws, step s = .next { s with pending := [c], freeDraws := draws } ∧
        (s.eventsDue.length = 1 → draws = s.freeDraws)) ∧
    (s.resetHeld = true → step s = .next s) ∧
    ((∀ p, (s.port p).arrived = none ∧ (s.port p).handed = none) →
      (.roundBoundary ∈ s.eventsDue ↔ 0 ≤ diff s.now s.time.nextBoundary) ∧
      (.lobbyExpiry ∈ s.eventsDue ↔ expired s.now s.race.lobbyTimer = true) ∧
      (.gridExpiry ∈ s.eventsDue ↔ expired s.now s.race.gridTimer = true) ∧
      (.finishWindowExpiry ∈ s.eventsDue ↔ expired s.now s.race.finishWindowTimer = true) ∧
      (.raceLimitExpiry ∈ s.eventsDue ↔ expired s.now s.race.raceLimitTimer = true) ∧
      (.resultsHoldExpiry ∈ s.eventsDue ↔ expired s.now s.race.resultsHoldTimer = true) ∧
      (.voidExpiry ∈ s.eventsDue ↔ expired s.now s.race.voidTimer = true) ∧
      ∀ p : PortId,
        (.silenceExpiry p ∈ s.eventsDue ↔ expired s.now (s.seat p).silenceTimer = true) ∧
        (.dropExpiry p ∈ s.eventsDue ↔ expired s.now (s.seat p).dropTimer = true) ∧
        (.anchorAgeExpiry p ∈ s.eventsDue ↔ expired s.now (s.fit p).ageTimer = true))

/-- R2, R15: the signed reading of a difference of hub times, and a timer started at `now` with `d` µs: after `k` µs it has
expired exactly when `d ≤ k`, across a wrap too, and its remaining time is `d − k`, never negative. -/
def Obligations.TimerRunsForItsDuration : Prop :=
  (∀ a b : HubTime,
    let m : Nat := (a.toNat + 2 ^ 32 - b.toNat) % 2 ^ 32
    diff a b = if m < 2 ^ 31 then (m : Int) else (m : Int) - 2 ^ 32) ∧
  ∀ (now : HubTime) (d k : Nat), d < 2 ^ 31 → k < 2 ^ 31 →
    expired (now + BitVec.ofNat 32 k) (startTimer now d) = decide (d ≤ k) ∧
    remaining (now + BitVec.ofNat 32 k) (startTimer now d) = some (d - k)

/-- R17, R18, R39, R65, R98, R100, R118, R135, R153, R162, R171, R176: every value the spec gives for reset. -/
def Obligations.ResetWritesTheResetValues : Prop :=
  ∀ s : State, ∃ t, exec .reset s = .next t ∧
    t.time = { hubTime := 0, period := 16000, pendingPeriod := none, lastBoundary := none, nextBoundary := 16000,
               roundNumber := 0, roundDemand := false } ∧
    t.engine = { pointer := 7, inService := none } ∧
    t.settings = { roundPeriod := 16000, horizon := 100000, swapMargin := 30, jumpTolerance := 50, jumpPenalty := 5000,
                   lobbyTime := 30, gridTime := 15, countdown := 5000, finishWindow := 30, raceLimit := 900,
                   resultsHold := 10, minimumField := 2, stallLimit := 250, dropLimit := 5, pacerMode := .off,
                   profile := [{ share := 256, speed := 2000 }] } ∧
    (∀ p, t.seat p =
      { state := .vacant, stallPhase := none, recoveryRun := none, cabinet := none, gridPosition := none,
        retireReason := none, gridProgress := none, jumped := false, penalty := 0, frozenProgress := none,
        retireProgress := none, retireTime := none, duplicates := 0, outOfOrder := 0, implausible := 0, resyncs := 0,
        silenceTimer := none, dropTimer := none }) ∧
    (∀ p, t.fit p =
      { phase := .fitNone, anchor := none, period := none, nominal := none, inGate := 0, outliers := 0,
        ageTimer := none }) ∧
    (∀ p, t.car p = { latest := none, previous := none }) ∧
    (∀ c, t.lapRecord c = { highWater := none, lastCrossing := none, history := [], bestLap := none, finish := none }) ∧
    (∀ p, (t.port p).link = .down ∧ (t.port p).lockWatch = none ∧ (t.port p).training = none ∧ (t.port p).delay = 0 ∧
      (t.port p).errorCount = 255 ∧ (t.port p).buffer = none ∧ (t.port p).reply = none ∧ (t.port p).round = none ∧
      (t.port p).overrun = false ∧ (t.port p).receiver = .hunting ∧ (t.port p).sending = .filler) ∧
    t.pacerRecord = none ∧ t.fastestLap = none ∧ t.finishList = [] ∧ t.standings = [] ∧
    t.race.state = .idle ∧ t.race.descriptor = none ∧ t.race.t0 = none ∧ t.race.epoch = none ∧ t.race.lights = none ∧
    t.race.resultsRound = none ∧ t.race.entryList = [] ∧ t.race.fieldList = [] ∧ (∀ p : PortId, t.race.seenMarks[p] = none) ∧
    t.race.lobbyTimer = none ∧ t.race.gridTimer = none ∧ t.race.finishWindowTimer = none ∧ t.race.raceLimitTimer = none ∧
    t.race.resultsHoldTimer = none ∧ t.race.voidTimer = none ∧
    t.pacer = { scaled := none, nextCrossing := none } ∧ t.events = { list := [], overflow := false } ∧
    t.assembler = { computation := none, results := [] }

/-- R193: while RESET_N is low every block is held, so no command but RESET and RESET_RELEASE changes anything; at the release
each transmitter begins a filler byte (5 µs, R175) and nothing else changes. That a command while RESET_N is low is without
effect is read from R193 (log 2). -/
def Obligations.ResetHoldsTheHubUntilRelease : Prop :=
  (∀ (c : Instr) (s : State), s.resetHeld = true → c ≠ .reset → c ≠ .resetRelease → exec c s = .next s) ∧
  ∀ s : State, s.resetHeld = true → ∃ t, exec .resetRelease s = .next t ∧ t.resetHeld = false ∧
    (∀ p, t.port p = { s.port p with sending := .filler, sendEnds := s.now + 5 }) ∧
    { t with resetHeld := s.resetHeld, ports := s.ports } = s

/-! ## Rounds -/

/-- R5, R6, R8, R10: in every race state a boundary that is due advances the round number, installs a pending period, becomes
the last boundary and places the next one a period later; after it the round demand flag is clear, and hub time has not
moved. That a boundary taken late is stamped with its own hub time is the model's choice (log 22). -/
def Obligations.BoundaryAdvancesTheRound : Prop :=
  ∀ s : State, s.resetHeld = false → 0 ≤ diff s.now s.time.nextBoundary →
    ∃ t, exec .roundBoundary s = .next t ∧
      t.time =
        { hubTime := s.time.hubTime
          period := s.time.pendingPeriod.getD s.time.period
          pendingPeriod := none
          lastBoundary := some s.time.nextBoundary
          nextBoundary := s.time.nextBoundary + BitVec.ofNat 32 (s.time.pendingPeriod.getD s.time.period)
          roundNumber := s.time.roundNumber + 1
          roundDemand := false }

/-- R9, R10, R13, R14, R102, R165: the cadence. In IDLE a boundary that is neither a sixteenth nor demanded does its work at
the timebase and nothing else. Any other boundary outside COUNTDOWN sends: it begins a computation with the snapshot of the
boundary, ranks in RACING and FINISHING with the PASS events of the ranking appended, and drains up to 8 events with the
overflow flag. -/
def Obligations.BoundarySendsByCadence : Prop :=
  ∀ s : State, s.resetHeld = false → 0 ≤ diff s.now s.time.nextBoundary → s.race.state ≠ .countdown →
    ((s.race.state = .idle ∧ (s.time.roundNumber + 1).toNat % 16 ≠ 0 ∧ s.time.roundDemand = false) →
      ∃ t, exec .roundBoundary s = .next t ∧ { t with time := s.time } = s) ∧
    ((s.race.state ≠ .idle ∨ (s.time.roundNumber + 1).toNat % 16 = 0 ∨ s.time.roundDemand = true) →
      ∃ t c, exec .roundBoundary s = .next t ∧ t.assembler.computation = some c ∧
        c.number = s.time.roundNumber + 1 ∧ c.startedAt = s.time.nextBoundary ∧ c.superseded = false ∧
        c.addressees = allPorts.filter s.portUp ∧ c.snapshot = s.snapshot s.time.nextBoundary ∧
        (let ranked := c.snapshot.rank s.settings.horizon s.settings.swapMargin (s.standings.map (·.car))
         let live := s.race.state = .racing ∨ s.race.state = .finishing
         let moves := if live then ranked.2 else []
         let queue := moves.foldl (fun q m => q.append (.pass m.1 m.2 c.snapshot.raceTime)) s.events
         c.ranking = (if live then some ranked.1 else none) ∧
           c.drained = queue.list.take 8 ∧ c.overflow = queue.overflow ∧
           t.events = { list := queue.list.drop 8, overflow := false }) ∧
        t.assembler.results = s.assembler.results ∧
        { t with time := s.time, events := s.events, freeDraws := s.freeDraws, assembler := s.assembler } = s)

/-- R13, R52, R102, R165: at a boundary before E the lights become floor((h − t0) × 6 / (E − t0)), capped at 5; the count never
falls as h rises. The boundary sends: it begins a computation with the snapshot taken after the lights, ranks the field with the
PASS events of the ranking appended, and drains up to 8 events with the overflow flag. -/
def Obligations.CountdownLightsRise : Prop :=
  (∀ (s : State) (t0 e : HubTime), s.resetHeld = false → 0 ≤ diff s.now s.time.nextBoundary →
    s.race.state = .countdown → s.race.t0 = some t0 → s.race.epoch = some e → s.time.nextBoundary ≠ e →
    ∃ t c, exec .roundBoundary s = .next t ∧
      t.race = { s.race with
        lights := some (min 5 (Int.fdiv (diff s.time.nextBoundary t0 * 6) (diff e t0))).toNat } ∧
      t.assembler = { s.assembler with computation := some c } ∧
      c.number = s.time.roundNumber + 1 ∧ c.startedAt = s.time.nextBoundary ∧ c.superseded = false ∧
      c.addressees = allPorts.filter s.portUp ∧
      c.snapshot = ({ s with race := t.race } : State).snapshot s.time.nextBoundary ∧
      (let ranked := c.snapshot.rank s.settings.horizon s.settings.swapMargin (s.standings.map (·.car))
       let queue := ranked.2.foldl (fun q m => q.append (.pass m.1 m.2 (diff s.time.nextBoundary e))) s.events
       c.ranking = some ranked.1 ∧ c.drained = queue.list.take 8 ∧ c.overflow = queue.overflow ∧
         t.events = { list := queue.list.drop 8, overflow := false }) ∧
      { t with race := s.race, time := s.time, events := s.events, freeDraws := s.freeDraws,
               assembler := s.assembler } = s) ∧
  ∀ t0 e b b' : HubTime, 0 < diff e t0 → 0 ≤ diff b t0 → diff b t0 ≤ diff b' t0 →
    lightsAt b t0 e ≤ lightsAt b' t0 e ∧ lightsAt b' t0 e ≤ 5

/-- R9, R10, R13, R14, R53, R102, R165: at the boundary whose hub time is E the race becomes RACING and the race-limit timer
starts; with a finish already recorded it becomes FINISHING at once with the finish-window timer too; with every car done it
ends under that boundary's number, in RESULTS while a counted seat with its link UP is to be waited for (R57) and else in IDLE
at once (R58). The boundary then sends by the cadence of the state that leaves: it takes its snapshot and begins its
computation there, in RACING and FINISHING with the ranking and its PASS events at race time 0, and drains up to 8 events. -/
def Obligations.GreenStartsTheRace : Prop :=
  ∀ (s : State) (t0 : HubTime), s.resetHeld = false → 0 ≤ diff s.now s.time.nextBoundary →
    s.race.state = .countdown → s.race.t0 = some t0 → s.race.epoch = some s.time.nextBoundary →
    let period := s.time.pendingPeriod.getD s.time.period
    let ticked : State := { s with
      time := { s.time with
        period := period, pendingPeriod := none, lastBoundary := some s.time.nextBoundary
        nextBoundary := s.time.nextBoundary + BitVec.ofNat 32 period, roundNumber := s.time.roundNumber + 1 } }
    let racing : State := { ticked with
      race := { s.race with
        state := .racing, lights := none, raceLimitTimer := startTimer s.now (s.settings.raceLimit * 1000000) } }
    let started : State :=
      if s.finishList = [] then racing
      else { racing with race := { racing.race with
        state := .finishing, finishWindowTimer := startTimer s.now (s.settings.finishWindow * 1000000) } }
    ∃ u t, exec .roundBoundary s = .next t ∧
      (¬AllDone s → u = started ∧ ∀ c, t.assembler.computation = some c → c.snapshot.raceTime = 0) ∧
      (AllDone s → EndsRace (s.time.roundNumber + 1) started u ∧ u.engine = s.engine ∧ u.freeDraws = s.freeDraws) ∧
      (u.race.state ≠ .idle ∨ u.time.roundNumber.toNat % 16 = 0 ∨ u.time.roundDemand = true →
        BeginsComputation s.time.nextBoundary u t) ∧
      (u.race.state = .idle → u.time.roundNumber.toNat % 16 ≠ 0 → u.time.roundDemand = false → t = u)

/-- R7: the first boundary at or after h: the next boundary itself, or the next boundary plus the least number of periods
that reaches h, the pending period where one is held. -/
def Obligations.FirstBoundaryAtOrAfter : Prop :=
  ∀ (t : Timebase) (h : HubTime),
    let period := t.pendingPeriod.getD t.period
    0 < period →
    (diff h t.nextBoundary ≤ 0 → t.firstBoundary h = t.nextBoundary) ∧
    (0 < diff h t.nextBoundary → ∃ k : Nat, t.firstBoundary h = t.nextBoundary + BitVec.ofNat 32 (k * period) ∧
      diff h t.nextBoundary ≤ k * period ∧ (k * period : Int) < diff h t.nextBoundary + period)

/-- R14, R19, R102, R173: the end of a computation places each frame in the ROUND slot of its addressee still UP, in that
seat's byte order as it stands, and installs the computation's standings unless the race has since entered RESULTS, VOID or
IDLE. R167 to R172, R191: a frame's payload is, in its byte order, the common part, the race or field part and the personal
part, each field at its width. R169, R170: the entry of a car as the ranking and the snapshot give it. R160: the entry of the
pacer, ranked or not. R192: the payload of a bounded computation never exceeds 255 bytes. That all the frames are placed at
the end is the model's choice (log 5). -/
def Obligations.ComputationEndPlacesTheFrames : Prop :=
  (∀ (c : Computation) (p : PortId) (order : ByteOrder),
    let snap := c.snapshot
    let x := snap.seats[p]
    let flag (b : Bool) (k : Nat) : Nat := if b then 2 ^ k else 0
    let event (e : Event) : List Field := match e with
      | .lap car k time fastest unverified =>
        [byteField (1 + flag fastest 4 + flag unverified 5), byteField car.val, byteField k, longField time]
      | .finish car k time jumped unverified =>
        [byteField (2 + flag jumped 4 + flag unverified 5), byteField car.val, byteField k, longField time]
      | .jump r time => [byteField 3, byteField r.val, byteField 255, longField time]
      | .stall r time rejoin => [byteField (4 + flag rejoin 4), byteField r.val, byteField 255, longField time]
      | .resume r time => [byteField 5, byteField r.val, byteField 255, longField time]
      | .retire r time reason =>
        [byteField (6 + 16 * match reason with | .linkLost => 1 | .withdrawn => 2 | .notReady => 3), byteField r.val,
          byteField 255, longField (time.getD 0)]
      | .pass a b time => [byteField 7, byteField a.val, byteField b.val, longField time]
    let entry (e : CarEntry) : List Field :=
      [byteField e.car.val, byteField (match e.laps with | .preLine => 255 | .count k => k),
        wordField (flag e.flags.stale 0 + flag e.flags.stalled 1 + flag e.flags.recovering 2 + flag e.flags.jumped 3 +
          flag e.flags.finished 4 + flag e.flags.retired 5 + flag e.flags.pacer 6 + flag e.flags.car.pit 7 +
          flag e.flags.car.offCourse 8 + flag e.flags.car.wrongWay 9 + flag e.speed.isSome 10 + flag e.finish.isSome 11 +
          flag e.best.isSome 12 + flag e.ranked 13),
        longField e.progress] ++
        e.speed.toList.map (fun v => { width := 2, value := v }) ++ e.finish.toList.map longField ++
        e.best.toList.flatMap fun b => [byteField b.lap, longField b.time]
    let field (entries : List CarEntry) : List Field := byteField entries.length :: entries.flatMap entry
    let common : List Field :=
      [wordField c.number.toNat,
        wordField (snap.raceState.code + flag (decide (snap.raceState ≠ .idle)) 3 + flag c.overflow 4 +
          flag (decide (snap.resultsRound = some c.number)) 5 + flag snap.epoch.isSome 6 + c.drained.length * 128)] ++
        (snap.epoch.toList.map fun e => longField (diff snap.instant e)) ++ snap.lights.toList.map byteField ++
        (snap.timers.map fun (n : Nat) => longField n) ++ (snap.resultsRound.toList.map fun k => wordField k.toNat) ++
        c.drained.flatMap event
    let lobby : List Field :=
      (snap.descriptor.toList.flatMap fun d =>
        [wordField d.track, { width := 3, value := d.lapLength }, byteField d.lapCount]) ++
        byteField snap.entries.length :: snap.entries.map fun e => byteField (e.1.val + flag e.2 7)
    let part : List Field := match snap.raceState with
      | .idle =>
        byteField snap.linkedSeats.length ::
          snap.linkedSeats.flatMap fun e => [byteField e.1.val, longField e.2.toNat]
      | .lobby => lobby
      | .grid => lobby
      | .void => lobby
      | .countdown => field ((c.ranking.getD []).map snap.carEntry ++ snap.pacerEntry)
      | .racing => field ((c.ranking.getD []).map snap.carEntry ++ snap.pacerEntry)
      | .finishing => field ((c.ranking.getD []).map snap.carEntry ++ snap.pacerEntry)
      | .results => field (snap.results ++ snap.pacerEntry)
    let personal : List Field :=
      if x.state = .vacant then [byteField (p.val + 192)]
      else
        byteField (p.val + x.state.code * 8 + x.fit.code * 64) ::
          match x.period, x.lastFitted with
          | some n, some t => [longField n, longField t.toNat, longField (diff snap.instant t)]
          | _, _ => []
    c.payloadFor p order = writeFields order (common ++ part ++ personal) ∧
      (c.framesBounded = true → (c.payloadFor p order).length ≤ 255)) ∧
  (∀ (snap : Snapshot) (e : StandingsEntry) (x : SnapCar), snap.carOf? e.car = some x → e.car ≠ pacerCar →
    snap.carEntry e =
      { car := e.car, laps := x.highWater.getD .preLine, ranked := true, progress := e.projected.getD 0
        speed := x.latest.map (·.speed)
        finish := if x.state = .finished then x.finish.map (·.corrected) else none
        best := x.best
        flags :=
          { stale := e.stale, stalled := x.state == .stalled, recovering := x.phase == some .recovering,
            jumped := x.jumped, finished := x.state == .finished, retired := x.state == .retired, pacer := false
            car := match x.latest with
              | some cs => cs.flags
              | none => { pit := false, offCourse := false, wrongWay := false } } }) ∧
  (∀ (s : State) (b : HubTime) (e : HubTime) (table : ScaledProfile), s.race.epoch = some e →
    s.pacer.scaled = some table →
    let record := s.lapRecord pacerCar
    let view := table.view s.lapLength s.lapCount (diff b e)
    let entry (ranked : Bool) (progress : Int) (finish : Option Int) : CarEntry :=
      { car := pacerCar, laps := record.highWater.getD .preLine, ranked := ranked, progress := progress
        speed := some view.speed, finish := finish, best := record.bestLap
        flags :=
          { stale := false, stalled := false, recovering := false, jumped := false,
            finished := s.pacerRecord == some .finished, retired := false, pacer := true,
            car := { pit := false, offCourse := false, wrongWay := false } } }
    (∀ x : StandingsEntry, x.car = pacerCar → pacerCar ∈ s.race.fieldList →
      (s.snapshot b).carEntry x = entry true (x.projected.getD 0)
        (if s.pacerRecord = some .finished then record.finish.map (·.corrected) else none)) ∧
    (s.race.pacerMode = some .running → s.race.state.live = true ∨ s.race.state = .results →
      (s.snapshot b).pacerEntry = [entry false view.progress none]) ∧
    (s.race.pacerMode ≠ some .running → (s.snapshot b).pacerEntry = [])) ∧
  ∀ (s : State) (c : Computation), s.resetHeld = false → s.assembler.computation = some c →
    ∃ t, exec .roundComputationEnd s = .next t ∧
      t.assembler = { s.assembler with computation := none } ∧
      (∀ p, t.port p =
        if p ∈ c.addressees ∧ (s.port p).link = .up then
          { s.port p with round := some (c.payloadFor p (s.orderAt p)) }
        else s.port p) ∧
      t.standings = (if c.superseded = true then s.standings else c.ranking.getD s.standings) ∧
      { t with assembler := s.assembler, ports := s.ports, standings := s.standings } = s

/-- R164, R165: an event joins at the tail of a queue with room for it; a full queue keeps what it holds and sets the overflow
flag; the drain removes the 8 oldest and clears the flag. -/
def Obligations.QueueAppendsAndDrains : Prop :=
  (∀ (q : EventQueue) (e : Event),
    (q.list.length < 32 → q.append e = { list := q.list ++ [e], overflow := q.overflow }) ∧
    (32 ≤ q.list.length → q.append e = { list := q.list, overflow := true })) ∧
  (∀ q : EventQueue, q.drain = { list := q.list.drop 8, overflow := false }) ∧
  ∀ (e : Event) (s : State), (appendEvent e s).events = s.events.append e ∧
    { appendEvent e s with events := s.events } = s

/-! ## Invariants that every step keeps -/

/-- R162: the event queue never holds more than 32 events, and a boundary's frames carry at most 8. R192: on what keeps every
frame within 255 payload bytes, and a sound entry list, a step keeps the former. -/
def Obligations.StepKeepsEventQueueBounded : Prop :=
  ∀ s t : State, step s = .next t →
    (s.eventsBounded = true → t.eventsBounded = true) ∧
    (s.roundsSound = true → s.entryListSound = true → t.roundsSound = true)

/-- R180, R181, R183: the error count is 255 exactly when the port has lost lock, and otherwise at most 254. -/
def Obligations.StepKeepsLinkErrorCounts : Prop :=
  ∀ s t : State, s.countsSound = true → step s = .next t →
    t.countsSound = true ∧ ∀ p, (t.port p).errorCount = 255 ↔ (t.port p).link = .down

/-- R65, R73, R92: every fit's period stays in its band, its anchor is present exactly outside FIT_NONE, and the seat counters
stay within 255. -/
def Obligations.StepKeepsFitsInTheirBands : Prop :=
  ∀ s t : State, s.fitsSound = true → s.countersFit = true → step s = .next t →
    t.fitsSound = true ∧ t.countersFit = true

/-- R6, R35, R36, R152: every setting stays in its range, the profile's shares add to 256, and the round period in force and
the pending one stay within 8,000 to 50,000 µs. -/
def Obligations.StepKeepsSettingsInRange : Prop :=
  ∀ s t : State, s.settingsSound = true → step s = .next t → t.settingsSound = true

/-- R41: a seat stands on the entry list at most once, the list holds at most 8 seats, and each listed seat is ENTERED or
READY. -/
def Obligations.StepKeepsEntryListSound : Prop :=
  ∀ s t : State, s.entryListSound = true → step s = .next t →
    t.entryListSound = true ∧ t.race.entryList.length ≤ 8

/-- R129: the finish list stays ordered by corrected finish, then raw finish, then seat number. -/
def Obligations.StepKeepsFinishListOrdered : Prop :=
  ∀ s t : State, finishOrdered s.finishList = true → step s = .next t → finishOrdered t.finishList = true

/-- The state after reset meets every invariant stated here. -/
def Obligations.ResetMeetsTheInvariants : Prop :=
  State.reset.eventsBounded = true ∧ State.reset.countsSound = true ∧ State.reset.fitsSound = true ∧
    State.reset.countersFit = true ∧ State.reset.settingsSound = true ∧ State.reset.entryListSound = true ∧
    State.reset.roundsSound = true ∧ finishOrdered State.reset.finishList = true

/-! ## What only one event writes -/

/-- R1, R34, R40, R176: no command but RESET moves hub time; settings are written only by SETUP and RESET; the race descriptor
stays fixed while the race stays out of IDLE; and a link delay is written only at the end of a training pass that takes the
port UP, or by RESET. -/
def Obligations.ClockSettingsDescriptorAndDelayAreHeld : Prop :=
  ∀ (c : Instr) (s t : State), c ≠ .reset → exec c s = .next t →
    t.time.hubTime = s.time.hubTime ∧
    (c ≠ .setup → t.settings = s.settings) ∧
    (s.race.state ≠ .idle → t.race.state ≠ .idle → t.race.descriptor = s.race.descriptor) ∧
    ∀ p, (t.port p).delay = (s.port p).delay ∨ ((s.port p).link = .training ∧ (t.port p).link = .up)

/-! ## The service engine -/

/-- R26, R184: a service request that arrives at a port in UP enters an empty buffer; at a full one it is discarded and the
overrun flag is set, and the request held is kept. At a port that is not UP it is discarded. The frame's staging is the
model's (log 9). -/
def Obligations.RequestEntersTheBuffer : Prop :=
  ∀ (p : PortId) (k : ServiceKind) (m : Inbound) (s : State), s.resetHeld = false →
    ((s.port p).link = .up → (s.port p).buffer = none →
      exec (.serviceRequestArrival p k m) s = .next (s.setPort p
        { s.port p with handed := none, buffer := some { kind := k, order := m.order, payload := m.payload } })) ∧
    ((s.port p).link = .up → (s.port p).buffer.isSome = true →
      exec (.serviceRequestArrival p k m) s = .next (s.setPort p
        { s.port p with handed := none, overrun := true, lostSinceReply := true })) ∧
    ((s.port p).link ≠ .up →
      exec (.serviceRequestArrival p k m) s = .next (s.setPort p { s.port p with handed := none }))

/-- R27, R28: a free engine takes the request of the first eligible port counting up from the pointer, the pointer's own port
last; a busy one takes none. -/
def Obligations.ArbiterTakesTheFirstEligiblePort : Prop :=
  ∀ s : State,
    (s.engine.inService = none → ∀ (p : PortId) (q : Request),
      s.nextRequest = some (p, q) ↔
        ((s.port p).buffer = some q ∧ (s.port p).reply = none ∧
          ∀ r : PortId, (r - (s.engine.pointer + 1)).val < (p - (s.engine.pointer + 1)).val →
            ¬((s.port r).buffer.isSome = true ∧ (s.port r).reply = none))) ∧
    (s.engine.inService ≠ none → s.nextRequest = none)

/-- R32, R33, R191: an accepted QUERY returns the entry of its table as it stands at the take and changes no state but the
engine's. One clause for each of the seven tables, for every index in the table's range, with the items of R33 in their order:
a presence byte and the value. A list is a count byte and its members. How items are grouped, and their widths where the spec
leaves them open, is the model's choice (logs 13 and 14), and so is the order of the four counters (log 32); the codes of byte
order, stall phase and provisional or final are free values (log 12). -/
def Obligations.QueryReturnsTheLiveEntry : Prop :=
  ∀ (s : State) (p : PortId) (q : Request), s.resetHeld = false → s.nextRequest = some (p, q) → q.kind = .query →
    (s.seat p).state ≠ .vacant →
    let answer (table index : Nat) (items : List Field) : Reply :=
      { kind := .query, reason := none, clamped := false, body := byteField table :: byteField index :: items,
        order := none }
    let item (x : Option (List Field)) : List Field := match x with
      | none => [byteField 0]
      | some value => byteField 1 :: value
    let byte (x : Option Nat) : List Field := item (x.map fun n => [byteField n])
    let word (x : Option Nat) : List Field := item (x.map fun n => [wordField n])
    let long (x : Option Int) : List Field := item (x.map fun n => [longField n])
    let time (x : Option HubTime) : List Field := long (x.map fun h => (h.toNat : Int))
    let count (l : List Field) : List Field := byteField l.length :: l
    let flag (b : Bool) : Nat := if b then 1 else 0
    let race : List Field :=
      let timers := (match s.race.state with
        | .lobby => [s.race.lobbyTimer]
        | .grid => [s.race.gridTimer]
        | .racing => [s.race.raceLimitTimer]
        | .finishing => [s.race.raceLimitTimer, s.race.finishWindowTimer]
        | .results => [s.race.resultsHoldTimer]
        | .void => [s.race.voidTimer]
        | .idle => []
        | .countdown => []).filterMap (remaining s.now)
      let listed : Prop := s.race.state = .lobby ∨ s.race.state = .grid ∨ (s.race.state = .void ∧ s.race.epoch = none)
      byte (some s.race.state.code) ++
        item (s.race.descriptor.map fun d =>
          [wordField d.track, { width := 3, value := d.lapLength }, byteField d.lapCount]) ++
        item (if listed then some (count (s.race.entryList.map fun r => byteField r.val)) else none) ++
        item (s.race.epoch.map fun _ => count (s.race.fieldList.map fun c => byteField c.val)) ++
        time s.race.epoch ++ time s.race.t0 ++
        item (if timers = [] then none else some (count (timers.map fun (n : Nat) => longField n))) ++
        word (s.race.resultsRound.map (·.toNat)) ++
        item (s.fastestLap.map fun f => [byteField f.car.val, byteField f.lap, longField f.time])
    let seat (r : PortId) : List Field :=
      let x := s.seat r
      byte (some x.state.code) ++
        byte (x.stallPhase.map fun f => match f with
          | .silent => Config.silentCode.toNat
          | .recovering => Config.recoveringCode.toNat) ++
        byte x.recoveryRun ++ long (x.cabinet.map fun c => (c.id.toNat : Int)) ++
        long (x.cabinet.map fun c => (c.framePeriod : Int)) ++
        byte (x.cabinet.map fun c => match c.form with | .full => 0 | .short => 1) ++
        byte (x.cabinet.map fun c => match c.order with
          | .highFirst => Config.highFirstCode.toNat
          | .lowFirst => Config.lowFirstCode.toNat) ++
        byte (placeIn r s.race.entryList) ++ byte x.gridPosition ++
        byte (x.retireReason.map fun f => match f with | .linkLost => 1 | .withdrawn => 2 | .notReady => 3) ++
        long x.retireProgress ++ long x.retireTime ++ byte (some (flag x.jumped)) ++ long (some (x.penalty : Int)) ++
        byte (some x.duplicates) ++ byte (some x.outOfOrder) ++ byte (some x.implausible) ++ byte (some x.resyncs)
    let pacer : List Field :=
      byte (s.pacerRecord.map fun x => match x with | .running => 4 | .finished => 6) ++
        (List.replicate 9 (byteField 0)) ++ [byteField 0, byteField 0] ++ byte (some 0) ++ long (some 0) ++
        byte (some 0) ++ byte (some 0) ++ byte (some 0) ++ byte (some 0)
    let fit (r : PortId) : List Field :=
      let f := s.fit r
      byte (some (match f.phase with | .fitNone => 0 | .fitSettling => 1 | .fitTracking => 2)) ++
        long (f.anchor.map fun a => (a.frame.toNat : Int)) ++ time (f.anchor.map (·.time)) ++
        long (if f.phase = .fitNone then none else f.period.map fun (n : Nat) => (n : Int)) ++
        long (f.nominal.map fun (n : Nat) => (n : Int)) ++ byte (some f.inGate) ++ byte (some f.outliers)
    let link (r : PortId) : List Field :=
      let x := s.port r
      byte (some (match x.link with | .down => 0 | .training => 1 | .up => 2)) ++ word (some x.delay) ++
        byte (some x.errorCount)
    let setting (k : Nat) : List Field :=
      let v := s.settings.get k
      if k = 5 ∨ k = 6 ∨ k = 8 ∨ k = 10 ∨ k = 11 ∨ k = 13 then byte (some v) else long (some (v : Int))
    let param (k : Nat) : List Field :=
      let g := s.settings.profile
      if k = 0 then
        setting 0 ++ long (some (s.time.period : Int)) ++ long (s.time.pendingPeriod.map fun (n : Nat) => (n : Int))
      else if k = 14 then byte (some (match s.settings.pacerMode with | .off => 0 | .running => 1 | .ranked => 2))
      else if k = 15 then
        byte (some g.length) ++ (g.dropLast.flatMap fun x => byte (some x.share)) ++
          long (g.getLast?.map fun x => (x.share : Int)) ++ g.flatMap fun x => long (some (x.speed : Int))
      else setting k
    (q.payload = [0, 0] → exec .queryRace s = .next (s.taken p (answer 0 0 race))) ∧
    (∀ r : PortId, q.payload = [1, BitVec.ofNat 8 r.val] →
      exec .querySeat s = .next (s.taken p (answer 1 r.val (seat r)))) ∧
    (q.payload = [1, 8] → exec .querySeat s = .next (s.taken p (answer 1 8 pacer))) ∧
    (∀ r : PortId, q.payload = [2, BitVec.ofNat 8 r.val] →
      exec .queryFit s = .next (s.taken p (answer 2 r.val (fit r)))) ∧
    (∀ r : PortId, q.payload = [3, BitVec.ofNat 8 r.val] →
      exec .queryLink s = .next (s.taken p (answer 3 r.val (link r)))) ∧
    (∀ (c : CarId) (k : Byte) (d : Descriptor), q.payload = [4, BitVec.ofNat 8 c.val, k] →
      s.race.descriptor = some d → 1 ≤ k.toNat → k.toNat ≤ d.lapCount →
      let lap := (s.lapRecord c).history[k.toNat - 1]?
      exec .queryLaps s = .next (s.taken p (answer 4 c.val
        (long (lap.map (·.time)) ++ byte (lap.map fun e => flag e.unverified))))) ∧
    (∀ k : Byte, q.payload = [5, k] → 1 ≤ k.toNat → k.toNat ≤ 9 →
      let e := s.finishList[k.toNat - 1]?
      exec .queryFinish s = .next (s.taken p (answer 5 k.toNat
        (byte (e.map (·.car.val)) ++ long (e.map (·.raw)) ++ long (e.map (·.corrected)) ++
          byte (e.map fun _ =>
            if s.race.state = .results then Config.finalCode.toNat else Config.provisionalCode.toNat))))) ∧
    (∀ k : Byte, q.payload = [6, k] → k.toNat ≤ 15 →
      exec .queryParam s = .next (s.taken p (answer 6 k.toNat (param k.toNat))))

/-- R20, R29, R32, R34, R36, R40, R43, R44, R47, R60, R189: refusals change nothing but the engine, whatever the request.
Every request but HELLO from a VACANT seat is NOT_LINKED. A HELLO of the wrong length or with a bad marker, cabinet id or form
is BAD_VALUE, its reply in the marker's order where there is one (log 16). An ENTER, READY, WITHDRAW or QUERY of the wrong
length, a QUERY of no table or with an index or lap out of range, a LAPS query while no descriptor is held, an ENTER out of
range, and a SETUP whose items fail a check are BAD_VALUE. A SETUP outside IDLE, an ENTER in LOBBY from a seat that is not
LINKED, a READY but from an ENTERED seat in GRID, and a WITHDRAW that the race or the seat does not admit are WRONG_STATE; an
ENTER outside IDLE and LOBBY is CLOSED. That a SETUP which does not divide into items fails before the race state is looked
at, and an empty one only after it, is the model's reading (log 15); which QUERY step takes a request that names no table is
its choice (log 17). -/
def Obligations.RefusalsChangeNothing : Prop :=
  ∀ (s : State) (p : PortId) (q : Request), s.resetHeld = false → s.nextRequest = some (p, q) →
    let refusal (k : ServiceKind) (reason : Reason) (body : List Field) : Reply :=
      { kind := k, reason := some reason, clamped := false, body := body, order := none }
    let race : List Field :=
      [byteField (s.seat p).state.code, byteField ((placeIn p s.race.entryList).getD 0), byteField s.race.state.code]
    let d := readDescriptor q.order q.payload
    ((q.kind = .hello → AnswersOrRefuses .hello p s) ∧ (q.kind = .enter → AnswersOrRefuses .enter p s) ∧
      (q.kind = .ready → AnswersOrRefuses .ready p s) ∧ (q.kind = .withdraw → AnswersOrRefuses .withdraw p s) ∧
      (q.kind = .setup → AnswersOrRefuses .setup p s) ∧ (asksTable 0 q = true → AnswersOrRefuses .queryRace p s) ∧
      (asksTable 1 q = true → AnswersOrRefuses .querySeat p s) ∧ (asksTable 2 q = true → AnswersOrRefuses .queryFit p s) ∧
      (asksTable 3 q = true → AnswersOrRefuses .queryLink p s) ∧ (asksTable 4 q = true → AnswersOrRefuses .queryLaps p s) ∧
      (asksTable 5 q = true → AnswersOrRefuses .queryFinish p s) ∧
      (asksTable 6 q = true → AnswersOrRefuses .queryParam p s)) ∧
    (q.kind = .hello →
      q.payload.length ≠ 9 ∨ markerOrder q.payload = none ∨
        (∃ order, markerOrder q.payload = some order ∧
          (BitVec.ofNat 32 (readField order q.payload 2 4) = 0 ∨ formOfCode (readField order q.payload 8 1) = none)) →
      exec .hello s = .next (s.taken p
        { kind := .hello, reason := some .badValue, clamped := false,
          body := [byteField p.val, wordField (s.port p).delay], order := markerOrder q.payload })) ∧
    ((s.seat p).state ≠ .vacant → q.kind = .enter →
      (q.payload.length ≠ 6 → exec .enter s = .next (s.taken p (refusal .enter .badValue race))) ∧
      (q.payload.length = 6 → s.race.state = .idle → d.inRange = false →
        exec .enter s = .next (s.taken p (refusal .enter .badValue race))) ∧
      (q.payload.length = 6 → s.race.state = .lobby → (s.seat p).state = .linked → d.inRange = false →
        exec .enter s = .next (s.taken p (refusal .enter .badValue race))) ∧
      (q.payload.length = 6 → s.race.state = .lobby → (s.seat p).state ≠ .linked →
        exec .enter s = .next (s.taken p (refusal .enter .wrongState race)))) ∧
    ((s.seat p).state ≠ .vacant → q.kind = .ready →
      (q.payload ≠ [] → exec .ready s = .next (s.taken p (refusal .ready .badValue race))) ∧
      (q.payload = [] → s.race.state ≠ .grid ∨ (s.seat p).state ≠ .entered →
        exec .ready s = .next (s.taken p (refusal .ready .wrongState race)))) ∧
    ((s.seat p).state ≠ .vacant → q.kind = .withdraw →
      (q.payload ≠ [] → exec .withdraw s = .next (s.taken p (refusal .withdraw .badValue race))) ∧
      (q.payload = [] →
        s.race.state = .idle ∨ s.race.state = .void ∨
          ((s.race.state = .lobby ∨ s.race.state = .grid) ∧ (s.seat p).state ≠ .entered ∧ (s.seat p).state ≠ .ready) ∨
          (s.race.state.live = true ∧ (s.seat p).state ≠ .running ∧ (s.seat p).state ≠ .stalled) ∨
          (s.race.state = .results ∧ (s.seat p).state.inField = false) →
        exec .withdraw s = .next (s.taken p (refusal .withdraw .wrongState race)))) ∧
    ((s.seat p).state ≠ .vacant → q.kind = .setup →
      (parseSetup q.order q.payload.length q.payload = none →
        exec .setup s = .next (s.taken p (refusal .setup .badValue []))) ∧
      ∀ items, parseSetup q.order q.payload.length q.payload = some items → s.race.state = .idle →
        items = [] ∨ ¬(items.map (·.number)).Nodup ∨ (∃ v, 2 < v ∧ SetupItem.value 14 v ∈ items) ∨
          (∃ shares speeds, SetupItem.profile shares speeds ∈ items ∧
            255 < (shares.map fun n => max 1 (min 255 n)).sum) →
        exec .setup s = .next (s.taken p (refusal .setup .badValue []))) ∧
    ((s.seat p).state ≠ .vacant → q.kind = .query →
      (q.payload = [] ∨ (∃ table rest, q.payload = table :: rest ∧ 7 ≤ table.toNat) →
        exec .queryRace s = .next (s.taken p (refusal .query .badValue [])) ∧
        exec .querySeat s = .next (s.taken p (refusal .query .badValue [])) ∧
        exec .queryFit s = .next (s.taken p (refusal .query .badValue [])) ∧
        exec .queryLink s = .next (s.taken p (refusal .query .badValue [])) ∧
        exec .queryLaps s = .next (s.taken p (refusal .query .badValue [])) ∧
        exec .queryFinish s = .next (s.taken p (refusal .query .badValue [])) ∧
        exec .queryParam s = .next (s.taken p (refusal .query .badValue []))) ∧
      ∀ rest,
        (q.payload = 0 :: rest → rest.length ≠ 1 → exec .queryRace s = .next (s.taken p (refusal .query .badValue []))) ∧
        (q.payload = 1 :: rest → rest.length ≠ 1 → exec .querySeat s = .next (s.taken p (refusal .query .badValue []))) ∧
        (q.payload = 2 :: rest → rest.length ≠ 1 → exec .queryFit s = .next (s.taken p (refusal .query .badValue []))) ∧
        (q.payload = 3 :: rest → rest.length ≠ 1 → exec .queryLink s = .next (s.taken p (refusal .query .badValue []))) ∧
        (q.payload = 4 :: rest → rest.length ≠ 2 → exec .queryLaps s = .next (s.taken p (refusal .query .badValue []))) ∧
        (q.payload = 5 :: rest → rest.length ≠ 1 →
          exec .queryFinish s = .next (s.taken p (refusal .query .badValue []))) ∧
        (q.payload = 6 :: rest → rest.length ≠ 1 →
          exec .queryParam s = .next (s.taken p (refusal .query .badValue [])))) ∧
    ((s.seat p).state = .vacant →
      (q.kind = .enter → exec .enter s = .next (s.taken p (refusal .enter .notLinked race))) ∧
      (q.kind = .ready → exec .ready s = .next (s.taken p (refusal .ready .notLinked race))) ∧
      (q.kind = .withdraw → exec .withdraw s = .next (s.taken p (refusal .withdraw .notLinked race))) ∧
      (q.kind = .setup → exec .setup s = .next (s.taken p (refusal .setup .notLinked []))) ∧
      (asksTable 0 q = true → exec .queryRace s = .next (s.taken p (refusal .query .notLinked []))) ∧
      (asksTable 1 q = true → exec .querySeat s = .next (s.taken p (refusal .query .notLinked []))) ∧
      (asksTable 2 q = true → exec .queryFit s = .next (s.taken p (refusal .query .notLinked []))) ∧
      (asksTable 3 q = true → exec .queryLink s = .next (s.taken p (refusal .query .notLinked []))) ∧
      (asksTable 4 q = true → exec .queryLaps s = .next (s.taken p (refusal .query .notLinked []))) ∧
      (asksTable 5 q = true → exec .queryFinish s = .next (s.taken p (refusal .query .notLinked []))) ∧
      (asksTable 6 q = true → exec .queryParam s = .next (s.taken p (refusal .query .notLinked [])))) ∧
    ((s.seat p).state ≠ .vacant → q.kind = .query → ∀ k : Byte,
      (q.payload = [0, k] → k ≠ 0 → exec .queryRace s = .next (s.taken p (refusal .query .badValue []))) ∧
      (q.payload = [1, k] → 9 ≤ k.toNat → exec .querySeat s = .next (s.taken p (refusal .query .badValue []))) ∧
      (q.payload = [2, k] → 8 ≤ k.toNat → exec .queryFit s = .next (s.taken p (refusal .query .badValue []))) ∧
      (q.payload = [3, k] → 8 ≤ k.toNat → exec .queryLink s = .next (s.taken p (refusal .query .badValue []))) ∧
      (∀ c : Byte, q.payload = [4, c, k] →
        s.race.descriptor = none ∨ 9 ≤ c.toNat ∨ k = 0 ∨ (∃ held, s.race.descriptor = some held ∧ held.lapCount < k.toNat) →
        exec .queryLaps s = .next (s.taken p (refusal .query .badValue []))) ∧
      (q.payload = [5, k] → k = 0 ∨ 10 ≤ k.toNat →
        exec .queryFinish s = .next (s.taken p (refusal .query .badValue []))) ∧
      (q.payload = [6, k] → 16 ≤ k.toNat →
        exec .queryParam s = .next (s.taken p (refusal .query .badValue [])))) ∧
    ((s.seat p).state ≠ .vacant → q.kind = .setup → (parseSetup q.order q.payload.length q.payload).isSome = true →
      s.race.state ≠ .idle → exec .setup s = .next (s.taken p (refusal .setup .wrongState []))) ∧
    ((s.seat p).state ≠ .vacant → q.kind = .enter → q.payload.length = 6 → s.race.state ≠ .idle →
      s.race.state ≠ .lobby → exec .enter s = .next (s.taken p (refusal .enter .closed race)))

/-- R34 to R36: an accepted SETUP writes every item at once, each numeric value clamped to the nearer limit of its range;
settings it does not name keep their values; setting 0 is the timebase's pending period too; and the reply has bit k of its
mask set when setting k was clamped. -/
def Obligations.SetupWritesEveryItemClamped : Prop :=
  ∀ (s : State) (p : PortId) (q : Request) (items : List SetupItem), s.resetHeld = false →
    s.nextRequest = some (p, q) → q.kind = .setup → (s.seat p).state ≠ .vacant → s.race.state = .idle →
    parseSetup q.order q.payload.length q.payload = some items → items ≠ [] → (items.map (·.number)).Nodup →
    (∀ v, SetupItem.value 14 v ∈ items → v ≤ 2) →
    (∀ shares speeds, SetupItem.profile shares speeds ∈ items → (shares.map fun n => max 1 (min 255 n)).sum ≤ 255) →
    ∃ t, exec .setup s = .next t ∧
      (∀ k v, k ≤ 13 → SetupItem.value k v ∈ items →
        t.settings.get k = max (settingRange k).1 (min (settingRange k).2 v)) ∧
      (∀ k, k ≤ 13 → (∀ v, SetupItem.value k v ∉ items) → t.settings.get k = s.settings.get k) ∧
      (∀ v, SetupItem.value 14 v ∈ items → t.settings.pacerMode.code = v) ∧
      ((∀ v, SetupItem.value 14 v ∉ items) → t.settings.pacerMode = s.settings.pacerMode) ∧
      (∀ shares speeds, SetupItem.profile shares speeds ∈ items →
        t.settings.profile.map (·.share) =
            (shares.map fun n => max 1 (min 255 n)) ++ [256 - (shares.map fun n => max 1 (min 255 n)).sum] ∧
          t.settings.profile.map (·.speed) = speeds.map fun n => max 100 (min 16383 n)) ∧
      ((∀ shares speeds, SetupItem.profile shares speeds ∉ items) → t.settings.profile = s.settings.profile) ∧
      (∀ v, SetupItem.value 0 v ∈ items → t.time = { s.time with pendingPeriod := some (max 8000 (min 50000 v)) }) ∧
      ((∀ v, SetupItem.value 0 v ∉ items) → t.time = s.time) ∧
      (∃ mask : Nat,
        Answered p { kind := .setup, reason := none, clamped := decide (mask ≠ 0), body := [wordField mask], order := none }
          s t ∧
        ∀ k, mask.testBit k = true ↔ ∃ i ∈ items, i.number = k ∧
          match i with
          | .value n v => n ≤ 13 ∧ ¬((settingRange n).1 ≤ v ∧ v ≤ (settingRange n).2)
          | .profile shares speeds => (∃ n ∈ shares, ¬(1 ≤ n ∧ n ≤ 255)) ∨ ∃ n ∈ speeds, ¬(100 ≤ n ∧ n ≤ 16383)) ∧
      OthersKept p s t ∧ t.seat p = s.seat p ∧ t.fit p = s.fit p ∧ t.car p = s.car p ∧
      { t with settings := s.settings, time := s.time, ports := s.ports, engine := s.engine,
               freeDraws := s.freeDraws } = s

/-- R11, R28, R30, R185, R186: at the completion an ACCEPTED result sets the round demand flag. At a port in UP the reply is
written to its slot with the overrun flag as it stands; at a port that is not UP it is discarded. When the last byte of a
reply has left, its slot is emptied; a reply that carried OVERRUN clears the overrun flag unless a request was discarded since
it was written; and a waiting ROUND begins at once, so that it waits behind one reply at most, or else a filler byte. That the
end of the reply and the choice of what follows are one event is the model's reading (log 31). R188, R191: a REPLY's payload
is the echoed kind code, the result code, the flags (bit 0 CLAMPED, bit 1 OVERRUN), and from offset 3 its body, each field at
its width in the seat's byte order. -/
def Obligations.RepliesAreWrittenAndSent : Prop :=
  (∀ (s : State) (v : InService), s.resetHeld = false → s.engine.inService = some v →
    ∃ t, exec .serviceComplete s = .next t ∧
      t.engine = { s.engine with inService := none } ∧
      t.time = { s.time with roundDemand := s.time.roundDemand || v.reply.reason.isNone } ∧
      (∀ r, r ≠ v.port → t.port r = s.port r) ∧
      t.port v.port =
        (if (s.port v.port).link = .up then
          { s.port v.port with
            reply := some
              { payload := v.reply.payload (s.port v.port).overrun (v.reply.order.getD (s.orderAt v.port)),
                carriesOverrun := (s.port v.port).overrun }
            lostSinceReply := false }
        else s.port v.port) ∧
      { t with engine := s.engine, time := s.time, ports := s.ports } = s) ∧
  (∀ (r : Reply) (overrun : Bool) (order : ByteOrder),
    let kind : Byte := match r.kind with
      | .hello => 0x21 | .enter => 0x22 | .ready => 0x23 | .withdraw => 0x24 | .query => 0x25 | .setup => 0x26
    let result : Byte := match r.reason with
      | none => 0 | some .notLinked => 1 | some .wrongState => 2 | some .closed => 3 | some .mismatch => 4
      | some .notSynced => 5 | some .badValue => 6 | some .seatHeld => 7
    let flags : Byte := (if r.clamped then 1 else 0) + (if overrun then 2 else 0)
    r.payload overrun order = kind :: result :: flags :: r.body.flatMap (Field.bytes order) ∧
      ∀ b ∈ r.body, (b.bytes order).length = b.width) ∧
  ∀ (p : PortId) (s : State) (bytes : List Byte) (r : ReplySlot), s.resetHeld = false →
    (s.port p).sending = .reply bytes → (s.port p).reply = some r → 0 ≤ diff s.now (s.port p).sendEnds →
    let sent : Port := { s.port p with
      reply := none, overrun := (s.port p).overrun && !(r.carriesOverrun && !(s.port p).lostSinceReply) }
    ((s.port p).link = .up → ∀ payload, (s.port p).round = some payload →
      exec (.replyTransmitted p) s = .next (s.setPort p
        { sent with
          round := none, sending := .round (wireBytes 0x40 payload)
          sendEnds := s.now + BitVec.ofNat 32 ((payload.length + 6) * 5) })) ∧
    ((s.port p).link = .down ∨ ((s.port p).link = .up ∧ (s.port p).round = none) →
      exec (.replyTransmitted p) s = .next (s.setPort p { sent with sending := .filler, sendEnds := s.now + 5 }))

/-! ## HELLO, ENTER, READY, WITHDRAW -/

/-- R20 to R22: a HELLO from a VACANT or LINKED seat with a valid marker, a nonzero cabinet id and a known report form is
accepted: the seat is LINKED with the declared parameters, the frame period clamped to 12,000 to 25,000 µs, and the fit is
reset. A new cabinet starts with its counters at 0 and no car state; the same cabinet at a LINKED seat keeps both. -/
def Obligations.HelloLinksACabinet : Prop :=
  ∀ (s : State) (p : PortId) (q : Request) (order : ByteOrder) (form : ReportForm), s.resetHeld = false →
    s.nextRequest = some (p, q) → q.kind = .hello → q.payload.length = 9 → markerOrder q.payload = some order →
    BitVec.ofNat 32 (readField order q.payload 2 4) ≠ 0 → formOfCode (readField order q.payload 8 1) = some form →
    (s.seat p).state = .vacant ∨ (s.seat p).state = .linked →
    let declared := readField order q.payload 6 2
    let period := max 12000 (min 25000 declared)
    let cabinet : Cabinet :=
      { id := BitVec.ofNat 32 (readField order q.payload 2 4), framePeriod := period, form := form, order := order }
    let kept := (s.seat p).state = .linked ∧ (s.seat p).cabinet.map (·.id) = some cabinet.id
    ∃ t, exec .hello s = .next t ∧
      t.seat p =
        (if kept then { s.seat p with cabinet := some cabinet }
        else
          { s.seat p with
            state := .linked, cabinet := some cabinet, silenceTimer := none, duplicates := 0, outOfOrder := 0,
            implausible := 0, resyncs := 0 }) ∧
      t.car p = (if kept then s.car p else { latest := none, previous := none }) ∧
      t.fit p =
        { phase := .fitNone, anchor := none, period := some (period * 256), nominal := some (period * 256), inGate := 0,
          outliers := 0, ageTimer := none } ∧
      Answered p
        { kind := .hello, reason := none, clamped := decide (declared ≠ period),
          body := [byteField p.val, wordField (s.port p).delay], order := some order } s t ∧
      OthersKept p s t ∧ OutsideKept s t

/-- R23, R45: an accepted HELLO at a seat on the entry list. The same cabinet goes back to ENTERED with its place kept. Another
cabinet drops the entry: the seat leaves the list and is LINKED with the new cabinet, and the departure takes its consequences
within the take, in LOBBY, in GRID (the grid may close, or enter VOID) and in VOID. -/
def Obligations.HelloFromAnEntrant : Prop :=
  ∀ (s : State) (p : PortId) (q : Request) (order : ByteOrder) (form : ReportForm), s.resetHeld = false →
    s.nextRequest = some (p, q) → q.kind = .hello → q.payload.length = 9 → markerOrder q.payload = some order →
    BitVec.ofNat 32 (readField order q.payload 2 4) ≠ 0 → formOfCode (readField order q.payload 8 1) = some form →
    (s.seat p).state = .entered ∨ (s.seat p).state = .ready →
    let declared := readField order q.payload 6 2
    let period := max 12000 (min 25000 declared)
    let cabinet : Cabinet :=
      { id := BitVec.ofNat 32 (readField order q.payload 2 4), framePeriod := period, form := form, order := order }
    let fit : Fit :=
      { phase := .fitNone, anchor := none, period := some (period * 256), nominal := some (period * 256), inGate := 0,
        outliers := 0, ageTimer := none }
    let reply : Reply :=
      { kind := .hello, reason := none, clamped := decide (declared ≠ period),
        body := [byteField p.val, wordField (s.port p).delay], order := some order }
    ((s.seat p).cabinet.map (·.id) = some cabinet.id →
      ∃ t, exec .hello s = .next t ∧
        t.seat p = { s.seat p with state := .entered, cabinet := some cabinet, silenceTimer := none } ∧
        t.car p = s.car p ∧ t.fit p = fit ∧ Answered p reply s t ∧ OthersKept p s t ∧ OutsideKept s t) ∧
    ((s.seat p).cabinet.map (·.id) ≠ some cabinet.id → s.race.entryList.Nodup →
      let seat : Seat :=
        { s.seat p with
          state := .linked, cabinet := some cabinet, silenceTimer := none, duplicates := 0, outOfOrder := 0,
          implausible := 0, resyncs := 0 }
      let left : State :=
        { (((s.emptied p).setSeat p seat).setFit p fit).setCar p { latest := none, previous := none } with
          race := { s.race with entryList := s.race.entryList.filter (· != p) } }
      ∃ t, exec .hello s = .next t ∧ Departed left t ∧ Answered p reply s t)

/-- R24, R147, R148: a HELLO at a seat in the field. With another cabinet id it is refused SEAT_HELD and changes nothing but the
engine. With the seat's own id a FINISHED or RETIRED seat keeps its state; a RUNNING seat in COUNTDOWN, RACING or FINISHING is
taken into STALLED, RECOVERING, with its drop timer started and a STALL event with REJOIN; a STALLED seat starts its recovery
again with its frozen progress and its running drop timer kept. -/
def Obligations.HelloInTheField : Prop :=
  ∀ (s : State) (p : PortId) (q : Request) (order : ByteOrder) (form : ReportForm), s.resetHeld = false →
    s.nextRequest = some (p, q) → q.kind = .hello → q.payload.length = 9 → markerOrder q.payload = some order →
    BitVec.ofNat 32 (readField order q.payload 2 4) ≠ 0 → formOfCode (readField order q.payload 8 1) = some form →
    let declared := readField order q.payload 6 2
    let period := max 12000 (min 25000 declared)
    let cabinet : Cabinet :=
      { id := BitVec.ofNat 32 (readField order q.payload 2 4), framePeriod := period, form := form, order := order }
    let fit : Fit :=
      { phase := .fitNone, anchor := none, period := some (period * 256), nominal := some (period * 256), inGate := 0,
        outliers := 0, ageTimer := none }
    let reply : Reply :=
      { kind := .hello, reason := none, clamped := decide (declared ≠ period),
        body := [byteField p.val, wordField (s.port p).delay], order := some order }
    ((s.seat p).state.inField = true → (s.seat p).cabinet.map (·.id) ≠ some cabinet.id →
      exec .hello s = .next (s.taken p
        { kind := .hello, reason := some .seatHeld, clamped := false,
          body := [byteField p.val, wordField (s.port p).delay], order := some order })) ∧
    ((s.seat p).cabinet.map (·.id) = some cabinet.id →
      (s.seat p).state = .finished ∨ (s.seat p).state = .retired →
      ∃ t, exec .hello s = .next t ∧ t.seat p = { s.seat p with cabinet := some cabinet } ∧
        t.fit p = fit ∧ t.car p = s.car p ∧ Answered p reply s t ∧
        OthersKept p s t ∧ OutsideKept s t) ∧
    ((s.seat p).cabinet.map (·.id) = some cabinet.id → s.race.state.live = true → (s.seat p).state = .running →
      ∃ t, exec .hello s = .next t ∧
        t.seat p =
          { s.seat p with
            cabinet := some cabinet, state := .stalled, stallPhase := some .recovering, recoveryRun := some 0,
            frozenProgress := some (s.freezeAt p), silenceTimer := none,
            dropTimer := startTimer s.now (s.settings.dropLimit * 1000000) } ∧
        t.fit p = fit ∧ t.car p = s.car p ∧
        t.events = s.events.append (.stall p (s.raceTime s.now) true) ∧
        Answered p reply s t ∧ OthersKept p s t ∧ OutsideKept s { t with events := s.events }) ∧
    ((s.seat p).cabinet.map (·.id) = some cabinet.id → s.race.state.live = true → (s.seat p).state = .stalled →
      (s.seat p).dropTimer ≠ none →
      ∃ t, exec .hello s = .next t ∧
        t.seat p =
          { s.seat p with cabinet := some cabinet, stallPhase := some .recovering, recoveryRun := some 0 } ∧
        t.fit p = fit ∧ t.car p = s.car p ∧ Answered p reply s t ∧
        OthersKept p s t ∧ OutsideKept s t)

/-- R40 to R43, R46: an ENTER in range taken in IDLE creates the lobby; one with the race's descriptor taken in LOBBY from a
LINKED seat joins the list at its tail, and the eighth entrant closes the lobby into GRID; a descriptor that differs is
refused MISMATCH. -/
def Obligations.EnterJoinsTheRace : Prop :=
  ∀ (s : State) (p : PortId) (q : Request), s.resetHeld = false → s.nextRequest = some (p, q) → q.kind = .enter →
    q.payload.length = 6 → (s.seat p).state = .linked → (readDescriptor q.order q.payload).inRange = true →
    let d := readDescriptor q.order q.payload
    let entered : Seat := { s.seat p with state := .entered }
    (s.race.state = .idle → ∃ t, exec .enter s = .next t ∧
      t.race = { s.race with
        state := .lobby, descriptor := some d, entryList := [p],
        lobbyTimer := startTimer s.now (s.settings.lobbyTime * 1000000) } ∧
      t.seat p = entered ∧ t.fit p = s.fit p ∧ t.car p = s.car p ∧
      Answered p { kind := .enter, reason := none, clamped := false, body := [byteField 2, byteField 1, byteField 1],
                   order := none } s t ∧
      OthersKept p s t ∧ OutsideKept s { t with race := s.race }) ∧
    (s.race.state = .lobby → s.race.descriptor = some d → p ∉ s.race.entryList → s.race.entryList.length ≠ 7 →
      ∃ t, exec .enter s = .next t ∧
        t.race = { s.race with entryList := s.race.entryList ++ [p] } ∧ t.seat p = entered ∧
        Answered p { kind := .enter, reason := none, clamped := false,
                     body := [byteField 2, byteField (s.race.entryList.length + 1), byteField 1], order := none } s t ∧
        t.fit p = s.fit p ∧ t.car p = s.car p ∧ OthersKept p s t ∧ OutsideKept s { t with race := s.race }) ∧
    (s.race.state = .lobby → s.race.descriptor = some d → p ∉ s.race.entryList → s.race.entryList.length = 7 →
      s.settings.minimumField ≤ 8 →
      ∃ t, exec .enter s = .next t ∧
        t.race = { s.race with
          entryList := s.race.entryList ++ [p], state := .grid, lobbyTimer := none,
          gridTimer := startTimer s.now (s.settings.gridTime * 1000000) } ∧
        t.seat p = entered ∧ t.fit p = s.fit p ∧ t.car p = s.car p ∧
        Answered p { kind := .enter, reason := none, clamped := false, body := [byteField 2, byteField 8, byteField 2],
                     order := none } s t ∧
        OthersKept p s t ∧ OutsideKept s { t with race := s.race }) ∧
    (s.race.state = .lobby → s.race.descriptor ≠ some d →
      exec .enter s = .next (s.taken p
        { kind := .enter, reason := some .mismatch, clamped := false, order := none
          body := [byteField 1, byteField ((placeIn p s.race.entryList).getD 0), byteField 1] }))

/-- R47, R49: a READY from an ENTERED seat in GRID. A tracking fit makes the seat READY and starts its silence timer; while some
other entrant is not READY the grid stays open, and once every entrant is READY it closes within the take. A fit that does not
track is refused NOT_SYNCED. -/
def Obligations.ReadyNeedsATrackingFit : Prop :=
  ∀ (s : State) (p : PortId) (q : Request), s.resetHeld = false → s.nextRequest = some (p, q) → q.kind = .ready →
    q.payload = [] → s.race.state = .grid → (s.seat p).state = .entered →
    ((s.fit p).phase = .fitTracking → (∃ r ∈ s.race.entryList, r ≠ p ∧ (s.seat r).state ≠ .ready) →
      ∃ t, exec .ready s = .next t ∧
        t.seat p =
          { s.seat p with state := .ready, silenceTimer := startTimer s.now (s.settings.stallLimit * 1000) } ∧
        t.fit p = s.fit p ∧ t.car p = s.car p ∧
        Answered p { kind := .ready, reason := none, clamped := false,
                     body := [byteField 3, byteField ((placeIn p s.race.entryList).getD 0), byteField 2],
                     order := none } s t ∧
        OthersKept p s t ∧ OutsideKept s t) ∧
    ((s.fit p).phase = .fitTracking → s.race.entryList ≠ [] → s.race.entryList.Nodup →
      (∀ r ∈ s.race.entryList, r ≠ p → (s.seat r).state = .ready) →
      ∃ t, exec .ready s = .next t ∧
        ClosesGrid ((s.emptied p).setSeat p
          { s.seat p with state := .ready, silenceTimer := startTimer s.now (s.settings.stallLimit * 1000) }) t ∧
        Answered p { kind := .ready, reason := none, clamped := false,
                     body := [byteField (t.seat p).state.code, byteField ((placeIn p t.race.entryList).getD 0),
                       byteField t.race.state.code],
                     order := none } s t) ∧
    ((s.fit p).phase ≠ .fitTracking →
      exec .ready s = .next (s.taken p
        { kind := .ready, reason := some .notSynced, clamped := false, order := none
          body := [byteField 2, byteField ((placeIn p s.race.entryList).getD 0), byteField 2] }))

/-- R44, R45: a WITHDRAW from an entrant in LOBBY or GRID makes its seat LINKED, off the entry list and without car state, and
the departure takes its consequences within the take: an empty list takes LOBBY to IDLE and GRID to VOID, a grid of READY
seats alone closes, and otherwise the race stays. -/
def Obligations.WithdrawFromTheEntryList : Prop :=
  ∀ (s : State) (p : PortId) (q : Request), s.resetHeld = false → s.nextRequest = some (p, q) → q.kind = .withdraw →
    q.payload = [] → (s.seat p).state = .entered ∨ (s.seat p).state = .ready →
    s.race.state = .lobby ∨ s.race.state = .grid → s.race.entryList.Nodup →
    let left : State :=
      { ((s.emptied p).setSeat p { s.seat p with state := .linked, silenceTimer := none }).setCar p
          { latest := none, previous := none } with
        race := { s.race with entryList := s.race.entryList.filter (· != p) } }
    ∃ t, exec .withdraw s = .next t ∧ Departed left t ∧
      Answered p { kind := .withdraw, reason := none, clamped := false,
                   body := [byteField 1, byteField 0, byteField t.race.state.code], order := none } s t

/-- R54, R56, R58, R60: a WITHDRAW from a seat in the field. In COUNTDOWN, RACING and FINISHING a RUNNING or STALLED seat
becomes RETIRED with reason WITHDRAWN, its retire progress and the race time, and a RETIRE event is appended; while another
cabinet seat of the field still runs the race goes on as it was, and the last one takes COUNTDOWN to VOID and a race with
every car done to its end. In RESULTS the seat becomes LINKED at once: it keeps its grid position and loses every other race
field, which is the model's reading of R60 (log 11); while another counted seat is still to be waited for the race stays, and
else the results are released and the race enters IDLE. -/
def Obligations.WithdrawFromTheField : Prop :=
  ∀ (s : State) (p : PortId) (q : Request), s.resetHeld = false → s.nextRequest = some (p, q) → q.kind = .withdraw →
    q.payload = [] →
    let reply (seat : Nat) : Reply :=
      { kind := .withdraw, reason := none, clamped := false, order := none
        body := [byteField seat, byteField ((placeIn p s.race.entryList).getD 0), byteField s.race.state.code] }
    let retired : Seat :=
      { s.seat p with
        state := .retired, stallPhase := none, recoveryRun := none, frozenProgress := none,
        retireReason := some .withdrawn, retireTime := some (s.raceTime s.now), silenceTimer := none,
        dropTimer := none
        retireProgress := some
          (match (s.seat p).state, (s.seat p).frozenProgress, s.lastProjected (carOf p), (s.car p).latest with
            | .stalled, some f, _, _ => f
            | .stalled, none, _, _ => -(s.lapLength : Int)
            | _, _, some r, _ => r
            | _, _, none, some cs => cs.progress
            | _, _, none, none => -(s.lapLength : Int)) }
    let freed : Seat :=
      { s.seat p with
        state := .linked, stallPhase := none, recoveryRun := none, gridProgress := none, frozenProgress := none,
        retireReason := none, retireProgress := none, retireTime := none, silenceTimer := none, dropTimer := none,
        jumped := false, penalty := 0 }
    (s.race.state.live = true → (s.seat p).state = .running ∨ (s.seat p).state = .stalled →
      let left : State := { (s.emptied p).setSeat p retired with
        events := s.events.append (.retire p (some (s.raceTime s.now)) .withdrawn) }
      ∃ t, exec .withdraw s = .next t ∧ RetirementTold left t ∧
        Answered p { kind := .withdraw, reason := none, clamped := false, order := none
                     body := [byteField (t.seat p).state.code, byteField ((placeIn p t.race.entryList).getD 0),
                       byteField t.race.state.code] } s t) ∧
    (s.race.state.live = true → (s.seat p).state = .running ∨ (s.seat p).state = .stalled →
      (∃ r : PortId, r ≠ p ∧ carOf r ∈ s.race.fieldList ∧ (s.seat r).state = .running) →
      ∃ t, exec .withdraw s = .next t ∧ t.seat p = retired ∧
        t.events = s.events.append (.retire p (some (s.raceTime s.now)) .withdrawn) ∧
        t.fit p = s.fit p ∧ t.car p = s.car p ∧ Answered p (reply 7) s t ∧
        OthersKept p s t ∧ OutsideKept s { t with events := s.events }) ∧
    (s.race.state = .results → (s.seat p).state.inField = true →
      (∃ r : PortId, r ≠ p ∧ s.counted r = true ∧ s.portUp r = true ∧ s.race.seenMarks[r] ≠ some true) →
      ∃ t, exec .withdraw s = .next t ∧ t.seat p = freed ∧ t.car p = { latest := none, previous := none } ∧
        t.fit p = s.fit p ∧ Answered p (reply 1) s t ∧ OthersKept p s t ∧ OutsideKept s t) ∧
    (s.race.state = .results → (s.seat p).state.inField = true →
      (∀ r : PortId, r ≠ p → s.counted r = true → s.portUp r = true → s.race.seenMarks[r] = some true) →
      ∃ t, exec .withdraw s = .next t ∧
        EntersIdle (((s.emptied p).setSeat p freed).setCar p { latest := none, previous := none }) t ∧
        Answered p { kind := .withdraw, reason := none, clamped := false, order := none
                     body := [byteField 1, byteField 0, byteField 0] } s t)

/-! ## The controller timers and the seat timers -/

/-- R46, R61: the lobby closes at the lobby expiry, into GRID with the grid timer started when the entry list meets the minimum
field, and into VOID with the 3 s void timer when it does not, the entrants keeping their places. -/
def Obligations.LobbyExpiryClosesTheLobby : Prop :=
  ∀ s : State, s.resetHeld = false → expired s.now s.race.lobbyTimer = true → s.race.state = .lobby →
    (s.settings.minimumField ≤ s.race.entryList.length →
      exec .lobbyExpiry s = .next { s with race := { s.race with
        state := .grid, lobbyTimer := none, gridTimer := startTimer s.now (s.settings.gridTime * 1000000) } }) ∧
    (s.race.entryList.length < s.settings.minimumField →
      ∃ t, exec .lobbyExpiry s = .next t ∧
        t.race = { s.race with
          state := .void, lights := none, lobbyTimer := none, gridTimer := none, finishWindowTimer := none,
          raceLimitTimer := none, resultsHoldTimer := none, voidTimer := startTimer s.now 3000000 } ∧
        (∀ p, t.seat p =
          { s.seat p with
            silenceTimer := if (s.seat p).state = .ready then none else (s.seat p).silenceTimer }) ∧
        t.standings = [] ∧ t.assembler.results = s.assembler.results ∧
        { t with race := s.race, seats := s.seats, standings := s.standings, assembler := s.assembler } = s)

/-- R49 to R51, R95, R101, R119, R151, R153, R156: the grid closes at the grid expiry. Entrants that are not READY become
LINKED and lose their car state. When enough READY seats remain the race enters COUNTDOWN: t0 is now, E is the first boundary at
or after t0 plus the countdown, the field is the READY seats in entry order with a ranked pacer last, each is RUNNING with its
grid position, and the standings stand in that order. When too few remain the race enters VOID with them still listed. -/
def Obligations.GridExpiryClosesTheGrid : Prop :=
  ∀ s : State, s.resetHeld = false → expired s.now s.race.gridTimer = true → s.race.state = .grid →
    s.race.entryList.Nodup →
    ∃ t, exec .gridExpiry s = .next t ∧ ClosesGrid s t ∧ t.engine = s.engine ∧ t.freeDraws = s.freeDraws

/-- R56 to R58, R113, R171: the expiry of the finish window in FINISHING, or of the race limit in RACING or FINISHING, takes
the race to RESULTS under the number of the next boundary; race timers, health timers and pacer crossings stop, the standings
are the final ranking, the results entries are frozen from them and the copy taken at the entry, and the hold timer starts.
While a counted seat with its link UP is to be waited for the race stays there, and else it is released to IDLE at once. -/
def Obligations.ExpiryEndsTheRace : Prop :=
  ∀ s : State, s.resetHeld = false →
    let after (t : State) : Prop :=
      EndsRace (s.time.roundNumber + 1) s t ∧ t.engine = s.engine ∧ t.freeDraws = s.freeDraws
    (s.race.state = .finishing → expired s.now s.race.finishWindowTimer = true →
      ∃ t, exec .finishWindowExpiry s = .next t ∧ after t) ∧
    (s.race.state = .racing ∨ s.race.state = .finishing → expired s.now s.race.raceLimitTimer = true →
      ∃ t, exec .raceLimitExpiry s = .next t ∧ after t)

/-- R59, R61, R62: the expiry of the results hold in RESULTS, or of the void timer in VOID, takes the race to IDLE. The race
record, the standings, the lap records, the finish list and the event queue are emptied; a seat the race held becomes LINKED
if its link is UP and VACANT if not, and every seat loses its race fields; fits, counters, settings and ports are kept. -/
def Obligations.ExpiryReturnsTheRaceToIdle : Prop :=
  ∀ s : State, s.resetHeld = false →
    let after (t : State) : Prop := EntersIdle s t ∧ t.engine = s.engine ∧ t.freeDraws = s.freeDraws
    (s.race.state = .results → expired s.now s.race.resultsHoldTimer = true →
      ∃ t, exec .resultsHoldExpiry s = .next t ∧ after t) ∧
    (s.race.state = .void → expired s.now s.race.voidTimer = true →
      ∃ t, exec .voidExpiry s = .next t ∧ after t)

/-- R48, R137 to R139: the silence expiry. A READY seat in GRID returns to ENTERED with its place kept; a RUNNING seat in
COUNTDOWN, RACING or FINISHING becomes STALLED, SILENT, frozen at its last projected progress (or the progress of its latest
car state, or −L), with the drop timer started and a STALL event appended. Nothing else changes. -/
def Obligations.SilenceExpiryStallsTheSeat : Prop :=
  ∀ (p : PortId) (s : State), s.resetHeld = false → expired s.now (s.seat p).silenceTimer = true →
    ((s.seat p).state = .ready → s.race.state = .grid →
      exec (.silenceExpiry p) s = .next (s.setSeat p { s.seat p with state := .entered, silenceTimer := none })) ∧
    ((s.seat p).state = .running → s.race.state.live = true →
      ∃ t, exec (.silenceExpiry p) s = .next t ∧
        t.seat p = { s.seat p with
          state := .stalled, stallPhase := some .silent, recoveryRun := none, silenceTimer := none,
          dropTimer := startTimer s.now (s.settings.dropLimit * 1000000)
          frozenProgress := some (max (-(s.lapLength : Int)) (min ((s.lapCount : Int) * s.lapLength - 1)
            (match s.lastProjected (carOf p), (s.car p).latest with
              | some r, _ => r
              | none, some cs => cs.progress
              | none, none => -(s.lapLength : Int)))) } ∧
        (∀ r, r ≠ p → t.seat r = s.seat r) ∧
        t.events = s.events.append (.stall p (s.raceTime s.now) false) ∧
        { t with seats := s.seats, events := s.events } = s)

/-- R54, R56, R145, R146: the drop expiry of a STALLED seat in COUNTDOWN, RACING or FINISHING retires it with reason
LINK_LOST, its frozen progress and the race time now, and appends a RETIRE event; while another cabinet seat of the field
still runs the race goes on as it was, and the last one takes COUNTDOWN to VOID and a race with every car done to its end. -/
def Obligations.DropExpiryRetiresTheSeat : Prop :=
  ∀ (p : PortId) (s : State) (frozen : Int), s.resetHeld = false → expired s.now (s.seat p).dropTimer = true →
    (s.seat p).state = .stalled → (s.seat p).frozenProgress = some frozen → s.race.state.live = true →
    let retired : Seat :=
      { s.seat p with
        state := .retired, stallPhase := none, recoveryRun := none, frozenProgress := none,
        retireReason := some .linkLost, retireProgress := some frozen, retireTime := some (s.raceTime s.now),
        silenceTimer := none, dropTimer := none }
    let left : State := { s.setSeat p retired with
      events := s.events.append (.retire p (some (s.raceTime s.now)) .linkLost) }
    ∃ t, exec (.dropExpiry p) s = .next t ∧ RetirementTold left t ∧ t.engine = s.engine ∧ t.freeDraws = s.freeDraws ∧
      ((∃ r : PortId, r ≠ p ∧ carOf r ∈ s.race.fieldList ∧ (s.seat r).state = .running) → t = left)

/-- R3, R80: at the expiry of the anchor age timer the fit returns to FIT_NONE, its anchor dropped, both runs 0, Pn kept and P
written as Pn. Seat state and everything else is as it was. -/
def Obligations.AnchorAgeExpiryEmptiesTheFit : Prop :=
  ∀ (p : PortId) (s : State), s.resetHeld = false → expired s.now (s.fit p).ageTimer = true →
    exec (.anchorAgeExpiry p) s = .next (s.setFit p
      { phase := .fitNone, anchor := none, period := (s.fit p).nominal, nominal := (s.fit p).nominal, inGate := 0,
        outliers := 0, ageTimer := none })

/-! ## Reports -/

/-- R19, R66, R69, R84: a REPORT at a port in UP. From a VACANT seat it changes nothing; of the wrong length it raises the error
count, up to 254; one that the fit discards as duplicate or out of order raises that counter, up to 255, and changes nothing
else; from a LINKED seat it changes the fit and the fit's counters alone. The observation time is the arrival stamp less the link
delay as it stands when the whole report is handled, which is the model's reading of R66 (log 30). The staging of the frame (log
9) is emptied each time. -/
def Obligations.ReportReachesTheFitFirst : Prop :=
  ∀ (p : PortId) (m : Inbound) (s : State), s.resetHeld = false → (s.port p).link = .up →
    let frame := BitVec.ofNat 16 (readField m.order m.payload 0 2)
    let observed := m.stamp - BitVec.ofNat 32 (s.port p).delay
    let r := (s.fit p).take frame observed s.now
    ((s.seat p).state = .vacant →
      exec (.report p m) s = .next (s.setPort p { s.port p with handed := none })) ∧
    ∀ c, (s.seat p).cabinet = some c → (s.seat p).state ≠ .vacant →
      (m.payload.length ≠ (match c.form with | .full => 10 | .short => 8) →
        exec (.report p m) s = .next (s.setPort p
          { s.port p with handed := none, errorCount := min 254 ((s.port p).errorCount + 1) })) ∧
      (m.payload.length = (match c.form with | .full => 10 | .short => 8) →
        (∀ a, (s.fit p).phase ≠ .fitNone → (s.fit p).anchor = some a → frame = a.frame →
          exec (.report p m) s = .next ((s.setPort p { s.port p with handed := none }).setSeat p
            { s.seat p with duplicates := min 255 ((s.seat p).duplicates + 1) })) ∧
        (∀ a, (s.fit p).phase ≠ .fitNone → (s.fit p).anchor = some a → 32768 ≤ (frame - a.frame).toNat →
          exec (.report p m) s = .next ((s.setPort p { s.port p with handed := none }).setSeat p
            { s.seat p with outOfOrder := min 255 ((s.seat p).outOfOrder + 1) })) ∧
        ((s.seat p).state = .linked → r.kind ≠ .duplicate → r.kind ≠ .outOfOrder →
          exec (.report p m) s = .next (((s.setPort p { s.port p with handed := none }).setFit p r.fit).setSeat p
            { s.seat p with
              resyncs := if r.kind = .resync then min 255 ((s.seat p).resyncs + 1) else (s.seat p).resyncs })))

/-- R67 to R79: what the fit does with a report of frame count `frame` observed at `observed`: a first report; a duplicate or
out-of-order one; a gap; and a normal one, in the gate or an outlier, the third outlier in a row a resync. The gate is 4,000 µs
settling and 1,500 tracking, an error of exactly the gate in it. -/
def Obligations.FitTakesAReport : Prop :=
  ∀ (f : Fit) (frame : FrameCount) (observed now : HubTime),
    let age := startTimer now 600000000
    let anchored : Fit :=
      { f with phase := .fitSettling, anchor := some { frame := frame, time := observed }, inGate := 0, outliers := 0,
               ageTimer := age }
    (f.phase = .fitNone →
      f.take frame observed now = { fit := { anchored with period := f.nominal }, kind := .first,
                                    fitted := some observed }) ∧
    ∀ a, f.phase ≠ .fitNone → f.anchor = some a →
      let advance := (frame - a.frame).toNat
      (advance = 0 → f.take frame observed now = { fit := f, kind := .duplicate, fitted := none }) ∧
      (32768 ≤ advance → f.take frame observed now = { fit := f, kind := .outOfOrder, fitted := none }) ∧
      (17 ≤ advance → advance ≤ 32767 →
        f.take frame observed now = { fit := anchored, kind := .resync, fitted := some observed }) ∧
      ∀ period nominal : Nat, f.period = some period → f.nominal = some nominal → 1 ≤ advance → advance ≤ 16 →
        let tracking := f.phase = .fitTracking
        let predicted := a.time + BitVec.ofNat 32 ((advance * period + 128) / 256)
        let e := diff observed predicted
        let gate : Int := if tracking then 1500 else 4000
        (-gate ≤ e → e ≤ gate →
          let time := predicted + BitVec.ofInt 32 (Int.tdiv e (if tracking then 8 else 2))
          let moved : Int := period + Int.tdiv (e * 256) (advance * (if tracking then 64 else 8))
          let run := min 15 (f.inGate + 1)
          f.take frame observed now =
            { fit :=
                { phase := if tracking ∨ 8 ≤ run then .fitTracking else .fitSettling
                  anchor := some { frame := frame, time := time }
                  period := some (max ((nominal : Int) - (nominal / 32 : Nat))
                    (min ((nominal : Int) + (nominal / 32 : Nat)) moved)).toNat
                  nominal := some nominal
                  inGate := run, outliers := 0, ageTimer := age }
              kind := .inGate, fitted := some time }) ∧
        (e < -gate ∨ gate < e → f.outliers < 2 →
          f.take frame observed now =
            { fit := { f with anchor := some { frame := frame, time := predicted }, inGate := 0,
                              outliers := f.outliers + 1, ageTimer := age }
              kind := .outlier, fitted := some predicted }) ∧
        (e < -gate ∨ gate < e → 2 ≤ f.outliers →
          f.take frame observed now = { fit := anchored, kind := .resync, fitted := some observed })

/-- R66, R84 to R97, R140, R141, R184: a REPORT at a port that is not UP changes nothing. At a port in UP, from a seat that
keeps car fields and with a fitted time: an implausible one (its lap out of range, or for a seat in the field more than one
from the lap of its latest car state) raises its counter and leaves the car state; a plausible one becomes the latest car
state, the latest before it the previous one, and passes steps 3 to 6 of R85 in their order (what each does is said by
RecoveryAndJumpStart, CrossingRecordsLapAndFinish and RoundSeenReleasesTheResults). A lap above the high-water brings the
crossing into each lap from the high-water's next on, in rising order (R120). Said whole: an ENTERED or READY seat (the
silence timer restarts for READY in GRID alone); in COUNTDOWN, RACING and FINISHING a FINISHED or RETIRED seat, and a RUNNING
(timer restarted, the jump start judged) or SILENT (recovery begun) one whose lap brings no crossing, or brings one, recorded
at its crossing time and UNVERIFIED for the STALLED seat; a missing grid progress is taken. The fit's update and its resync
counter stand in all. The observation time is the arrival stamp less the link delay as it stands when the whole report is
handled, which is the model's reading of R66 (log 30). The staging of the REPORT is the model's (log 9). -/
def Obligations.ReportBecomesTheCarState : Prop :=
  ∀ (p : PortId) (m : Inbound) (s : State), s.resetHeld = false →
    ((s.port p).link ≠ .up → exec (.report p m) s = .next (s.setPort p { s.port p with handed := none })) ∧
    ∀ (c : Cabinet) (d : Descriptor) (time : HubTime), (s.port p).link = .up → (s.seat p).cabinet = some c →
      (s.seat p).state ≠ .vacant → (s.seat p).state ≠ .linked → s.race.descriptor = some d →
      m.payload.length = c.form.length →
      let r := (s.fit p).take (BitVec.ofNat 16 (readField m.order m.payload 0 2))
        (m.stamp - BitVec.ofNat 32 (s.port p).delay) s.now
      let seen := BitVec.ofNat 16 (readField m.order m.payload 2 2)
      let word := readField m.order m.payload 5 3
      let lap : Lap := if word.testBit 23 then .preLine else .count (readField m.order m.payload 4 1)
      let distance := min (word % 2 ^ 20) (d.lapLength - 1)
      let progress : Int := match lap with
        | .preLine => (distance : Int) - d.lapLength
        | .count k => min ((k : Int) * d.lapLength + distance) ((d.lapCount : Int) * d.lapLength)
      let latest := (s.car p).latest
      let speed : Int := match c.form, latest with
        | .full, _ => max (-4096) (min 16383 (BitVec.ofNat 16 (readField m.order m.payload 8 2)).toInt)
        | .short, none => 0
        | .short, some before =>
          if diff time before.time ≤ 0 then before.speed
          else max (-4096) (min 16383 (Int.tdiv ((progress - before.progress) * 1000000) (diff time before.time)))
      let cs : CarState :=
        { time := time, lap := lap, distance := distance, progress := progress, speed := speed
          flags := { pit := word.testBit 20, offCourse := word.testBit 21, wrongWay := word.testBit 22 } }
      let x : Seat := { s.seat p with
        resyncs := if r.kind = .resync then min 255 ((s.seat p).resyncs + 1) else (s.seat p).resyncs }
      let graded : Seat := { x with gridProgress := some (x.gridProgress.getD progress) }
      let fitted : State := ((s.setPort p { s.port p with handed := none }).setFit p r.fit).setSeat p x
      let moved : State := fitted.setCar p { latest := some cs, previous := latest }
      let plausible : Prop := lap.number ≤ d.lapCount ∧
        (x.state.inField = true → ∀ before, latest = some before → (lap.number - before.lap.number).natAbs ≤ 1)
      let silence : Timer := startTimer s.now (s.settings.stallLimit * 1000)
      r.fitted = some time →
      (¬plausible → s.race.state ≠ .results ∨ x.state.inField = false →
        exec (.report p m) s = .next (fitted.setSeat p { x with implausible := min 255 (x.implausible + 1) })) ∧
      (¬plausible →
        exec (.report p m) s = .next (captureRoundSeen p seen
          (fitted.setSeat p { x with implausible := min 255 (x.implausible + 1) }))) ∧
      (plausible →
        exec (.report p m) s = .next (captureRoundSeen p seen
          (handToLapTiming p latest cs (judgeJump p cs (seatTold p r.kind moved))))) ∧
      (plausible → x.state = .entered ∨ x.state = .ready →
        exec (.report p m) s = .next (moved.setSeat p { x with
          silenceTimer := if x.state = .ready ∧ s.race.state = .grid then silence else x.silenceTimer })) ∧
      (plausible → s.race.state.live = true →
        (x.state = .finished ∨ x.state = .retired → exec (.report p m) s = .next (moved.setSeat p graded)) ∧
        ∀ high, (s.lapRecord (carOf p)).highWater = some high →
          let crossed (n : Nat) (stalled : Bool) (told : State) : State :=
            (List.range n).foldl (fun (u : State) (i : Nat) =>
              let k := (high.number + 1 + (i : Int)).toNat
              let at_ := crossingTime d.lapLength k latest cs
              recordCrossing (carOf p) k at_.1 at_.2 stalled true u) told
          (x.state = .running →
            let early : Prop := s.raceTime time < 0 ∧ x.jumped = false ∧
              x.gridProgress.getD progress + s.settings.jumpTolerance < progress
            let told : State :=
              if early then
                { moved.setSeat p
                    { graded with silenceTimer := silence, jumped := true, penalty := s.settings.jumpPenalty * 1000 } with
                  events := s.events.append (.jump p (s.raceTime time)) }
              else moved.setSeat p { graded with silenceTimer := silence }
            (lap.number ≤ high.number → exec (.report p m) s = .next told) ∧
            (∀ k : Nat, lap = .count k → (k : Int) = high.number + 1 →
              (k = d.lapCount → s.race.state = .countdown ∨
                ∃ q : PortId, q ≠ p ∧ carOf q ∈ s.race.fieldList ∧ (s.seat q).state = .running) →
              let at_ := crossingTime d.lapLength k latest cs
              exec (.report p m) s = .next (recordCrossing (carOf p) k at_.1 at_.2 false true told)) ∧
            (∀ n : Nat, lap.number = high.number + n →
              exec (.report p m) s = .next (captureRoundSeen p seen (crossed n false told)))) ∧
          (x.state = .stalled → x.stallPhase = some .silent →
            let told := moved.setSeat p { graded with stallPhase := some .recovering, recoveryRun := some 0 }
            (lap.number ≤ high.number → exec (.report p m) s = .next told) ∧
            (∀ k : Nat, lap = .count k → (k : Int) = high.number + 1 →
              (k = d.lapCount → ∃ q : PortId, q ≠ p ∧ carOf q ∈ s.race.fieldList ∧ (s.seat q).state = .running) →
              let at_ := crossingTime d.lapLength k latest cs
              exec (.report p m) s = .next (recordCrossing (carOf p) k at_.1 at_.2 true true told)) ∧
            (∀ n : Nat, lap.number = high.number + n →
              exec (.report p m) s = .next (captureRoundSeen p seen (crossed n true told)))))

/-- R96, R141 to R143, at steps 3 and 4 of R85. A car-accepted report of a SILENT seat begins its recovery at run 0, whatever
its class; an in-gate one of a RECOVERING seat raises the run, any other zeroes it; the fourth readmits the seat to RUNNING with
its drop timer cancelled, its silence timer started and a RESUME event. A RUNNING seat fitted before E beyond its grid progress
plus the tolerance, not yet flagged, is flagged once with its penalty and a JUMP event; at exactly the tolerance it is not. -/
def Obligations.RecoveryAndJumpStart : Prop :=
  ∀ (p : PortId) (s : State), s.race.state.live = true →
    let x := s.seat p
    ((x.state = .stalled → x.stallPhase = some .silent → ∀ kind,
      seatTold p kind s = s.setSeat p { x with stallPhase := some .recovering, recoveryRun := some 0 }) ∧
    (∀ run, x.state = .stalled → x.stallPhase = some .recovering → x.recoveryRun = some run →
      (run < 3 → seatTold p .inGate s = s.setSeat p { x with recoveryRun := some (run + 1) }) ∧
      (∀ kind, kind ≠ .inGate → seatTold p kind s = s.setSeat p { x with recoveryRun := some 0 }) ∧
      (run = 3 →
        (seatTold p .inGate s).seat p = { x with
          state := .running, stallPhase := none, recoveryRun := none, frozenProgress := none, dropTimer := none,
          silenceTimer := startTimer s.now (s.settings.stallLimit * 1000) } ∧
        (seatTold p .inGate s).events = s.events.append (.resume p (s.raceTime s.now)) ∧
        { seatTold p .inGate s with seats := s.seats, events := s.events } = s))) ∧
    ∀ (cs : CarState) (grid : Int), x.state = .running → x.gridProgress = some grid →
      (s.raceTime cs.time < 0 → grid + s.settings.jumpTolerance < cs.progress → x.jumped = false →
        (judgeJump p cs s).seat p = { x with jumped := true, penalty := s.settings.jumpPenalty * 1000 } ∧
        (judgeJump p cs s).events = s.events.append (.jump p (s.raceTime cs.time)) ∧
        { judgeJump p cs s with seats := s.seats, events := s.events } = s) ∧
      (0 ≤ s.raceTime cs.time ∨ cs.progress ≤ grid + s.settings.jumpTolerance ∨ x.jumped = true →
        judgeJump p cs s = s)

/-- R58, R94, at step 6 of R85: in RESULTS a captured round-seen of a field seat at or after k_res sets its seen mark; when
every counted seat with its link UP then has its mark the race enters IDLE, and otherwise it stays in RESULTS. A round-seen
before k_res sets none. -/
def Obligations.RoundSeenReleasesTheResults : Prop :=
  ∀ (p : PortId) (seen k : RoundNo) (s : State), s.race.state = .results → s.race.resultsRound = some k →
    (s.seat p).state.inField = true →
    ((seen - k).toNat < 32768 →
      (∃ r : PortId, r ≠ p ∧ s.counted r = true ∧ s.portUp r = true ∧ s.race.seenMarks[r] ≠ some true) →
      captureRoundSeen p seen s =
        { s with race := { s.race with seenMarks := s.race.seenMarks.set p (some true) } }) ∧
    ((seen - k).toNat < 32768 →
      (∀ r : PortId, r ≠ p → s.counted r = true → s.portUp r = true → s.race.seenMarks[r] = some true) →
      EntersIdle { s with race := { s.race with seenMarks := s.race.seenMarks.set p (some true) } }
        (captureRoundSeen p seen s)) ∧
    (32768 ≤ (seen - k).toNat → s.allSeen = false → captureRoundSeen p seen s = s)

/-! ## Crossings, laps and the finish -/

/-- R121, R122: a crossing into lap k is resolved exactly when a previous state exists, the interval is 1 to 2,000,000 µs and
the line lies above the previous line progress and not above the latest; its time is then T0 plus the floored share of the
interval, from T0 to T1 and T1 only when the line is at q1. Otherwise it is unresolved at T1. -/
def Obligations.CrossingTimeInterpolates : Prop :=
  ∀ (lapLength k : Nat) (latest : CarState),
    let line (cs : CarState) : Int := match cs.lap with
      | .preLine => (cs.distance : Int) - lapLength
      | .count n => (n : Int) * lapLength + cs.distance
    let x : Int := (k : Int) * lapLength
    let q1 := line latest
    crossingTime lapLength k none latest = (latest.time, false) ∧
    ∀ before : CarState,
      let q0 := line before
      let interval := diff latest.time before.time
      (1 ≤ interval → interval ≤ 2000000 → q0 < x → x ≤ q1 →
        ∃ n : Int, crossingTime lapLength k (some before) latest = (before.time + BitVec.ofInt 32 n, true) ∧
          n * (q1 - q0) ≤ (x - q0) * interval ∧ (x - q0) * interval < (n + 1) * (q1 - q0) ∧
          0 ≤ n ∧ n ≤ interval ∧ (n = interval ↔ x = q1)) ∧
      (¬(1 ≤ interval ∧ interval ≤ 2000000 ∧ q0 < x ∧ x ≤ q1) →
        crossingTime lapLength k (some before) latest = (latest.time, false))

/-- R123 to R128, R140 and R55: a crossing of a cabinet car in COUNTDOWN, RACING or FINISHING. Into lap 0 it is recorded and
raises the high-water, and nothing else. Into a lap from 1 to N: lap 1 is timed from E, a later one from the last crossing;
the entry is UNVERIFIED when the seat is STALLED, when either crossing is unresolved, or when the time is not positive; the
best and fastest laps follow strictly smaller verified times; and a LAP event is appended. Lap N also finishes the car: raw
and corrected times, FINISHED with its timers cancelled, its place in the finish list, a FINISH event, and FINISHING with its
window started when the race was RACING, while some car of the field is still running. In COUNTDOWN, before the green, a lap
and a finish are recorded in the same way and the race state stays. R56: whoever still runs, the finish recorded whole is what
the race controller is told of, and with every car done the race ends under the number of the next boundary. -/
def Obligations.CrossingRecordsLapAndFinish : Prop :=
  (∀ (p : PortId) (at_ : HubTime) (resolved stalled : Bool) (s : State),
    recordCrossing (carOf p) 0 at_ resolved stalled true s = s.setLapRecord (carOf p)
      { s.lapRecord (carOf p) with
        lastCrossing := some { lap := 0, time := at_, resolved := resolved }, highWater := some (.count 0) }) ∧
  (∀ (p : PortId) (k : Nat) (at_ : HubTime) (resolved stalled : Bool) (s : State) (last : Crossing) (e : HubTime), 1 ≤ k →
    (2 ≤ k → (s.lapRecord (carOf p)).lastCrossing = some last) → s.race.epoch = some e → s.race.state.live = true →
    (k = s.lapCount → s.race.state ≠ .countdown →
      ∃ r : PortId, r ≠ p ∧ carOf r ∈ s.race.fieldList ∧ (s.seat r).state = .running) →
    let c := carOf p
    let time := if k = 1 then diff at_ e else diff at_ last.time
    let unverified : Bool := stalled || !resolved || (decide (2 ≤ k) && !last.resolved) || decide (time ≤ 0)
    let best := (s.lapRecord c).bestLap
    let takesBest : Prop := unverified = false ∧ ∀ b, best = some b → time < b.time
    let fastest : Bool := !unverified && (match s.fastestLap with | none => true | some f => decide (time < f.time))
    let t := recordCrossing c k at_ resolved stalled true s
    let lapEvent : Event := .lap c k time fastest unverified
    (t.lapRecord c).lastCrossing = some { lap := k, time := at_, resolved := resolved } ∧
    (t.lapRecord c).highWater = some (.count k) ∧
    (t.lapRecord c).history = (s.lapRecord c).history ++ [{ time := time, unverified := unverified }] ∧
    (t.lapRecord c).bestLap = (if takesBest then some { lap := k, time := time } else best) ∧
    t.fastestLap = (if fastest then some { car := c, lap := k, time := time } else s.fastestLap) ∧
    (∀ c', c' ≠ c → t.lapRecord c' = s.lapRecord c') ∧ (∀ r', r' ≠ p → t.seat r' = s.seat r') ∧
    (k ≠ s.lapCount →
      t.events = s.events.append lapEvent ∧ t.seat p = s.seat p ∧
      { t with lapRecords := s.lapRecords, fastestLap := s.fastestLap, events := s.events } = s) ∧
    (k = s.lapCount →
      let raw := diff at_ e
      let corrected := raw + (s.seat p).penalty
      (t.lapRecord c).finish = some { raw := raw, corrected := corrected } ∧
      t.seat p = { s.seat p with
        state := .finished, stallPhase := none, recoveryRun := none, frozenProgress := none, silenceTimer := none,
        dropTimer := none } ∧
      t.finishList = insertFinish { car := c, raw := raw, corrected := corrected } s.finishList ∧
      t.events = (s.events.append lapEvent).append
        (.finish c k corrected (decide (0 < (s.seat p).penalty)) unverified) ∧
      t.race = (if s.race.state = .racing then
        { s.race with
          state := .finishing, finishWindowTimer := startTimer s.now (s.settings.finishWindow * 1000000) }
        else s.race) ∧
      { t with lapRecords := s.lapRecords, fastestLap := s.fastestLap, events := s.events, seats := s.seats,
               finishList := s.finishList, race := s.race } = s)) ∧
  ∀ (p : PortId) (at_ : HubTime) (resolved stalled : Bool) (s : State) (last : Crossing) (e : HubTime), 1 ≤ s.lapCount →
    (2 ≤ s.lapCount → (s.lapRecord (carOf p)).lastCrossing = some last) → s.race.epoch = some e →
    s.race.state.live = true →
    let c := carOf p
    let k := s.lapCount
    let time := if k = 1 then diff at_ e else diff at_ last.time
    let unverified : Bool := stalled || !resolved || (decide (2 ≤ k) && !last.resolved) || decide (time ≤ 0)
    let best := (s.lapRecord c).bestLap
    let takesBest : Prop := unverified = false ∧ ∀ b, best = some b → time < b.time
    let fastest : Bool := !unverified && (match s.fastestLap with | none => true | some f => decide (time < f.time))
    let raw := diff at_ e
    let corrected := raw + (s.seat p).penalty
    let finished : State :=
      { (s.setLapRecord c
          { highWater := some (.count k), lastCrossing := some { lap := k, time := at_, resolved := resolved }
            history := (s.lapRecord c).history ++ [{ time := time, unverified := unverified }]
            bestLap := if takesBest then some { lap := k, time := time } else best
            finish := some { raw := raw, corrected := corrected } }).setSeat p
          { s.seat p with
            state := .finished, stallPhase := none, recoveryRun := none, frozenProgress := none, silenceTimer := none
            dropTimer := none } with
        fastestLap := if fastest then some { car := c, lap := k, time := time } else s.fastestLap
        finishList := insertFinish { car := c, raw := raw, corrected := corrected } s.finishList
        events := (s.events.append (.lap c k time fastest unverified)).append
          (.finish c k corrected (decide (0 < (s.seat p).penalty)) unverified) }
    let t := recordCrossing c k at_ resolved stalled true s
    FinishTold finished t ∧ t.engine = s.engine ∧ t.freeDraws = s.freeDraws

/-- R129: an entry is inserted into an ordered finish list directly below the last entry that orders before it; the list stays
ordered, holds what it held in the same order, and the entry besides. -/
def Obligations.FinishInsertionKeepsTheOrder : Prop :=
  ∀ (e : FinishEntry) (l : List FinishEntry), finishOrdered l = true →
    finishOrdered (insertFinish e l) = true ∧
    ∃ above below, l = above ++ below ∧ insertFinish e l = above ++ e :: below ∧
      (∀ x ∈ above, x.before e = true) ∧ ∀ x ∈ below, x.before e = false

/-- R132, R156, R157: when race time has reached the pacer's next crossing into lap k in RACING or FINISHING, the lap is
recorded at E + k × Tp, resolved and exactly Tp long (lap 1 from E, a later one after a last crossing at E + (k − 1) × Tp),
the best lap follows a strictly smaller one, and the next crossing moves a lap on. An unranked pacer's laps are neither
compared nor announced, and its lap N makes the pacer record FINISHED and nothing else of the race; a ranked pacer's lap
appends a LAP event and may take the fastest lap, and its lap N also finishes it at N × Tp as any car, with a FINISH event,
while some cabinet car of the field is still running; whoever runs, that finish is what the race controller is told of, and
with every car done the race ends (R56). -/
def Obligations.PacerCrossesOnTime : Prop :=
  ∀ (s : State) (x : PacerCrossing) (e : HubTime) (table : ScaledProfile) (last : Crossing), s.resetHeld = false →
    s.race.state = .racing ∨ s.race.state = .finishing → s.race.epoch = some e → s.pacer.scaled = some table →
    s.pacer.nextCrossing = some x → (x.raceTime : Int) ≤ diff s.now e → 1 ≤ x.lap →
    x.raceTime = x.lap * table.lapTime → 0 < table.lapTime → table.lapTime < 2 ^ 31 →
    (2 ≤ x.lap → (s.lapRecord pacerCar).lastCrossing = some last ∧ last.resolved = true ∧
      last.time = e + BitVec.ofNat 32 ((x.lap - 1) * table.lapTime)) →
    let next : PacerGenerator := { s.pacer with
      nextCrossing :=
        if x.lap < s.lapCount then some { lap := x.lap + 1, raceTime := (x.lap + 1) * table.lapTime } else none }
    let best :=
      if ∀ b, (s.lapRecord pacerCar).bestLap = some b → (table.lapTime : Int) < b.time then
        some { lap := x.lap, time := table.lapTime }
      else (s.lapRecord pacerCar).bestLap
    (s.race.pacerMode = some .ranked → x.lap = s.lapCount →
      let fastest : Bool := match s.fastestLap with | none => true | some f => decide ((table.lapTime : Int) < f.time)
      let finished : State :=
        { s.setLapRecord pacerCar
            { highWater := some (.count x.lap)
              lastCrossing := some { lap := x.lap, time := e + BitVec.ofNat 32 x.raceTime, resolved := true }
              history := (s.lapRecord pacerCar).history ++ [{ time := table.lapTime, unverified := false }]
              bestLap := best, finish := some { raw := x.raceTime, corrected := x.raceTime } } with
          pacer := next, pacerRecord := some .finished
          fastestLap := if fastest then some { car := pacerCar, lap := x.lap, time := table.lapTime } else s.fastestLap
          finishList := insertFinish { car := pacerCar, raw := x.raceTime, corrected := x.raceTime } s.finishList
          events := (s.events.append (.lap pacerCar x.lap table.lapTime fastest false)).append
            (.finish pacerCar x.lap x.raceTime false false) }
      ∃ t, exec .pacerCrossing s = .next t ∧ FinishTold finished t ∧ t.engine = s.engine ∧ t.freeDraws = s.freeDraws) ∧
    ((s.race.pacerMode = some .ranked → x.lap = s.lapCount →
        ∃ r : PortId, carOf r ∈ s.race.fieldList ∧ (s.seat r).state = .running) →
    ∃ t, exec .pacerCrossing s = .next t ∧
      (t.lapRecord pacerCar).lastCrossing =
        some { lap := x.lap, time := e + BitVec.ofNat 32 x.raceTime, resolved := true } ∧
      (t.lapRecord pacerCar).highWater = some (.count x.lap) ∧
      (t.lapRecord pacerCar).history =
        (s.lapRecord pacerCar).history ++ [{ time := table.lapTime, unverified := false }] ∧
      (t.lapRecord pacerCar).bestLap = best ∧ t.pacer = next ∧
      (∀ p : PortId, t.lapRecord (carOf p) = s.lapRecord (carOf p) ∧ t.seat p = s.seat p) ∧
      (s.race.pacerMode = some .running →
        t.fastestLap = s.fastestLap ∧ t.events = s.events ∧ t.finishList = s.finishList ∧ t.race = s.race ∧
        t.pacerRecord = (if x.lap = s.lapCount then some .finished else s.pacerRecord)) ∧
      (s.race.pacerMode = some .ranked →
        ∃ fastest,
          let lapped := s.events.append (.lap pacerCar x.lap table.lapTime fastest false)
          t.events = (if x.lap = s.lapCount then lapped.append (.finish pacerCar x.lap x.raceTime false false)
            else lapped) ∧
          t.fastestLap = (if fastest then some { car := pacerCar, lap := x.lap, time := table.lapTime }
            else s.fastestLap) ∧
          (fastest = true ↔ ∀ f, s.fastestLap = some f → (table.lapTime : Int) < f.time)) ∧
      (s.race.pacerMode = some .ranked → x.lap ≠ s.lapCount →
        t.finishList = s.finishList ∧ t.race = s.race ∧ t.pacerRecord = s.pacerRecord) ∧
      (s.race.pacerMode = some .ranked → x.lap = s.lapCount →
        t.pacerRecord = some .finished ∧
        t.finishList = insertFinish { car := pacerCar, raw := x.raceTime, corrected := x.raceTime } s.finishList ∧
        (t.lapRecord pacerCar).finish = some { raw := x.raceTime, corrected := x.raceTime } ∧
        t.race = (if s.race.state = .racing then
          { s.race with
            state := .finishing, finishWindowTimer := startTimer s.now (s.settings.finishWindow * 1000000) }
          else s.race)))

/-- R153 to R155: for a valid profile each segment but the last is the floor of its share of the lap, the last takes what is
left, each takes the time of its length at its speed rounded up, and starts where and when those before it end; the lap time
is the sum. In lap k at the offset r into the lap, the segment that contains r gives the progress and the speed. The pacer's
progress is 0 up to the green, exactly k × L at k × Tp for each lap k to N, between 0 and N × L always, never falling, and N ×
L with speed 0 from the Nth lap on. -/
def Obligations.PacerProgressIsExactAndMonotone : Prop :=
  ∀ (profile : List ProfileSegment) (lapLength lapCount : Nat), profileSound profile = true → 10000 ≤ lapLength →
    let table := scaleProfile profile lapLength
    let progress (t : Int) : Int := (table.view lapLength lapCount t).progress
    (table.segments.map (·.length)).sum = lapLength ∧ (∀ g ∈ table.segments, 39 ≤ g.length) ∧
    table.lapTime = (table.segments.map (·.time)).sum ∧
    table.segments.length = profile.length ∧
    (∀ (i : Nat) (g : Segment) (x : ProfileSegment), table.segments[i]? = some g → profile[i]? = some x →
      (i + 1 < profile.length → g.length = lapLength * x.share / 256) ∧
      g.start = ((table.segments.take i).map (·.length)).sum ∧
      g.startTime = ((table.segments.take i).map (·.time)).sum ∧ g.speed = x.speed ∧
      g.length * 1000000 ≤ g.time * x.speed ∧ g.time * x.speed < g.length * 1000000 + x.speed) ∧
    (∀ (k r : Nat) (g : Segment), k < lapCount → g ∈ table.segments → g.startTime ≤ r → r < g.startTime + g.time →
      0 < k * table.lapTime + r →
      table.view lapLength lapCount ((k * table.lapTime + r : Nat) : Int) =
        { progress := (k * lapLength + g.start + g.speed * (r - g.startTime) / 1000000 : Nat), speed := g.speed }) ∧
    (∀ t : Int, t ≤ 0 → table.view lapLength lapCount t = { progress := 0, speed := 0 }) ∧
    (∀ k : Nat, k ≤ lapCount → progress ((k : Int) * table.lapTime) = (k : Int) * lapLength) ∧
    (∀ t : Int, 0 ≤ progress t ∧ progress t ≤ (lapCount : Int) * lapLength) ∧
    (∀ t t' : Int, t ≤ t' → progress t ≤ progress t') ∧
    ∀ t : Int, 1 ≤ lapCount → (lapCount : Int) * table.lapTime ≤ t →
      table.view lapLength lapCount t = { progress := (lapCount : Int) * lapLength, speed := 0 }

/-! ## Standings -/

/-- R103 to R105, R159: a ranking progress lies between −L and N × L, and for a car that is not FINISHED at most at N × L − 1;
a RUNNING cabinet car with a latest car state stands at its progress plus the truncated increment over an age clamped to 0 to
the horizon, stale exactly when the age exceeds the horizon; one with none stands at −L and is stale; a STALLED car stands at
its frozen progress, a RETIRED one at its retire progress, a FINISHED one at N × L and the RUNNING pacer at its generator's
progress, the first two and the last clamped, and none of them is stale. -/
def Obligations.ProjectionStaysOnTheTrack : Prop :=
  ∀ (snap : Snapshot) (horizon : Nat) (x : SnapCar) (d : Descriptor), snap.descriptor = some d → 1 ≤ d.lapLength →
    1 ≤ d.lapCount →
    let e := snap.rankingEntry horizon x
    let low : Int := -(d.lapLength : Int)
    let high : Int := (d.lapCount : Int) * d.lapLength
    e.car = x.car ∧
    (∃ v, e.projected = some v ∧ low ≤ v ∧ v ≤ high ∧ (x.state ≠ .finished → v ≤ high - 1)) ∧
    (x.state = .running → x.car ≠ pacerCar → ∀ cs, x.latest = some cs →
      let age := diff snap.instant cs.time
      e.projected = some (max low (min (high - 1)
          (cs.progress + Int.tdiv (cs.speed * max 0 (min (horizon : Int) age)) 1000000))) ∧
        e.stale = decide ((horizon : Int) < age)) ∧
    (x.state = .running → x.car ≠ pacerCar → x.latest = none → e.projected = some low ∧ e.stale = true) ∧
    (x.state = .stalled → e.projected = some (max low (min (high - 1) (x.frozen.getD low))) ∧ e.stale = false) ∧
    (x.state = .retired → e.projected = some (max low (min (high - 1) (x.retireProgress.getD low))) ∧ e.stale = false) ∧
    (x.state = .finished → e.projected = some high ∧ e.stale = false) ∧
    (x.state = .running → x.car = pacerCar → ∀ v, snap.pacerView = some v →
      e.projected = some (max low (min (high - 1) v.progress)) ∧ e.stale = false)

/-- R106 to R111: a ranking is the FINISHED cars in the order of the finish list, then the running group rebuilt by insertion
in the order of the previous standings, then the RETIRED cars, the greatest retire progress first and of equals the lower
seat. The insertion takes one car at a time and keeps every car of the group. A car beats another exactly when it is not
STALLED and leads it by more than the margin. Taking a car moves it up past exactly the run of cars directly above it that it
beats, in that order, and leaves the order of all others. -/
def Obligations.InsertionMovesPastBeatenCars : Prop :=
  (∀ (margin : Nat) (a b : Contender),
    a.beats margin b = true ↔ a.stalled = false ∧ b.progress + margin < a.progress) ∧
  (∀ (margin : Nat) (c : Contender) (above : List Contender),
    ∃ passed rest, above = passed ++ rest ∧ (climb margin c above).1 = passed ++ c :: rest ∧
      (climb margin c above).2 = passed.map (·.entry.car) ∧ (∀ x ∈ passed, c.beats margin x = true) ∧
      ∀ x ∈ rest.head?, c.beats margin x = false) ∧
  (∀ (margin : Nat) (cars built : List Contender),
    ((insertAll margin cars built).1).Perm (cars ++ built) ∧
    ∀ m ∈ (insertAll margin cars built).2, ∃ a ∈ cars, a.entry.car = m.1 ∧ a.stalled = false) ∧
  (∀ (margin : Nat) (c : Contender) (rest built : List Contender),
    let placed := climb margin c built
    insertAll margin [] built = (built, []) ∧
    insertAll margin (c :: rest) built =
      ((insertAll margin rest placed.1).1,
        placed.2.map (fun d => (c.entry.car, d)) ++ (insertAll margin rest placed.1).2)) ∧
  ∀ (snap : Snapshot) (horizon margin : Nat) (previous : List CarId),
    let contender (x : SnapCar) : Contender :=
      { entry := snap.rankingEntry horizon x, stalled := x.state == .stalled }
    let cars := previous.filterMap snap.carOf?
    let finished := (snap.finishList.filterMap fun f => snap.carOf? f.car).filter fun x => x.state == .finished
    let running := cars.filter fun x => x.state != .finished && x.state != .retired
    let group := insertAll margin (running.map contender) []
    ∃ retired : List Contender,
      snap.rank horizon margin previous =
        (finished.map (snap.rankingEntry horizon) ++ group.1.reverse.map (·.entry) ++ retired.map (·.entry), group.2) ∧
      retired.Perm ((cars.filter fun x => x.state == .retired).map contender) ∧
      retired.Pairwise fun a b =>
        b.progress < a.progress ∨ (a.progress = b.progress ∧ a.entry.car ≤ b.entry.car)

/-! ## Links -/

/-- R175, R177, R179, R181: a correctly framed byte at a port in DOWN gains lock: TRAINING, the lock watch at 50 ms, and a
first pass at probe 0 with the error count at 0. At a port in TRAINING or UP it restarts the watch and keeps the link. R19,
R182: the byte reaches the receiver: a 0xD3 is held with the hub time of its start bit, 5 µs before it is whole, and with the
byte order that held then; 0x2B at once after it begins a frame; and the bytes that follow are read until the second CRC byte
completes it. Where the order changed within the start bit's microsecond, it is one of the two, and a free value is drawn. The
expiry of the retrain wait begins a new pass. Nothing outside the port changes but the count of free values. The frame staging
that the gain of lock empties, the trail of byte orders and the 5 µs are the model's (logs 9, 29 and 7), and so is the 0 that
a fresh training record holds as the send stamp of no probe yet (log 33). -/
def Obligations.BytesGainAndKeepLock : Prop :=
  ∀ (p : PortId) (s : State), s.resetHeld = false →
    let first : Training :=
      { probe := 0, stage := .due, errors := 0, least := none, sentAt := 0, echoWait := none, retrainWait := none }
    let draws := s.freeDraws + if s.orderTrail[5][p] = s.orderTrail[4][p] then 0 else 1
    (∀ b : Byte, (s.port p).link = .down →
      exec (.byteReceived p b) s = .next { s.setPort p
        { s.port p with
          link := .training, lockWatch := startTimer s.now 50000, training := some first, errorCount := 0,
          receiver := .hunting, arrived := none, handed := none } with freeDraws := draws }) ∧
    (∀ b : Byte, (s.port p).link ≠ .down →
      let r := (s.port p).receiver.take s.now (s.orderAtStart p) b
      exec (.byteReceived p b) s = .next { s.setPort p
        { s.port p with
          lockWatch := startTimer s.now 50000, receiver := r.1
          arrived := match r.2 with
            | some f => some f
            | none => (s.port p).arrived } with freeDraws := draws }) ∧
    (s.orderAtStart p = s.orderTrail[4][p] ∨ s.orderAtStart p = s.orderTrail[5][p]) ∧
    (∀ (now : HubTime) (order held : ByteOrder) (stamp : HubTime) (b : Byte) (got : List Byte),
      Receiver.take .hunting now order b = (if b = 0xD3 then .marker (now - 5) order else .hunting, none) ∧
      Receiver.take (.marker stamp held) now order b =
        (if b = 0x2B then .reading stamp held [] else if b = 0xD3 then .marker (now - 5) order else .hunting, none) ∧
      (got.length + 1 < 4 + (got[1]?.getD 0).toNat →
        Receiver.take (.reading stamp held got) now order b = (.reading stamp held (got ++ [b]), none)) ∧
      (∀ kind payload (high : Byte), payload.length ≤ 255 →
        got = kind :: BitVec.ofNat 8 payload.length :: (payload ++ [high]) →
        Receiver.take (.reading stamp held got) now order b =
          (.hunting, some { stamp := stamp, order := held, kind := kind, payload := payload, crc := high ++ b }))) ∧
    (∀ order : ByteOrder, (s.port p).link ≠ .down → (s.port p).receiver = .hunting → s.orderTrail[4][p] = order →
      s.orderTrail[5][p] = order →
      exec (.byteReceived p 0xD3) s = .next (s.setPort p
        { s.port p with lockWatch := startTimer s.now 50000, receiver := .marker (s.now - 5) order })) ∧
    (∀ t, (s.port p).link = .training → (s.port p).training = some t → expired s.now t.retrainWait = true →
      exec (.retrainWaitExpiry p) s = .next (s.setPort p
        { s.port p with training := some first, errorCount := 0 }))

/-- R182: the bytes of a frame, arriving back to back at a hunting receiver, complete that frame and no other at its last CRC
byte, and the CRC it carries is the CRC of what was received. The arrival stamp is that of the start of its first byte, which
the model takes as 5 µs before that byte is whole (log 7). -/
def Obligations.ReceiverReadsBackEveryFrame : Prop :=
  ∀ (order : ByteOrder) (now : HubTime) (kind : Byte) (payload : List Byte), payload.length ≤ 255 →
    receive order .hunting now (wireBytes kind payload) =
      (.hunting, [{ stamp := now - 5, order := order, kind := kind, payload := payload,
                    crc := frameCrc kind payload }]) ∧
    (wireBytes kind payload).length = payload.length + 6

/-- R19, R189: a number that fits `width` bytes, written in either byte order, reads back as itself in that order, and a signed
16-bit field as its two's complement value. -/
def Obligations.FieldsReadBackInBothOrders : Prop :=
  ∀ (order : ByteOrder) (width n : Nat) (before after : List Byte), n < 256 ^ width →
    readField order (before ++ Field.bytes order { width := width, value := n } ++ after) before.length width = n ∧
    ∀ v : Int, -32768 ≤ v → v ≤ 32767 →
      signed16 (readField order (before ++ Field.bytes order { width := 2, value := v } ++ after) before.length 2) = v

/-- R175, R182 to R184: a frame whose CRC is right is handed on by its kind in UP and in TRAINING; in UP a wrong CRC, or a kind
the hub does not receive, raises the error count, up to 254; a framing error inside a frame in UP does the same and ends the
frame, and one between frames changes nothing. The frame's staging is the model's (log 9). -/
def Obligations.FramesAreCheckedAndHandedOn : Prop :=
  ∀ (p : PortId) (f : RxFrame) (s : State), s.resetHeld = false →
    let q : Port := { s.port p with arrived := none }
    let m : Inbound := { stamp := f.stamp, order := f.order, payload := f.payload }
    let count := min 254 ((s.port p).errorCount + 1)
    let good : Prop := f.crc = crc16 (f.kind :: BitVec.ofNat 8 f.payload.length :: f.payload)
    (good → (s.port p).link ≠ .down → f.kind = 0x10 →
      exec (.frameArrival p f) s = .next (s.setPort p { q with handed := some (.report m) })) ∧
    (good → (s.port p).link ≠ .down → f.kind = 0x30 →
      exec (.frameArrival p f) s = .next (s.setPort p { q with handed := some (.echo m) })) ∧
    (good → (s.port p).link ≠ .down → ∀ k, f.kind.toNat = serviceCode k →
      exec (.frameArrival p f) s = .next (s.setPort p { q with handed := some (.service k m) })) ∧
    (good → (s.port p).link = .up → f.kind ≠ 0x10 → f.kind ≠ 0x30 → (∀ k, f.kind.toNat ≠ serviceCode k) →
      exec (.frameArrival p f) s = .next (s.setPort p { q with errorCount := count })) ∧
    (¬good → (s.port p).link = .up →
      exec (.frameArrival p f) s = .next (s.setPort p { q with errorCount := count })) ∧
    (∀ stamp order got, (s.port p).link = .up → (s.port p).receiver = .reading stamp order got →
      exec (.framingError p) s = .next (s.setPort p { s.port p with receiver := .hunting, errorCount := count })) ∧
    ((s.port p).receiver = .hunting → exec (.framingError p) s = .next s)

/-- R180, R182: while the echo wait of a probe before the last runs, a good echo resolves it with the lesser round-trip measure
kept, and a mismatch, a corrupt echo (a frame of the wrong CRC, or a framing error inside a frame) or the expiry of the wait
resolves it with one probe error more; an echo of another number, or anything outside an echo wait, is not counted and changes
nothing but the receiver and the staging (log 9). -/
def Obligations.EchoesResolveProbes : Prop :=
  ∀ (p : PortId) (m : Inbound) (s : State) (t : Training), s.resetHeld = false → (s.port p).link = .training →
    (s.port p).training = some t → t.probe < 15 →
    let q : Port := { s.port p with handed := none }
    let next : Training := { t with probe := t.probe + 1, stage := .due, echoWait := none }
    let measure : Int := diff m.stamp t.sentAt - 195
    let pattern := (List.range 32).map fun j => BitVec.ofNat 8 ((t.probe * 37 + j * 11) % 256)
    let good : Training := { next with least := some (match t.least with | none => measure | some l => min l measure) }
    let bad : Training := { next with errors := t.errors + 1 }
    (t.echoWait ≠ none → m.payload = BitVec.ofNat 8 t.probe :: pattern →
      exec (.echo p m) s = .next (s.setPort p { q with training := some good })) ∧
    (t.echoWait ≠ none → ∀ rest, m.payload = BitVec.ofNat 8 t.probe :: rest → rest ≠ pattern →
      exec (.echo p m) s = .next (s.setPort p
        { q with errorCount := (s.port p).errorCount + 1, training := some bad })) ∧
    (∀ number rest, m.payload = number :: rest → number.toNat ≠ t.probe →
      exec (.echo p m) s = .next (s.setPort p q)) ∧
    (t.echoWait = none → exec (.echo p m) s = .next (s.setPort p q)) ∧
    (∀ f : RxFrame, f.crc ≠ crc16 (f.kind :: BitVec.ofNat 8 f.payload.length :: f.payload) →
      (t.echoWait ≠ none → exec (.frameArrival p f) s = .next (s.setPort p
        { s.port p with arrived := none, errorCount := (s.port p).errorCount + 1, training := some bad })) ∧
      (t.echoWait = none → exec (.frameArrival p f) s = .next (s.setPort p { s.port p with arrived := none }))) ∧
    (∀ stamp order got, (s.port p).receiver = .reading stamp order got →
      (t.echoWait ≠ none → exec (.framingError p) s = .next (s.setPort p
        { s.port p with receiver := .hunting, errorCount := (s.port p).errorCount + 1, training := some bad })) ∧
      (t.echoWait = none → exec (.framingError p) s = .next (s.setPort p { s.port p with receiver := .hunting }))) ∧
    (expired s.now t.echoWait = true →
      exec (.echoWaitExpiry p) s = .next (s.setPort p
        { s.port p with errorCount := (s.port p).errorCount + 1, training := some bad }))

/-- R181: when probe 15 is resolved with at most 3 probe errors the port goes UP with its slots and buffer empty, the error
count at the probe errors, and D half the least measure, floored, clamped to 0 to 4,095; with 4 or more it stays in TRAINING,
the error count keeping them and D its value, and the retrain wait of 1 s starts. Shown for a good echo, a corrupt one and a
missing one. The staging of the frame is the model's (log 9). -/
def Obligations.TrainingPassEnds : Prop :=
  ∀ (p : PortId) (m : Inbound) (s : State) (t : Training), s.resetHeld = false → (s.port p).link = .training →
    (s.port p).training = some t → t.probe = 15 → t.echoWait ≠ none →
    let measure : Int := diff m.stamp t.sentAt - 195
    let least : Int := match t.least with | none => measure | some l => min l measure
    let failed (errors : Nat) (kept : Option Int) : Training :=
      { t with errors := errors, least := kept, stage := .passFailed, echoWait := none,
               retrainWait := startTimer s.now 1000000 }
    (m.payload = probePayload 15 → t.errors ≤ 3 →
      exec (.echo p m) s = .next (s.setPort p
        { s.port p with
          handed := none, link := .up, training := none, errorCount := t.errors, buffer := none, reply := none,
          round := none, delay := (max 0 (min 4095 (Int.fdiv least 2))).toNat })) ∧
    (m.payload = probePayload 15 → 4 ≤ t.errors →
      exec (.echo p m) s = .next (s.setPort p
        { s.port p with handed := none, errorCount := t.errors, training := some (failed t.errors (some least)) })) ∧
    (∀ f : RxFrame, f.crc ≠ crc16 (f.kind :: BitVec.ofNat 8 f.payload.length :: f.payload) →
      (t.errors ≤ 2 → ∀ l, t.least = some l →
        exec (.frameArrival p f) s = .next (s.setPort p
          { s.port p with
            arrived := none, link := .up, training := none, errorCount := t.errors + 1, buffer := none, reply := none, round := none,
            delay := (max 0 (min 4095 (Int.fdiv l 2))).toNat })) ∧
      (3 ≤ t.errors →
        exec (.frameArrival p f) s = .next (s.setPort p
          { s.port p with
            arrived := none, errorCount := t.errors + 1, training := some (failed (t.errors + 1) t.least) }))) ∧
    (expired s.now t.echoWait = true → t.errors ≤ 2 → ∀ l, t.least = some l →
      exec (.echoWaitExpiry p) s = .next (s.setPort p
        { s.port p with
          link := .up, training := none, errorCount := t.errors + 1, buffer := none, reply := none, round := none,
          delay := (max 0 (min 4095 (Int.fdiv l 2))).toNat })) ∧
    (expired s.now t.echoWait = true → 3 ≤ t.errors →
      exec (.echoWaitExpiry p) s = .next (s.setPort p
        { s.port p with errorCount := t.errors + 1, training := some (failed (t.errors + 1) t.least) }))

/-- R25, R45, R58, R59, R146, R178: at the lock watch's expiry the port goes DOWN with its error count at 255, its training
dropped, its buffer, slots and overrun flag empty, a frame on its line cut for filler (a filler byte there goes on), and D
kept. Its seat: LINKED becomes VACANT with its car state dropped, a VACANT seat, and a field seat of a race that goes on, keep
everything, and an ENTERED or READY seat becomes VACANT, leaves the entry list, and the departure takes its consequences. In
RESULTS the loss of a field seat that leaves no counted seat to be waited for releases the results (R58), and the race enters
IDLE with that seat VACANT. The frame staging that is emptied is the model's (log 9). -/
def Obligations.LossOfLockEmptiesThePort : Prop :=
  ∀ (p : PortId) (s : State), s.resetHeld = false → (s.port p).link ≠ .down →
    expired s.now (s.port p).lockWatch = true →
    ∃ t, exec (.lockWatchExpiry p) s = .next t ∧
      t.port p = { s.port p with
        link := .down, lockWatch := none, errorCount := 255, training := none, receiver := .hunting, buffer := none,
        reply := none, round := none, overrun := false, lostSinceReply := false, arrived := none, handed := none,
        sending := .filler
        sendEnds := if (s.port p).sending = .filler then (s.port p).sendEnds else s.now + 5 } ∧
      (∀ r, r ≠ p → t.port r = s.port r) ∧ t.fits = s.fits ∧ t.settings = s.settings ∧ t.time = s.time ∧
      t.engine = s.engine ∧
      ((s.seat p).state = .linked →
        t.seat p = { s.seat p with state := .vacant, cabinet := none, silenceTimer := none } ∧
        t.car p = { latest := none, previous := none } ∧ OthersKept p s t ∧
        OutsideKept s { t with assembler := s.assembler }) ∧
      ((s.seat p).state = .vacant ∨ ((s.seat p).state.inField = true ∧
          (s.race.state ≠ .results ∨
            ∃ r : PortId, r ≠ p ∧ s.counted r = true ∧ s.portUp r = true ∧ s.race.seenMarks[r] ≠ some true)) →
        t.seat p = s.seat p ∧ t.car p = s.car p ∧ OthersKept p s t ∧
        OutsideKept s { t with assembler := s.assembler }) ∧
      ((s.seat p).state.inField = true → s.race.state = .results →
        (∀ r : PortId, r ≠ p → s.counted r = true → s.portUp r = true → s.race.seenMarks[r] = some true) →
        EntersIdle
          { s with
            ports := t.ports
            assembler := { s.assembler with computation := s.assembler.computation.map fun c =>
              { c with addressees := c.addressees.filter (· != p) } } } t ∧
        t.freeDraws = s.freeDraws) ∧
      ((s.seat p).state = .entered ∨ (s.seat p).state = .ready →
        (t.seat p).state = .vacant ∧ (t.seat p).cabinet = none ∧ (t.seat p).silenceTimer = none ∧
        t.car p = { latest := none, previous := none } ∧ p ∉ t.race.entryList ∧
        (s.race.entryList.Nodup → Departed
          { (s.setSeat p { s.seat p with state := .vacant, cabinet := none, silenceTimer := none }).setCar p
              { latest := none, previous := none } with
            race := { s.race with entryList := s.race.entryList.filter (· != p) }
            ports := t.ports
            assembler := { s.assembler with computation := s.assembler.computation.map fun c =>
              { c with addressees := c.addressees.filter (· != p) } } } t))

/-- R175, R179, R185: what is on the line is the bytes of the frame sent, or the filler byte 0x00, which takes 5 µs. At a frame
boundary, in UP, the waiting reply is begun and stays in its slot; without one the ROUND begins and leaves its slot; without
either a filler byte is sent. In TRAINING a probe that is due is begun and stamped, and when its last byte has left, the echo
wait of 2 ms starts. Shown at the end of a filler byte, of a ROUND and of a probe. -/
def Obligations.TransmitterChoosesTheNextFrame : Prop :=
  (Sending.filler.bytes = [0x00] ∧ lineTime [0x00] = 5 ∧
    ∀ bytes, (Sending.probe bytes).bytes = bytes ∧ (Sending.reply bytes).bytes = bytes ∧ (Sending.round bytes).bytes = bytes) ∧
  ∀ (p : PortId) (s : State), s.resetHeld = false → 0 ≤ diff s.now (s.port p).sendEnds →
    let q := s.port p
    let free : Prop := q.sending = .filler ∨ ∃ bytes, q.sending = .round bytes
    (free → q.link = .up → ∀ r, q.reply = some r →
      exec (.frameBoundary p) s = .next (s.setPort p
        { q with sending := .reply (wireBytes 0x41 r.payload),
                 sendEnds := s.now + BitVec.ofNat 32 ((r.payload.length + 6) * 5) })) ∧
    (free → q.link = .up → q.reply = none → ∀ payload, q.round = some payload →
      exec (.frameBoundary p) s = .next (s.setPort p
        { q with sending := .round (wireBytes 0x40 payload), round := none,
                 sendEnds := s.now + BitVec.ofNat 32 ((payload.length + 6) * 5) })) ∧
    (free → q.link = .down ∨ (q.link = .up ∧ q.reply = none ∧ q.round = none) →
      exec (.frameBoundary p) s = .next (s.setPort p { q with sending := .filler, sendEnds := s.now + 5 })) ∧
    (free → q.link = .training → ∀ t, q.training = some t → t.stage = .due →
      exec (.frameBoundary p) s = .next (s.setPort p
        { q with sending := .probe (wireBytes 0x42 (probePayload t.probe)), sendEnds := s.now + 195,
                 training := some { t with stage := .sending, sentAt := s.now } })) ∧
    (∀ bytes t, q.sending = .probe bytes → q.link = .training → q.training = some t → t.stage = .sending →
      exec (.frameBoundary p) s = .next (s.setPort p
        { q with sending := .filler, sendEnds := s.now + 5,
                 training := some { t with stage := .waiting, echoWait := startTimer s.now 2000 } }))
end

