-- ==== Sys2Proof/Laws/State.lean ====
section
/-! SUPPORT. One lemma for each field and each update of the state, and what reading a record after writing one gives. -/

namespace Sys2Proof.Machine

/-! ## Vectors -/

@[simp] theorem map8_getElem {α β : Type} (f : PortId → α → β) (v : Vector α 8) (p : PortId) :
    (map8 f v)[p] = f p v[p] := by
  fin_cases p <;> rfl

@[simp] theorem map8_getElem_val {α β : Type} (f : PortId → α → β) (v : Vector α 8) (p : PortId) :
    (map8 f v)[p.val] = f p v[p.val] := map8_getElem f v p

theorem vector_set_self {α : Type} {n : Nat} (v : Vector α n) (p : Fin n) : v.set p v[p] = v := by
  simp

theorem vector_ext_fin {α : Type} {n : Nat} {v w : Vector α n} (h : ∀ p : Fin n, v[p] = w[p]) : v = w := by
  ext i hi
  exact h ⟨i, hi⟩

/-! ## setSeat -/

@[simp] theorem State.setSeat_resetHeld (s : State) (i : PortId) (x : Seat) : (s.setSeat i x).resetHeld = s.resetHeld := rfl
@[simp] theorem State.setSeat_time (s : State) (i : PortId) (x : Seat) : (s.setSeat i x).time = s.time := rfl
@[simp] theorem State.setSeat_engine (s : State) (i : PortId) (x : Seat) : (s.setSeat i x).engine = s.engine := rfl
@[simp] theorem State.setSeat_settings (s : State) (i : PortId) (x : Seat) : (s.setSeat i x).settings = s.settings := rfl
@[simp] theorem State.setSeat_pacerRecord (s : State) (i : PortId) (x : Seat) : (s.setSeat i x).pacerRecord = s.pacerRecord := rfl
@[simp] theorem State.setSeat_fits (s : State) (i : PortId) (x : Seat) : (s.setSeat i x).fits = s.fits := rfl
@[simp] theorem State.setSeat_cars (s : State) (i : PortId) (x : Seat) : (s.setSeat i x).cars = s.cars := rfl
@[simp] theorem State.setSeat_lapRecords (s : State) (i : PortId) (x : Seat) : (s.setSeat i x).lapRecords = s.lapRecords := rfl
@[simp] theorem State.setSeat_fastestLap (s : State) (i : PortId) (x : Seat) : (s.setSeat i x).fastestLap = s.fastestLap := rfl
@[simp] theorem State.setSeat_finishList (s : State) (i : PortId) (x : Seat) : (s.setSeat i x).finishList = s.finishList := rfl
@[simp] theorem State.setSeat_standings (s : State) (i : PortId) (x : Seat) : (s.setSeat i x).standings = s.standings := rfl
@[simp] theorem State.setSeat_race (s : State) (i : PortId) (x : Seat) : (s.setSeat i x).race = s.race := rfl
@[simp] theorem State.setSeat_pacer (s : State) (i : PortId) (x : Seat) : (s.setSeat i x).pacer = s.pacer := rfl
@[simp] theorem State.setSeat_events (s : State) (i : PortId) (x : Seat) : (s.setSeat i x).events = s.events := rfl
@[simp] theorem State.setSeat_assembler (s : State) (i : PortId) (x : Seat) : (s.setSeat i x).assembler = s.assembler := rfl
@[simp] theorem State.setSeat_ports (s : State) (i : PortId) (x : Seat) : (s.setSeat i x).ports = s.ports := rfl
@[simp] theorem State.setSeat_freeDraws (s : State) (i : PortId) (x : Seat) : (s.setSeat i x).freeDraws = s.freeDraws := rfl
@[simp] theorem State.setSeat_orderTrail (s : State) (i : PortId) (x : Seat) : (s.setSeat i x).orderTrail = s.orderTrail := rfl
@[simp] theorem State.setSeat_pending (s : State) (i : PortId) (x : Seat) : (s.setSeat i x).pending = s.pending := rfl

@[simp] theorem State.seat_setSeat_self (s : State) (i : PortId) (x : Seat) : (s.setSeat i x).seat i = x := by
  simp [State.seat, State.setSeat]

theorem State.seat_setSeat_ne (s : State) {i j : PortId} (x : Seat) (h : j ≠ i) : (s.setSeat i x).seat j = s.seat j := by
  have hv : i.val ≠ j.val := fun e => h (Fin.ext e.symm)
  simp [State.seat, State.setSeat, hv]

theorem State.seat_setSeat (s : State) (i j : PortId) (x : Seat) :
    (s.setSeat i x).seat j = if j = i then x else s.seat j := by
  by_cases h : j = i
  · subst h; simp
  · simp [h, State.seat_setSeat_ne s x h]

@[simp] theorem State.setSeat_seat (s : State) (i : PortId) : s.setSeat i (s.seat i) = s := by
  simp [State.seat, State.setSeat]

@[simp] theorem State.setSeat_setSeat (s : State) (i : PortId) (x y : Seat) : (s.setSeat i x).setSeat i y = s.setSeat i y := by
  simp [State.setSeat]

@[simp] theorem State.fit_setSeat (s : State) (i : PortId) (x : Seat) (j : PortId) : (s.setSeat i x).fit j = s.fit j := rfl
@[simp] theorem State.car_setSeat (s : State) (i : PortId) (x : Seat) (j : PortId) : (s.setSeat i x).car j = s.car j := rfl
@[simp] theorem State.port_setSeat (s : State) (i : PortId) (x : Seat) (j : PortId) : (s.setSeat i x).port j = s.port j := rfl
@[simp] theorem State.lapRecord_setSeat (s : State) (i : PortId) (x : Seat) (j : CarId) : (s.setSeat i x).lapRecord j = s.lapRecord j := rfl
@[simp] theorem State.setSeat_now (s : State) (i : PortId) (x : Seat) : (s.setSeat i x).now = s.now := rfl
@[simp] theorem State.setSeat_lapLength (s : State) (i : PortId) (x : Seat) : (s.setSeat i x).lapLength = s.lapLength := rfl
@[simp] theorem State.setSeat_lapCount (s : State) (i : PortId) (x : Seat) : (s.setSeat i x).lapCount = s.lapCount := rfl
@[simp] theorem State.setSeat_raceTime (s : State) (i : PortId) (x : Seat) (h : HubTime) :
    (s.setSeat i x).raceTime h = s.raceTime h := rfl
@[simp] theorem State.setSeat_portUp (s : State) (i : PortId) (x : Seat) (p : PortId) :
    (s.setSeat i x).portUp p = s.portUp p := rfl

/-! ## setFit -/

@[simp] theorem State.setFit_resetHeld (s : State) (i : PortId) (x : Fit) : (s.setFit i x).resetHeld = s.resetHeld := rfl
@[simp] theorem State.setFit_time (s : State) (i : PortId) (x : Fit) : (s.setFit i x).time = s.time := rfl
@[simp] theorem State.setFit_engine (s : State) (i : PortId) (x : Fit) : (s.setFit i x).engine = s.engine := rfl
@[simp] theorem State.setFit_settings (s : State) (i : PortId) (x : Fit) : (s.setFit i x).settings = s.settings := rfl
@[simp] theorem State.setFit_seats (s : State) (i : PortId) (x : Fit) : (s.setFit i x).seats = s.seats := rfl
@[simp] theorem State.setFit_pacerRecord (s : State) (i : PortId) (x : Fit) : (s.setFit i x).pacerRecord = s.pacerRecord := rfl
@[simp] theorem State.setFit_cars (s : State) (i : PortId) (x : Fit) : (s.setFit i x).cars = s.cars := rfl
@[simp] theorem State.setFit_lapRecords (s : State) (i : PortId) (x : Fit) : (s.setFit i x).lapRecords = s.lapRecords := rfl
@[simp] theorem State.setFit_fastestLap (s : State) (i : PortId) (x : Fit) : (s.setFit i x).fastestLap = s.fastestLap := rfl
@[simp] theorem State.setFit_finishList (s : State) (i : PortId) (x : Fit) : (s.setFit i x).finishList = s.finishList := rfl
@[simp] theorem State.setFit_standings (s : State) (i : PortId) (x : Fit) : (s.setFit i x).standings = s.standings := rfl
@[simp] theorem State.setFit_race (s : State) (i : PortId) (x : Fit) : (s.setFit i x).race = s.race := rfl
@[simp] theorem State.setFit_pacer (s : State) (i : PortId) (x : Fit) : (s.setFit i x).pacer = s.pacer := rfl
@[simp] theorem State.setFit_events (s : State) (i : PortId) (x : Fit) : (s.setFit i x).events = s.events := rfl
@[simp] theorem State.setFit_assembler (s : State) (i : PortId) (x : Fit) : (s.setFit i x).assembler = s.assembler := rfl
@[simp] theorem State.setFit_ports (s : State) (i : PortId) (x : Fit) : (s.setFit i x).ports = s.ports := rfl
@[simp] theorem State.setFit_freeDraws (s : State) (i : PortId) (x : Fit) : (s.setFit i x).freeDraws = s.freeDraws := rfl
@[simp] theorem State.setFit_orderTrail (s : State) (i : PortId) (x : Fit) : (s.setFit i x).orderTrail = s.orderTrail := rfl
@[simp] theorem State.setFit_pending (s : State) (i : PortId) (x : Fit) : (s.setFit i x).pending = s.pending := rfl

@[simp] theorem State.fit_setFit_self (s : State) (i : PortId) (x : Fit) : (s.setFit i x).fit i = x := by
  simp [State.fit, State.setFit]

theorem State.fit_setFit_ne (s : State) {i j : PortId} (x : Fit) (h : j ≠ i) : (s.setFit i x).fit j = s.fit j := by
  have hv : i.val ≠ j.val := fun e => h (Fin.ext e.symm)
  simp [State.fit, State.setFit, hv]

theorem State.fit_setFit (s : State) (i j : PortId) (x : Fit) :
    (s.setFit i x).fit j = if j = i then x else s.fit j := by
  by_cases h : j = i
  · subst h; simp
  · simp [h, State.fit_setFit_ne s x h]

@[simp] theorem State.setFit_fit (s : State) (i : PortId) : s.setFit i (s.fit i) = s := by
  simp [State.fit, State.setFit]

@[simp] theorem State.setFit_setFit (s : State) (i : PortId) (x y : Fit) : (s.setFit i x).setFit i y = s.setFit i y := by
  simp [State.setFit]

@[simp] theorem State.seat_setFit (s : State) (i : PortId) (x : Fit) (j : PortId) : (s.setFit i x).seat j = s.seat j := rfl
@[simp] theorem State.car_setFit (s : State) (i : PortId) (x : Fit) (j : PortId) : (s.setFit i x).car j = s.car j := rfl
@[simp] theorem State.port_setFit (s : State) (i : PortId) (x : Fit) (j : PortId) : (s.setFit i x).port j = s.port j := rfl
@[simp] theorem State.lapRecord_setFit (s : State) (i : PortId) (x : Fit) (j : CarId) : (s.setFit i x).lapRecord j = s.lapRecord j := rfl
@[simp] theorem State.setFit_now (s : State) (i : PortId) (x : Fit) : (s.setFit i x).now = s.now := rfl
@[simp] theorem State.setFit_lapLength (s : State) (i : PortId) (x : Fit) : (s.setFit i x).lapLength = s.lapLength := rfl
@[simp] theorem State.setFit_lapCount (s : State) (i : PortId) (x : Fit) : (s.setFit i x).lapCount = s.lapCount := rfl
@[simp] theorem State.setFit_raceTime (s : State) (i : PortId) (x : Fit) (h : HubTime) :
    (s.setFit i x).raceTime h = s.raceTime h := rfl
@[simp] theorem State.setFit_portUp (s : State) (i : PortId) (x : Fit) (p : PortId) :
    (s.setFit i x).portUp p = s.portUp p := rfl
@[simp] theorem State.setFit_orderAt (s : State) (i : PortId) (x : Fit) (p : PortId) :
    (s.setFit i x).orderAt p = s.orderAt p := rfl

/-! ## setCar -/

@[simp] theorem State.setCar_resetHeld (s : State) (i : PortId) (x : CarRecord) : (s.setCar i x).resetHeld = s.resetHeld := rfl
@[simp] theorem State.setCar_time (s : State) (i : PortId) (x : CarRecord) : (s.setCar i x).time = s.time := rfl
@[simp] theorem State.setCar_engine (s : State) (i : PortId) (x : CarRecord) : (s.setCar i x).engine = s.engine := rfl
@[simp] theorem State.setCar_settings (s : State) (i : PortId) (x : CarRecord) : (s.setCar i x).settings = s.settings := rfl
@[simp] theorem State.setCar_seats (s : State) (i : PortId) (x : CarRecord) : (s.setCar i x).seats = s.seats := rfl
@[simp] theorem State.setCar_pacerRecord (s : State) (i : PortId) (x : CarRecord) : (s.setCar i x).pacerRecord = s.pacerRecord := rfl
@[simp] theorem State.setCar_fits (s : State) (i : PortId) (x : CarRecord) : (s.setCar i x).fits = s.fits := rfl
@[simp] theorem State.setCar_lapRecords (s : State) (i : PortId) (x : CarRecord) : (s.setCar i x).lapRecords = s.lapRecords := rfl
@[simp] theorem State.setCar_fastestLap (s : State) (i : PortId) (x : CarRecord) : (s.setCar i x).fastestLap = s.fastestLap := rfl
@[simp] theorem State.setCar_finishList (s : State) (i : PortId) (x : CarRecord) : (s.setCar i x).finishList = s.finishList := rfl
@[simp] theorem State.setCar_standings (s : State) (i : PortId) (x : CarRecord) : (s.setCar i x).standings = s.standings := rfl
@[simp] theorem State.setCar_race (s : State) (i : PortId) (x : CarRecord) : (s.setCar i x).race = s.race := rfl
@[simp] theorem State.setCar_pacer (s : State) (i : PortId) (x : CarRecord) : (s.setCar i x).pacer = s.pacer := rfl
@[simp] theorem State.setCar_events (s : State) (i : PortId) (x : CarRecord) : (s.setCar i x).events = s.events := rfl
@[simp] theorem State.setCar_assembler (s : State) (i : PortId) (x : CarRecord) : (s.setCar i x).assembler = s.assembler := rfl
@[simp] theorem State.setCar_ports (s : State) (i : PortId) (x : CarRecord) : (s.setCar i x).ports = s.ports := rfl
@[simp] theorem State.setCar_freeDraws (s : State) (i : PortId) (x : CarRecord) : (s.setCar i x).freeDraws = s.freeDraws := rfl
@[simp] theorem State.setCar_orderTrail (s : State) (i : PortId) (x : CarRecord) : (s.setCar i x).orderTrail = s.orderTrail := rfl
@[simp] theorem State.setCar_pending (s : State) (i : PortId) (x : CarRecord) : (s.setCar i x).pending = s.pending := rfl

@[simp] theorem State.car_setCar_self (s : State) (i : PortId) (x : CarRecord) : (s.setCar i x).car i = x := by
  simp [State.car, State.setCar]

theorem State.car_setCar_ne (s : State) {i j : PortId} (x : CarRecord) (h : j ≠ i) : (s.setCar i x).car j = s.car j := by
  have hv : i.val ≠ j.val := fun e => h (Fin.ext e.symm)
  simp [State.car, State.setCar, hv]

theorem State.car_setCar (s : State) (i j : PortId) (x : CarRecord) :
    (s.setCar i x).car j = if j = i then x else s.car j := by
  by_cases h : j = i
  · subst h; simp
  · simp [h, State.car_setCar_ne s x h]

@[simp] theorem State.setCar_car (s : State) (i : PortId) : s.setCar i (s.car i) = s := by
  simp [State.car, State.setCar]

@[simp] theorem State.setCar_setCar (s : State) (i : PortId) (x y : CarRecord) : (s.setCar i x).setCar i y = s.setCar i y := by
  simp [State.setCar]

@[simp] theorem State.seat_setCar (s : State) (i : PortId) (x : CarRecord) (j : PortId) : (s.setCar i x).seat j = s.seat j := rfl
@[simp] theorem State.fit_setCar (s : State) (i : PortId) (x : CarRecord) (j : PortId) : (s.setCar i x).fit j = s.fit j := rfl
@[simp] theorem State.port_setCar (s : State) (i : PortId) (x : CarRecord) (j : PortId) : (s.setCar i x).port j = s.port j := rfl
@[simp] theorem State.lapRecord_setCar (s : State) (i : PortId) (x : CarRecord) (j : CarId) : (s.setCar i x).lapRecord j = s.lapRecord j := rfl
@[simp] theorem State.setCar_now (s : State) (i : PortId) (x : CarRecord) : (s.setCar i x).now = s.now := rfl
@[simp] theorem State.setCar_lapLength (s : State) (i : PortId) (x : CarRecord) : (s.setCar i x).lapLength = s.lapLength := rfl
@[simp] theorem State.setCar_lapCount (s : State) (i : PortId) (x : CarRecord) : (s.setCar i x).lapCount = s.lapCount := rfl
@[simp] theorem State.setCar_raceTime (s : State) (i : PortId) (x : CarRecord) (h : HubTime) :
    (s.setCar i x).raceTime h = s.raceTime h := rfl
@[simp] theorem State.setCar_portUp (s : State) (i : PortId) (x : CarRecord) (p : PortId) :
    (s.setCar i x).portUp p = s.portUp p := rfl
@[simp] theorem State.setCar_orderAt (s : State) (i : PortId) (x : CarRecord) (p : PortId) :
    (s.setCar i x).orderAt p = s.orderAt p := rfl

/-! ## setPort -/

@[simp] theorem State.setPort_resetHeld (s : State) (i : PortId) (x : Port) : (s.setPort i x).resetHeld = s.resetHeld := rfl
@[simp] theorem State.setPort_time (s : State) (i : PortId) (x : Port) : (s.setPort i x).time = s.time := rfl
@[simp] theorem State.setPort_engine (s : State) (i : PortId) (x : Port) : (s.setPort i x).engine = s.engine := rfl
@[simp] theorem State.setPort_settings (s : State) (i : PortId) (x : Port) : (s.setPort i x).settings = s.settings := rfl
@[simp] theorem State.setPort_seats (s : State) (i : PortId) (x : Port) : (s.setPort i x).seats = s.seats := rfl
@[simp] theorem State.setPort_pacerRecord (s : State) (i : PortId) (x : Port) : (s.setPort i x).pacerRecord = s.pacerRecord := rfl
@[simp] theorem State.setPort_fits (s : State) (i : PortId) (x : Port) : (s.setPort i x).fits = s.fits := rfl
@[simp] theorem State.setPort_cars (s : State) (i : PortId) (x : Port) : (s.setPort i x).cars = s.cars := rfl
@[simp] theorem State.setPort_lapRecords (s : State) (i : PortId) (x : Port) : (s.setPort i x).lapRecords = s.lapRecords := rfl
@[simp] theorem State.setPort_fastestLap (s : State) (i : PortId) (x : Port) : (s.setPort i x).fastestLap = s.fastestLap := rfl
@[simp] theorem State.setPort_finishList (s : State) (i : PortId) (x : Port) : (s.setPort i x).finishList = s.finishList := rfl
@[simp] theorem State.setPort_standings (s : State) (i : PortId) (x : Port) : (s.setPort i x).standings = s.standings := rfl
@[simp] theorem State.setPort_race (s : State) (i : PortId) (x : Port) : (s.setPort i x).race = s.race := rfl
@[simp] theorem State.setPort_pacer (s : State) (i : PortId) (x : Port) : (s.setPort i x).pacer = s.pacer := rfl
@[simp] theorem State.setPort_events (s : State) (i : PortId) (x : Port) : (s.setPort i x).events = s.events := rfl
@[simp] theorem State.setPort_assembler (s : State) (i : PortId) (x : Port) : (s.setPort i x).assembler = s.assembler := rfl
@[simp] theorem State.setPort_freeDraws (s : State) (i : PortId) (x : Port) : (s.setPort i x).freeDraws = s.freeDraws := rfl
@[simp] theorem State.setPort_orderTrail (s : State) (i : PortId) (x : Port) : (s.setPort i x).orderTrail = s.orderTrail := rfl
@[simp] theorem State.setPort_pending (s : State) (i : PortId) (x : Port) : (s.setPort i x).pending = s.pending := rfl

@[simp] theorem State.port_setPort_self (s : State) (i : PortId) (x : Port) : (s.setPort i x).port i = x := by
  simp [State.port, State.setPort]

theorem State.port_setPort_ne (s : State) {i j : PortId} (x : Port) (h : j ≠ i) : (s.setPort i x).port j = s.port j := by
  have hv : i.val ≠ j.val := fun e => h (Fin.ext e.symm)
  simp [State.port, State.setPort, hv]

theorem State.port_setPort (s : State) (i j : PortId) (x : Port) :
    (s.setPort i x).port j = if j = i then x else s.port j := by
  by_cases h : j = i
  · subst h; simp
  · simp [h, State.port_setPort_ne s x h]

@[simp] theorem State.setPort_port (s : State) (i : PortId) : s.setPort i (s.port i) = s := by
  simp [State.port, State.setPort]

@[simp] theorem State.setPort_setPort (s : State) (i : PortId) (x y : Port) : (s.setPort i x).setPort i y = s.setPort i y := by
  simp [State.setPort]

@[simp] theorem State.seat_setPort (s : State) (i : PortId) (x : Port) (j : PortId) : (s.setPort i x).seat j = s.seat j := rfl
@[simp] theorem State.fit_setPort (s : State) (i : PortId) (x : Port) (j : PortId) : (s.setPort i x).fit j = s.fit j := rfl
@[simp] theorem State.car_setPort (s : State) (i : PortId) (x : Port) (j : PortId) : (s.setPort i x).car j = s.car j := rfl
@[simp] theorem State.lapRecord_setPort (s : State) (i : PortId) (x : Port) (j : CarId) : (s.setPort i x).lapRecord j = s.lapRecord j := rfl
@[simp] theorem State.setPort_now (s : State) (i : PortId) (x : Port) : (s.setPort i x).now = s.now := rfl
@[simp] theorem State.setPort_lapLength (s : State) (i : PortId) (x : Port) : (s.setPort i x).lapLength = s.lapLength := rfl
@[simp] theorem State.setPort_lapCount (s : State) (i : PortId) (x : Port) : (s.setPort i x).lapCount = s.lapCount := rfl
@[simp] theorem State.setPort_raceTime (s : State) (i : PortId) (x : Port) (h : HubTime) :
    (s.setPort i x).raceTime h = s.raceTime h := rfl
@[simp] theorem State.setPort_orderAt (s : State) (i : PortId) (x : Port) (p : PortId) :
    (s.setPort i x).orderAt p = s.orderAt p := rfl

/-! ## setLapRecord -/

@[simp] theorem State.setLapRecord_resetHeld (s : State) (i : CarId) (x : LapRecord) : (s.setLapRecord i x).resetHeld = s.resetHeld := rfl
@[simp] theorem State.setLapRecord_time (s : State) (i : CarId) (x : LapRecord) : (s.setLapRecord i x).time = s.time := rfl
@[simp] theorem State.setLapRecord_engine (s : State) (i : CarId) (x : LapRecord) : (s.setLapRecord i x).engine = s.engine := rfl
@[simp] theorem State.setLapRecord_settings (s : State) (i : CarId) (x : LapRecord) : (s.setLapRecord i x).settings = s.settings := rfl
@[simp] theorem State.setLapRecord_seats (s : State) (i : CarId) (x : LapRecord) : (s.setLapRecord i x).seats = s.seats := rfl
@[simp] theorem State.setLapRecord_pacerRecord (s : State) (i : CarId) (x : LapRecord) : (s.setLapRecord i x).pacerRecord = s.pacerRecord := rfl
@[simp] theorem State.setLapRecord_fits (s : State) (i : CarId) (x : LapRecord) : (s.setLapRecord i x).fits = s.fits := rfl
@[simp] theorem State.setLapRecord_cars (s : State) (i : CarId) (x : LapRecord) : (s.setLapRecord i x).cars = s.cars := rfl
@[simp] theorem State.setLapRecord_fastestLap (s : State) (i : CarId) (x : LapRecord) : (s.setLapRecord i x).fastestLap = s.fastestLap := rfl
@[simp] theorem State.setLapRecord_finishList (s : State) (i : CarId) (x : LapRecord) : (s.setLapRecord i x).finishList = s.finishList := rfl
@[simp] theorem State.setLapRecord_standings (s : State) (i : CarId) (x : LapRecord) : (s.setLapRecord i x).standings = s.standings := rfl
@[simp] theorem State.setLapRecord_race (s : State) (i : CarId) (x : LapRecord) : (s.setLapRecord i x).race = s.race := rfl
@[simp] theorem State.setLapRecord_pacer (s : State) (i : CarId) (x : LapRecord) : (s.setLapRecord i x).pacer = s.pacer := rfl
@[simp] theorem State.setLapRecord_events (s : State) (i : CarId) (x : LapRecord) : (s.setLapRecord i x).events = s.events := rfl
@[simp] theorem State.setLapRecord_assembler (s : State) (i : CarId) (x : LapRecord) : (s.setLapRecord i x).assembler = s.assembler := rfl
@[simp] theorem State.setLapRecord_ports (s : State) (i : CarId) (x : LapRecord) : (s.setLapRecord i x).ports = s.ports := rfl
@[simp] theorem State.setLapRecord_freeDraws (s : State) (i : CarId) (x : LapRecord) : (s.setLapRecord i x).freeDraws = s.freeDraws := rfl
@[simp] theorem State.setLapRecord_orderTrail (s : State) (i : CarId) (x : LapRecord) : (s.setLapRecord i x).orderTrail = s.orderTrail := rfl
@[simp] theorem State.setLapRecord_pending (s : State) (i : CarId) (x : LapRecord) : (s.setLapRecord i x).pending = s.pending := rfl

@[simp] theorem State.lapRecord_setLapRecord_self (s : State) (i : CarId) (x : LapRecord) : (s.setLapRecord i x).lapRecord i = x := by
  simp [State.lapRecord, State.setLapRecord]

theorem State.lapRecord_setLapRecord_ne (s : State) {i j : CarId} (x : LapRecord) (h : j ≠ i) : (s.setLapRecord i x).lapRecord j = s.lapRecord j := by
  have hv : i.val ≠ j.val := fun e => h (Fin.ext e.symm)
  simp [State.lapRecord, State.setLapRecord, hv]

theorem State.lapRecord_setLapRecord (s : State) (i j : CarId) (x : LapRecord) :
    (s.setLapRecord i x).lapRecord j = if j = i then x else s.lapRecord j := by
  by_cases h : j = i
  · subst h; simp
  · simp [h, State.lapRecord_setLapRecord_ne s x h]

@[simp] theorem State.setLapRecord_lapRecord (s : State) (i : CarId) : s.setLapRecord i (s.lapRecord i) = s := by
  simp [State.lapRecord, State.setLapRecord]

@[simp] theorem State.setLapRecord_setLapRecord (s : State) (i : CarId) (x y : LapRecord) : (s.setLapRecord i x).setLapRecord i y = s.setLapRecord i y := by
  simp [State.setLapRecord]

@[simp] theorem State.seat_setLapRecord (s : State) (i : CarId) (x : LapRecord) (j : PortId) : (s.setLapRecord i x).seat j = s.seat j := rfl
@[simp] theorem State.fit_setLapRecord (s : State) (i : CarId) (x : LapRecord) (j : PortId) : (s.setLapRecord i x).fit j = s.fit j := rfl
@[simp] theorem State.car_setLapRecord (s : State) (i : CarId) (x : LapRecord) (j : PortId) : (s.setLapRecord i x).car j = s.car j := rfl
@[simp] theorem State.port_setLapRecord (s : State) (i : CarId) (x : LapRecord) (j : PortId) : (s.setLapRecord i x).port j = s.port j := rfl
@[simp] theorem State.setLapRecord_now (s : State) (i : CarId) (x : LapRecord) : (s.setLapRecord i x).now = s.now := rfl
@[simp] theorem State.setLapRecord_lapLength (s : State) (i : CarId) (x : LapRecord) : (s.setLapRecord i x).lapLength = s.lapLength := rfl
@[simp] theorem State.setLapRecord_lapCount (s : State) (i : CarId) (x : LapRecord) : (s.setLapRecord i x).lapCount = s.lapCount := rfl
@[simp] theorem State.setLapRecord_raceTime (s : State) (i : CarId) (x : LapRecord) (h : HubTime) :
    (s.setLapRecord i x).raceTime h = s.raceTime h := rfl
@[simp] theorem State.setLapRecord_portUp (s : State) (i : CarId) (x : LapRecord) (p : PortId) :
    (s.setLapRecord i x).portUp p = s.portUp p := rfl
@[simp] theorem State.setLapRecord_orderAt (s : State) (i : CarId) (x : LapRecord) (p : PortId) :
    (s.setLapRecord i x).orderAt p = s.orderAt p := rfl

/-! ## Appending an event -/

@[simp] theorem appendEvent_resetHeld (e : Event) (s : State) : (appendEvent e s).resetHeld = s.resetHeld := rfl
@[simp] theorem appendEvent_time (e : Event) (s : State) : (appendEvent e s).time = s.time := rfl
@[simp] theorem appendEvent_engine (e : Event) (s : State) : (appendEvent e s).engine = s.engine := rfl
@[simp] theorem appendEvent_settings (e : Event) (s : State) : (appendEvent e s).settings = s.settings := rfl
@[simp] theorem appendEvent_seats (e : Event) (s : State) : (appendEvent e s).seats = s.seats := rfl
@[simp] theorem appendEvent_pacerRecord (e : Event) (s : State) : (appendEvent e s).pacerRecord = s.pacerRecord := rfl
@[simp] theorem appendEvent_fits (e : Event) (s : State) : (appendEvent e s).fits = s.fits := rfl
@[simp] theorem appendEvent_cars (e : Event) (s : State) : (appendEvent e s).cars = s.cars := rfl
@[simp] theorem appendEvent_lapRecords (e : Event) (s : State) : (appendEvent e s).lapRecords = s.lapRecords := rfl
@[simp] theorem appendEvent_fastestLap (e : Event) (s : State) : (appendEvent e s).fastestLap = s.fastestLap := rfl
@[simp] theorem appendEvent_finishList (e : Event) (s : State) : (appendEvent e s).finishList = s.finishList := rfl
@[simp] theorem appendEvent_standings (e : Event) (s : State) : (appendEvent e s).standings = s.standings := rfl
@[simp] theorem appendEvent_race (e : Event) (s : State) : (appendEvent e s).race = s.race := rfl
@[simp] theorem appendEvent_pacer (e : Event) (s : State) : (appendEvent e s).pacer = s.pacer := rfl
@[simp] theorem appendEvent_assembler (e : Event) (s : State) : (appendEvent e s).assembler = s.assembler := rfl
@[simp] theorem appendEvent_ports (e : Event) (s : State) : (appendEvent e s).ports = s.ports := rfl
@[simp] theorem appendEvent_freeDraws (e : Event) (s : State) : (appendEvent e s).freeDraws = s.freeDraws := rfl
@[simp] theorem appendEvent_orderTrail (e : Event) (s : State) : (appendEvent e s).orderTrail = s.orderTrail := rfl
@[simp] theorem appendEvent_pending (e : Event) (s : State) : (appendEvent e s).pending = s.pending := rfl
@[simp] theorem appendEvent_events (e : Event) (s : State) : (appendEvent e s).events = s.events.append e := rfl
@[simp] theorem appendEvent_seat (e : Event) (s : State) (i : PortId) : (appendEvent e s).seat i = s.seat i := rfl
@[simp] theorem appendEvent_fit (e : Event) (s : State) (i : PortId) : (appendEvent e s).fit i = s.fit i := rfl
@[simp] theorem appendEvent_car (e : Event) (s : State) (i : PortId) : (appendEvent e s).car i = s.car i := rfl
@[simp] theorem appendEvent_port (e : Event) (s : State) (i : PortId) : (appendEvent e s).port i = s.port i := rfl
@[simp] theorem appendEvent_lapRecord (e : Event) (s : State) (i : CarId) : (appendEvent e s).lapRecord i = s.lapRecord i := rfl

/-! ## Reading a record of an updated state -/

@[simp] theorem State.seat_mk (h : Bool) (t : Timebase) (e : ServiceEngine) (st : Settings) (se : Vector Seat 8) (pr : Option PacerState)
    (fi : Vector Fit 8) (ca : Vector CarRecord 8) (la : Vector LapRecord 9) (fl : Option FastestLap)
    (fn : List FinishEntry) (sd : List StandingsEntry) (r : Race) (pa : PacerGenerator) (ev : EventQueue) (a : Assembler)
    (po : Vector Port 8) (ot : Vector (Vector ByteOrder 8) 6) (fd : Nat) (pe : List Instr) (i : PortId) :
    (State.mk h t e st se pr fi ca la fl fn sd r pa ev a po ot fd pe).seat i = se[i.val] := rfl

@[simp] theorem State.seats_get (s : State) (i : PortId) : s.seats[i.val] = s.seat i := rfl

@[simp] theorem State.fit_mk (h : Bool) (t : Timebase) (e : ServiceEngine) (st : Settings) (se : Vector Seat 8) (pr : Option PacerState)
    (fi : Vector Fit 8) (ca : Vector CarRecord 8) (la : Vector LapRecord 9) (fl : Option FastestLap)
    (fn : List FinishEntry) (sd : List StandingsEntry) (r : Race) (pa : PacerGenerator) (ev : EventQueue) (a : Assembler)
    (po : Vector Port 8) (ot : Vector (Vector ByteOrder 8) 6) (fd : Nat) (pe : List Instr) (i : PortId) :
    (State.mk h t e st se pr fi ca la fl fn sd r pa ev a po ot fd pe).fit i = fi[i.val] := rfl

@[simp] theorem State.fits_get (s : State) (i : PortId) : s.fits[i.val] = s.fit i := rfl

@[simp] theorem State.car_mk (h : Bool) (t : Timebase) (e : ServiceEngine) (st : Settings) (se : Vector Seat 8) (pr : Option PacerState)
    (fi : Vector Fit 8) (ca : Vector CarRecord 8) (la : Vector LapRecord 9) (fl : Option FastestLap)
    (fn : List FinishEntry) (sd : List StandingsEntry) (r : Race) (pa : PacerGenerator) (ev : EventQueue) (a : Assembler)
    (po : Vector Port 8) (ot : Vector (Vector ByteOrder 8) 6) (fd : Nat) (pe : List Instr) (i : PortId) :
    (State.mk h t e st se pr fi ca la fl fn sd r pa ev a po ot fd pe).car i = ca[i.val] := rfl

@[simp] theorem State.cars_get (s : State) (i : PortId) : s.cars[i.val] = s.car i := rfl

@[simp] theorem State.port_mk (h : Bool) (t : Timebase) (e : ServiceEngine) (st : Settings) (se : Vector Seat 8) (pr : Option PacerState)
    (fi : Vector Fit 8) (ca : Vector CarRecord 8) (la : Vector LapRecord 9) (fl : Option FastestLap)
    (fn : List FinishEntry) (sd : List StandingsEntry) (r : Race) (pa : PacerGenerator) (ev : EventQueue) (a : Assembler)
    (po : Vector Port 8) (ot : Vector (Vector ByteOrder 8) 6) (fd : Nat) (pe : List Instr) (i : PortId) :
    (State.mk h t e st se pr fi ca la fl fn sd r pa ev a po ot fd pe).port i = po[i.val] := rfl

@[simp] theorem State.ports_get (s : State) (i : PortId) : s.ports[i.val] = s.port i := rfl

@[simp] theorem State.lapRecord_mk (h : Bool) (t : Timebase) (e : ServiceEngine) (st : Settings) (se : Vector Seat 8) (pr : Option PacerState)
    (fi : Vector Fit 8) (ca : Vector CarRecord 8) (la : Vector LapRecord 9) (fl : Option FastestLap)
    (fn : List FinishEntry) (sd : List StandingsEntry) (r : Race) (pa : PacerGenerator) (ev : EventQueue) (a : Assembler)
    (po : Vector Port 8) (ot : Vector (Vector ByteOrder 8) 6) (fd : Nat) (pe : List Instr) (i : CarId) :
    (State.mk h t e st se pr fi ca la fl fn sd r pa ev a po ot fd pe).lapRecord i = la[i.val] := rfl

@[simp] theorem State.lapRecords_get (s : State) (i : CarId) : s.lapRecords[i.val] = s.lapRecord i := rfl

/-! ## Indices -/

@[simp] theorem seatOf_carOf (p : PortId) : seatOf (carOf p) = some p := by
  simp [seatOf, carOf]

@[simp] theorem seatOf_pacerCar : seatOf pacerCar = none := rfl

theorem carOf_injective {p r : PortId} (h : carOf p = carOf r) : p = r := Fin.castSucc_injective 8 h

@[simp] theorem carOf_ne_pacerCar (p : PortId) : carOf p ≠ pacerCar := by
  intro h
  have := congrArg Fin.val h
  simp [carOf, pacerCar] at this
  omega

@[simp] theorem mem_allPorts (p : PortId) : p ∈ allPorts := by
  fin_cases p <;> simp [allPorts]

end Sys2Proof.Machine
end

