-- ==== Sys2Proof/Laws/Race.lean ====
section
/-! SUPPORT. What the race controller, seat health, lap timing and the report steps never touch: the pin, the timebase, the
settings, the service engine, the ports, the fits, the trail of byte orders, the free draws and the command queue. -/

namespace Sys2Proof.Machine

/-- `t` has the pin, timebase, settings, service engine, ports, fits, trail of byte orders, free draws and queue of `s`. -/
structure OuterKept (s t : State) : Prop where
  resetHeld : t.resetHeld = s.resetHeld
  time : t.time = s.time
  settings : t.settings = s.settings
  engine : t.engine = s.engine
  ports : t.ports = s.ports
  fits : t.fits = s.fits
  orderTrail : t.orderTrail = s.orderTrail
  freeDraws : t.freeDraws = s.freeDraws
  pending : t.pending = s.pending

namespace OuterKept

theorem refl (s : State) : OuterKept s s := ⟨rfl, rfl, rfl, rfl, rfl, rfl, rfl, rfl, rfl⟩

theorem trans {s t u : State} (h : OuterKept s t) (k : OuterKept t u) : OuterKept s u :=
  ⟨k.1.trans h.1, k.2.trans h.2, k.3.trans h.3, k.4.trans h.4, k.5.trans h.5, k.6.trans h.6, k.7.trans h.7,
    k.8.trans h.8, k.9.trans h.9⟩

theorem port {s t : State} (h : OuterKept s t) (p : PortId) : t.port p = s.port p := by
  simp only [State.port, h.ports]

theorem fit {s t : State} (h : OuterKept s t) (p : PortId) : t.fit p = s.fit p := by
  simp only [State.fit, h.fits]

theorem portUp {s t : State} (h : OuterKept s t) (p : PortId) : t.portUp p = s.portUp p := by
  simp only [State.portUp, h.port]

theorem now {s t : State} (h : OuterKept s t) : t.now = s.now := by simp only [State.now, h.time]

end OuterKept

theorem outerKept_setSeat (s : State) (p : PortId) (x : Seat) : OuterKept s (s.setSeat p x) :=
  ⟨rfl, rfl, rfl, rfl, rfl, rfl, rfl, rfl, rfl⟩

theorem outerKept_setCar (s : State) (p : PortId) (x : CarRecord) : OuterKept s (s.setCar p x) :=
  ⟨rfl, rfl, rfl, rfl, rfl, rfl, rfl, rfl, rfl⟩

theorem outerKept_setLapRecord (s : State) (c : CarId) (x : LapRecord) : OuterKept s (s.setLapRecord c x) :=
  ⟨rfl, rfl, rfl, rfl, rfl, rfl, rfl, rfl, rfl⟩

theorem outerKept_appendEvent (e : Event) (s : State) : OuterKept s (appendEvent e s) :=
  ⟨rfl, rfl, rfl, rfl, rfl, rfl, rfl, rfl, rfl⟩

/-- The PASS events of a ranking change the event queue alone. -/
theorem appendPasses_eq (raceTime : Int) (moves : List (CarId × CarId)) (s : State) :
    appendPasses raceTime moves s =
      { s with events := moves.foldl (fun q m => q.append (.pass m.1 m.2 raceTime)) s.events } := by
  induction moves generalizing s with
  | nil => rfl
  | cons m rest ih => exact ih (appendEvent (.pass m.1 m.2 raceTime) s)

theorem outerKept_appendPasses (raceTime : Int) (moves : List (CarId × CarId)) (s : State) :
    OuterKept s (appendPasses raceTime moves s) := by
  rw [appendPasses_eq]; exact ⟨rfl, rfl, rfl, rfl, rfl, rfl, rfl, rfl, rfl⟩

theorem outerKept_enterIdle (s : State) : OuterKept s (enterIdle s) := ⟨rfl, rfl, rfl, rfl, rfl, rfl, rfl, rfl, rfl⟩

theorem outerKept_enterVoid (s : State) : OuterKept s (enterVoid s) := ⟨rfl, rfl, rfl, rfl, rfl, rfl, rfl, rfl, rfl⟩

theorem outerKept_enterFinishing (s : State) : OuterKept s (enterFinishing s) :=
  ⟨rfl, rfl, rfl, rfl, rfl, rfl, rfl, rfl, rfl⟩

theorem outerKept_enterCountdown (s : State) : OuterKept s (enterCountdown s) :=
  ⟨rfl, rfl, rfl, rfl, rfl, rfl, rfl, rfl, rfl⟩

theorem outerKept_leaveEntryList (p : PortId) (s : State) : OuterKept s (leaveEntryList p s) :=
  ⟨rfl, rfl, rfl, rfl, rfl, rfl, rfl, rfl, rfl⟩

theorem outerKept_checkRelease (s : State) : OuterKept s (checkRelease s) := by
  unfold checkRelease; split
  · exact outerKept_enterIdle s
  · exact .refl s

/-- The final standings change the standings, the event queue and the assembler alone. -/
theorem finalStandings_eq (h : HubTime) (s : State) :
    finalStandings h s =
      { s with
        standings :=
          ((s.snapshot h).rank s.settings.horizon s.settings.swapMargin (s.recentStandings.map (·.car))).1
        events :=
          ((s.snapshot h).rank s.settings.horizon s.settings.swapMargin (s.recentStandings.map (·.car))).2.foldl
            (fun q m => q.append (.pass m.1 m.2 (s.raceTime h))) s.events
        assembler := { s.assembler.supersede with
          results :=
            ((s.snapshot h).rank s.settings.horizon s.settings.swapMargin
              (s.recentStandings.map (·.car))).1.map (s.snapshot h).carEntry } } := by
  unfold finalStandings
  simp only [appendPasses_eq]

theorem outerKept_finalStandings (h : HubTime) (s : State) : OuterKept s (finalStandings h s) := by
  rw [finalStandings_eq]; exact ⟨rfl, rfl, rfl, rfl, rfl, rfl, rfl, rfl, rfl⟩

theorem outerKept_haltRace (k : RoundNo) (s : State) : OuterKept s (haltRace k s) := ⟨rfl, rfl, rfl, rfl, rfl, rfl, rfl, rfl, rfl⟩

theorem outerKept_startResultsHold (s : State) : OuterKept s (startResultsHold s) := ⟨rfl, rfl, rfl, rfl, rfl, rfl, rfl, rfl, rfl⟩

theorem outerKept_enterResults (k : RoundNo) (s : State) : OuterKept s (enterResults k s) :=
  (((outerKept_haltRace k s).trans (outerKept_finalStandings _ _)).trans (outerKept_startResultsHold _)).trans
    (outerKept_checkRelease _)

theorem outerKept_checkEveryoneDone (k : RoundNo) (s : State) : OuterKept s (checkEveryoneDone k s) := by
  unfold checkEveryoneDone; split
  · exact outerKept_enterResults k s
  · exact .refl s

theorem outerKept_finishNotice (s : State) : OuterKept s (finishNotice s) := by
  unfold finishNotice
  split
  · exact (outerKept_enterFinishing s).trans (outerKept_checkEveryoneDone _ _)
  · exact outerKept_checkEveryoneDone _ s
  all_goals exact .refl s

theorem outerKept_checkCountdownVoid (s : State) : OuterKept s (checkCountdownVoid s) := by
  unfold checkCountdownVoid; split
  · exact outerKept_enterVoid s
  · exact .refl s

theorem outerKept_retirementNotice (s : State) : OuterKept s (retirementNotice s) :=
  (outerKept_checkCountdownVoid s).trans (outerKept_checkEveryoneDone _ _)

theorem outerKept_dropNotReady (p : PortId) (s : State) : OuterKept s (dropNotReady p s) := by
  unfold dropNotReady; split
  · exact .refl s
  · exact ⟨rfl, rfl, rfl, rfl, rfl, rfl, rfl, rfl, rfl⟩

theorem outerKept_dropAll (l : List PortId) (s : State) : OuterKept s (l.foldl (fun t p => dropNotReady p t) s) := by
  induction l generalizing s with
  | nil => exact .refl s
  | cons p rest ih => exact (outerKept_dropNotReady p s).trans (ih _)

theorem outerKept_closeGrid (s : State) : OuterKept s (closeGrid s) := by
  unfold closeGrid
  have h := outerKept_dropAll s.race.entryList s
  have k : ∀ t : State, OuterKept t { t with race := { t.race with gridTimer := none } } :=
    fun t => ⟨rfl, rfl, rfl, rfl, rfl, rfl, rfl, rfl, rfl⟩
  simp only []
  split
  · exact (h.trans (k _)).trans (outerKept_enterCountdown _)
  · exact (h.trans (k _)).trans (outerKept_enterVoid _)

theorem outerKept_checkAllReady (s : State) : OuterKept s (checkAllReady s) := by
  unfold checkAllReady; split
  · exact outerKept_closeGrid s
  · exact .refl s

theorem outerKept_departure (s : State) : OuterKept s (departure s) := by
  unfold departure
  split
  · split
    · exact outerKept_enterIdle s
    · exact .refl s
  · split
    · exact outerKept_enterVoid s
    · exact outerKept_checkAllReady s
  all_goals exact .refl s

theorem outerKept_closeLobby (s : State) : OuterKept s (closeLobby s) := by
  unfold closeLobby; split
  · exact ⟨rfl, rfl, rfl, rfl, rfl, rfl, rfl, rfl, rfl⟩
  · exact outerKept_enterVoid s

/-! ## Seat health -/

theorem outerKept_stallSeat (p : PortId) (rejoin : Bool) (s : State) : OuterKept s (stallSeat p rejoin s) :=
  ⟨rfl, rfl, rfl, rfl, rfl, rfl, rfl, rfl, rfl⟩

theorem outerKept_readmit (p : PortId) (s : State) : OuterKept s (readmit p s) :=
  ⟨rfl, rfl, rfl, rfl, rfl, rfl, rfl, rfl, rfl⟩

theorem outerKept_retireSeat (p : PortId) (reason : RetireReason) (progress : Int) (s : State) :
    OuterKept s (retireSeat p reason progress s) := by
  unfold retireSeat
  refine OuterKept.trans ?_ (outerKept_retirementNotice _)
  exact ⟨rfl, rfl, rfl, rfl, rfl, rfl, rfl, rfl, rfl⟩

theorem outerKept_rejoin (p : PortId) (s : State) : OuterKept s (rejoin p s) := by
  unfold rejoin
  simp only []
  split
  · exact outerKept_stallSeat p true s
  · exact outerKept_setSeat s p _
  all_goals exact .refl s

theorem outerKept_silenceExpires (p : PortId) (s : State) : OuterKept s (silenceExpires p s) := by
  unfold silenceExpires
  split
  · simp only []
    have h := outerKept_setSeat s p { s.seat p with silenceTimer := none }
    split
    · split
      · exact h.trans (outerKept_setSeat _ p _)
      · exact h
    · split
      · exact h.trans (outerKept_stallSeat p false _)
      · exact h
    all_goals exact h
  · exact .refl s

theorem outerKept_dropExpires (p : PortId) (s : State) : OuterKept s (dropExpires p s) := by
  unfold dropExpires
  split
  · simp only []
    have h := outerKept_setSeat s p { s.seat p with dropTimer := none }
    split
    · exact h.trans (outerKept_retireSeat p _ _ _)
    · exact h
  · exact .refl s

/-! ## Lap timing -/

theorem outerKept_makeFinished (c : CarId) (s : State) : OuterKept s (makeFinished c s) := by
  unfold makeFinished; split <;> exact ⟨rfl, rfl, rfl, rfl, rfl, rfl, rfl, rfl, rfl⟩

theorem outerKept_finishCar (c : CarId) (crossing : HubTime) (unverified ranked : Bool) (s : State) :
    OuterKept s (finishCar c crossing unverified ranked s) := by
  unfold finishCar
  simp only []
  have h := (outerKept_setLapRecord s c
    { s.lapRecord c with finish := some { raw := s.raceTime crossing, corrected := s.raceTime crossing + s.penaltyOf c } }).trans
      (outerKept_makeFinished c _)
  split
  · refine OuterKept.trans (h.trans ?_) (outerKept_finishNotice _)
    exact ⟨rfl, rfl, rfl, rfl, rfl, rfl, rfl, rfl, rfl⟩
  · exact h

theorem outerKept_recordCrossing (c : CarId) (k : Nat) (crossing : HubTime) (resolved stalled ranked : Bool)
    (s : State) : OuterKept s (recordCrossing c k crossing resolved stalled ranked s) := by
  unfold recordCrossing
  simp only []
  split
  · exact outerKept_setLapRecord s c _
  · split
    · refine OuterKept.trans ?_ (outerKept_finishCar c crossing _ ranked _)
      split <;> (try split) <;> exact ⟨rfl, rfl, rfl, rfl, rfl, rfl, rfl, rfl, rfl⟩
    · split <;> (try split) <;> exact ⟨rfl, rfl, rfl, rfl, rfl, rfl, rfl, rfl, rfl⟩

theorem outerKept_recordCrossings (c : CarId) (previous : Option CarState) (latest : CarState) (stalled : Bool)
    (n k : Nat) (s : State) : OuterKept s (recordCrossings c previous latest stalled n k s) := by
  induction n generalizing k s with
  | zero => exact .refl s
  | succ n ih =>
    unfold recordCrossings
    exact (outerKept_recordCrossing c k _ _ stalled true s).trans (ih _ _)

theorem outerKept_takeCarReport (p : PortId) (previous : Option CarState) (latest : CarState) (s : State) :
    OuterKept s (takeCarReport p previous latest s) := outerKept_recordCrossings _ _ _ _ _ _ s

theorem outerKept_pacerCrosses (s : State) : OuterKept s (pacerCrosses s) := by
  unfold pacerCrosses
  split
  · refine OuterKept.trans ?_ (outerKept_recordCrossing pacerCar _ _ _ _ _ _)
    exact ⟨rfl, rfl, rfl, rfl, rfl, rfl, rfl, rfl, rfl⟩
  · exact .refl s

/-! ## The steps of a report after the fit -/

theorem outerKept_seatTold (p : PortId) (kind : FitClass) (s : State) : OuterKept s (seatTold p kind s) := by
  unfold seatTold
  simp only []
  split
  · split
    · exact outerKept_setSeat s p _
    · exact .refl s
  · split
    · exact outerKept_setSeat s p _
    · exact .refl s
  · split
    · split
      · split
        · exact outerKept_readmit p s
        · exact outerKept_setSeat s p _
      all_goals exact outerKept_setSeat s p _
    · exact .refl s
  all_goals exact .refl s

theorem outerKept_judgeJump (p : PortId) (cs : CarState) (s : State) : OuterKept s (judgeJump p cs s) := by
  unfold judgeJump
  simp only []
  split
  · split
    · exact outerKept_setSeat s p _
    · split
      · exact (outerKept_setSeat s p _).trans (outerKept_appendEvent _ _)
      · exact .refl s
  · exact .refl s

theorem outerKept_handToLapTiming (p : PortId) (previous : Option CarState) (cs : CarState) (s : State) :
    OuterKept s (handToLapTiming p previous cs s) := by
  unfold handToLapTiming; split
  · exact outerKept_takeCarReport p previous cs s
  · exact .refl s

theorem outerKept_carFields (p : PortId) (form : ReportForm) (r : ReportFields) (kind : FitClass) (time : HubTime)
    (s : State) : OuterKept s (carFields p form r kind time s) := by
  unfold carFields
  split
  · exact .refl s
  · exact .refl s
  · exact .refl s
  · unfold carStage
    simp only []
    split
    · exact (((outerKept_setCar s p _).trans (outerKept_seatTold p kind _)).trans (outerKept_judgeJump p _ _)).trans
        (outerKept_handToLapTiming p _ _ _)
    · exact outerKept_setSeat s p _

theorem outerKept_captureRoundSeen (p : PortId) (seen : RoundNo) (s : State) :
    OuterKept s (captureRoundSeen p seen s) := by
  unfold captureRoundSeen
  split
  · split
    · split
      · refine OuterKept.trans ?_ (outerKept_checkRelease _)
        exact ⟨rfl, rfl, rfl, rfl, rfl, rfl, rfl, rfl, rfl⟩
      · exact outerKept_checkRelease s
    · exact outerKept_checkRelease s
  · exact .refl s

/-! ## RESULTS entry -/

theorem allSeen_eq_false {s : State} {p : PortId} (h1 : s.counted p = true) (h2 : s.portUp p = true)
    (h3 : s.race.seenMarks[p] ≠ some true) : s.allSeen = false := by
  rw [Bool.eq_false_iff]
  intro h
  have := (List.all_eq_true.1 h) p (mem_allPorts p)
  simp [h1, h2] at this
  exact h3 this

/-- The ranking reads only these parts of a snapshot. -/
theorem rank_congr {a b : Snapshot} (hc : a.cars = b.cars) (hf : a.finishList = b.finishList)
    (hd : a.descriptor = b.descriptor) (hi : a.instant = b.instant) (hv : a.pacerView = b.pacerView) (horizon margin : Nat)
    (previous : List CarId) : a.rank horizon margin previous = b.rank horizon margin previous := by
  have h1 : a.carOf? = b.carOf? := by funext c; simp [Snapshot.carOf?, hc]
  have h2 : a.rankingEntry horizon = b.rankingEntry horizon := by
    funext x; simp only [Snapshot.rankingEntry, Snapshot.lapLength, Snapshot.lapCount, hd, hi, hv]
  simp only [Snapshot.rank, h1, h2, hf]

theorem haltRace_seat_state (k : RoundNo) (s : State) (p : PortId) :
    ((haltRace k s).seat p).state = (s.seat p).state := by
  simp only [haltRace, State.seat_mk, map8_getElem_val, State.seats_get]
  split <;> rfl

theorem haltRace_snapCar (k : RoundNo) (s : State) (c : CarId) : (haltRace k s).snapCar c = s.snapCar c := by
  simp only [State.snapCar, State.carSeatState]
  cases seatOf c with
  | none => rfl
  | some p =>
    simp only [haltRace, State.seat_mk, map8_getElem_val, State.seats_get]
    split <;> rfl

theorem counted_congr {s t : State} (h : t.race.fieldList = s.race.fieldList)
    (k : ∀ p, (t.seat p).state = (s.seat p).state) (p : PortId) : t.counted p = s.counted p := by
  simp only [State.counted, h, k]

/-- R57, while a counted seat with its link UP is to be waited for: the results are not released at once. -/
theorem enterResults_waits (k : RoundNo) (s : State) (h : ∃ p, s.counted p = true ∧ s.portUp p = true) :
    enterResults k s = startResultsHold (finalStandings s.now (haltRace k s)) := by
  obtain ⟨p, h1, h2⟩ := h
  unfold enterResults checkRelease
  rw [if_neg]
  intro hh
  refine absurd hh.2 ?_
  rw [Bool.not_eq_true]
  rw [finalStandings_eq]
  have hc : (State.counted (finalStandings s.now (haltRace k s))) p = true := by
    rw [finalStandings_eq]; refine (counted_congr ?_ ?_ p).trans h1; rfl; exact haltRace_seat_state k s
  rw [finalStandings_eq] at hc
  apply allSeen_eq_false (p := p)
  · exact hc
  · exact h2
  · simp [startResultsHold, hc]

/-- The ranking of RESULTS entry reads what the state before it held. -/
theorem haltRace_rank (k : RoundNo) (s : State) (horizon margin : Nat) (previous : List CarId) :
    ((haltRace k s).snapshot s.now).rank horizon margin previous = (s.snapshot s.now).rank horizon margin previous :=
  rank_congr (a := (haltRace k s).snapshot s.now) (b := s.snapshot s.now) (List.map_congr_left fun c _ => haltRace_snapCar k s c) rfl rfl rfl rfl _ _ _
/-! ## The grid closes -/

/-- R49 step 1: what dropping the entrants of a list that are not READY does. -/
theorem dropAll_eq (l : List PortId) (s : State) :
    let late := l.filter fun p => (s.seat p).state != .ready
    let t := l.foldl (fun t p => dropNotReady p t) s
    (∀ p, t.seat p = if p ∈ late then { s.seat p with state := .linked } else s.seat p) ∧
    (∀ p, t.car p = if p ∈ late then CarRecord.empty else s.car p) ∧
    t.race = { s.race with entryList := s.race.entryList.filter (· ∉ late) } ∧
    t.events = late.foldl (fun q p => q.append (.retire p none .notReady)) s.events ∧
    t.lapRecords = s.lapRecords ∧ t.standings = s.standings ∧ t.pacer = s.pacer ∧ t.pacerRecord = s.pacerRecord := by
  induction l generalizing s with
  | nil => simp
  | cons p rest ih =>
    simp only [List.foldl_cons]
    by_cases hp : (s.seat p).state = .ready
    · have hd : dropNotReady p s = s := by simp [dropNotReady, hp]
      have hf : (p :: rest).filter (fun p => (s.seat p).state != .ready) = rest.filter fun p => (s.seat p).state != .ready := by
        simp [hp]
      rw [hd]; simp only [hf]; exact ih s
    · obtain ⟨h1, h2, h3, h4, h5, h6, h7, h8⟩ := ih (dropNotReady p s)
      have hs : ∀ q, ((dropNotReady p s).seat q) = if q = p then { s.seat p with state := .linked } else s.seat q := by
        intro q
        simp only [dropNotReady, hp, if_false, appendEvent_seat, State.seat_setCar, State.seat_setSeat]
        split
        · rfl
        · rfl
      have hst : ∀ q, ((dropNotReady p s).seat q).state ≠ .ready ↔ (s.seat q).state ≠ .ready := by
        intro q
        rw [hs]
        by_cases hq : q = p
        · subst hq; simp [hp]
        · simp [hq]
      have hlate : (rest.filter fun q => ((dropNotReady p s).seat q).state != .ready) = rest.filter fun q => (s.seat q).state != .ready := by
        apply List.filter_congr; intro q _
        rw [Bool.eq_iff_iff]; simp only [bne_iff_ne]; exact hst q
      simp only [hlate] at h1 h2 h3 h4
      have hf : (p :: rest).filter (fun p => (s.seat p).state != .ready) = p :: rest.filter fun p => (s.seat p).state != .ready := by
        simp [hp]
      simp only [hf]
      have hc : ∀ q, ((dropNotReady p s).car q) = if q = p then CarRecord.empty else s.car q := by
        intro q
        simp only [dropNotReady, hp, if_false, appendEvent_car, State.car_setCar]
        split
        · rfl
        · rfl
      refine ⟨fun q => ?_, fun q => ?_, ?_, ?_, ?_, ?_, ?_, ?_⟩
      · rw [h1, hs]
        by_cases hq : q = p <;> simp [hq]
      · rw [h2, hc]
        by_cases hq : q = p <;> simp [hq]
      · rw [h3]
        simp [dropNotReady, hp, leaveEntryList, List.filter_filter]
        apply List.filter_congr; intro q _
        by_cases hq : q = p <;> simp [hq]
      · rw [h4]; simp [dropNotReady, hp]; rfl
      · rw [h5]; simp [dropNotReady, hp]; rfl
      · rw [h6]; simp [dropNotReady, hp]; rfl
      · rw [h7]; simp [dropNotReady, hp]; rfl
      · rw [h8]; simp [dropNotReady, hp]; rfl

/-- R119: a field seat's lap timing record at COUNTDOWN entry. -/
theorem lapRecord_enterCountdown (p : PortId) (s : State) :
    (enterCountdown s).lapRecord (carOf p) =
      if p ∈ s.race.entryList then LapRecord.start (captureHighWater (s.car p).latest) else LapRecord.empty := by
  simp only [enterCountdown, State.lapRecord, carOf]
  rw [Fin.getElem_fin, Vector.getElem_push]
  simp

/-- R151, R156: the pacer's lap timing record at COUNTDOWN entry. -/
theorem lapRecord_enterCountdown_pacer (s : State) :
    (enterCountdown s).lapRecord pacerCar =
      if s.settings.pacerMode = .off then LapRecord.empty else LapRecord.start (.count 0) := rfl

theorem placeIn_of_get {l : List PortId} (hn : l.Nodup) {i : Nat} {p : PortId} (h : l[i]? = some p) : placeIn p l = some (i + 1) := by
  have hm : p ∈ l := List.mem_of_getElem? h
  obtain ⟨hi, hp⟩ := List.getElem?_eq_some_iff.1 h
  simp only [placeIn, hm, if_true]
  rw [← hp, hn.idxOf_getElem]

/-! ## Departures (R45) -/

theorem departure_lobby_stays {s : State} (h : s.race.state = .lobby) (hl : s.race.entryList ≠ []) : departure s = s := by
  simp only [departure, h, hl, if_false]

theorem departure_lobby_empty {s : State} (h : s.race.state = .lobby) (hl : s.race.entryList = []) :
    departure s = enterIdle s := by
  simp only [departure, h, hl, if_true]

theorem departure_grid_empty {s : State} (h : s.race.state = .grid) (hl : s.race.entryList = []) :
    departure s = enterVoid s := by
  simp only [departure, h, hl, if_true]

/-! ## While the race goes on -/

/-- While a RUNNING cabinet seat of the field remains, the race controller does nothing on a retirement or a finish
(R54, R56). -/
theorem everyoneDone_eq_false {s : State} {r : PortId} (hf : carOf r ∈ s.race.fieldList)
    (hr : (s.seat r).state = .running) : s.everyoneDone = false := by
  rw [Bool.eq_false_iff]
  intro hh
  have := (List.all_eq_true.1 hh) (carOf r) hf
  simp [State.carSeatState, hr] at this

theorem checkEveryoneDone_goesOn {s : State} {r : PortId} (hf : carOf r ∈ s.race.fieldList)
    (hr : (s.seat r).state = .running) (k : RoundNo) : checkEveryoneDone k s = s := by
  unfold checkEveryoneDone
  rw [if_neg]
  simp [everyoneDone_eq_false hf hr]

theorem retirementNotice_goesOn {s : State} {r : PortId} (hf : carOf r ∈ s.race.fieldList)
    (hr : (s.seat r).state = .running) : retirementNotice s = s := by
  have h : checkCountdownVoid s = s := by
    unfold checkCountdownVoid
    rw [if_neg]
    intro ⟨_, hh⟩
    have := (List.all_eq_true.1 hh) r (mem_allPorts r)
    simp [hf, hr] at this
  rw [retirementNotice, h, checkEveryoneDone_goesOn hf hr]

/-! ## The boundary -/

theorem outerKept_green (s : State) : OuterKept s (green s) := by
  unfold green
  simp only []
  refine OuterKept.trans ?_ (outerKept_checkEveryoneDone _ _)
  split
  · exact ⟨rfl, rfl, rfl, rfl, rfl, rfl, rfl, rfl, rfl⟩
  · refine OuterKept.trans ?_ (outerKept_enterFinishing _)
    exact ⟨rfl, rfl, rfl, rfl, rfl, rfl, rfl, rfl, rfl⟩

theorem outerKept_raceAtBoundary (b : HubTime) (s : State) : OuterKept s (raceAtBoundary b s) := by
  unfold raceAtBoundary
  split
  · split
    · split
      · exact outerKept_green s
      · exact ⟨rfl, rfl, rfl, rfl, rfl, rfl, rfl, rfl, rfl⟩
    · exact .refl s
  · exact .refl s

end Sys2Proof.Machine
end

