-- ==== Sys2Proof/Laws/Departure.lean ====
section
/-! SUPPORT. What entry into IDLE and VOID, the grid's closing and a departure leave (R45, R49, R61, R62), and that a seat which has
left the race with its cabinet stays so through all of them (R25). -/

namespace Sys2Proof.Machine

/-- `p` has left the race and its cabinet is gone. -/
structure Gone (p : PortId) (s : State) : Prop where
  state : (s.seat p).state = .vacant
  cabinet : (s.seat p).cabinet = none
  silence : (s.seat p).silenceTimer = none
  car : s.car p = { latest := none, previous := none }
  unlisted : p ∉ s.race.entryList

theorem gone_enterIdle {p : PortId} {s : State} (h : Gone p s) : Gone p (enterIdle s) := by
  obtain ⟨h1, h2, h3, h4, h5⟩ := h
  refine ⟨?_, ?_, ?_, ?_, ?_⟩
  all_goals simp [enterIdle, Seat.release, h1, Seat.clearRaceFields, h2, Race.reset, CarRecord.empty]

theorem gone_enterVoid {p : PortId} {s : State} (h : Gone p s) : Gone p (enterVoid s) := by
  obtain ⟨h1, h2, h3, h4, h5⟩ := h
  refine ⟨?_, ?_, ?_, ?_, ?_⟩
  · simp [enterVoid, h1]
  · simp [enterVoid, h1, h2]
  · simp [enterVoid, h1, h3]
  · exact h4
  · exact h5

theorem gone_enterCountdown {p : PortId} {s : State} (h : Gone p s) : Gone p (enterCountdown s) := by
  obtain ⟨h1, h2, h3, h4, h5⟩ := h
  refine ⟨?_, ?_, ?_, ?_, ?_⟩
  · simp [enterCountdown, h1, h5]
  · simp [enterCountdown, h5, h2]
  · simp [enterCountdown, h5, h3]
  · exact h4
  · simp [enterCountdown]

theorem gone_closeGrid {p : PortId} {s : State} (h : Gone p s) : Gone p (closeGrid s) := by
  have hd := dropAll_eq s.race.entryList s
  obtain ⟨d1, d2, d3, -⟩ := hd
  obtain ⟨h1, h2, h3, h4, h5⟩ := h
  have hp : p ∉ s.race.entryList.filter fun p => (s.seat p).state != .ready := fun hh => h5 (List.mem_of_mem_filter hh)
  have g : Gone p (s.race.entryList.foldl (fun t p => dropNotReady p t) s) := by
    refine ⟨?_, ?_, ?_, ?_, ?_⟩
    · rw [d1, if_neg hp]; exact h1
    · rw [d1, if_neg hp]; exact h2
    · rw [d1, if_neg hp]; exact h3
    · rw [d2, if_neg hp]; exact h4
    · rw [d3]; exact fun hh => h5 (List.mem_of_mem_filter hh)
  have g2 : ∀ t : State, Gone p t → Gone p { t with race := { t.race with gridTimer := none } } :=
    fun t ⟨a, b, c, d, e⟩ => ⟨a, b, c, d, e⟩
  unfold closeGrid
  simp only []
  split
  · exact gone_enterCountdown (g2 _ g)
  · exact gone_enterVoid (g2 _ g)

theorem gone_departure {p : PortId} {s : State} (h : Gone p s) : Gone p (departure s) := by
  unfold departure
  split
  · split
    · exact gone_enterIdle h
    · exact h
  · split
    · exact gone_enterVoid h
    · unfold checkAllReady
      split
      · exact gone_closeGrid h
      · exact h
  all_goals exact h

/-! ## What each of them leaves -/

/-- R62: what entry into IDLE leaves. -/
theorem entersIdle_enterIdle (s : State) : EntersIdle s (enterIdle s) := by
  refine ⟨rfl, rfl, rfl, rfl, rfl, rfl, rfl, rfl, fun c => ?_, fun p => ?_, fun p => ?_, rfl, rfl, rfl, rfl, rfl, rfl, rfl⟩
  · simp [enterIdle]
  · simp [enterIdle, CarRecord.empty]
  · simp only [enterIdle, State.seat_mk, map8_getElem_val, State.seats_get, Seat.release]
    cases hx : (s.seat p).state <;> cases s.portUp p <;> simp [Seat.clearRaceFields, Seat.vacate, hx]

/-- R61: what entry into VOID leaves. -/
theorem entersVoid_enterVoid (s : State) : EntersVoid s (enterVoid s) := by
  refine ⟨rfl, fun p => ?_, rfl, rfl, rfl⟩
  simp only [enterVoid, State.seat_mk, map8_getElem_val, State.seats_get]
  split <;> simp_all

/-- R49: what the grid's closing leaves, when no seat stands on the list twice. -/
theorem closesGrid_closeGrid (s : State) (hn : s.race.entryList.Nodup) : ClosesGrid s (closeGrid s) := by
  obtain ⟨d1, d2, d3, d4, d5, d6, d7, d8⟩ := dropAll_eq s.race.entryList s
  have dk := outerKept_dropAll s.race.entryList s
  have dx : (s.race.entryList.foldl (fun t p => dropNotReady p t) s).finishList = s.finishList ∧
      (s.race.entryList.foldl (fun t p => dropNotReady p t) s).fastestLap = s.fastestLap ∧
      (s.race.entryList.foldl (fun t p => dropNotReady p t) s).assembler = s.assembler := by
    clear d1 d2 d3 d4 d5 d6 d7 d8 dk hn
    generalize s.race.entryList = l
    induction l generalizing s with
    | nil => exact ⟨rfl, rfl, rfl⟩
    | cons p rest ih =>
      obtain ⟨a, b, c⟩ := ih (dropNotReady p s)
      have hp : (dropNotReady p s).finishList = s.finishList ∧ (dropNotReady p s).fastestLap = s.fastestLap ∧
          (dropNotReady p s).assembler = s.assembler := by
        unfold dropNotReady; split <;> exact ⟨rfl, rfl, rfl⟩
      exact ⟨a.trans hp.1, b.trans hp.2.1, c.trans hp.2.2⟩
  obtain ⟨dx1, dx2, dx3⟩ := dx
  simp only [closeGrid]
  generalize (s.race.entryList.foldl (fun t p => dropNotReady p t) s) = u at *
  simp only at d1 d2 d3 d4
  have hlist : s.race.entryList.filter (fun x => decide (x ∉ s.race.entryList.filter fun p => (s.seat p).state != .ready)) =
      s.race.entryList.filter fun p => (s.seat p).state == .ready := by
    apply List.filter_congr; intro q hq
    simp [hq]
    cases (s.seat q).state <;> simp
  rw [hlist] at d3
  have hset : u.settings = s.settings := dk.settings
  have hlen : u.race.entryList = s.race.entryList.filter fun p => (s.seat p).state == .ready := by rw [d3]
  have hnow : u.now = s.now := dk.now
  have hfits : u.fits = s.fits := dk.fits
  have hports : u.ports = s.ports := dk.ports
  have htime : u.time = s.time := dk.time
  have hout : ∀ p, p ∉ s.race.entryList → p ∉ s.race.entryList.filter fun p => (s.seat p).state != .ready :=
    fun p hp hh => hp (List.mem_of_mem_filter hh)
  unfold ClosesGrid
  simp only [hset, hlen]
  by_cases hm : s.settings.minimumField ≤ (s.race.entryList.filter fun p => (s.seat p).state == .ready).length
  · have hm' : ¬ (s.race.entryList.filter fun p => (s.seat p).state == .ready).length < s.settings.minimumField := by omega
    simp only [hm, hm', if_true, false_imp_iff, true_imp_iff, true_and]
    refine ⟨fun p hp => ?_, fun p hp => ?_, fun p hp hr => ?_, ?_, ?_, hfits, rfl, hports, htime, dx1, dx2, congrArg _ dx3⟩
    · have hp2 := hp
      simp only [List.mem_filter] at hp
      simp only [enterCountdown, State.seat_mk, map8_getElem_val, State.seats_get, d1, hp2, if_true, List.contains_eq_mem,
        List.mem_filter]
      have : (s.seat p).state ≠ .ready := by simpa using hp.2
      simp [this]
      rw [d2, if_pos hp2]; rfl
    · exact (d2 p).trans (if_neg hp)
    · simp only [enterCountdown, State.seat_mk, map8_getElem_val, State.seats_get, d1, hout p hp]
      simp [hp]
    · exact d4
    · refine ⟨?_, ?_, ?_, ?_, ?_⟩
      · have h1 := d3
        simp only [State.now] at hnow
        simp only [enterCountdown, State.now, ofMs, htime, d3]
      · intro i p hi
        have hm := List.mem_of_getElem? hi
        have hm2 := hm
        simp only [List.mem_filter] at hm
        have hr : (s.seat p).state = .ready := by simpa using hm.2
        have hl : p ∉ s.race.entryList.filter fun p => (s.seat p).state != .ready := by simp [hr]
        have hn2 : (s.race.entryList.filter fun p => (s.seat p).state == .ready).Nodup := hn.filter _
        have hc2 := d2 p
        rw [if_neg hl] at hc2
        constructor
        · simp only [enterCountdown, State.seat_mk, map8_getElem_val, State.seats_get, d1, hl, List.contains_eq_mem, hm2]
          simp [placeIn_of_get hn2 hi, hc2]
        · rw [lapRecord_enterCountdown]
          rw [if_pos (by simpa using hm2), State.car_mk, State.cars_get, hc2]
          simp only [captureHighWater, LapRecord.start, LapRecord.empty]
          cases (s.car p).latest with
          | none => rfl
          | some cs => cases hcl : cs.lap <;> simp [hcl]
      · simp [enterCountdown, initialStandings]
      · intro hoff; simp [enterCountdown, hoff]
      · intro hoff
        refine ⟨?_, ?_, ?_, ?_⟩
        · simp [enterCountdown, hoff]
        · simp [enterCountdown, hoff, State.lapLength, d3]
        · simp [enterCountdown, hoff, State.lapLength, d3]
        · rw [lapRecord_enterCountdown_pacer, if_neg (by simpa using hoff)]; rfl
  · simp only [hm, if_false]
    refine ⟨fun p hp => ?_, fun p hp => ?_, fun p hp hr => ?_, ?_, fun _ => ⟨?_, rfl, d5, d7, d8, fun p hp => ?_⟩,
      fun hh => absurd hh (by simp), hfits, rfl, hports, htime, dx1, dx2, congrArg (·.results) dx3⟩
    · have hp2 := hp
      simp only [List.mem_filter] at hp
      simp only [enterVoid, State.seat_mk, map8_getElem_val, State.seats_get, d1, hp2, if_true]
      simp
      rw [State.car_mk, State.cars_get, d2, if_pos hp2]; rfl
    · exact (d2 p).trans (if_neg hp)
    · simp only [enterVoid, State.seat_mk, map8_getElem_val, State.seats_get, d1, hout p hp]
      simp [hr]
    · exact d4
    · simp only [State.now] at hnow
      simp only [enterVoid, d3, State.now, hnow, voidTime, ofS]
    · simp only [List.mem_filter] at hp
      have hr : (s.seat p).state = .ready := by simpa using hp.2
      simp only [enterVoid, State.seat_mk, map8_getElem_val, State.seats_get, d1]
      simp [hr]

/-- R45: everything a departure from the entry list can do. -/
theorem departed_departure (s : State) (hn : s.race.entryList.Nodup) : Departed s (departure s) := by
  refine ⟨fun h1 h2 => ?_, fun h1 h2 => ?_, fun h1 h2 h3 => ?_, fun h => ?_⟩
  · rw [departure_lobby_empty h1 h2]; exact entersIdle_enterIdle s
  · rw [departure_grid_empty h1 h2]; exact entersVoid_enterVoid s
  · have : departure s = closeGrid s := by
      simp only [departure, h1, h2, if_false, checkAllReady]
      rw [if_pos ⟨h2, by simpa using h3⟩]
    rw [this]; exact closesGrid_closeGrid s hn
  · have : departure s = s := by
      rcases h with ⟨h1, h2⟩ | ⟨h1, h2⟩ | ⟨h1, r, h2, h3⟩
      · cases h : s.race.state <;> simp_all [departure]
      · simp [departure, h1, h2]
      · have hne : s.race.entryList ≠ [] := List.ne_nil_of_mem h2
        simp only [departure, h1, hne, if_false, checkAllReady]
        rw [if_neg]
        rintro ⟨-, hh⟩
        exact h3 (by simpa using (List.all_eq_true.1 hh) r h2)
    rw [this]; rfl

/-- The service engine and the count of free values play no part in what a command keeps but for them. -/
theorem keptButEngine_engine {s t : State} (e f : ServiceEngine) (n : Nat) (h : KeptButEngine s t) :
    KeptButEngine { s with engine := e } { t with engine := f, freeDraws := n } := by
  have h2 := congrArg (fun x : State => { x with engine := e }) (show _ = s from h)
  exact h2

/-- The service engine and the count of free values play no part in the consequences of a departure. -/
theorem departed_engine {s t : State} (e f : ServiceEngine) (n : Nat) (h : Departed s t) :
    Departed { s with engine := e } { t with engine := f, freeDraws := n } :=
  ⟨h.1,
    fun a b =>
      have v := h.2.1 a b
      ⟨v.1, v.2.1, v.2.2.1, v.2.2.2.1, keptButEngine_engine e f n v.2.2.2.2⟩,
    h.2.2.1, fun a => keptButEngine_engine e f n (h.2.2.2 a)⟩

end Sys2Proof.Machine
end

