-- ==== Sys2Proof/Laws/Laps.lean ====
section
/-! SUPPORT. What the clock fit hands on (R69, R79), the order of finishes (R129), and what recording a crossing and a finish
do (R123 to R128). -/

namespace Sys2Proof.Machine

/-- R69, R79: only a discarded report has no fitted time. -/
theorem take_fitted {f : Fit} {frame : FrameCount} {observed now time : HubTime}
    (h : (f.take frame observed now).fitted = some time) :
    (f.take frame observed now).kind ≠ .duplicate ∧ (f.take frame observed now).kind ≠ .outOfOrder := by
  unfold Fit.take at h ⊢
  split at h <;> simp only [Fit.first, ne_eq, reduceCtorEq, not_false_eq_true, and_self]
  simp only [] at h
  split at h
  · simp at h
  · rename_i n0
    simp only [n0, if_false]
    split
    · simp only [Fit.normal, Fit.inGateUpdate, Fit.resync, Fit.coast]
      split
      · simp
      · split <;> simp
    · rename_i n1
      simp only [n1, if_false] at h
      split at h
      · rename_i n2; simp only [n2, if_true, Fit.resync]; simp
      · simp at h

/-! ## The order of finishes (R129) -/

theorem before_trans {a b c : FinishEntry} (h1 : a.before b = true) (h2 : b.before c = true) : a.before c = true := by
  simp only [FinishEntry.before, Bool.or_eq_true, Bool.and_eq_true, decide_eq_true_eq, beq_iff_eq, Fin.lt_def] at *
  omega

theorem before_asymm {a b : FinishEntry} (h1 : a.before b = true) : b.before a = false := by
  rw [Bool.eq_false_iff]
  simp only [FinishEntry.before, ne_eq, Bool.or_eq_true, Bool.and_eq_true, decide_eq_true_eq, beq_iff_eq, Fin.lt_def] at *
  omega

/-- If neither `b` orders before `a` nor `c` before `b`, then `c` does not order before `a` (R129). -/
theorem not_before_trans {a b c : FinishEntry} (h1 : b.before a = false) (h2 : c.before b = false) : c.before a = false := by
  rw [Bool.eq_false_iff] at *
  simp only [FinishEntry.before, ne_eq, Bool.or_eq_true, Bool.and_eq_true, decide_eq_true_eq, beq_iff_eq, Fin.lt_def] at *
  omega

/-! ## Crossings and finishes -/

/-- A finish while another car of the field still runs (R55, R56). -/
theorem finishNotice_goesOn {s : State} {r : PortId} (hf : carOf r ∈ s.race.fieldList)
    (hr : (s.seat r).state = .running) (hs : s.race.state = .racing ∨ s.race.state = .finishing) :
    finishNotice s = if s.race.state = .racing then enterFinishing s else s := by
  rcases hs with hs | hs
  · simp only [finishNotice, hs, if_true]
    exact checkEveryoneDone_goesOn (s := enterFinishing s) hf hr _
  · simp only [finishNotice, hs]
    rw [checkEveryoneDone_goesOn hf hr, if_neg (by simp)]

/-- Before the green a finish changes no race state (R53, R55). -/
theorem finishNotice_countdown {s : State} (h : s.race.state = .countdown) : finishNotice s = s := by
  simp only [finishNotice, h]

/-- R128: the finish of a cabinet car in COUNTDOWN, or while another car of the field still runs. -/
theorem finishCar_goesOn {s : State} {p r : PortId} (hl : s.race.state.live = true)
    (hgo : s.race.state ≠ .countdown → r ≠ p ∧ carOf r ∈ s.race.fieldList ∧ (s.seat r).state = .running)
    (crossing : HubTime) (unverified : Bool) :
    let raw := s.raceTime crossing
    let corrected := raw + (s.seat p).penalty
    finishCar (carOf p) crossing unverified true s =
      { s with
        lapRecords := s.lapRecords.set (carOf p)
          { s.lapRecord (carOf p) with finish := some { raw := raw, corrected := corrected } }
        seats := s.seats.set p
          { s.seat p with
            state := .finished, stallPhase := none, recoveryRun := none, frozenProgress := none, silenceTimer := none
            dropTimer := none }
        finishList := insertFinish { car := carOf p, raw := raw, corrected := corrected } s.finishList
        events := s.events.append
          (.finish (carOf p) s.lapCount corrected (decide (0 < (s.seat p).penalty)) unverified)
        race := if s.race.state = .racing then
            { s.race with
              state := .finishing, finishWindowTimer := startTimer s.now (ofS s.settings.finishWindow) }
          else s.race } := by
  intro raw corrected
  have hp : s.penaltyOf (carOf p) = (s.seat p).penalty := by simp [State.penaltyOf]
  simp only [finishCar, hp, makeFinished, seatOf_carOf, if_true]
  by_cases hc : s.race.state = .countdown
  · rw [finishNotice_countdown]
    · rw [if_neg (by simp [hc])]
      rfl
    · exact hc
  · obtain ⟨hrp, hf, hr⟩ := hgo hc
    have hs : s.race.state = .racing ∨ s.race.state = .finishing := by
      cases h : s.race.state <;> simp_all [RaceState.live]
    rw [finishNotice_goesOn (r := r)]
    · by_cases hx : s.race.state = .racing
      · rw [if_pos hx]
        exact (if_pos hx).trans rfl
      · rw [if_neg hx]
        exact (if_neg hx).trans rfl
    · exact hf
    · simp [State.seat_setSeat_ne _ _ hrp, hr]
    · exact hs

/-- R123 to R127: a crossing into lap `k` from 1 on is a lap entry, the fastest lap, the LAP event and, for lap N, the
finish. -/
theorem recordCrossing_eq (c : CarId) (k : Nat) (crossing : HubTime) (resolved stalled ranked : Bool) (s : State) (hk : k ≠ 0) :
    let time := s.lapTimeOf c k crossing
    let unverified := s.lapUnverified c k time resolved stalled
    let fastest := ranked && takesFastest s.fastestLap time unverified
    let u : State :=
      { s with
        lapRecords := s.lapRecords.set c
          { s.lapRecord c with
            lastCrossing := some { lap := k, time := crossing, resolved := resolved }
            highWater := some (.count k)
            history := (s.lapRecord c).history ++ [{ time := time, unverified := unverified }]
            bestLap := betterLap (s.lapRecord c).bestLap k time unverified }
        fastestLap := if fastest then some { car := c, lap := k, time := time } else s.fastestLap
        events := if ranked then s.events.append (.lap c k time fastest unverified) else s.events }
    recordCrossing c k crossing resolved stalled ranked s =
      if k = s.lapCount then finishCar c crossing unverified ranked u else u := by
  intro time unverified fastest u
  have hu : ∀ f : Bool, (ranked && takesFastest s.fastestLap time unverified) = f →
      recordCrossing c k crossing resolved stalled ranked s =
        if k = s.lapCount then finishCar c crossing unverified ranked
          { s with
            lapRecords := s.lapRecords.set c
              { s.lapRecord c with
                lastCrossing := some { lap := k, time := crossing, resolved := resolved }
                highWater := some (.count k)
                history := (s.lapRecord c).history ++ [{ time := time, unverified := unverified }]
                bestLap := betterLap (s.lapRecord c).bestLap k time unverified }
            fastestLap := if f then some { car := c, lap := k, time := time } else s.fastestLap
            events := if ranked then s.events.append (.lap c k time f unverified) else s.events }
        else
          { s with
            lapRecords := s.lapRecords.set c
              { s.lapRecord c with
                lastCrossing := some { lap := k, time := crossing, resolved := resolved }
                highWater := some (.count k)
                history := (s.lapRecord c).history ++ [{ time := time, unverified := unverified }]
                bestLap := betterLap (s.lapRecord c).bestLap k time unverified }
            fastestLap := if f then some { car := c, lap := k, time := time } else s.fastestLap
            events := if ranked then s.events.append (.lap c k time f unverified) else s.events } := by
    intro f hf
    simp only [recordCrossing, if_neg hk]
    change (ranked && takesFastest s.fastestLap (s.lapTimeOf c k crossing) (s.lapUnverified c k (s.lapTimeOf c k crossing) resolved stalled)) = f at hf
    rw [hf]
    cases f <;> cases ranked <;> rfl
  exact hu _ rfl

/-- R120, R123: a crossing below lap N leaves the race as it stands. -/
theorem recordCrossing_race (c : CarId) (k : Nat) (crossing : HubTime) (resolved stalled : Bool) (s : State)
    (hk : k = 0 ∨ k ≠ s.lapCount) :
    (recordCrossing c k crossing resolved stalled true s).race = s.race := by
  by_cases h0 : k = 0
  · simp [recordCrossing, h0]
  · have h := recordCrossing_eq c k crossing resolved stalled true s h0
    simp only at h
    rw [h, if_neg (hk.resolve_left h0)]

/-- R120: the crossings of one report are recorded one after the other in rising order of lap, each timed on the lap length that
stood before the first, as long as none of them lies beyond lap N. -/
theorem recordCrossings_eq (c : CarId) (previous : Option CarState) (latest : CarState) (stalled : Bool)
    (n k : Nat) (s : State) (hn : k + n ≤ s.lapCount + 1) :
    recordCrossings c previous latest stalled n k s =
      (List.range n).foldl (fun u i =>
        recordCrossing c (k + i) (crossingTime s.lapLength (k + i) previous latest).1
          (crossingTime s.lapLength (k + i) previous latest).2 stalled true u) s := by
  induction n generalizing k s with
  | zero => rfl
  | succ n ih =>
    rw [List.range_succ_eq_map, List.foldl_cons, List.foldl_map]
    cases n with
    | zero => rfl
    | succ m =>
      change recordCrossings c previous latest stalled (m + 1) (k + 1) (recordCrossing c (k + 0)
        (crossingTime s.lapLength (k + 0) previous latest).1 (crossingTime s.lapLength (k + 0) previous latest).2 stalled true s) = _
      have hr := recordCrossing_race c (k + 0) (crossingTime s.lapLength (k + 0) previous latest).1
        (crossingTime s.lapLength (k + 0) previous latest).2 stalled s (by omega)
      generalize recordCrossing c (k + 0) _ _ stalled true s = u at hr
      have hc : u.lapCount = s.lapCount := by unfold State.lapCount; rw [hr]
      have hl : u.lapLength = s.lapLength := by unfold State.lapLength; rw [hr]
      rw [ih (k + 1) u (by omega), hl]
      simp only [Nat.succ_eq_add_one, Nat.add_assoc, Nat.add_comm 1]

/-- R2: the difference of two instants counted from the same hub time. -/
theorem diff_add_ofNat (e : HubTime) (a b : Nat) (h : a ≤ b) (hb : b - a < 2 ^ 31) :
    diff (e + BitVec.ofNat 32 b) (e + BitVec.ofNat 32 a) = ((b - a : Nat) : Int) := by
  have : e + BitVec.ofNat 32 b - (e + BitVec.ofNat 32 a) = BitVec.ofNat 32 (b - a) := by
    have : BitVec.ofNat 32 b = BitVec.ofNat 32 (b - a) + BitVec.ofNat 32 a := by
      rw [← BitVec.ofNat_add]; congr 1; omega
    rw [this]; ring
  simp only [diff, this]
  rw [BitVec.toInt_eq_toNat_cond]
  simp only [BitVec.toNat_ofNat]
  have : (b - a) % 2 ^ 32 = b - a := Nat.mod_eq_of_lt (by omega)
  rw [this, if_pos (by omega)]

end Sys2Proof.Machine
end

