-- ==== Sys2Proof/Laws/Endings.lean ====
section
/-! SUPPORT. What RESULTS entry, its release, a retirement and a finish leave (R53 to R59), and that the service engine plays no
part in them. -/

namespace Sys2Proof.Machine

/-! ## RESULTS -/

theorem everyoneDone_iff (s : State) : s.everyoneDone = true ↔ AllDone s := by
  unfold State.everyoneDone AllDone
  rw [List.all_eq_true]
  refine forall_congr' fun c => forall_congr' fun _ => ?_
  cases s.carSeatState c <;> simp

/-- The car entries of RESULTS entry read what the state before it held. -/
theorem haltRace_carEntry (k : RoundNo) (s : State) :
    Snapshot.carEntry ((haltRace k s).snapshot s.now) = Snapshot.carEntry (s.snapshot s.now) := by
  funext x
  have h1 : ((haltRace k s).snapshot s.now).cars = (s.snapshot s.now).cars :=
    List.map_congr_left fun c _ => haltRace_snapCar k s c
  have h2 : ((haltRace k s).snapshot s.now).pacerView = (s.snapshot s.now).pacerView := rfl
  simp only [Snapshot.carEntry, Snapshot.carOf?, h1, h2]

/-- R57: what RESULTS entry leaves before the release is checked. -/
theorem entersResults_hold (k : RoundNo) (s : State) :
    EntersResults k s (startResultsHold (finalStandings s.now (haltRace k s))) := by
  have hc : ∀ p a b c, State.counted { haltRace k s with standings := a, events := b, assembler := c } p = s.counted p := by
    intro p a b c
    refine counted_congr ?_ ?_ p
    · rfl
    · exact haltRace_seat_state k s
  simp only [finalStandings_eq, haltRace_rank, haltRace_carEntry]
  refine ⟨rfl, fun p => ?_, fun p => ?_, rfl, ⟨rfl, rfl⟩, rfl, rfl⟩
  · simp [startResultsHold, hc]
  · simp [startResultsHold, haltRace]

/-- R58: what a held RESULTS state loses at the release, read from the state before RESULTS. -/
theorem entersIdle_released {k : RoundNo} {s t : State} (h : EntersResults k s t) : EntersIdle s (enterIdle t) := by
  obtain ⟨-, -, hseat, -, -, hasm, hkept⟩ := h
  obtain ⟨i1, i2, i3, i4, i5, i6, i7, i8, i9, i10, i11, i12, i13, i14, i15, i16, i17, i18⟩ := entersIdle_enterIdle t
  have hports : t.ports = s.ports := congrArg (·.ports) hkept
  have hup : ∀ p, t.portUp p = s.portUp p := fun p => by simp only [State.portUp, State.port, hports]
  refine ⟨i1, i2, i3, i4, i5, i6, i7, ?_, i9, i10, fun p => ?_, i12.trans (congrArg (·.fits) hkept),
    i13.trans (congrArg (·.settings) hkept), i14.trans hports, i15.trans (congrArg (·.time) hkept),
    i16.trans (congrArg (·.resetHeld) hkept), i17.trans (congrArg (·.orderTrail) hkept),
    i18.trans (congrArg (·.pending) hkept)⟩
  · rw [i8, hasm]
    cases s.assembler.computation <;> rfl
  · have hp := i11 p
    simp only [hup, hseat p] at hp ⊢
    split at hp <;> exact hp

/-- R57 to R59: everything RESULTS entry can do. -/
theorem endsRace_enterResults (k : RoundNo) (s : State) : EndsRace k s (enterResults k s) := by
  have hold := entersResults_hold k s
  refine ⟨fun h => by rw [enterResults_waits k s h]; exact hold, fun h => ?_⟩
  have hall : (startResultsHold (finalStandings s.now (haltRace k s))).allSeen = true := by
    refine List.all_eq_true.2 fun p _ => ?_
    have hc : State.counted (startResultsHold (finalStandings s.now (haltRace k s))) p = s.counted p := by
      rw [finalStandings_eq]
      refine counted_congr ?_ ?_ p
      · rfl
      · exact haltRace_seat_state k s
    have hu : State.portUp (startResultsHold (finalStandings s.now (haltRace k s))) p = s.portUp p := by
      rw [finalStandings_eq]; rfl
    rw [hc, hu]
    cases hx : s.counted p
    · rfl
    · simp [h p hx]
  have : enterResults k s = enterIdle (startResultsHold (finalStandings s.now (haltRace k s))) := by
    unfold enterResults checkRelease
    rw [if_pos ⟨by rw [finalStandings_eq]; rfl, hall⟩]
  rw [this]
  exact entersIdle_released hold

/-- R57: the race timers of the state that is left play no part in the end of a race. -/
theorem endsRace_raceTimers {k : RoundNo} {s t : State} (f l : Option HubTime)
    (h : EndsRace k { s with race := { s.race with finishWindowTimer := f, raceLimitTimer := l } } t) : EndsRace k s t :=
  ⟨fun a =>
    have v := h.1 a
    ⟨v.1, v.2.1, v.2.2.1, v.2.2.2.1, v.2.2.2.2.1, v.2.2.2.2.2.1,
      by
        have e := congrArg (fun x : State => { x with race := s.race }) (show _ = _ from v.2.2.2.2.2.2)
        exact e⟩, h.2⟩

/-! ## Retirements and finishes -/

/-- R54, R56: everything the notice of a retirement can do. -/
theorem retirementTold_notice (s : State) : RetirementTold s (retirementNotice s) := by
  have hv : (allPorts.all fun p => !s.race.fieldList.contains (carOf p) || (s.seat p).state == .retired) = true ↔
      ∀ r, carOf r ∈ s.race.fieldList → (s.seat r).state = .retired := by
    rw [List.all_eq_true]
    refine ⟨fun h r hr => by simpa [hr] using h r (mem_allPorts r), fun h r _ => ?_⟩
    by_cases hr : carOf r ∈ s.race.fieldList <;> simp [hr, h r]
  have hgo : s.race.state = .racing ∨ s.race.state = .finishing → checkCountdownVoid s = s := by
    intro h
    rw [checkCountdownVoid, if_neg]
    rcases h with h | h <;> simp [h]
  refine ⟨fun h1 h2 => ?_, fun h1 ⟨r, h2, h3⟩ => ?_, fun h1 h2 => ?_, fun h1 h2 => ?_⟩
  · rw [retirementNotice, checkCountdownVoid, if_pos ⟨h1, hv.2 h2⟩, checkEveryoneDone, if_neg (by simp [enterVoid])]
    exact entersVoid_enterVoid s
  · rw [retirementNotice, checkCountdownVoid, if_neg (fun h => h3 (hv.1 h.2 r h2)), checkEveryoneDone,
      if_neg (by simp [h1])]
    rfl
  · rw [retirementNotice, hgo h1, checkEveryoneDone, if_pos ⟨h1, (everyoneDone_iff s).2 h2⟩]
    exact endsRace_enterResults _ s
  · rw [retirementNotice, hgo h1, checkEveryoneDone, if_neg (fun h => h2 ((everyoneDone_iff s).1 h.2))]
    rfl

/-- R53, R55, R56: everything the notice of a finish can do. -/
theorem finishTold_notice (s : State) : FinishTold s (finishNotice s) := by
  have key : ∀ u : State, u.race.state = .finishing →
      (AllDone u → EndsRace (s.time.roundNumber + 1) u (checkEveryoneDone s.nextRound u)) ∧
      (¬AllDone u → KeptButEngine u (checkEveryoneDone s.nextRound u)) := by
    intro u hu
    refine ⟨fun h => ?_, fun h => ?_⟩
    · rw [checkEveryoneDone, if_pos ⟨.inr hu, (everyoneDone_iff u).2 h⟩]
      exact endsRace_enterResults _ u
    · rw [checkEveryoneDone, if_neg fun hh => h ((everyoneDone_iff u).1 hh.2)]
      rfl
  have racing : s.race.state = .racing → finishNotice s = checkEveryoneDone s.nextRound (enterFinishing s) :=
    fun h => by simp only [finishNotice, h]
  have finishing : s.race.state = .finishing → finishNotice s = checkEveryoneDone s.nextRound s :=
    fun h => by simp only [finishNotice, h]
  refine ⟨fun h => by rw [finishNotice_countdown h]; rfl, fun h1 h2 => ?_, fun h1 h2 => ?_⟩ <;> simp only <;>
    rcases h1 with h1 | h1
  · rw [if_pos h1, racing h1]
    exact (key (enterFinishing s) rfl).1 h2
  · rw [if_neg (by simp [h1]), finishing h1]
    exact (key s h1).1 h2
  · rw [if_pos h1, racing h1]
    exact (key (enterFinishing s) rfl).2 h2
  · rw [if_neg (by simp [h1]), finishing h1]
    exact (key s h1).2 h2

/-! ## The service engine -/

theorem entersVoid_engine {s t : State} (e f : ServiceEngine) (n : Nat) (h : EntersVoid s t) :
    EntersVoid { s with engine := e } { t with engine := f, freeDraws := n } :=
  ⟨h.1, h.2.1, h.2.2.1, h.2.2.2.1, keptButEngine_engine e f n h.2.2.2.2⟩

theorem endsRace_engine {k : RoundNo} {s t : State} (e f : ServiceEngine) (n : Nat) (h : EndsRace k s t) :
    EndsRace k { s with engine := e } { t with engine := f, freeDraws := n } :=
  ⟨fun a =>
    have v := h.1 a
    ⟨v.1, v.2.1, v.2.2.1, v.2.2.2.1, v.2.2.2.2.1, v.2.2.2.2.2.1, keptButEngine_engine e f n v.2.2.2.2.2.2⟩, h.2⟩

theorem retirementTold_engine {s t : State} (e f : ServiceEngine) (n : Nat) (h : RetirementTold s t) :
    RetirementTold { s with engine := e } { t with engine := f, freeDraws := n } :=
  ⟨fun a b => entersVoid_engine e f n (h.1 a b), fun a b => keptButEngine_engine e f n (h.2.1 a b),
    fun a b => endsRace_engine e f n (h.2.2.1 a b), fun a b => keptButEngine_engine e f n (h.2.2.2 a b)⟩

end Sys2Proof.Machine
end

