-- ==== Sys2Proof/Laws/Links.lean ====
section
/-! SUPPORT. Fields and frames: the bytes a field is written in (R189), and how the receiver reads a frame to its end (R182). -/

namespace Sys2Proof.Machine

theorem highFirstBytes_length (w n : Nat) : (highFirstBytes w n).length = w := by
  induction w with
  | zero => rfl
  | succ w ih => simp [highFirstBytes, ih]

/-- R189: reading bytes high byte first on from a number already read. -/
theorem foldl_highFirstBytes (w n acc : Nat) :
    (highFirstBytes w n).foldl (fun acc b => acc * 256 + b.toNat) acc = acc * 256 ^ w + n % 256 ^ w := by
  induction w generalizing acc with
  | zero => simp [highFirstBytes, Nat.mod_one]
  | succ w ih =>
    simp only [highFirstBytes, List.foldl_cons, ih, BitVec.toNat_ofNat]
    have : n % 256 ^ (w + 1) = n % 256 ^ w + 256 ^ w * (n / 256 ^ w % 256) := by rw [pow_succ, Nat.mod_mul]
    rw [this, show (2 : Nat) ^ 8 = 256 from rfl]
    ring

theorem Field.bytes_length (order : ByteOrder) (f : Field) : (f.bytes order).length = f.width := by
  cases order <;> simp [Field.bytes, highFirstBytes_length]

/-- A field in the middle of a payload reads as its own bytes do. -/
theorem readField_middle (order : ByteOrder) (f : Field) (before after : List Byte) :
    readField order (before ++ f.bytes order ++ after) before.length f.width = readNat order (f.bytes order) := by
  simp only [readField, List.append_assoc, List.drop_left]
  rw [← Field.bytes_length order f, List.take_left]

/-- R182: a receiver that has read the kind and length of a frame completes it at its last CRC byte. -/
theorem receive_reading (stamp : HubTime) (order held : ByteOrder) (kind len : Byte) (n : Nat) (hlen : len.toNat + 2 = n) :
    ∀ (rest pre : List Byte) (now : HubTime), pre.length + rest.length = n → 1 ≤ rest.length →
      receive order (.reading stamp held (kind :: len :: pre)) now rest =
        (.hunting, [{ stamp := stamp, order := held, kind := kind, payload := (pre ++ rest).take len.toNat,
                      crc := BitVec.ofNat 16 (readNat .highFirst ((pre ++ rest).drop len.toNat)) }]) := by
  intro rest
  induction rest with
  | nil => intro _ _ _ h; simp at h
  | cons b rest ih =>
    intro pre now h _
    rcases Nat.eq_zero_or_pos rest.length with h0 | h0
    · have : rest = [] := List.length_eq_zero_iff.1 h0
      subst this
      have hl : (pre ++ [b]).length = len.toNat + 2 := by simp at h ⊢; omega
      simp only [receive, Receiver.take, wholeFrame, List.cons_append, hl, if_true]
      simp
    · have hl : ¬ (pre ++ [b]).length = len.toNat + 2 := by simp at h ⊢; omega
      simp only [receive, Receiver.take, wholeFrame, List.cons_append, hl, if_false]
      rw [ih (pre ++ [b]) (now + 5) (by simp at h ⊢; omega) h0]
      simp

end Sys2Proof.Machine
end

