-- ==== Sys2Proof/WellFormed.lean ====
section
/-! DEFINITION. Which commands can be spelled on a link: a payload's length is one byte (R182). -/

namespace Sys2Proof

/-- A payload is 0 to 255 bytes long (R182). -/
def payloadFits (payload : List Byte) : Bool := decide (payload.length ≤ 255)

/-- A command is well formed when every payload it carries fits a length byte. -/
def Instr.wellFormed : Instr → Bool
  | .frameArrival _ f => payloadFits f.payload
  | .echo _ m => payloadFits m.payload
  | .serviceRequestArrival _ _ m => payloadFits m.payload
  | .report _ m => payloadFits m.payload
  | .reset => true
  | .resetRelease => true
  | .roundBoundary => true
  | .roundComputationEnd => true
  | .byteReceived _ _ => true
  | .framingError _ => true
  | .lockWatchExpiry _ => true
  | .echoWaitExpiry _ => true
  | .retrainWaitExpiry _ => true
  | .frameBoundary _ => true
  | .replyTransmitted _ => true
  | .hello => true
  | .enter => true
  | .ready => true
  | .withdraw => true
  | .queryRace => true
  | .querySeat => true
  | .queryFit => true
  | .queryLink => true
  | .queryLaps => true
  | .queryFinish => true
  | .queryParam => true
  | .setup => true
  | .serviceComplete => true
  | .lobbyExpiry => true
  | .gridExpiry => true
  | .finishWindowExpiry => true
  | .raceLimitExpiry => true
  | .resultsHoldExpiry => true
  | .voidExpiry => true
  | .silenceExpiry _ => true
  | .dropExpiry _ => true
  | .anchorAgeExpiry _ => true
  | .pacerCrossing => true

end Sys2Proof
end

