-- ==== Sys2Proof/Laws/PerInstr.lean ====
section
/-! SUPPORT. The law of each command as syntax: a command is well formed exactly when the length byte of every payload it
carries reads back that payload's length (R182). -/

namespace Sys2Proof

/-- The payloads a command carries. -/
def Instr.payloads : Instr → List (List Byte)
  | .reset => []
  | .resetRelease => []
  | .roundBoundary => []
  | .roundComputationEnd => []
  | .byteReceived _ _ => []
  | .framingError _ => []
  | .lockWatchExpiry _ => []
  | .frameArrival _ f => [f.payload]
  | .echo _ m => [m.payload]
  | .echoWaitExpiry _ => []
  | .retrainWaitExpiry _ => []
  | .frameBoundary _ => []
  | .replyTransmitted _ => []
  | .serviceRequestArrival _ _ m => [m.payload]
  | .hello => []
  | .enter => []
  | .ready => []
  | .withdraw => []
  | .queryRace => []
  | .querySeat => []
  | .queryFit => []
  | .queryLink => []
  | .queryLaps => []
  | .queryFinish => []
  | .queryParam => []
  | .setup => []
  | .serviceComplete => []
  | .report _ m => [m.payload]
  | .lobbyExpiry => []
  | .gridExpiry => []
  | .finishWindowExpiry => []
  | .raceLimitExpiry => []
  | .resultsHoldExpiry => []
  | .voidExpiry => []
  | .silenceExpiry _ => []
  | .dropExpiry _ => []
  | .anchorAgeExpiry _ => []
  | .pacerCrossing => []

namespace Laws.PayloadBound

/-- R182. -/
def Statement (i : Instr) : Prop :=
  i.wellFormed = true ↔ ∀ l ∈ i.payloads, (BitVec.ofNat 8 l.length).toNat = l.length

theorem fits_iff (l : List Byte) : payloadFits l = true ↔ (BitVec.ofNat 8 l.length).toNat = l.length := by
  simp only [payloadFits, decide_eq_true_eq, BitVec.toNat_ofNat]
  omega

theorem of_one {i : Instr} {l : List Byte} (h : i.wellFormed = payloadFits l) (hp : i.payloads = [l]) : Statement i := by
  simp [Statement, h, hp, fits_iff]

theorem of_none {i : Instr} (h : i.wellFormed = true) (hp : i.payloads = []) : Statement i := by simp [Statement, h, hp]

theorem reset : Statement (.reset) := of_none rfl rfl
theorem resetRelease : Statement (.resetRelease) := of_none rfl rfl
theorem roundBoundary : Statement (.roundBoundary) := of_none rfl rfl
theorem roundComputationEnd : Statement (.roundComputationEnd) := of_none rfl rfl
theorem byteReceived (p : PortId) (b : Byte) : Statement (.byteReceived p b) := of_none rfl rfl
theorem framingError (p : PortId) : Statement (.framingError p) := of_none rfl rfl
theorem lockWatchExpiry (p : PortId) : Statement (.lockWatchExpiry p) := of_none rfl rfl
theorem frameArrival (p : PortId) (f : RxFrame) : Statement (.frameArrival p f) := of_one rfl rfl
theorem echo (p : PortId) (m : Inbound) : Statement (.echo p m) := of_one rfl rfl
theorem echoWaitExpiry (p : PortId) : Statement (.echoWaitExpiry p) := of_none rfl rfl
theorem retrainWaitExpiry (p : PortId) : Statement (.retrainWaitExpiry p) := of_none rfl rfl
theorem frameBoundary (p : PortId) : Statement (.frameBoundary p) := of_none rfl rfl
theorem replyTransmitted (p : PortId) : Statement (.replyTransmitted p) := of_none rfl rfl
theorem serviceRequestArrival (p : PortId) (k : ServiceKind) (m : Inbound) : Statement (.serviceRequestArrival p k m) := of_one rfl rfl
theorem hello : Statement (.hello) := of_none rfl rfl
theorem enter : Statement (.enter) := of_none rfl rfl
theorem ready : Statement (.ready) := of_none rfl rfl
theorem withdraw : Statement (.withdraw) := of_none rfl rfl
theorem queryRace : Statement (.queryRace) := of_none rfl rfl
theorem querySeat : Statement (.querySeat) := of_none rfl rfl
theorem queryFit : Statement (.queryFit) := of_none rfl rfl
theorem queryLink : Statement (.queryLink) := of_none rfl rfl
theorem queryLaps : Statement (.queryLaps) := of_none rfl rfl
theorem queryFinish : Statement (.queryFinish) := of_none rfl rfl
theorem queryParam : Statement (.queryParam) := of_none rfl rfl
theorem setup : Statement (.setup) := of_none rfl rfl
theorem serviceComplete : Statement (.serviceComplete) := of_none rfl rfl
theorem report (p : PortId) (m : Inbound) : Statement (.report p m) := of_one rfl rfl
theorem lobbyExpiry : Statement (.lobbyExpiry) := of_none rfl rfl
theorem gridExpiry : Statement (.gridExpiry) := of_none rfl rfl
theorem finishWindowExpiry : Statement (.finishWindowExpiry) := of_none rfl rfl
theorem raceLimitExpiry : Statement (.raceLimitExpiry) := of_none rfl rfl
theorem resultsHoldExpiry : Statement (.resultsHoldExpiry) := of_none rfl rfl
theorem voidExpiry : Statement (.voidExpiry) := of_none rfl rfl
theorem silenceExpiry (p : PortId) : Statement (.silenceExpiry p) := of_none rfl rfl
theorem dropExpiry (p : PortId) : Statement (.dropExpiry p) := of_none rfl rfl
theorem anchorAgeExpiry (p : PortId) : Statement (.anchorAgeExpiry p) := of_none rfl rfl
theorem pacerCrossing : Statement (.pacerCrossing) := of_none rfl rfl

end Laws.PayloadBound

end Sys2Proof
end

