-- ==== Sys2Proof/Laws/Ranking.lean ====
section
/-! SUPPORT. The ranking of a snapshot orders the cars it is given and names none twice (R100, R102, R106 to R112). -/

namespace Sys2Proof.Machine

theorem mem_of_carOf? {snap : Snapshot} {c : CarId} {x : SnapCar} (h : snap.carOf? c = some x) :
    x ∈ snap.cars ∧ x.car = c := by
  unfold Snapshot.carOf? at h
  exact ⟨List.mem_of_find?_eq_some h, by simpa using List.find?_some h⟩

theorem filterMap_carOf?_sublist (snap : Snapshot) (l : List CarId) :
    List.Sublist ((l.filterMap snap.carOf?).map (·.car)) l := by
  induction l with
  | nil => simp
  | cons c r ih =>
    cases h : snap.carOf? c with
    | none => rw [List.filterMap_cons_none h]; exact ih.cons c
    | some x =>
      rw [List.filterMap_cons_some h, List.map_cons, (mem_of_carOf? h).2]; exact ih.cons_cons c

theorem insertRetired_perm (c : Contender) (l : List Contender) : (insertRetired c l).Perm (c :: l) := by
  induction l with
  | nil => exact .refl _
  | cons x r ih =>
    unfold insertRetired; split
    · exact .refl _
    · exact (ih.cons x).trans (.swap _ _ _)

theorem foldr_insertRetired_perm (l : List Contender) : (l.foldr insertRetired []).Perm l := by
  induction l with
  | nil => exact .refl _
  | cons x r ih => exact (insertRetired_perm x _).trans (ih.cons x)

theorem climb_perm (m c l) : ((climb m c l).1).Perm (c :: l) := by
  induction l with
  | nil => exact .refl _
  | cons x r ih =>
    unfold climb; split
    · exact (ih.cons x).trans (.swap _ _ _)
    · exact .refl _

theorem insertAll_perm (m) (l : List Contender) : ∀ b, ((insertAll m l b).1).Perm (l ++ b) := by
  induction l with
  | nil => intro b; exact .refl _
  | cons c r ih =>
    intro b
    exact (ih _).trans (((climb_perm m c b).append_left r).trans List.perm_middle)

theorem rankingEntry_car (snap : Snapshot) (h : Nat) (x : SnapCar) : (snap.rankingEntry h x).car = x.car := by
  unfold Snapshot.rankingEntry
  cases x.state <;> simp only []
  all_goals split <;> (try rfl)
  all_goals split <;> rfl

/-- R102, R106: a ranking lists the FINISHED cars of the finish list, then the cars of the previous standings that still run, then
the RETIRED ones, each group in an order of its own. -/
theorem rank_cars_perm (snap : Snapshot) (h m : Nat) (prev : List CarId) :
    ((snap.rank h m prev).1.map (·.car)).Perm
      ((((snap.finishList.filterMap fun f => snap.carOf? f.car).filter (·.state == .finished)) ++
        ((prev.filterMap snap.carOf?).filter fun x => x.state != .finished && x.state != .retired) ++
        ((prev.filterMap snap.carOf?).filter (·.state == .retired))).map (·.car)) := by
  unfold Snapshot.rank
  simp only [List.map_map]
  let contender (x : SnapCar) : Contender := { entry := snap.rankingEntry h x, stalled := x.state == .stalled }
  have e : ∀ l : List SnapCar, (l.map contender).map (fun c => c.entry.car) = l.map (·.car) := by
    intro l; rw [List.map_map]; apply List.map_congr_left; intro x _; exact rankingEntry_car snap h x
  have p1 := insertAll_perm m
    (((prev.filterMap snap.carOf?).filter fun x => x.state != .finished && x.state != .retired).map contender) []
  rw [List.append_nil] at p1
  have p2 := foldr_insertRetired_perm (((prev.filterMap snap.carOf?).filter (·.state == .retired)).map contender)
  have q1 := (p1.map (fun c => c.entry.car)); rw [e] at q1
  have q2 := (p2.map (fun c => c.entry.car)); rw [e] at q2
  have e0 := e ((snap.finishList.filterMap fun f => snap.carOf? f.car).filter (·.state == .finished))
  simp only [List.map_append, Function.comp_def]
  refine List.Perm.append (List.Perm.append ?_ ?_) ?_
  · rw [e0]
  · exact ((List.reverse_perm _).map _).trans q1
  · exact q2

/-- R100, R102: a ranking names no car twice, and only cars of the snapshot. -/
theorem rank_nodup (snap : Snapshot) (h m : Nat) (prev : List CarId) (hp : prev.Nodup)
    (hf : (snap.finishList.map (·.car)).Nodup) :
    ((snap.rank h m prev).1.map (·.car)).Nodup ∧ ∀ c ∈ (snap.rank h m prev).1.map (·.car), ∃ x,
        snap.carOf? c = some x := by
  have hperm := rank_cars_perm snap h m prev
  have key : ∀ (l : List CarId) (P : SnapCar → Bool) c, c ∈ ((l.filterMap snap.carOf?).filter P).map (·.car) → ∃ x,
      snap.carOf? c = some x ∧ P x = true := by
    intro l P c hc
    obtain ⟨x, hx, rfl⟩ := List.mem_map.1 hc
    obtain ⟨hx, hP⟩ := List.mem_filter.1 hx
    obtain ⟨d, -, hd⟩ := List.mem_filterMap.1 hx
    refine ⟨x, ?_, hP⟩
    have := (mem_of_carOf? hd).2; rw [this]; exact hd
  have nd : ∀ (l : List CarId) (P : SnapCar → Bool), l.Nodup →
      (((l.filterMap snap.carOf?).filter P).map (·.car)).Nodup := by
    intro l P hl
    exact ((filterMap_carOf?_sublist snap l).nodup hl).sublist ((List.filter_sublist).map _)
  have ef : (snap.finishList.filterMap fun f => snap.carOf? f.car) = (snap.finishList.map (·.car)).filterMap snap.carOf? := by
    rw [List.filterMap_map]; rfl
  rw [ef] at hperm
  have m1 := key (snap.finishList.map (·.car)) (·.state == .finished)
  have m2 := key prev (fun x => x.state != .finished && x.state != .retired)
  have m3 := key prev (·.state == .retired)
  refine ⟨?_, fun c hc => ?_⟩
  · rw [hperm.nodup_iff]
    simp only [List.map_append]
    rw [List.nodup_append, List.nodup_append]
    refine ⟨⟨nd _ _ hf, nd _ _ hp, ?_⟩, nd _ _ hp, ?_⟩
    · rintro a ha b hb rfl
      obtain ⟨x, hx, p1⟩ := m1 _ ha
      obtain ⟨y, hy, p2⟩ := m2 _ hb
      rw [hx] at hy; cases hy
      simp at p1 p2; exact p2.1 p1
    · rintro a ha b hb rfl
      obtain ⟨y, hy, p2⟩ := m3 _ hb
      rcases List.mem_append.1 ha with ha | ha
      · obtain ⟨x, hx, p1⟩ := m1 _ ha
        rw [hx] at hy; cases hy
        simp at p1 p2; rw [p1] at p2; cases p2
      · obtain ⟨x, hx, p1⟩ := m2 _ ha
        rw [hx] at hy; cases hy
        simp at p1 p2; exact p1.2 p2
  · have := hperm.mem_iff.1 hc
    simp only [List.map_append, List.mem_append] at this
    rcases this with (h | h) | h
    · obtain ⟨x, hx, -⟩ := m1 _ h; exact ⟨x, hx⟩
    · obtain ⟨x, hx, -⟩ := m2 _ h; exact ⟨x, hx⟩
    · obtain ⟨x, hx, -⟩ := m3 _ h; exact ⟨x, hx⟩

end Sys2Proof.Machine
end

