-- ==== Sys2Proof/Laws/Service.lean ====
section
/-! SUPPORT. The take of a request (R27, R28): the scan order, a take that changes no state but the engine's, and what an entry
reads of a state after the take. -/

namespace Sys2Proof.Machine

/-- R27: the i-th port of the scan is pointer + 1 + i. -/
theorem arbiterOrder_getElem (ptr : PortId) : ∀ i : Fin 8, (arbiterOrder ptr)[i]? = some (ptr + 1 + i) := by
  revert ptr; decide

/-- R27, R28: a take in which the request is decided without a change of state. -/
theorem serve_unchanged {wanted : Request → Bool} {decision : PortId → Request → State → State × Reply} {s : State}
    {p : PortId} {q : Request} {reply : Reply} (hn : s.nextRequest = some (p, q)) (hw : wanted q = true)
    (hd : decision p q (takeFrom p s) = (takeFrom p s, reply)) : serve wanted decision s = s.taken p reply := by
  simp only [serve, hn, hw, if_true, hd]
  rfl

@[simp] theorem takeFrom_seat (p r : PortId) (s : State) : (takeFrom p s).seat r = s.seat r := rfl

@[simp] theorem takeFrom_race (p : PortId) (s : State) : (takeFrom p s).race = s.race := rfl

theorem raceReply_takeFrom (p r : PortId) (s : State) : (takeFrom p s).raceReply r = s.raceReply r := rfl

theorem linkEntry_takeFrom (p r : PortId) (s : State) : linkEntry (takeFrom p s) r = linkEntry s r := by
  by_cases h : r = p
  · subst h
    have : (takeFrom r s).port r = { s.port r with buffer := none } := State.port_setPort_self s r _
    simp [linkEntry, this]
  · have : (takeFrom p s).port r = s.port r := State.port_setPort_ne s _ h
    simp [linkEntry, this]

theorem byteAt_cons0 (a : Byte) (l : List Byte) : byteAt (a :: l) 0 = a.toNat := by simp [byteAt, readField, readNat]

theorem byteAt_1 (a b : Byte) (l : List Byte) : byteAt (a :: b :: l) 1 = b.toNat := by simp [byteAt, readField, readNat]

theorem byteAt_2 (a b c : Byte) (l : List Byte) : byteAt (a :: b :: c :: l) 2 = c.toNat := by simp [byteAt, readField, readNat]

/-- What a take leaves outside its port, the engine and the count of free values, when the decision leaves it too (R27, R28). -/
theorem takeFrom_port_self (p : PortId) (s : State) : (takeFrom p s).port p = { s.port p with buffer := none } :=
  State.port_setPort_self s p _

theorem takeFrom_port_ne {p r : PortId} (s : State) (h : r ≠ p) : (takeFrom p s).port r = s.port r :=
  State.port_setPort_ne s _ h

/-- R27, R28: a take whose decision touches nothing of the outer blocks leaves the engine holding its reply. -/
theorem serve_answered {wanted : Request → Bool} {decision : PortId → Request → State → State × Reply} {s u : State}
    {p : PortId} {q : Request} {reply : Reply} (hn : s.nextRequest = some (p, q)) (hw : wanted q = true)
    (hd : decision p q (takeFrom p s) = (u, reply)) (hp : u.ports = (takeFrom p s).ports)
    (he : u.engine = (takeFrom p s).engine) (hf : u.freeDraws = s.freeDraws) :
    serve wanted decision s =
        { u with
          engine := { pointer := p, inService := some { port := p, reply := reply, takenAt := s.now, draw := s.freeDraws } }
          freeDraws := s.freeDraws + 1 } ∧
      Answered p reply s (serve wanted decision s) ∧ ∀ r, r ≠ p → (serve wanted decision s).port r = s.port r := by
  have hs : serve wanted decision s =
      { u with
        engine := { pointer := p, inService := some { port := p, reply := reply, takenAt := s.now, draw := s.freeDraws } }
        freeDraws := s.freeDraws + 1 } := by
    simp only [serve, hn, hw, if_true, hd, inServiceAfter, he, hf]
    rfl
  rw [hs]
  refine ⟨rfl, ⟨rfl, rfl, ?_⟩, fun r hr => ?_⟩
  · simp only [State.port, hp]; exact takeFrom_port_self p s
  · simp only [State.port, hp]; exact takeFrom_port_ne s hr

/-! ## HELLO -/

theorem outerKept_newCabinet (p : PortId) (s : State) : OuterKept s (newCabinet p s) := ⟨rfl, rfl, rfl, rfl, rfl, rfl, rfl, rfl, rfl⟩

/-- R21 to R24: an accepted HELLO changes no block but the seat's fit, the seat table, the report unit and the race. -/
theorem outerKept_acceptHello (p : PortId) (c : Cabinet) (s : State) :
    OuterKept (s.setFit p ((s.fit p).declare c.framePeriod)) (acceptHello p c s) := by
  have h : OuterKept (s.setFit p ((s.fit p).declare c.framePeriod))
      ((s.setSeat p { s.seat p with cabinet := some c }).setFit p ((s.fit p).declare c.framePeriod)) :=
    ⟨rfl, rfl, rfl, rfl, rfl, rfl, rfl, rfl, rfl⟩
  simp only [acceptHello]
  generalize (s.setSeat p { s.seat p with cabinet := some c }).setFit p ((s.fit p).declare c.framePeriod) = u at h ⊢
  have k := ((h.trans (outerKept_leaveEntryList p u)).trans (outerKept_newCabinet p _)).trans (outerKept_departure _)
  have n := h.trans (outerKept_newCabinet p u)
  cases (s.seat p).state <;> simp only []
  · exact n
  · split
    · exact h
    · exact n
  · split
    · exact h.trans (outerKept_setSeat _ _ _)
    · exact k
  · split
    · exact h.trans (outerKept_setSeat _ _ _)
    · exact k
  · split
    · exact h.trans (outerKept_rejoin _ _)
    · exact h
  · split
    · exact h.trans (outerKept_rejoin _ _)
    · exact h
  · exact h
  · exact h

/-- R20 to R24: the take of a HELLO that passes its checks. -/
theorem hello_accepted {s : State} {p : PortId} {q : Request} {order : ByteOrder} {form : ReportForm}
    (h : s.resetHeld = false) (hn : s.nextRequest = some (p, q)) (hk : q.kind = .hello) (hl : q.payload.length = 9)
    (hm : markerOrder q.payload = some order) (hi : BitVec.ofNat 32 (readField order q.payload 2 4) ≠ 0)
    (hf : formOfCode (readField order q.payload 8 1) = some form)
    (hx : ¬((s.seat p).state.inField = true ∧
      (s.seat p).cabinet.map (·.id) ≠ some (BitVec.ofNat 32 (readField order q.payload 2 4)))) :
    let declared := readField order q.payload 6 2
    let period := max 12000 (min 25000 declared)
    let cabinet : Cabinet :=
      { id := BitVec.ofNat 32 (readField order q.payload 2 4), framePeriod := period, form := form, order := order }
    let u := acceptHello p cabinet (takeFrom p s)
    let reply : Reply :=
      { kind := .hello, reason := none, clamped := decide (declared ≠ period),
        body := [byteField p.val, wordField (s.port p).delay], order := some order }
    let t : State := { u with
          engine := { pointer := p, inService := some { port := p, reply := reply, takenAt := s.now, draw := s.freeDraws } }
          freeDraws := s.freeDraws + 1 }
    exec .hello s = .next t ∧ Answered p reply s t ∧ (∀ r, r ≠ p → t.port r = s.port r) ∧
      (∀ r, t.fit r = if r = p then (s.fit p).declare period else s.fit r) ∧ t.time = s.time ∧
      t.settings = s.settings ∧ t.resetHeld = s.resetHeld ∧ t.pending = s.pending := by
  intro declared period cabinet u reply t
  have hk2 := outerKept_acceptHello p cabinet (takeFrom p s)
  have hd : decideHello p q (takeFrom p s) = (u, reply) := by
    simp only [decideHello, hl, hm, hi, hf, takeFrom_seat]
    rw [if_neg (by simp), if_neg (by simp), if_neg hx]
    simp only [Reply.accept, State.helloBody, takeFrom_port_self, clampNat]
    refine Prod.ext rfl ?_
    simp only [reply, declared, period, Reply.mk.injEq, and_true, true_and]
    rw [Bool.eq_iff_iff]; simp
  obtain ⟨h1, h2, h3⟩ := serve_answered (wanted := fun q => q.kind == .hello) hn (by simp [hk]) hd (by rw [hk2.ports]; rfl) (by rw [hk2.engine]; rfl) (by rw [hk2.freeDraws]; rfl)
  rw [h1] at h2 h3
  refine ⟨?_, h2, h3, fun r => ?_, hk2.time, hk2.settings, hk2.resetHeld, hk2.pending⟩
  · simp only [exec, execHello, whileRunning, h]; rw [h1]; rfl
  · have := hk2.fit r
    show u.fit r = _
    rw [this]
    by_cases hr : r = p
    · subst hr; simp; rfl
    · rw [State.fit_setFit_ne _ _ hr]; simp [hr]; rfl

end Sys2Proof.Machine
end

