-- ==== Sys2Proof/Laws/Setup.lean ====
section
/-! SUPPORT. SETUP: what its parse answers, what each item writes, and what the mask of its reply says (R34 to R36, R189,
R191). -/

namespace Sys2Proof.Machine

/-- A value item of a parsed SETUP names a setting 0 to 14 (R189). -/
theorem parse_numbers (order : ByteOrder) (fuel : Nat) (bytes : List Byte) (items : List SetupItem)
    (h : parseSetup order fuel bytes = some items) : ∀ n v, SetupItem.value n v ∈ items → n ≤ 14 := by
  induction fuel generalizing bytes items with
  | zero =>
    cases bytes with
    | nil => simp [parseSetup] at h; subst h; simp
    | cons b r => simp [parseSetup] at h
  | succ f ih =>
    cases bytes with
    | nil => simp [parseSetup] at h; subst h; simp
    | cons b r =>
      simp only [parseSetup] at h
      split at h
      · split at h
        · simp at h
        · rename_i hb _
          obtain ⟨a, ha, rfl⟩ := Option.map_eq_some_iff.1 h
          intro n v hm
          rcases List.mem_cons.1 hm with he | hm
          · cases he; exact hb
          · exact ih _ _ ha n v hm
      · split at h
        · cases r with
          | nil => simp at h
          | cons c body =>
            simp only at h
            split at h
            · simp at h
            · obtain ⟨a, ha, rfl⟩ := Option.map_eq_some_iff.1 h
              intro n v hm
              rcases List.mem_cons.1 hm with he | hm
              · cases he
              · exact ih _ _ ha n v hm
        · simp at h

/-- One item writes the settings and the timebase and nothing else (R34). -/
theorem write_frame (s : State) (i : SetupItem) : { i.write s with settings := s.settings, time := s.time } = s := by
  cases i with
  | value k v =>
    simp only [SetupItem.write]
    split
    · split <;> rfl
    · split <;> rfl
  | profile a b => simp only [SetupItem.write]; split <;> rfl

/-- A setting written reads back, and the others keep their values (R35). -/
theorem get_put (x : Settings) (k j v : Nat) (hk : k ≤ 13) : (x.put k v).get j = if j = k then v else x.get j := by
  interval_cases k <;> (by_cases hj : j ≤ 13; · interval_cases j <;> rfl
                        · simp only [Settings.put]
                          have e : ∀ y : Settings, y.get j = 0 := by
                            intro y
                            have : ∃ m, j = m + 14 := ⟨j - 14, by omega⟩
                            obtain ⟨m, rfl⟩ := this
                            rfl
                          rw [e, e, if_neg (by omega)])

/-- Settings 0 to 13 are neither the pacer mode nor the profile. -/
theorem put_other (x : Settings) (k v : Nat) : (x.put k v).pacerMode = x.pacerMode ∧ (x.put k v).profile = x.profile := by
  by_cases hj : k ≤ 13
  · interval_cases k <;> exact ⟨rfl, rfl⟩
  · have : ∃ m, k = m + 14 := ⟨k - 14, by omega⟩
    obtain ⟨m, rfl⟩ := this
    exact ⟨rfl, rfl⟩

/-- A SETUP writes the settings and the timebase and nothing else (R34). -/
theorem foldl_frame (items : List SetupItem) (s : State) : { items.foldl SetupItem.write s with settings := s.settings, time := s.time } = s := by
  induction items generalizing s with
  | nil => rfl
  | cons i r ih =>
    have h1 := ih (SetupItem.write s i)
    have h2 := write_frame s i
    simp only [List.foldl_cons]
    generalize r.foldl SetupItem.write (SetupItem.write s i) = u at *
    generalize SetupItem.write s i = w at *
    obtain ⟨⟩ := u; obtain ⟨⟩ := w; obtain ⟨⟩ := s
    simp at h1 h2 ⊢
    simp [h1, h2]

/-- What one item does to settings 0 to 13 (R35). -/
theorem get_write (s : State) (i : SetupItem) (k : Nat) (hk : k ≤ 13) (hn : ∀ n v, i = .value n v → n ≤ 14) :
    (i.write s).settings.get k = match i with
      | .value n v => if n = k then clampSetting k v else s.settings.get k
      | .profile _ _ => s.settings.get k := by
  cases i with
  | profile a b =>
    simp only [SetupItem.write]; split <;> (interval_cases k <;> rfl)
  | value n v =>
    simp only [SetupItem.write]
    split
    · rename_i h14
      rw [if_neg (by omega)]
      split <;> (interval_cases k <;> rfl)
    · have hn13 : n ≤ 13 := by have := hn n v rfl; omega
      have : ∀ t : State, t.settings = s.settings.put n (clampSetting n v) → t.settings.get k = if n = k then clampSetting k v else s.settings.get k := by
        intro t ht; rw [ht, get_put _ _ _ _ hn13]
        by_cases hkn : k = n
        · subst hkn; simp
        · rw [if_neg hkn, if_neg (by omega)]
      split
      · exact this _ rfl
      · exact this _ rfl

/-- A setting that no item names keeps its value (R34). -/
theorem get_fold_notin (items : List SetupItem) (s : State) (k : Nat) (hk : k ≤ 13) (hn : ∀ n v, SetupItem.value n v ∈ items → n ≤ 14)
   (h : ∀ v, SetupItem.value k v ∉ items) : (items.foldl SetupItem.write s).settings.get k = s.settings.get k := by
  induction items generalizing s with
  | nil => rfl
  | cons i r ih =>
    simp only [List.foldl_cons]
    rw [ih _ (fun n v hm => hn n v (by simp [hm])) (fun v hv => h v (by simp [hv]))]
    rw [get_write s i k hk (fun n v e => hn n v (by simp [e]))]
    cases i with
    | profile => rfl
    | value n v =>
      simp only
      rw [if_neg]
      intro e; subst e; exact h v (by simp)

/-- A setting that an item names takes its clamped value (R35). -/
theorem get_fold_in (items : List SetupItem) (s : State) (k v : Nat) (hk : k ≤ 13) (hn : ∀ n v, SetupItem.value n v ∈ items → n ≤ 14)
   (hd : (items.map (·.number)).Nodup) (h : SetupItem.value k v ∈ items) : (items.foldl SetupItem.write s).settings.get k = clampSetting k v := by
  induction items generalizing s with
  | nil => simp at h
  | cons i r ih =>
    simp only [List.foldl_cons]
    simp only [List.map_cons, List.nodup_cons] at hd
    rcases List.mem_cons.1 h with e | hm
    · subst e
      rw [get_fold_notin r _ k hk (fun n v hm => hn n v (by simp [hm]))]
      · rw [get_write s _ k hk (fun n v e => hn n v (by simp [← e]))]; simp
      · intro w hw
        apply hd.1
        exact List.mem_map.2 ⟨_, hw, rfl⟩
    · exact ih _ (fun n v hm => hn n v (by simp [hm])) hd.2 hm

/-- What one item does to the pacer mode (R36). -/
theorem mode_write (s : State) (i : SetupItem) : (i.write s).settings.pacerMode = match i with
      | .value n v => if n = 14 then (pacerModeOfCode v).getD s.settings.pacerMode else s.settings.pacerMode
      | .profile _ _ => s.settings.pacerMode := by
  cases i with
  | profile a b => simp only [SetupItem.write]; split <;> rfl
  | value n v =>
    simp only [SetupItem.write]
    split
    · split <;> rename_i h <;> simp [h]
    · split <;> exact (put_other _ _ _).1

/-- What one item does to the profile (R36). -/
theorem prof_write (s : State) (i : SetupItem) : (i.write s).settings.profile = match i with
      | .value _ _ => s.settings.profile
      | .profile a b => (buildProfile a b).getD s.settings.profile := by
  cases i with
  | profile a b => simp only [SetupItem.write]; split <;> rename_i h <;> simp [h]
  | value n v =>
    simp only [SetupItem.write]
    split
    · split <;> rfl
    · split <;> exact (put_other _ _ _).2

/-- What one item does to the timebase (R6, R35). -/
theorem time_write (s : State) (i : SetupItem) : (i.write s).time = match i with
      | .value n v => if n = 0 then { s.time with pendingPeriod := some (clampSetting 0 v) } else s.time
      | .profile _ _ => s.time := by
  cases i with
  | profile a b => simp only [SetupItem.write]; split <;> rfl
  | value n v =>
    simp only [SetupItem.write]
    split
    · subst_vars; split <;> rfl
    · split <;> simp_all

/-- A part that no item of a SETUP writes keeps its value (R34). -/
theorem fold_keep {α : Type} (f : State → α) (P : SetupItem → Prop) (hw : ∀ s i, ¬ P i → f (i.write s) = f s) (items : List SetupItem) (s : State)
   (h : ∀ i ∈ items, ¬ P i) : f (items.foldl SetupItem.write s) = f s := by
  induction items generalizing s with
  | nil => rfl
  | cons i r ih =>
    simp only [List.foldl_cons]
    rw [ih _ (fun j hj => h j (by simp [hj])), hw _ _ (h i (by simp))]

/-- A part that only the item with number `k` writes takes what that item writes (R34). -/
theorem fold_hit {α : Type} (f : State → α) (k : Nat) (hw : ∀ (s : State) (i : SetupItem), i.number ≠ k → f (i.write s) = f s) (items : List SetupItem) (s : State)
   (hd : (items.map (·.number)).Nodup) (i : SetupItem) (hi : i ∈ items) (hk : i.number = k) : ∃ u : State, f (items.foldl SetupItem.write s) = f (i.write u) ∧ f u = f s := by
  induction items generalizing s with
  | nil => simp at hi
  | cons j r ih =>
    simp only [List.map_cons, List.nodup_cons] at hd
    simp only [List.foldl_cons]
    rcases List.mem_cons.1 hi with e | hm
    · subst e
      refine ⟨s, ?_, rfl⟩
      apply fold_keep f (fun i => i.number = k) (fun s i h => hw s i h)
      intro l hl he
      apply hd.1; rw [hk, ← he]; exact List.mem_map.2 ⟨l, hl, rfl⟩
    · obtain ⟨u, h1, h2⟩ := ih (j.write s) hd.2 hm
      refine ⟨u, h1, h2.trans (hw _ _ ?_)⟩
      intro he; apply hd.1; rw [he, ← hk]; exact List.mem_map.2 ⟨i, hm, rfl⟩

/-- The mask of a SETUP reply has bit `k` set exactly when the item with number `k` was clamped (R191). -/
theorem mask_bit (items : List SetupItem) (hd : (items.map (·.number)).Nodup) (k : Nat) :
    (clampMask items).testBit k = true ↔ ∃ i ∈ items, i.number = k ∧ i.clamped = true := by
  have key : ∀ (l : List Nat), l.Nodup → ∀ k, ((l.map (2 ^ ·)).sum).testBit k = true ↔ k ∈ l := by
    intro l hl k
    have hs : (l.map (2 ^ ·)).sum = ∑ i ∈ l.toFinset, 2 ^ i := by
      rw [List.sum_toFinset _ hl]
    rw [hs]
    rw [← Nat.mem_bitIndices, ← List.mem_toFinset, Finset.toFinset_bitIndices_sum_two_pow, List.mem_toFinset]
  have hs : clampMask items = (((items.filter (·.clamped)).map (·.number)).map (2 ^ ·)).sum := by
    clear hd
    unfold clampMask
    induction items with
    | nil => rfl
    | cons i r ih =>
      by_cases hc : i.clamped <;> simp [hc] at ih ⊢ <;> exact ih
  rw [hs, key _ (hd.sublist (List.filter_sublist.map _))]
  simp only [List.mem_map, List.mem_filter]
  constructor
  · rintro ⟨i, ⟨a, b⟩, c⟩; exact ⟨i, a, c, b⟩
  · rintro ⟨i, a, c, b⟩; exact ⟨i, ⟨a, b⟩, c⟩

theorem readMany_length (order : ByteOrder) (w n : Nat) (l : List Byte) : (readMany order w n l).length = n := by
  induction n generalizing l with
  | zero => rfl
  | succ n ih => simp [readMany, ih]

/-- A parsed profile has one share fewer than it has speeds (R189). -/
theorem parse_profile (order : ByteOrder) (fuel : Nat) (bytes : List Byte) (items : List SetupItem)
    (h : parseSetup order fuel bytes = some items) : ∀ a b, SetupItem.profile a b ∈ items → a.length + 1 = b.length := by
  induction fuel generalizing bytes items with
  | zero =>
    cases bytes with
    | nil => simp [parseSetup] at h; subst h; simp
    | cons b r => simp [parseSetup] at h
  | succ f ih =>
    cases bytes with
    | nil => simp [parseSetup] at h; subst h; simp
    | cons b r =>
      simp only [parseSetup] at h
      split at h
      · split at h
        · simp at h
        · obtain ⟨a, ha, rfl⟩ := Option.map_eq_some_iff.1 h
          intro n v hm
          rcases List.mem_cons.1 hm with he | hm
          · cases he
          · exact ih _ _ ha n v hm
      · split at h
        · cases r with
          | nil => simp at h
          | cons c body =>
            simp only at h
            split at h
            · simp at h
            · rename_i hc
              obtain ⟨a, ha, rfl⟩ := Option.map_eq_some_iff.1 h
              intro n v hm
              rcases List.mem_cons.1 hm with he | hm
              · cases he; simp only [readMany_length]; omega
              · exact ih _ _ ha n v hm
        · simp at h

theorem zipWith_left (a b : List Nat) (h : a.length = b.length) : List.zipWith (fun x _ => x) a b = a := by
  induction a generalizing b with
  | nil => simp
  | cons x r ih => cases b with
    | nil => simp at h
    | cons y t => simp at h; simp [ih t h]

theorem zipWith_right (f : Nat → Nat) (a b : List Nat) (h : a.length = b.length) : List.zipWith (fun _ y => f y) a b = b.map f := by
  induction a generalizing b with
  | nil => cases b; rfl; simp at h
  | cons x r ih => cases b with
    | nil => simp at h
    | cons y t => simp at h; simp [ih t h]

end Sys2Proof.Machine
end

