-- ==== Sys2Proof/Laws/RoundsSound.lean ====
section
/-! SUPPORT. What each operation does to the soundness of rounds (`State.roundsSound`, R192). -/

namespace Sys2Proof.Machine

/-! ## Snapshots and rankings of a sound state -/

theorem snapCar_car (s : State) (c) : (s.snapCar c).car = c := by unfold State.snapCar; simp only []; split <;> rfl

theorem snapCar_state (s : State) (c) : (s.snapCar c).state = s.carSeatState c := by
  unfold State.snapCar State.carSeatState; simp only []; split <;> rfl

theorem snapshot_carOf? {s : State} {h c x} (hx : (s.snapshot h).carOf? c = some x) :
    c ∈ s.race.fieldList ∧ x = s.snapCar c := by
  obtain ⟨h1, h2⟩ := mem_of_carOf? hx
  simp only [State.snapshot, List.mem_map] at h1
  obtain ⟨d, hd, rfl⟩ := h1
  rw [snapCar_car] at h2
  subst h2; exact ⟨hd, rfl⟩

/-- `State.roundsSound` but for everyone done, as propositions, and an entry list that names no seat twice (R41). -/
structure RoundsParts (s : State) : Prop where
  lights : s.race.lights = none ∨ s.race.state = .countdown
  rr : s.race.resultsRound = none ∨ s.race.state = .results
  fn : s.race.fieldList.Nodup
  fp : pacerCar ∈ s.race.fieldList → s.race.pacerMode = some .ranked
  sn : (s.standings.map (·.car)).Nodup
  ln : (s.finishList.map (·.car)).Nodup
  lb : s.finishList = [] ∨ s.race.state.beforeField = false
  ls : ∀ f ∈ s.finishList, s.carSeatState f.car ≠ .running ∧ s.carSeatState f.car ≠ .stalled ∧
    (f.car = pacerCar → s.pacer.nextCrossing = none)
  rl : s.race.state = .results → s.assembler.results.length + (if s.race.pacerMode = some .running then 1 else 0) ≤ 9
  cp : ∀ c, s.assembler.computation = some c → c.framesBounded = true ∧ ((c.ranking.getD []).map (·.car)).Nodup
  el : s.race.entryList.Nodup

/-- R56: in FINISHING some car of the field is not done. -/
def FinishingGoesOn (s : State) : Prop := s.race.state = .finishing → s.everyoneDone = false

theorem roundsSound_iff (s : State) (h : s.race.entryList.Nodup) :
    s.roundsSound = true ↔ RoundsParts s ∧ FinishingGoesOn s := by
  unfold State.roundsSound
  simp only [Bool.and_eq_true, Bool.or_eq_true, decide_eq_true_eq, beq_iff_eq, bne_iff_ne, List.all_eq_true,
      Option.isNone_iff_eq_none, Bool.not_eq_true', List.isEmpty_iff]
  constructor
  · rintro ⟨⟨⟨⟨⟨⟨⟨⟨⟨⟨h1, h2⟩, h3⟩, h4⟩, h5⟩, h6⟩, h7⟩, h8⟩, h9⟩, h10⟩, h11⟩
    refine ⟨⟨h1, h2, h3, fun hp => ?_, h5, h6, h7, fun f hf => ?_, fun hr => ?_, fun c hc => ?_, h⟩, fun hs => ?_⟩
    · rcases h4 with h4 | h4
      · rw [List.contains_iff_mem.2 hp] at h4; cases h4
      · exact h4
    · obtain ⟨⟨a, b⟩, c⟩ := h8 f hf
      exact ⟨a, b, fun hh => c.resolve_left (fun hn => hn hh)⟩
    · exact h10.resolve_left (fun hn => hn hr)
    · rw [hc] at h11; simpa using h11
    · exact h9.resolve_left (fun hn => hn hs)
  · rintro ⟨⟨h1, h2, h3, h4, h5, h6, h7, h8, h10, h11, -⟩, h9⟩
    refine ⟨⟨⟨⟨⟨⟨⟨⟨⟨⟨h1, h2⟩, h3⟩, ?_⟩, h5⟩, h6⟩, h7⟩, fun f hf => ?_⟩, ?_⟩, ?_⟩, ?_⟩
    · by_cases hp : pacerCar ∈ s.race.fieldList
      · exact .inr (h4 hp)
      · left; rw [Bool.eq_false_iff]; intro hh; exact hp (List.contains_iff_mem.1 hh)
    · obtain ⟨a, b, c⟩ := h8 f hf
      exact ⟨⟨a, b⟩, by by_cases hh : f.car = pacerCar; exact .inr (c hh); exact .inl hh⟩
    · by_cases hs : s.race.state = .finishing
      · exact .inr (h9 hs)
      · exact .inl hs
    · by_cases hs : s.race.state = .results
      · exact .inr (h10 hs)
      · exact .inl hs
    · cases hc : s.assembler.computation with
      | none => rfl
      | some c => simpa using h11 c hc

theorem cars_le_nine {l : List CarId} (h : l.Nodup) : l.length ≤ 9 := by
  have := h.length_le_card; simpa using this

theorem field_le_eight {s : State} (w : RoundsParts s) (h : s.race.pacerMode = some .running) :
    s.race.fieldList.length ≤ 8 := by
  have hp : pacerCar ∉ s.race.fieldList := by
    intro hh; have := w.fp hh; rw [h] at this; cases this
  have := cars_le_nine (List.nodup_cons.2 ⟨hp, w.fn⟩)
  simp at this; omega

/-- R100: a ranking of a sound state names only cars of the field, none twice. -/
theorem rank_of_field {s : State} (w : RoundsParts s) (b : HubTime) (h m) (prev : List CarId) (hp : prev.Nodup) :
    (((s.snapshot b).rank h m prev).1.map (·.car)).Nodup ∧
      (((s.snapshot b).rank h m prev).1.map (·.car)) ⊆ s.race.fieldList := by
  obtain ⟨h1, h2⟩ := rank_nodup (s.snapshot b) h m prev hp w.ln
  refine ⟨h1, fun c hc => ?_⟩
  obtain ⟨x, hx⟩ := h2 c hc
  exact (snapshot_carOf? hx).1

theorem rank_length_le {s : State} (w : RoundsParts s) (b : HubTime) (h m) (prev : List CarId) (hp : prev.Nodup) :
    ((s.snapshot b).rank h m prev).1.length ≤ s.race.fieldList.length := by
  obtain ⟨h1, h2⟩ := rank_of_field w b h m prev hp
  have := (h1.subperm h2).length_le
  simpa using this

/-- R192: the snapshot of a sound state, its ranking and at most 8 events bound the frames. -/
theorem framesBounded_of_snapshot {s : State} (w : RoundsParts s) (hF : FinishingGoesOn s) (b : HubTime)
    (prev : List CarId) (hp : prev.Nodup) (hm : Nat) (mm : Nat)
    (c : Computation) (hs : c.snapshot = s.snapshot b)
    (hr : c.ranking = if s.race.state.live then some ((s.snapshot b).rank hm mm prev).1 else none)
    (hd : c.drained.length ≤ 8) : c.framesBounded = true := by
  unfold Computation.framesBounded
  simp only [Bool.and_eq_true, Bool.or_eq_true, decide_eq_true_eq, beq_iff_eq, bne_iff_ne,
      Option.isNone_iff_eq_none, List.any_eq_true]
  have hrs : c.snapshot.raceState = s.race.state := by rw [hs]; rfl
  have hlen := rank_length_le w b hm mm prev hp
  obtain ⟨hn, hsub⟩ := rank_of_field w b hm mm prev hp
  have hpe : c.snapshot.pacerEntry.length =
      if s.race.pacerMode = some .running ∧ (s.race.state.live || s.race.state == .results) = true then 1 else 0 := by
    rw [hs]; unfold Snapshot.pacerEntry State.snapshot; simp only []
    split <;> simp_all
  have hfl := cars_le_nine w.fn
  have hce : c.carEntries.length ≤ 9 := by
    unfold Computation.carEntries
    rw [List.length_append, hpe, hrs]
    cases hst : s.race.state
    case results =>
      have := w.rl hst
      have e : c.snapshot.results = s.assembler.results := by rw [hs]; rfl
      simp [e, RaceState.live]; exact this
    case idle => simp [RaceState.live]
    case lobby => simp [RaceState.live]
    case grid => simp [RaceState.live]
    case void => simp [RaceState.live]
    all_goals
      rw [hst] at hr
      simp only [RaceState.live, if_true] at hr
      simp only [hr, Option.getD_some, List.length_map, RaceState.live, Bool.true_or, and_true]
      split
      · rename_i hpm; have := field_le_eight w hpm; omega
      · omega
  refine ⟨⟨⟨⟨⟨⟨⟨hd, ?_⟩, ?_⟩, hce⟩, ?_⟩, ?_⟩, ?_⟩, ?_⟩
  · rw [hs]; simp only [State.snapshot, List.length_map]
    have := w.el.length_le_card; simpa using this
  · rw [hs]; simp only [State.snapshot, State.linkedSeats]
    exact (List.length_filterMap_le _ _).trans (by decide)
  · rw [hrs, hs]; simp only [State.snapshot, State.controllerTimers]
    refine (List.length_filterMap_le _ _).trans ?_
    cases s.race.state <;> simp
  · rw [hrs, hs]; exact w.lights
  · rw [hrs, hs]; exact w.rr
  · rw [hrs]
    by_cases hst : s.race.state = .finishing
    · by_cases h8 : c.carEntries.length ≤ 8
      · exact .inl (.inr h8)
      right
      rw [hst] at hr
      simp only [RaceState.live, if_true] at hr
      by_cases hpm : s.race.pacerMode = some .running
      · -- the pacer's own entry
        have : (s.snapshot b).pacer = some (s.snapCar pacerCar) := by
          simp [State.snapshot, hpm, hst, RaceState.live]
        have : ∃ e ∈ c.snapshot.pacerEntry, e.finish = none := by
          rw [hs]; unfold Snapshot.pacerEntry; rw [this]; exact ⟨_, List.mem_singleton.2 rfl, rfl⟩
        obtain ⟨e, he1, he2⟩ := this
        exact ⟨e, List.mem_append_right _ he1, he2⟩
      · have e0 : c.carEntries.length = ((s.snapshot b).rank hm mm prev).1.length := by
          unfold Computation.carEntries
          rw [List.length_append, hpe, hrs, hst]
          simp [hr, hpm]
        -- every car of the field is ranked
        have hall : ∀ d ∈ s.race.fieldList, d ∈ ((s.snapshot b).rank hm mm prev).1.map (·.car) := by
          have sp := hn.subperm hsub
          have hl : s.race.fieldList.length ≤ (((s.snapshot b).rank hm mm prev).1.map (·.car)).length := by
            simp only [List.length_map]; omega
          intro d hd
          exact (sp.perm_of_length_le hl).mem_iff.2 hd
        have hnd := hF hst
        unfold State.everyoneDone at hnd
        rw [List.all_eq_false] at hnd
        obtain ⟨d, hdf, hdn⟩ := hnd
        obtain ⟨e, he, hed⟩ := List.mem_map.1 (hall d hdf)
        refine ⟨(s.snapshot b).carEntry e, List.mem_append_left _ ?_, ?_⟩
        · rw [hrs, hst]; simp only [hr, Option.getD_some]
          rw [hs]; exact List.mem_map_of_mem he
        · obtain ⟨x, hx⟩ := (rank_nodup (s.snapshot b) hm mm prev hp w.ln).2 d (hall d hdf)
          have hxs := (snapshot_carOf? hx).2
          simp only [Snapshot.carEntry, hed, hx]
          have : x.state ≠ .finished := by
            rw [hxs, snapCar_state]; intro hh; rw [hh] at hdn; simp at hdn
          simp [this]
    · exact .inl (.inl hst)

/-! ## States that agree on what rounds read -/

/-- RUNNING or STALLED. -/
def OnTrack (x : SeatState) : Prop := x = .running ∨ x = .stalled

/-- FINISHED or RETIRED. -/
def Done (x : SeatState) : Prop := x = .finished ∨ x = .retired

/-- What every step keeps. -/
def RoundsKept (s : State) : Prop := RoundsParts s ∧ FinishingGoesOn s

theorem everyoneDone_eq_false_iff (s : State) :
    s.everyoneDone = false ↔ ∃ c ∈ s.race.fieldList, ¬Done (s.carSeatState c) := by
  unfold State.everyoneDone
  rw [List.all_eq_false]
  constructor
  · rintro ⟨c, h1, h2⟩; refine ⟨c, h1, ?_⟩; rintro (h | h) <;> rw [h] at h2 <;> exact h2 rfl
  · rintro ⟨c, h1, h2⟩; refine ⟨c, h1, ?_⟩; cases h : s.carSeatState c <;> simp [h, Done] at h2 ⊢

theorem RoundsParts.view {s t : State} (w : RoundsParts s) (h1 : t.race = s.race) (h2 : t.standings = s.standings)
    (h3 : t.finishList = s.finishList) (h4 : t.pacer = s.pacer) (h5 : t.assembler.results = s.assembler.results)
    (h6 : t.assembler.computation = s.assembler.computation)
    (ha : ∀ c, OnTrack (t.carSeatState c) → OnTrack (s.carSeatState c)) : RoundsParts t := by
  refine ⟨by rw [h1]; exact w.lights, by rw [h1]; exact w.rr, by rw [h1]; exact w.fn, by rw [h1]; exact w.fp,
      by rw [h2]; exact w.sn, by rw [h3]; exact w.ln, by rw [h1, h3]; exact w.lb, ?_, by rw [h1, h5]; exact w.rl,
      by rw [h6]; exact w.cp, by rw [h1]; exact w.el⟩
  rw [h3, h4]
  intro f hf
  obtain ⟨a, b, c⟩ := w.ls f hf
  refine ⟨fun hh => ?_, fun hh => ?_, c⟩
  · rcases ha f.car (.inl hh) with h | h; exact a h; exact b h
  · rcases ha f.car (.inr hh) with h | h; exact a h; exact b h

theorem FinishingGoesOn.view {s t : State} (f : FinishingGoesOn s) (h1 : t.race = s.race)
    (hd : ∀ c ∈ s.race.fieldList, Done (t.carSeatState c) → Done (s.carSeatState c)) : FinishingGoesOn t := by
  intro hs
  rw [h1] at hs
  have := f hs
  rw [everyoneDone_eq_false_iff] at this ⊢
  obtain ⟨c, hc, hn⟩ := this
  exact ⟨c, by rw [h1]; exact hc, fun hh => hn (hd c hc hh)⟩

/-- What the soundness of rounds reads of a state. -/
def State.roundsView (s : State) :
    Race × List StandingsEntry × List FinishEntry × PacerGenerator × Assembler × Vector Seat 8 ×
    Option PacerState :=
  (s.race, s.standings, s.finishList, s.pacer, s.assembler, s.seats, s.pacerRecord)

theorem RoundsParts.congr {s t : State} (r : RoundsParts s) (h : t.roundsView = s.roundsView) : RoundsParts t := by
  simp only [State.roundsView, Prod.mk.injEq] at h
  obtain ⟨h1, h2, h3, h4, h5, h6, h7⟩ := h
  refine r.view h1 h2 h3 h4 (by rw [h5]) (by rw [h5]) fun c h => ?_
  simpa only [State.carSeatState, State.seat, h6, h7] using h

theorem RoundsKept.congr {s t : State} (r : RoundsKept s) (h : t.roundsView = s.roundsView) : RoundsKept t := by
  refine ⟨r.1.congr h, ?_⟩
  simp only [State.roundsView, Prod.mk.injEq] at h
  obtain ⟨h1, h2, h3, h4, h5, h6, h7⟩ := h
  refine r.2.view h1 fun c _ h => ?_
  simpa only [State.carSeatState, State.seat, h6, h7] using h

theorem carSeatState_setSeat (s : State) (p x c) :
    (s.setSeat p x).carSeatState c = if c = carOf p then x.state else s.carSeatState c := by
  unfold State.carSeatState
  by_cases h : c = carOf p
  · subst h; simp
  · rw [if_neg h]
    cases hq : seatOf c with
    | none => rfl
    | some q =>
      have : q ≠ p := by
        rintro rfl; apply h
        unfold seatOf at hq; split at hq
        · cases hq; rfl
        · cases hq
      simp [State.seat_setSeat_ne _ _ this]

theorem carSeatState_carOf (s : State) (p) : s.carSeatState (carOf p) = (s.seat p).state := by
  simp [State.carSeatState]

/-- A seat's record changes: no seat comes onto the track that was not on it. -/
theorem parts_setSeat {s : State} {p x} (w : RoundsParts s) (h : OnTrack x.state → OnTrack (s.seat p).state) :
    RoundsParts (s.setSeat p x) := by
  refine w.view rfl rfl rfl rfl rfl rfl fun c hc => ?_
  rw [carSeatState_setSeat] at hc
  split at hc
  · rename_i e; subst e; rw [carSeatState_carOf]; exact h hc
  · exact hc

theorem rounds_setSeat {s : State} {p x} (r : RoundsKept s) (h : OnTrack x.state → OnTrack (s.seat p).state)
    (h2 : Done x.state → Done (s.seat p).state) : RoundsKept (s.setSeat p x) := by
  refine ⟨parts_setSeat r.1 h, r.2.view rfl fun c _ hc => ?_⟩
  rw [carSeatState_setSeat] at hc
  split at hc
  · rename_i e; subst e; rw [carSeatState_carOf]; exact h2 hc
  · exact hc

/-- A seat leaves the field, or stays outside it. -/
theorem rounds_setSeat_outside {s : State} {p x} (r : RoundsKept s) (h : x.state.inField = false) :
    RoundsKept (s.setSeat p x) := by
  refine rounds_setSeat r ?_ ?_ <;> rintro (hh | hh) <;> rw [hh] at h <;> cases h

theorem rounds_setSeat_sameState {s : State} {p x} (r : RoundsKept s) (h : x.state = (s.seat p).state) :
    RoundsKept (s.setSeat p x) :=
  rounds_setSeat r (by rw [h]; exact id) (by rw [h]; exact id)

theorem parts_appendEvent {s : State} (e) (w : RoundsParts s) : RoundsParts (appendEvent e s) := w.congr rfl

theorem rounds_appendEvent {s : State} (e) (w : RoundsKept s) : RoundsKept (appendEvent e s) := w.congr rfl

theorem supersede_bounded {a : Assembler}
    (h : ∀ c, a.computation = some c → c.framesBounded = true ∧ ((c.ranking.getD []).map (·.car)).Nodup) :
    ∀ c, a.supersede.computation = some c → c.framesBounded = true ∧ ((c.ranking.getD []).map (·.car)).Nodup := by
  intro c hc
  simp only [Assembler.supersede, Option.map_eq_some_iff] at hc
  obtain ⟨d, hd, rfl⟩ := hc
  exact h d hd

theorem goesOn_of_state {s : State} (h : s.race.state ≠ .finishing) : FinishingGoesOn s := fun hh => absurd hh h

/-! ## The race controller -/

theorem rounds_enterIdle {s : State} (w : RoundsParts s) : RoundsKept (enterIdle s) := by
  refine ⟨⟨.inl rfl, .inl rfl, List.nodup_nil, by simp [enterIdle, Race.reset], by simp [enterIdle],
      by simp [enterIdle], .inl rfl, by simp [enterIdle], by simp [enterIdle, Race.reset], supersede_bounded w.cp,
      by simp [enterIdle, Race.reset]⟩, goesOn_of_state (by simp [enterIdle, Race.reset])⟩

theorem rounds_checkRelease {s : State} (r : RoundsKept s) : RoundsKept (checkRelease s) := by
  unfold checkRelease; split; exact rounds_enterIdle r.1; exact r

theorem rounds_enterResults {s : State} (k) (w : RoundsParts s) : RoundsKept (enterResults k s) := by
  unfold enterResults
  refine rounds_checkRelease ?_
  have hst : ∀ c, (haltRace k s).carSeatState c = s.carSeatState c := by
    intro c; rw [← snapCar_state, haltRace_snapCar, snapCar_state]
  have hprev : ((haltRace k s).recentStandings.map (·.car)).Nodup := by
    unfold State.recentStandings
    show ((match s.assembler.computation with
      | some c => if c.superseded then s.standings else c.ranking.getD s.standings
      | none => s.standings : List StandingsEntry).map (·.car)).Nodup
    split
    · rename_i c hc
      split
      · exact w.sn
      · have := (w.cp c hc).2
        cases hr : c.ranking with
        | none => exact w.sn
        | some x => rw [hr] at this; exact this
    · exact w.sn
  have hn := rank_nodup ((haltRace k s).snapshot s.now) s.settings.horizon s.settings.swapMargin _ hprev w.ln
  rw [finalStandings_eq]
  have hsub : ((((haltRace k s).snapshot s.now).rank s.settings.horizon s.settings.swapMargin
      ((haltRace k s).recentStandings.map (·.car))).1.map (·.car)) ⊆ s.race.fieldList := by
    intro c hc
    obtain ⟨x, hx⟩ := hn.2 c hc
    exact (snapshot_carOf? hx).1
  refine ⟨⟨.inl rfl, .inr rfl, w.fn, w.fp, hn.1, w.ln, .inr rfl, fun f hf => ?_, fun _ => ?_,
      supersede_bounded w.cp, w.el⟩, goesOn_of_state (by simp [startResultsHold, haltRace])⟩
  · obtain ⟨a, b, c⟩ := w.ls f hf
    refine ⟨?_, ?_, fun _ => rfl⟩
    · exact fun hh => a (by rw [← hst f.car]; exact hh)
    · exact fun hh => b (by rw [← hst f.car]; exact hh)
  · have hl := (hn.1.subperm hsub).length_le
    rw [List.length_map] at hl
    show (List.map _ _).length + _ ≤ 9
    rw [List.length_map]
    show _ + (if s.race.pacerMode = some .running then 1 else 0) ≤ 9
    split
    · rename_i hpm; have := field_le_eight w hpm; exact (Nat.add_le_add_right hl 1).trans (by omega)
    · have := cars_le_nine w.fn; exact (Nat.add_le_add_right hl 0).trans (by omega)

theorem rounds_checkEveryoneDone {s : State} (k) (w : RoundsParts s) : RoundsKept (checkEveryoneDone k s) := by
  unfold checkEveryoneDone
  split
  · exact rounds_enterResults k w
  · rename_i h
    refine ⟨w, fun hs => ?_⟩
    rw [Bool.eq_false_iff]; intro hh; exact h ⟨.inr hs, hh⟩

theorem parts_enterFinishing {s : State} (w : RoundsParts s) (h : s.race.lights = none)
    (h2 : s.race.resultsRound = none) : RoundsParts (enterFinishing s) :=
  ⟨.inl h, .inl h2, w.fn, w.fp, w.sn, w.ln, .inr rfl, w.ls, fun hh => by simp [enterFinishing] at hh, w.cp, w.el⟩

theorem lights_resultsRound_none {s : State} (w : RoundsParts s) (h : s.race.state ≠ .countdown)
    (h2 : s.race.state ≠ .results) : s.race.lights = none ∧ s.race.resultsRound = none :=
  ⟨w.lights.resolve_right h, w.rr.resolve_right h2⟩

theorem rounds_finishNotice {s : State} (w : RoundsParts s) : RoundsKept (finishNotice s) := by
  unfold finishNotice
  cases hs : s.race.state <;> simp only []
  case racing =>
    obtain ⟨a, b⟩ := lights_resultsRound_none w (by simp [hs]) (by simp [hs])
    exact rounds_checkEveryoneDone _ (parts_enterFinishing w a b)
  case finishing => exact rounds_checkEveryoneDone _ w
  all_goals exact ⟨w, goesOn_of_state (by simp [hs])⟩

theorem carSeatState_enterVoid (s : State) (c) : (enterVoid s).carSeatState c = s.carSeatState c := by
  unfold State.carSeatState
  cases seatOf c with
  | none => rfl
  | some p =>
    simp only [enterVoid, State.seat_mk, map8_getElem_val, State.seats_get]
    by_cases h : (s.seat p).state = .ready <;> simp [h]

theorem rounds_enterVoid {s : State} (w : RoundsParts s) (h : s.race.state ≠ .results) :
    RoundsKept (enterVoid s) := by
  refine ⟨⟨.inl rfl, .inl (w.rr.resolve_right h), w.fn, w.fp, by simp [enterVoid], w.ln, .inr rfl, fun f hf => ?_,
      fun hh => by simp [enterVoid] at hh, supersede_bounded w.cp, w.el⟩, goesOn_of_state (by simp [enterVoid])⟩
  rw [carSeatState_enterVoid]; exact w.ls f hf

theorem rounds_retirementNotice {s : State} (w : RoundsParts s) : RoundsKept (retirementNotice s) := by
  unfold retirementNotice checkCountdownVoid
  refine rounds_checkEveryoneDone _ ?_
  split
  · rename_i h; exact (rounds_enterVoid w (by rw [h.1]; simp)).1
  · exact w

theorem rounds_enterCountdown {s : State} (w : RoundsParts s) (h : s.race.state = .grid) :
    RoundsKept (enterCountdown s) := by
  have hfl : s.finishList = [] := w.lb.resolve_right (by simp [h, RaceState.beforeField])
  have hnp : ∀ l : List PortId, pacerCar ∉ l.map carOf := by
    intro l hh; obtain ⟨p, -, hp⟩ := List.mem_map.1 hh; exact carOf_ne_pacerCar p hp
  have hnod : (s.race.entryList.map carOf ++ (if s.settings.pacerMode = .ranked then [pacerCar] else [])).Nodup := by
    rw [List.nodup_append]
    refine ⟨w.el.map (fun a b hab => carOf_injective hab), ?_, ?_⟩
    · split <;> simp
    · rintro a ha b hb rfl
      split at hb
      · simp at hb; subst hb; exact hnp _ ha
      · simp at hb
  refine ⟨⟨.inr rfl, .inl (w.rr.resolve_right (by simp [h])), hnod, fun hp => ?_, ?_, ?_, .inr rfl, ?_,
      fun hh => by simp [enterCountdown] at hh, w.cp, List.nodup_nil⟩, goesOn_of_state (by simp [enterCountdown])⟩
  · simp only [enterCountdown] at hp ⊢
    rcases List.mem_append.1 hp with hp | hp
    · exact absurd hp (hnp _)
    · split at hp
      · rename_i hm; rw [hm]
      · simp at hp
  · simp only [enterCountdown, initialStandings, List.map_map]
    have : ((fun e : StandingsEntry => e.car) ∘ fun c =>
        ({ car := c, projected := none, stale := false } : StandingsEntry)) = id := rfl
    rw [this, List.map_id]; exact hnod
  · show (s.finishList.map _).Nodup
    rw [hfl]; simp
  · show ∀ f ∈ s.finishList, _
    rw [hfl]; simp

theorem parts_dropNotReady {s : State} (p) (w : RoundsParts s) :
    RoundsParts (dropNotReady p s) ∧ (dropNotReady p s).race.state = s.race.state := by
  unfold dropNotReady; split
  · exact ⟨w, rfl⟩
  · refine ⟨parts_appendEvent _ ?_, rfl⟩
    have w1 : RoundsParts (leaveEntryList p s) := ⟨w.lights, w.rr, w.fn, w.fp, w.sn, w.ln, w.lb, w.ls, w.rl, w.cp,
        w.el.filter _⟩
    have w2 : RoundsParts ((leaveEntryList p s).setSeat p { s.seat p with state := .linked }) :=
      parts_setSeat w1 (by rintro (h | h) <;> simp at h)
    exact w2.congr rfl

theorem parts_dropAll (l : List PortId) : ∀ {s : State}, RoundsParts s →
    RoundsParts (l.foldl (fun t p => dropNotReady p t) s) ∧
      (l.foldl (fun t p => dropNotReady p t) s).race.state = s.race.state := by
  induction l with
  | nil => intro s h; exact ⟨h, rfl⟩
  | cons p r ih =>
    intro s h
    obtain ⟨a, b⟩ := parts_dropNotReady p h
    obtain ⟨c, d⟩ := ih a
    exact ⟨c, d.trans b⟩

theorem rounds_closeGrid {s : State} (w : RoundsParts s) (h : s.race.state = .grid) : RoundsKept (closeGrid s) := by
  unfold closeGrid; simp only []
  obtain ⟨w1, h1⟩ := parts_dropAll s.race.entryList w
  generalize s.race.entryList.foldl (fun t p => dropNotReady p t) s = u at w1 h1 ⊢
  have w2 : RoundsParts { u with race := { u.race with gridTimer := none } } :=
    ⟨w1.lights, w1.rr, w1.fn, w1.fp, w1.sn, w1.ln, w1.lb, w1.ls, w1.rl, w1.cp, w1.el⟩
  split
  · exact rounds_enterCountdown w2 (h1.trans h)
  · exact rounds_enterVoid w2 (by show u.race.state ≠ _; rw [h1, h]; simp)

theorem rounds_checkAllReady {s : State} (r : RoundsKept s) (h : s.race.state = .grid) :
    RoundsKept (checkAllReady s) := by
  unfold checkAllReady; split; exact rounds_closeGrid r.1 h; exact r

theorem rounds_departure {s : State} (r : RoundsKept s) : RoundsKept (departure s) := by
  unfold departure
  cases hs : s.race.state <;> simp only []
  case lobby => split; exact rounds_enterIdle r.1; exact r
  case grid => split; exact rounds_enterVoid r.1 (by simp [hs]); exact rounds_checkAllReady r hs
  all_goals exact r

theorem rounds_closeLobby {s : State} (r : RoundsKept s) (h : s.race.state = .lobby) : RoundsKept (closeLobby s) := by
  unfold closeLobby; split
  · have w := r.1
    obtain ⟨a, b⟩ := lights_resultsRound_none w (by simp [h]) (by simp [h])
    have hf : s.finishList = [] := w.lb.resolve_right (by simp [h, RaceState.beforeField])
    exact ⟨⟨.inl a, .inl b, w.fn, w.fp, w.sn, w.ln, .inl hf, w.ls, fun hh => by simp at hh, w.cp, w.el⟩,
        goesOn_of_state (by simp)⟩
  · exact rounds_enterVoid r.1 (by simp [h])

theorem rounds_setPort {s : State} (p x) (h : RoundsKept s) : RoundsKept (s.setPort p x) := h.congr rfl

theorem rounds_setFit {s : State} (p x) (h : RoundsKept s) : RoundsKept (s.setFit p x) := h.congr rfl

theorem rounds_setCar {s : State} (p x) (h : RoundsKept s) : RoundsKept (s.setCar p x) := h.congr rfl

theorem rounds_setLapRecord {s : State} (p x) (h : RoundsKept s) : RoundsKept (s.setLapRecord p x) := h.congr rfl

theorem rounds_stallSeat {s : State} (p r) (h : RoundsKept s) (hx : OnTrack (s.seat p).state) :
    RoundsKept (stallSeat p r s) :=
  rounds_appendEvent _ (rounds_setSeat h (fun _ => hx) (by rintro (h | h) <;> simp at h))

theorem rounds_readmit {s : State} (p) (h : RoundsKept s) (hx : OnTrack (s.seat p).state) :
    RoundsKept (readmit p s) :=
  rounds_appendEvent _ (rounds_setSeat h (fun _ => hx) (by rintro (h | h) <;> simp at h))

theorem rounds_retireSeat {s : State} (p r x) (h : RoundsKept s) : RoundsKept (retireSeat p r x s) :=
  rounds_retirementNotice (parts_appendEvent _ (parts_setSeat h.1 (by rintro (h | h) <;> simp at h)))

theorem rounds_silenceExpires {s : State} (p) (h : RoundsKept s) : RoundsKept (silenceExpires p s) := by
  unfold silenceExpires; simp only []
  have h1 : RoundsKept (s.setSeat p { s.seat p with silenceTimer := none }) := rounds_setSeat_sameState h rfl
  split
  · cases hs : ((s.setSeat p { s.seat p with silenceTimer := none }).seat p).state <;> simp only []
    case ready => split; exact rounds_setSeat_outside h1 rfl; exact h1
    case running => split; exact rounds_stallSeat _ _ h1 (.inl hs); exact h1
    all_goals exact h1
  · exact h

theorem rounds_dropExpires {s : State} (p) (h : RoundsKept s) : RoundsKept (dropExpires p s) := by
  unfold dropExpires; simp only []
  have h1 : RoundsKept (s.setSeat p { s.seat p with dropTimer := none }) := rounds_setSeat_sameState h rfl
  split
  · split; exact rounds_retireSeat _ _ _ h1; exact h1
  · exact h

theorem rounds_rejoin {s : State} (p) (h : RoundsKept s) : RoundsKept (rejoin p s) := by
  unfold rejoin; simp only []
  cases hs : (s.seat p).state <;> simp only []
  case running => exact rounds_stallSeat _ _ h (.inl hs)
  case stalled => exact rounds_setSeat h (fun _ => .inr hs) (by rintro (h | h) <;> simp at h)
  all_goals exact h

/-! ## Crossings and finishes -/

theorem insertFinish_perm (e : FinishEntry) (l) : (insertFinish e l).Perm (e :: l) := by
  induction l with
  | nil => exact .refl _
  | cons x r ih =>
    unfold insertFinish; split
    · exact (ih.cons x).trans (.swap _ _ _)
    · exact .refl _

/-- R128 step 3. -/
theorem carSeatState_makeFinished (s : State) (c d) :
    (makeFinished c s).carSeatState d = if d = c then .finished else s.carSeatState d := by
  unfold makeFinished
  cases hq : seatOf c with
  | some p =>
    have hc : c = carOf p := by
      unfold seatOf at hq; split at hq
      · cases hq; rfl
      · cases hq
    simp only []
    rw [carSeatState_setSeat, hc]
  | none =>
    have hc : c = pacerCar := by
      unfold seatOf at hq; split at hq
      · cases hq
      · rename_i h; apply Fin.ext; have := c.isLt; show c.val = 8; omega
    subst hc
    simp only []
    unfold State.carSeatState
    by_cases h : d = pacerCar
    · subst h; simp
    · rw [if_neg h]
      cases hd : seatOf d with
      | some p => rfl
      | none =>
        exfalso; apply h
        unfold seatOf at hd; split at hd
        · cases hd
        · rename_i h; apply Fin.ext; have := d.isLt; show d.val = 8; omega

theorem makeFinished_keeps (s : State) (c) :
    (makeFinished c s).race = s.race ∧ (makeFinished c s).standings = s.standings ∧
    (makeFinished c s).finishList = s.finishList ∧ (makeFinished c s).pacer = s.pacer ∧ (makeFinished c s).assembler = s.assembler := by
  unfold makeFinished; split <;> exact ⟨rfl, rfl, rfl, rfl, rfl⟩

/-- R128: the finish of a car that is not on the finish list, while a field stands. -/
theorem rounds_finishCar {s : State} (c x u) (h : RoundsKept s) (hc : ∀ f ∈ s.finishList, f.car ≠ c)
    (hl : s.race.state.beforeField = false) (hp : c = pacerCar → s.pacer.nextCrossing = none) : RoundsKept (finishCar c x u true s) := by
  unfold finishCar; simp only [if_true]
  have h0 := rounds_setLapRecord c
    { s.lapRecord c with finish := some { raw := s.raceTime x, corrected := s.raceTime x + s.penaltyOf c } } h
  generalize hs1 : s.setLapRecord c
    { s.lapRecord c with finish := some { raw := s.raceTime x, corrected := s.raceTime x + s.penaltyOf c } } = s1 at h0
  have e1 : s1.race = s.race := by rw [← hs1]; rfl
  have e2 : s1.finishList = s.finishList := by rw [← hs1]; rfl
  have e3 : s1.pacer = s.pacer := by rw [← hs1]; rfl
  obtain ⟨m1, m2, m3, m4, m5⟩ := makeFinished_keeps s1 c
  have mc := carSeatState_makeFinished s1 c
  generalize makeFinished c s1 = v at m1 m2 m3 m4 m5 mc ⊢
  refine rounds_finishNotice (parts_appendEvent _ ?_)
  have w := h0.1
  have pr := insertFinish_perm { car := c, raw := s.raceTime x, corrected := s.raceTime x + s.penaltyOf c } v.finishList
  refine ⟨by rw [m1]; exact w.lights, by rw [m1]; exact w.rr, by rw [m1]; exact w.fn, by rw [m1]; exact w.fp,
      by rw [m2]; exact w.sn, ?_, .inr (by rw [m1, e1]; exact hl), ?_, by rw [m1, m5]; exact w.rl,
      by rw [m5]; exact w.cp, by rw [m1]; exact w.el⟩
  · rw [(pr.map _).nodup_iff, List.map_cons, List.nodup_cons]
    rw [m3]
    refine ⟨?_, w.ln⟩
    rw [e2]
    intro hh
    obtain ⟨f, hf, hfc⟩ := List.mem_map.1 hh
    exact hc f hf hfc
  · intro f hf
    have key : ∀ d, v.carSeatState d = if d = c then .finished else s1.carSeatState d := mc
    show v.carSeatState f.car ≠ .running ∧ v.carSeatState f.car ≠ .stalled ∧
      (f.car = pacerCar → v.pacer.nextCrossing = none)
    rw [key, m4]
    rcases List.mem_cons.1 (pr.mem_iff.1 hf) with rfl | hf
    · simp; rw [e3]; exact hp
    · rw [m3] at hf
      have := w.ls f hf
      rw [e2] at hf
      rw [if_neg (hc f hf)]; exact this

theorem rounds_recordCrossing {s : State} (c k x r st rk) (h : RoundsKept s)
    (hN : k = s.lapCount →
      (rk = true → (∀ f ∈ s.finishList, f.car ≠ c) ∧ s.race.state.beforeField = false ∧
        (c = pacerCar → s.pacer.nextCrossing = none)) ∧
      (rk = false → c = pacerCar ∧ s.race.pacerMode ≠ some .ranked)) :
    RoundsKept (recordCrossing c k x r st rk s) := by
  by_cases hk : k = 0
  · simp only [recordCrossing, if_pos hk]; exact rounds_setLapRecord _ _ h
  · have := recordCrossing_eq c k x r st rk s hk
    simp only at this
    rw [this]
    have hu : ∀ fl ev lr, RoundsKept { s with lapRecords := lr, fastestLap := fl, events := ev } := fun fl ev lr => h.congr rfl
    split
    · rename_i hkN
      obtain ⟨a, b⟩ := hN hkN
      cases rk
      · obtain ⟨rfl, hm⟩ := b rfl
        unfold finishCar makeFinished
        simp only [seatOf_pacerCar]
        have hpf : pacerCar ∉ s.race.fieldList := fun hh => hm (h.1.fp hh)
        have hcs : ∀ c, c ≠ pacerCar → ∃ p, seatOf c = some p := by
          intro c hc
          cases hd : seatOf c with
          | some p => exact ⟨p, rfl⟩
          | none =>
            exfalso; apply hc
            unfold seatOf at hd; split at hd
            · cases hd
            · rename_i h; apply Fin.ext; have := c.isLt; show c.val = 8; omega
        refine ⟨h.1.view rfl rfl rfl rfl rfl rfl fun d hd => ?_, h.2.view rfl fun d hdf hd => ?_⟩
        · by_cases e : d = pacerCar
          · subst e; rcases hd with hd | hd <;> simp [State.carSeatState] at hd
          · obtain ⟨p, hp⟩ := hcs d e
            simp only [State.carSeatState, hp] at hd ⊢; exact hd
        · have e : d ≠ pacerCar := by rintro rfl; exact hpf hdf
          obtain ⟨p, hp⟩ := hcs d e
          simp only [State.carSeatState, hp] at hd ⊢; exact hd
      · obtain ⟨a1, a2, a3⟩ := a rfl
        exact rounds_finishCar _ _ _ (hu _ _ _) a1 a2 a3
    · exact hu _ _ _

theorem finishNotice_descriptor (s : State) : (finishNotice s).race.descriptor = s.race.descriptor ∨
    (finishNotice s).race.descriptor = none := by
  have hr : ∀ k (t : State), (checkEveryoneDone k t).race.descriptor = t.race.descriptor ∨
      (checkEveryoneDone k t).race.descriptor = none := by
    intro k t
    unfold checkEveryoneDone; split
    · unfold enterResults checkRelease; split
      · exact .inr rfl
      · rw [finalStandings_eq]; exact .inl rfl
    · exact .inl rfl
  unfold finishNotice; split
  · exact hr _ _
  · exact hr _ _
  all_goals exact .inl rfl

theorem recordCrossing_descriptor (c k x r st) (s : State) (rk) :
    (recordCrossing c k x r st rk s).race.descriptor = s.race.descriptor ∨
    (recordCrossing c k x r st rk s).race.descriptor = none := by
  by_cases hk : k = 0
  · simp only [recordCrossing, if_pos hk]; exact .inl rfl
  · have := recordCrossing_eq c k x r st rk s hk
    simp only at this
    rw [this]
    split
    · unfold finishCar; simp only []
      split
      · refine (finishNotice_descriptor _).imp ?_ id
        intro hh; rw [hh]
        show (makeFinished _ _).race.descriptor = _
        rw [(makeFinished_keeps _ _).1]; rfl
      · rw [(makeFinished_keeps _ _).1]; exact .inl rfl
    · exact .inl rfl

theorem lapCount_le {s t : State} (h : t.race.descriptor = s.race.descriptor ∨ t.race.descriptor = none) :
    t.lapCount ≤ s.lapCount := by
  unfold State.lapCount
  rcases h with h | h
  · rw [h]
  · rw [h]; exact Nat.zero_le _

theorem beforeField_of_live {x : RaceState} (h : x.live = true) : x.beforeField = false := by
  cases x <;> simp [RaceState.live] at h <;> rfl

/-- R120: the crossings of one report, of a car that is on the track until it reaches lap N. -/
theorem rounds_recordCrossings (p : PortId) (a b st) (n : Nat) : ∀ (k) {s : State}, RoundsKept s →
    (k ≤ s.lapCount → OnTrack (s.seat p).state ∧ s.race.state.live = true) →
    RoundsKept (recordCrossings (carOf p) a b st n k s) := by
  induction n with
  | zero => intro k s h _; exact h
  | succ n ih =>
    intro k s h hk
    let x := crossingTime s.lapLength k a b
    show RoundsKept (recordCrossings (carOf p) a b st n (k + 1) (recordCrossing (carOf p) k x.1 x.2 st true s))
    have hR : RoundsKept (recordCrossing (carOf p) k x.1 x.2 st true s) := by
      refine rounds_recordCrossing _ _ _ _ _ _ h fun hN => ⟨fun _ => ?_, fun hh => by cases hh⟩
      obtain ⟨h1, h2⟩ := hk (by omega)
      refine ⟨fun f hf hfc => ?_, beforeField_of_live h2, fun hh => absurd hh (carOf_ne_pacerCar p)⟩
      obtain ⟨l1, l2, -⟩ := h.1.ls f hf
      rw [hfc, carSeatState_carOf] at l1 l2
      rcases h1 with h1 | h1
      · exact l1 h1
      · exact l2 h1
    refine ih _ hR fun hk' => ?_
    have hle := lapCount_le (recordCrossing_descriptor (carOf p) k x.1 x.2 st s true)
    have hne : k ≠ s.lapCount := by
      have : k + 1 ≤ s.lapCount := hk'.trans hle
      omega
    obtain ⟨h1, h2⟩ := hk (by have : k + 1 ≤ s.lapCount := hk'.trans hle; omega)
    by_cases hk0 : k = 0
    · simp only [recordCrossing, if_pos hk0]; exact ⟨h1, h2⟩
    · have := recordCrossing_eq (carOf p) k x.1 x.2 st true s hk0
      simp only at this
      rw [this, if_neg hne]; exact ⟨h1, h2⟩

theorem rounds_pacerCrosses {s : State} (h : RoundsKept s) : RoundsKept (pacerCrosses s) := by
  unfold pacerCrosses
  cases hd : s.pacerCrossingDue with
  | none => exact h
  | some x =>
    cases he : s.race.epoch with
    | none => exact h
    | some e =>
      simp only []
      unfold State.pacerCrossingDue at hd
      split at hd
      · rename_i hst
        have hnx : s.pacer.nextCrossing ≠ none := by
          intro hh; rw [hh] at hd; cases hd
        have hnl : ∀ f ∈ s.finishList, f.car ≠ pacerCar := fun f hf hh => hnx ((h.1.ls f hf).2.2 hh)
        have hw : RoundsKept { s with pacer := { s.pacer with nextCrossing := s.crossingAfter x.lap } } := by
          have w := h.1
          refine ⟨⟨w.lights, w.rr, w.fn, w.fp, w.sn, w.ln, w.lb, fun f hf => ?_, w.rl, w.cp, w.el⟩,
              h.2.view rfl fun c _ hc => hc⟩
          obtain ⟨a, b, -⟩ := w.ls f hf
          exact ⟨a, b, fun hh => absurd hh (hnl f hf)⟩
        refine rounds_recordCrossing _ _ _ _ _ _ hw fun hN => ⟨fun hrk => ⟨hnl, ?_, fun _ => ?_⟩, fun hrk => ⟨rfl,
            ?_⟩⟩
        · show s.race.state.beforeField = false
          rcases hst with hst | hst <;> rw [hst] <;> rfl
        · show s.crossingAfter x.lap = none
          have : ¬ x.lap < s.lapCount := by
            have : x.lap = s.lapCount := hN
            omega
          simp [State.crossingAfter, this]
        · show s.race.pacerMode ≠ _
          intro hh; rw [hh] at hrk; simp at hrk
      · cases hd

/-! ## Reports -/

theorem rounds_seatTold {s : State} (p k) (h : RoundsKept s) : RoundsKept (seatTold p k s) := by
  unfold seatTold; simp only []
  cases hs : (s.seat p).state <;> simp only []
  case ready => split; exact rounds_setSeat_outside h rfl; exact h
  case running => split; exact rounds_setSeat h (fun _ => .inl hs) (by rintro (h | h) <;> simp at h); exact h
  case stalled =>
    have ha : OnTrack (s.seat p).state := .inr hs
    split
    · split
      · split
        · exact rounds_readmit _ h ha
        · exact rounds_setSeat h (fun _ => ha) (by rintro (h | h) <;> simp at h)
      all_goals exact rounds_setSeat h (fun _ => ha) (by rintro (h | h) <;> simp at h)
    · exact h
  all_goals exact h

theorem rounds_judgeJump {s : State} (p c) (h : RoundsKept s) : RoundsKept (judgeJump p c s) := by
  unfold judgeJump; simp only []
  split
  · split
    · exact rounds_setSeat_sameState h rfl
    · split; exact rounds_appendEvent _ (rounds_setSeat_sameState h rfl); exact h
  · exact h

theorem rounds_carFields {s : State} (p f r k t) (h : RoundsKept s) : RoundsKept (carFields p f r k t s) := by
  unfold carFields
  split
  · exact h
  · exact h
  · exact h
  · unfold carStage; simp only []
    split
    · rename_i d _ _ _ _
      unfold handToLapTiming
      have := rounds_judgeJump p (newCarState d f (s.car p).latest r t) (rounds_seatTold p k
        (rounds_setCar p
          { latest := some (newCarState d f (s.car p).latest r t), previous := (s.car p).latest } h))
      split
      · rename_i hl
        exact rounds_recordCrossings _ _ _ _ _ _ this fun _ => ⟨hl.2, hl.1⟩
      · exact this
    · exact rounds_setSeat_sameState h rfl

theorem rounds_captureRoundSeen {s : State} (p r) (h : RoundsKept s) : RoundsKept (captureRoundSeen p r s) := by
  unfold captureRoundSeen
  split
  · split
    · split
      · refine rounds_checkRelease ?_
        have w := h.1
        exact ⟨⟨w.lights, w.rr, w.fn, w.fp, w.sn, w.ln, w.lb, w.ls, w.rl, w.cp, w.el⟩, h.2⟩
      · exact rounds_checkRelease h
    · exact rounds_checkRelease h
  · exact h

theorem rounds_reportArrives {s : State} (p m) (h : RoundsKept s) : RoundsKept (reportArrives p m s) := by
  unfold reportArrives; simp only []
  have h0 := rounds_setPort p { s.port p with handed := none } h
  have hc : ∀ (x : Seat) k, (x.countClass k).state = x.state := by intro x k; cases k <;> rfl
  split
  · split
    · exact h0
    · exact h0
    · split
      · unfold reportPath; simp only []
        split
        · exact rounds_setSeat_sameState (rounds_setFit _ _ h0) (hc _ _)
        · exact rounds_captureRoundSeen _ _ (rounds_carFields _ _ _ _ _
            (rounds_setSeat_sameState (rounds_setFit _ _ h0) (hc _ _)))
      · exact rounds_setPort _ _ h0
  all_goals exact h0

theorem rounds_whileRunning {f : State → State} (hf : ∀ s, RoundsKept s → RoundsKept (f s)) {s t : State}
    (h : whileRunning f s = .next t) (k : RoundsKept s) : RoundsKept t := by
  simp only [whileRunning, Host.Outcome.next.injEq] at h
  subst h; split; exact k; exact hf s k

/-! ## Requests, links and boundaries -/

/-- R41: each listed seat is ENTERED or READY. -/
def ListedAreEntrants (s : State) : Prop := ∀ p ∈ s.race.entryList, (s.seat p).state.entrant = true

theorem rounds_serve {w : Request → Bool} {d : PortId → Request → State → State × Reply}
    (hd : ∀ p q s, RoundsKept s → ListedAreEntrants s → RoundsKept (d p q s).1) (s : State) (h : RoundsKept s)
    (e : ListedAreEntrants s) : RoundsKept (serve w d s) := by
  unfold serve
  split
  · split
    · rename_i p q _ _
      have h2 := hd p q (takeFrom p s) (h.congr rfl) e
      exact h2.congr rfl
    · exact h
  · exact h

theorem rounds_newCabinet {s : State} (p) (h : RoundsKept s) : RoundsKept (newCabinet p s) :=
  rounds_setCar _ _ (rounds_setSeat_outside h rfl)

theorem rounds_leaveEntryList {s : State} (p) (h : RoundsKept s) : RoundsKept (leaveEntryList p s) := by
  have w := h.1
  exact ⟨⟨w.lights, w.rr, w.fn, w.fp, w.sn, w.ln, w.lb, w.ls, w.rl, w.cp, w.el.filter _⟩, h.2⟩

theorem rounds_acceptHello {s : State} (p c) (h : RoundsKept s) : RoundsKept (acceptHello p c s) := by
  unfold acceptHello; simp only []
  have h1 : RoundsKept ((s.setSeat p { s.seat p with cabinet := some c }).setFit p ((s.fit p).declare c.framePeriod)) :=
    rounds_setFit p _ (rounds_setSeat_sameState h rfl)
  generalize hu : (s.setSeat p { s.seat p with cabinet := some c }).setFit p ((s.fit p).declare c.framePeriod) = u at h1 ⊢
  cases hs : (s.seat p).state <;> simp only []
  case vacant => exact rounds_newCabinet _ h1
  case linked => split; exact h1; exact rounds_newCabinet _ h1
  case entered =>
    split
    · exact rounds_setSeat_outside h1 rfl
    · exact rounds_departure (rounds_newCabinet _ (rounds_leaveEntryList _ h1))
  case ready =>
    split
    · exact rounds_setSeat_outside h1 rfl
    · exact rounds_departure (rounds_newCabinet _ (rounds_leaveEntryList _ h1))
  case running => split; exact rounds_rejoin _ h1; exact h1
  case stalled => split; exact rounds_rejoin _ h1; exact h1
  all_goals exact h1

theorem rounds_decideHello (p q) (s : State) (h : RoundsKept s) (_ : ListedAreEntrants s) :
    RoundsKept (decideHello p q s).1 := by
  unfold decideHello; simp only []
  split
  · exact h
  · split
    · exact h
    · split
      · exact h
      · split
        · exact h
        · split
          · exact h
          · exact rounds_acceptHello _ _ h

theorem rounds_joinEntryList {s : State} (p) (h : RoundsKept s) (hn : p ∉ s.race.entryList) :
    RoundsKept (joinEntryList p s) := by
  have h1 : RoundsKept (s.setSeat p { s.seat p with state := .entered }) := rounds_setSeat_outside h rfl
  have w := h1.1
  refine ⟨⟨w.lights, w.rr, w.fn, w.fp, w.sn, w.ln, w.lb, w.ls, w.rl, w.cp, ?_⟩, h1.2⟩
  show (s.race.entryList ++ [p]).Nodup
  rw [List.nodup_append]
  refine ⟨h.1.el, by simp, ?_⟩
  rintro a ha b hb rfl
  simp at hb; subst hb; exact hn ha

theorem rounds_decideEnter (p q) (s : State) (h : RoundsKept s) (he : ListedAreEntrants s) :
    RoundsKept (decideEnter p q s).1 := by
  unfold decideEnter; simp only [acceptWith, refuseWith]
  split
  · exact h
  · split
    · exact h
    · cases hs : s.race.state <;> simp only []
      case idle =>
        split
        · show RoundsKept (openLobby p _ s)
          unfold openLobby
          refine rounds_joinEntryList p ?_ (by simp)
          have w := h.1
          obtain ⟨a, b⟩ := lights_resultsRound_none w (by simp [hs]) (by simp [hs])
          have hf : s.finishList = [] := w.lb.resolve_right (by simp [hs, RaceState.beforeField])
          exact ⟨⟨.inl a, .inl b, w.fn, w.fp, w.sn, w.ln, .inl hf, w.ls, fun hh => by simp at hh, w.cp,
              List.nodup_nil⟩, goesOn_of_state (by simp)⟩
        · exact h
      case lobby =>
        split
        · exact h
        · split
          · exact h
          · split
            · exact h
            · rename_i h3 _ _
              show RoundsKept (joinLobby p s)
              have hn : p ∉ s.race.entryList := by
                intro hh
                have := he p hh
                simp only [ne_eq, not_not] at h3
                rw [h3] at this; cases this
              have := rounds_joinEntryList p h hn
              unfold joinLobby; simp only []
              split
              · exact rounds_closeLobby this hs
              · exact this
      all_goals exact h

theorem rounds_decideReady (p q) (s : State) (h : RoundsKept s) (_ : ListedAreEntrants s) :
    RoundsKept (decideReady p q s).1 := by
  unfold decideReady; simp only [acceptWith, refuseWith]
  split
  · exact h
  · split
    · exact h
    · split
      · rename_i hg
        split
        · exact rounds_checkAllReady (rounds_setSeat_outside h rfl) hg.1
        · exact h
      · exact h

theorem rounds_withdrawEntrant {s : State} (p) (h : RoundsKept s) : RoundsKept (withdrawEntrant p s) :=
  rounds_departure (rounds_setCar _ _ (rounds_setSeat_outside (rounds_leaveEntryList p h) rfl))

theorem rounds_withdrawInResults {s : State} (p) (h : RoundsKept s) : RoundsKept (withdrawInResults p s) :=
  rounds_checkRelease (rounds_setCar _ _ (rounds_setSeat_outside h rfl))

theorem rounds_decideWithdraw (p q) (s : State) (h : RoundsKept s) (_ : ListedAreEntrants s) :
    RoundsKept (decideWithdraw p q s).1 := by
  unfold decideWithdraw; simp only [acceptWith, refuseWith]
  split
  · exact h
  · split
    · exact h
    · split
      · split; exact rounds_withdrawEntrant _ h; exact h
      · split; exact rounds_withdrawEntrant _ h; exact h
      · split; exact rounds_retireSeat _ _ _ h; exact h
      · split; exact rounds_retireSeat _ _ _ h; exact h
      · split; exact rounds_retireSeat _ _ _ h; exact h
      · split; exact rounds_withdrawInResults _ h; exact h
      all_goals exact h

theorem rounds_decideQuery (a b : Nat) (e) (p q) (s : State) (h : RoundsKept s) (_ : ListedAreEntrants s) :
    RoundsKept (decideQuery a b e p q s).1 := by
  unfold decideQuery
  split
  · exact h
  · split
    · exact h
    · split <;> exact h

theorem rounds_decideSetup (p q) (s : State) (h : RoundsKept s) (_ : ListedAreEntrants s) :
    RoundsKept (decideSetup p q s).1 := by
  unfold decideSetup; simp only []
  split
  · exact h
  · split
    · exact h
    · split
      · exact h
      · split
        · exact h
        · rename_i items _ _ _
          show RoundsKept (items.foldl SetupItem.write s)
          have e := foldl_frame items s
          have e2 := congrArg State.roundsView e
          exact h.congr e2

theorem rounds_linkDownAtSeat {s : State} (p) (h : RoundsKept s) : RoundsKept (linkDownAtSeat p s) := by
  have hv : ∀ t, RoundsKept t → RoundsKept (vacateSeat p t) := fun t ht =>
    rounds_setCar _ _ (rounds_setSeat_outside ht rfl)
  unfold linkDownAtSeat
  split
  · exact h
  · exact hv _ h
  · exact rounds_departure (hv _ (rounds_leaveEntryList _ h))
  · exact rounds_departure (hv _ (rounds_leaveEntryList _ h))
  all_goals exact rounds_checkRelease h

theorem rounds_appendPasses (r) (m : List (CarId × CarId)) (s : State) (h : RoundsKept s) :
    RoundsKept (appendPasses r m s) := by
  rw [appendPasses_eq]; exact h.congr rfl

theorem rounds_boundaryAt {s : State} (b) (h : RoundsKept s) : RoundsKept (boundaryAt b s) := by
  unfold boundaryAt; simp only []
  have h1 : RoundsKept { s with time := s.time.advanceRound } := h.congr rfl
  have h2 : RoundsKept (raceAtBoundary b { s with time := s.time.advanceRound }) := by
    generalize ({ s with time := s.time.advanceRound } : State) = u at h1
    unfold raceAtBoundary
    split
    · rename_i hc
      have w := h1.1
      have hr : u.race.resultsRound = none := w.rr.resolve_right (by simp [hc])
      split
      · split
        · unfold green; simp only []
          refine rounds_checkEveryoneDone _ ?_
          have w2 : RoundsParts { u with race := { u.race with
              state := .racing, lights := none, raceLimitTimer := startTimer u.now (ofS u.settings.raceLimit) } } :=
            ⟨.inl rfl, .inl hr, w.fn, w.fp, w.sn, w.ln, .inr rfl, w.ls, fun hh => by simp at hh, w.cp, w.el⟩
          split
          · exact w2
          · exact parts_enterFinishing w2 rfl hr
        · exact ⟨⟨.inr hc, .inl hr, w.fn, w.fp, w.sn, w.ln, w.lb, w.ls, w.rl, w.cp, w.el⟩,
            goesOn_of_state (by simp [hc])⟩
      · exact h1
    · exact h1
  generalize raceAtBoundary b { s with time := s.time.advanceRound } = u at h2
  split
  · unfold beginComputation
    simp only [appendPasses_eq]
    have w := h2.1
    have hsn := w.sn
    refine ⟨⟨w.lights, w.rr, w.fn, w.fp, w.sn, w.ln, w.lb, w.ls, w.rl, fun c hc => ?_, w.el⟩, h2.2⟩
    simp only [Option.some.injEq] at hc
    subst hc
    refine ⟨framesBounded_of_snapshot w h2.2 b (u.standings.map (·.car)) w.sn u.settings.horizon
      u.settings.swapMargin _ rfl ?_ ?_,
        ?_⟩
    · simp only []; split <;> rfl
    · simp [drainLimit]
    · simp only []
      split
      · exact (rank_of_field w b _ _ _ w.sn).1
      · simp
  · exact h2

end Sys2Proof.Machine
end

