-- ==== Sys2Proof/Laws/Widths.lean ====
section
/-! SUPPORT. How many bytes the parts of a ROUND take (R167 to R172, R191, R192). -/

namespace Sys2Proof.Machine

/-- The bytes a list of fields takes. -/
def widthOf (l : List Field) : Nat := (l.map (·.width)).sum

theorem widthOf_nil : widthOf [] = 0 := rfl

theorem widthOf_cons (f : Field) (l : List Field) : widthOf (f :: l) = f.width + widthOf l := by simp [widthOf]

theorem widthOf_append (a b : List Field) : widthOf (a ++ b) = widthOf a + widthOf b := by simp [widthOf]

theorem writeFields_length (order : ByteOrder) (l : List Field) : (writeFields order l).length = widthOf l := by
  unfold writeFields widthOf
  induction l with
  | nil => rfl
  | cons f rest ih => simp [List.flatMap_cons, Field.bytes_length, ih]

theorem widthOf_flatMap_le {α : Type} (f : α → List Field) (n : Nat) :
    ∀ l : List α, (∀ a ∈ l, widthOf (f a) ≤ n) → widthOf (l.flatMap f) ≤ l.length * n := by
  intro l
  induction l with
  | nil => intro _; simp [widthOf]
  | cons a rest ih =>
    intro h
    have h1 := ih fun b hb => h b (by simp [hb])
    have h2 := h a (by simp)
    simp only [List.flatMap_cons, widthOf_append, List.length_cons]
    nlinarith

/-- R191: an event is seven bytes. -/
theorem widthOf_event (e : Event) : widthOf e.fields = 7 := by cases e <;> rfl

/-- R191: a car entry is eight bytes, and its speed, finish and best lap where it has them. -/
theorem widthOf_entry (e : CarEntry) :
    widthOf e.fields = 8 + (if e.speed.isSome then 2 else 0) + (if e.finish.isSome then 4 else 0) +
      (if e.best.isSome then 5 else 0) := by
  unfold CarEntry.fields
  simp only [widthOf_append, widthOf_cons, widthOf_nil]
  cases e.speed <;> cases e.finish <;> cases e.best <;> rfl

theorem widthOf_entries (l : List CarEntry) : widthOf (l.flatMap CarEntry.fields) ≤ l.length * 19 := by
  refine widthOf_flatMap_le _ _ _ fun e _ => ?_
  rw [widthOf_entry]; split <;> split <;> split <;> omega

/-- R192: an entry with no finish time saves four bytes. -/
theorem widthOf_entries_unfinished (l : List CarEntry) (h : l.any (·.finish.isNone) = true) :
    widthOf (l.flatMap CarEntry.fields) + 4 ≤ l.length * 19 := by
  induction l with
  | nil => simp at h
  | cons e rest ih =>
    simp only [List.any_cons, Bool.or_eq_true] at h
    have h1 := widthOf_entries rest
    have h2 := widthOf_entry e
    simp only [List.flatMap_cons, widthOf_append, List.length_cons]
    rcases h with h | h
    · have hn : e.finish.isSome = false := by cases hh : e.finish <;> simp_all
      rw [hn] at h2
      have : widthOf e.fields ≤ 15 := by rw [h2]; cases e.speed <;> cases e.best <;> simp
      omega
    · have h3 := ih h
      have : widthOf e.fields ≤ 19 := by rw [h2]; split <;> split <;> split <;> omega
      omega

/-- R167, R191. -/
theorem widthOf_commonPart (c : Computation) :
    widthOf c.commonPart =
      4 + (if c.snapshot.epoch.isSome then 4 else 0) + (if c.snapshot.lights.isSome then 1 else 0) +
        c.snapshot.timers.length * 4 + (if c.snapshot.resultsRound.isSome then 2 else 0) + c.drained.length * 7 := by
  unfold Computation.commonPart
  simp only [widthOf_append, widthOf_cons, widthOf_nil]
  have h1 : widthOf (c.drained.flatMap Event.fields) = c.drained.length * 7 := by
    generalize c.drained = l
    induction l with
    | nil => rfl
    | cons e rest ih => simp only [List.flatMap_cons, widthOf_append, ih, widthOf_event, List.length_cons]; omega
  have h2 : widthOf (c.snapshot.timers.map fun (n : Nat) => longField (n : Int)) = c.snapshot.timers.length * 4 := by
    generalize c.snapshot.timers = l
    induction l with
    | nil => rfl
    | cons e rest ih =>
      simp only [List.map_cons, widthOf_cons, ih, List.length_cons]
      simp only [longField]
      omega
  have h3 : widthOf (if c.snapshot.epoch.isSome = true then [longField c.snapshot.raceTime] else []) =
      if c.snapshot.epoch.isSome then 4 else 0 := by split <;> rfl
  rw [h1, h2, h3]
  cases c.snapshot.lights <;> cases c.snapshot.resultsRound <;> simp [widthOf, wordField, byteField]

/-- R172, R191. -/
theorem widthOf_personalPart (snap : Snapshot) (p : PortId) : widthOf (snap.personalPart p) ≤ 13 := by
  unfold Snapshot.personalPart
  simp only [widthOf_cons]
  split
  · simp [widthOf, byteField]
  · split <;> simp [widthOf, byteField, longField]

/-- R168, R191. -/
theorem widthOf_lobbyPart (snap : Snapshot) : widthOf snap.lobbyPart ≤ 7 + snap.entries.length := by
  unfold Snapshot.lobbyPart
  have : ∀ l : List (PortId × Bool), widthOf (l.map fun e => byteField (e.1.val + bit e.2 7)) = l.length := by
    intro l
    induction l with
    | nil => rfl
    | cons e rest ih =>
      simp only [List.map_cons, widthOf_cons, ih, List.length_cons]
      simp only [byteField]
      omega
  simp only [widthOf_append, widthOf_cons, this]
  cases snap.descriptor
  · simp [widthOf, byteField]
  · simp [widthOf, wordField, byteField]; omega

end Sys2Proof.Machine
end

