-- ==== Sys2Proof/Tests/Slice0.lean ====
section
/-! SUPPORT. Tests: ill-formed commands refused, the manual's worked examples, small steps of the commands, and for each
statement with hypotheses a state and operands that meet them. -/

namespace Sys2Proof.Tests

open Sys2Proof Sys2Proof.Machine

-- One theorem after another: each evaluates in the kernel, and many at once ask for more threads than the box allows.
set_option Elab.async false

/-! ## Building states -/

/-- The state after a command. -/
def run (c : Instr) (s : State) : State :=
  match exec c s with
  | .next t => t
  | .fault _ => s
  | .refused _ => s

/-- After reset and the release of RESET_N, hub time 0. -/
def started : State := { State.reset with resetHeld := false }

/-- RESET_N has just been released. -/
def released : State := run .resetRelease State.reset

def atTime (h : HubTime) (s : State) : State := { s with time := { s.time with hubTime := h } }

def cabinet : Cabinet := { id := 7, framePeriod := 16667, form := .full, order := .highFirst }

/-- Seat `p` in a state, held by a cabinet. -/
def seated (p : PortId) (x : SeatState) (s : State) : State :=
  s.setSeat p { s.seat p with state := x, cabinet := some cabinet }

def linkUp (p : PortId) (s : State) : State := s.setPort p { s.port p with link := .up, errorCount := 0 }

/-- Port `p` is UP and its buffer holds a request. -/
def asks (p : PortId) (k : ServiceKind) (payload : List Byte) (s : State) : State :=
  let t := linkUp p s
  t.setPort p { t.port p with buffer := some { kind := k, order := .highFirst, payload := payload } }

def track : Descriptor := { track := 1, lapLength := 400000, lapCount := 3 }

/-- A race in a state, on the track of the examples, with its epoch at hub time 0. -/
def racing (x : RaceState) (field : List CarId) (s : State) : State :=
  { s with race := { s.race with state := x, descriptor := some track, epoch := some 0, fieldList := field } }

def entrants (x : RaceState) (list : List PortId) (s : State) : State :=
  { s with race := { s.race with state := x, descriptor := some track, entryList := list } }

/-! ## Well-formedness: one ill-formed command for each check -/

def tooLong : List Byte := List.replicate 256 0

theorem test_illFormed_frameArrival :
    (Instr.frameArrival 0 { stamp := 0, order := .highFirst, kind := 0x10, payload := tooLong, crc := 0 }).wellFormed = false := by
  decide +kernel
theorem test_illFormed_echo :
    (Instr.echo 0 { stamp := 0, order := .highFirst, payload := tooLong }).wellFormed = false := by decide +kernel
theorem test_illFormed_serviceRequestArrival :
    (Instr.serviceRequestArrival 0 .setup { stamp := 0, order := .highFirst, payload := tooLong }).wellFormed = false := by
  decide +kernel
theorem test_illFormed_report :
    (Instr.report 0 { stamp := 0, order := .highFirst, payload := tooLong }).wellFormed = false := by decide +kernel
theorem test_wellFormed_longest :
    (Instr.report 0 { stamp := 0, order := .highFirst, payload := List.replicate 255 0 }).wellFormed = true := by
  decide +kernel

/-! ## Worked examples of the manual -/

/-- 01, R2: across a wrap. -/
theorem test_diff_across_wrap : diff 5000 4294960000 = 12296 := by decide +kernel

/-- R182: the CRC over the nine bytes 0x31 to 0x39. -/
theorem test_crc_nine_bytes : crc16 [0x31, 0x32, 0x33, 0x34, 0x35, 0x36, 0x37, 0x38, 0x39] = 0x29B1 := by decide +kernel

/-- R179: probe 5 starts 185, 196, 207 and ends 14; probe 0 wraps to 8 at byte 24. -/
theorem test_probe_five :
    (probePayload 5).take 4 = [5, 185, 196, 207] ∧ (probePayload 5)[32]? = some 14 ∧ (probePayload 0)[25]? = some 8 ∧
      (wireBytes 0x42 (probePayload 5)).length = 39 := by decide +kernel

/-- 11, "a training pass": D of the least measure 435, and the same at the ends of its range. -/
theorem test_delay_of_least : delayOf 435 = 217 ∧ delayOf (-3) = 0 ∧ delayOf 9000 = 4095 := by decide +kernel

def fitAt (phase : FitState) (frame : FrameCount) (time : HubTime) (period inGate : Nat) : Fit :=
  { phase := phase, anchor := some { frame := frame, time := time }, period := some period, nominal := some 4266752,
    inGate := inGate, outliers := 0, ageTimer := none }

/-- 04, "frame counts across the wrap". -/
theorem test_fit_frame_wrap :
    ((fitAt .fitSettling 65534 300000000 4272608 5).take 2 300066900 300067150).fit =
      { phase := .fitSettling, anchor := some { frame := 2, time := 300066830 }, period := some 4273728,
        nominal := some 4266752, inGate := 6, outliers := 0, ageTimer := some 900067150 } := by decide +kernel

/-- 04, "hub time across the wrap". -/
theorem test_fit_time_wrap :
    let r := (fitAt .fitTracking 7000 4294960000 4266752 15).take 7001 9650 9900
    r.fitted = some 9405 ∧ r.fit.period = some 4267868 ∧ r.fit.inGate = 15 := by decide +kernel

/-- 04, "the period at the edge of its band". -/
theorem test_fit_band_edge :
    let r := (fitAt .fitSettling 900 200000000 4395000 3).take 901 200020168 200020168
    r.fitted = some 200018668 ∧ r.fit.period = some 4400088 ∧ r.fit.inGate = 4 := by decide +kernel

/-- 04, "an outlier run that ends in a resync". -/
theorem test_fit_outlier_run :
    let r1 := (fitAt .fitTracking 500 80000000 4266752 15).take 501 80021000 80021000
    let r2 := r1.fit.take 502 80038000 80038000
    let r3 := r2.fit.take 503 80055000 80055000
    let r4 := r3.fit.take 504 80071700 80071700
    (r1.kind, r1.fitted) = (.outlier, some 80016667) ∧ (r2.kind, r2.fitted) = (.outlier, some 80033334) ∧
      (r3.kind, r3.fitted, r3.fit.phase) = (.resync, some 80055000, .fitSettling) ∧
      (r4.kind, r4.fitted, r4.fit.period) = (.inGate, some 80071683, some 4267808) := by decide +kernel

/-- 02, "a cabinet that writes low byte first", and the same with only its marker high byte first. -/
theorem test_hello_low_first :
    let body : List Byte := [0x2C, 0x1B, 0x0A, 0x00, 0xC0, 0x2B, 0x01]
    let s := run .hello (asks 4 .hello (0x3C :: 0x5A :: body) started)
    let t := run .hello (asks 4 .hello (0x5A :: 0x3C :: body) started)
    (s.seat 4).cabinet = some { id := 0x000A1B2C, framePeriod := 12000, form := .short, order := .lowFirst } ∧
      (s.seat 4).state = .linked ∧ (s.fit 4).nominal = some 3072000 ∧
      s.engine.inService.map (·.reply.clamped) = some true ∧
      (t.seat 4).cabinet = some { id := 0x2C1B0A00, framePeriod := 25000, form := .short, order := .highFirst } := by
  decide +kernel

/-- 03, "placing the green and lighting the countdown". -/
theorem test_green_and_lights :
    ({ started.time with nextBoundary := 10016000 } : Timebase).firstBoundary 15003500 = 15008000 ∧
      lightsAt 10832000 10003500 15008000 = 0 ∧ lightsAt 10848000 10003500 15008000 = 1 ∧
      lightsAt 14160000 10003500 15008000 = 4 ∧ lightsAt 14176000 10003500 15008000 = 5 ∧
      lightsAt 14992000 10003500 15008000 = 5 := by decide +kernel

/-- 09, "a three-segment profile on a 4 km lap". -/
theorem test_pacer_three_segments :
    let table := scaleProfile [{ share := 96, speed := 5000 }, { share := 64, speed := 2500 }, { share := 96, speed := 6000 }] 400000
    table.lapTime = 95000000 ∧ table.view 400000 3 (-2000000) = { progress := 0, speed := 0 } ∧
      table.view 400000 3 50000000 = { progress := 200000, speed := 2500 } ∧
      table.view 400000 3 95000000 = { progress := 400000, speed := 5000 } ∧
      table.view 400000 3 284999999 = { progress := 1199999, speed := 6000 } ∧
      table.view 400000 3 290000000 = { progress := 1200000, speed := 0 } := by decide +kernel

/-- 09, "rounding on an odd lap length". -/
theorem test_pacer_odd_lap :
    let table := scaleProfile [{ share := 100, speed := 3000 }, { share := 50, speed := 1500 }, { share := 106, speed := 7000 }] 333333
    table.segments.map (·.length) = [130208, 65104, 138021] ∧
      table.segments.map (·.time) = [43402667, 43402667, 19717286] ∧ table.lapTime = 106522620 ∧
      (table.view 333333 3 43402666).progress = 130207 ∧ (table.view 333333 3 43402667).progress = 130208 := by
  decide +kernel

/-- 06, R103: the truncated increments. -/
theorem test_projection :
    let cs (v : Int) : CarState :=
      { time := 0, lap := .count 1, distance := 123456, progress := 523456, speed := v,
        flags := { pit := false, offCourse := false, wrongWay := false } }
    projectCar 100000 400000 3 9700 (cs 6250) = (523516, false) ∧
      projectCar 100000 400000 3 12345 (cs (-1000)) = (523444, false) := by decide +kernel

/-- 06, "one ranking with a stalled car": seats 3, 0, 6, 4, 1. -/
theorem test_ranking_with_stalled_car :
    let car (c : CarId) (p : Int) (stalled : Bool) : Contender :=
      { entry := { car := c, projected := some p, stale := false }, stalled := stalled }
    let r := insertAll 30
      [car 3 602500 false, car 0 601980 false, car 6 601000 true, car 4 602000 false, car 1 601040 false] []
    r.1.reverse.map (·.entry.car) = [3, 0, 4, 1, 6] ∧ r.2 = [(4, 6), (1, 6)] := by decide +kernel

def carAt (time : HubTime) (lap : Lap) (distance : Nat) : CarState :=
  { time := time, lap := lap, distance := distance, progress := 0, speed := 0,
    flags := { pit := false, offCourse := false, wrongWay := false } }

/-- 07, "one car's laps": the crossings into laps 0 and 2. -/
theorem test_crossing_times :
    crossingTime 400000 0 (some (carAt 15400 .preLine 399900)) (carAt 32100 (.count 0) 150) = (22080, true) ∧
      crossingTime 400000 2 (some (carAt 188900000 (.count 1) 399500)) (carAt 188933400 (.count 2) 400) =
        (188918555, true) := by decide +kernel

/-- 07, "a late finisher and a tie on corrected time". -/
theorem test_finish_list :
    let e (c : CarId) (raw corrected : Int) : FinishEntry := { car := c, raw := raw, corrected := corrected }
    (insertFinish (e 1 188410000 188410000)
      (insertFinish (e 7 186021984 186021984)
        (insertFinish (e 4 186025500 186025500) (insertFinish (e 2 183410000 188410000) [])))).map (·.car) =
      [7, 4, 2, 1] := by decide +kernel

/-- 02, "three ports and one overrun": after port 6 the engine takes port 1, and after port 1 port 3. -/
theorem test_arbiter_order :
    let s := asks 3 .setup [] (asks 1 .hello [] started)
    let from_ (p : PortId) (s : State) : State := { s with engine := { pointer := p, inService := none } }
    (from_ 6 s).nextRequest.map (·.1) = some 1 ∧ (from_ 1 s).nextRequest.map (·.1) = some 3 ∧
      (from_ 3 s).nextRequest.map (·.1) = some 1 := by decide +kernel

/-- R36: shares 200 and 80 are refused, shares 0 and 120 are clamped and the third is 135. -/
theorem test_profile_shares :
    buildProfile [200, 80] [2000, 2000, 2000] = none ∧
      (buildProfile [0, 120] [2000, 2000, 2000]).map (·.map (·.share)) = some [1, 120, 135] := by decide +kernel

/-- R13 of 10, "a crowded countdown boundary": 27 events, 7 passes, then the drain. -/
theorem test_crowded_queue :
    let pass : Event := .pass 0 1 0
    let q : EventQueue := (List.replicate 7 pass).foldl EventQueue.append { list := List.replicate 27 pass, overflow := false }
    q.list.length = 32 ∧ q.overflow = true ∧ q.drain.list.length = 24 ∧ q.drain.overflow = false := by decide +kernel

/-! ## Small steps of the commands -/

/-- 12, "one cabinet linked before round 1": the first byte, whole at 5, gains lock. -/
theorem test_lock_gained :
    let q := (run (.byteReceived 0 0x55) (atTime 5 started)).port 0
    q.link = .training ∧ q.errorCount = 0 ∧ q.lockWatch = some 50005 ∧ q.receiver = .hunting := by decide +kernel

/-- 12, the same example: the ROUND of round 1 lists seat 0 as LINKED, with no fit values in its personal part (R191). -/
theorem test_first_round :
    let s := (linkUp 0 started).setSeat 0 { started.seat 0 with state := .linked, cabinet := some { cabinet with id := 0x000A1B2C } }
    let t := run .roundBoundary (atTime 16000 { s with time := { s.time with roundDemand := true } })
    ((run .roundComputationEnd t).port 0).round = some [0, 1, 0, 0, 1, 0, 0, 0x0A, 0x1B, 0x2C, 8] ∧
      t.time.roundDemand = false := by decide +kernel

/-- 01, "a change of round period": 12,000 is installed at 48,000 and the next boundary is 60,000. -/
theorem test_round_period :
    let s := atTime 48000 started
    let t := run .roundBoundary
      { s with time := { s.time with pendingPeriod := some 12000, nextBoundary := 48000, roundNumber := 2 } }
    t.time.period = 12000 ∧ t.time.pendingPeriod = none ∧ t.time.nextBoundary = 60000 ∧ t.time.roundNumber = 3 := by
  decide +kernel

/-- 11, "a reply and a ROUND on one port": the ROUND of 200 bytes takes 1,030 µs, then the REPLY of 12 bytes 90 µs. -/
theorem test_transmit_times :
    let s := (linkUp 6 (atTime 100602 started)).setPort 6
      { (linkUp 6 started).port 6 with round := some (List.replicate 200 0) }
    let t := run (.frameBoundary 6) s
    let u := t.setPort 6 { t.port 6 with reply := some { payload := List.replicate 12 0, carriesOverrun := false } }
    let v := run (.frameBoundary 6) (atTime 101632 u)
    (t.port 6).sendEnds = 101632 ∧ (t.port 6).round = none ∧ (v.port 6).sendEnds = 101722 := by decide +kernel

/-- R186: a ROUND that waits behind a reply begins as the reply's last byte leaves, before any other command. -/
theorem test_round_follows_the_reply :
    let s := (linkUp 6 (atTime 500 started)).setPort 6
      { (linkUp 6 started).port 6 with
        sending := .reply [1], sendEnds := 500, reply := some { payload := [1], carriesOverrun := false }, round := some [2] }
    let q := (run (.replyTransmitted 6) s).port 6
    q.reply = none ∧ q.round = none ∧ q.sending = .round (wireBytes 0x40 [2]) ∧ q.sendEnds = 535 := by decide +kernel

/-- 05, "a short-form car at the green": reports 2 and 3 of seat 2, predicted without error. -/
def shortCar (time : HubTime) (lap : Lap) (distance : Nat) (progress : Int) : State :=
  let s := racing .countdown [2] (atTime (time + 16900) started)
  let t := linkUp 2 { s with race := { s.race with epoch := some 45008000 } }
  let u := t.setSeat 2 { t.seat 2 with
    state := .running, cabinet := some { cabinet with form := .short }, gridProgress := some (-200) }
  ((u.setFit 2 (fitAt .fitTracking 1 time 4275200 15)).setCar 2
    { latest := some { carAt time lap distance with progress := progress }, previous := none }).setLapRecord 2
    { u.lapRecord 2 with highWater := some .preLine }

theorem test_jump_start :
    let s := run (.report 2 { stamp := 45006700, order := .highFirst, payload := [0, 2, 0, 0, 0, 0x86, 0x1A, 0x1C] })
      (shortCar 44990000 .preLine 399830 (-170))
    (s.seat 2).jumped = true ∧ (s.seat 2).penalty = 5000000 ∧ s.events.list = [.jump 2 (-1300)] ∧
      (s.car 2).latest.map (fun c => (c.time, c.progress, c.speed)) = some (45006700, -100, 4191) := by decide +kernel

theorem test_start_crossing :
    let s := run (.report 2 { stamp := 45023400, order := .highFirst, payload := [0, 2, 0, 0, 0, 0, 0, 150] })
      (shortCar 45006700 .preLine 399900 (-100))
    (s.car 2).latest.map (fun c => (c.progress, c.speed)) = some (150, 14970) ∧ s.events.list = [] ∧
      (s.lapRecord 2).highWater = some (.count 0) ∧ (s.seat 2).jumped = false := by decide +kernel

/-- 08, "a stall and a readmission": the silence expiry at 66,250,300. -/
theorem test_stall :
    let s := racing .racing [4] (atTime 66250300 (seated 4 .running started))
    let t := run (.silenceExpiry 4) ({ s with standings := [{ car := 4, projected := some 395100, stale := false }] }.setSeat 4
      { s.seat 4 with silenceTimer := some 66250300 })
    (t.seat 4).state = .stalled ∧ (t.seat 4).frozenProgress = some 395100 ∧ (t.seat 4).dropTimer = some 71250300 ∧
      t.events.list = [.stall 4 66250300 false] := by decide +kernel

/-- 11, "a training pass": after probe 15 with three probe errors and least 435 the port is UP with D 217. -/
theorem test_training_ends :
    let q := (started.port 3)
    let t : Training := { probe := 15, stage := .waiting, errors := 3, least := some 435, sentAt := 1000, echoWait := some 9000, retrainWait := none }
    let s := run (.echo 3 { stamp := 1635, order := .highFirst, payload := probePayload 15 })
      (started.setPort 3 { q with link := .training, training := some t })
    (s.port 3).link = .up ∧ (s.port 3).delay = 217 ∧ (s.port 3).errorCount = 3 := by decide +kernel

/-- R19, R66: a HELLO that makes seat 3 LOW_FIRST is taken `k` µs before a report's first byte is whole. -/
def helloThen (k : Nat) : State :=
  let hello : List Byte := [0x3C, 0x5A, 7, 0, 0, 0, 0x1B, 0x41, 0]
  let t := run .hello (asks 3 .hello hello (seated 3 .linked released))
  run (.byteReceived 3 0xD3) ((List.range k).foldl (fun s _ => tick s) t)

/-- 4 µs before, the start bit came first, so the report is read high byte first as before; 6 µs before, the HELLO came
first. -/
theorem test_order_at_start_bit :
    ((helloThen 4).port 3).receiver = .marker 0xFFFFFFFF .highFirst ∧
      ((helloThen 6).port 3).receiver = .marker 1 .lowFirst ∧ (helloThen 6).freeDraws = 1 := by decide +kernel

/-- R178 step 4: at the loss of lock a ROUND on the line is cut for filler, and a filler byte goes on to its end. -/
theorem test_loss_of_lock_abandons_a_frame :
    let lost (x : Sending) := run (.lockWatchExpiry 3)
      (started.setPort 3 { started.port 3 with link := .up, lockWatch := some 0, sending := x, sendEnds := 3 })
    ((lost (.round [1, 2])).port 3).sendEnds = 5 ∧ ((lost .filler).port 3).sendEnds = 3 ∧
      ((lost (.round [1, 2])).port 3).sending.bytes = [0x00] := by decide +kernel

/-- R60: a seat withdrawn in RESULTS keeps its grid position. -/
theorem test_withdraw_in_results :
    let t := linkUp 1 (seated 3 .finished (seated 1 .finished (asks 3 .withdraw [] (racing .results [3, 1] started))))
    let s := run .withdraw (t.setSeat 3 { t.seat 3 with gridPosition := some 1, jumped := true, penalty := 5000000 })
    (s.seat 3).state = .linked ∧ (s.seat 3).gridPosition = some 1 ∧ (s.seat 3).jumped = false ∧ (s.seat 3).penalty = 0 := by
  decide +kernel

/-- R99, R160: the counters of a boundary's snapshot are those a report handled before it left. -/
theorem test_snapshot_counters :
    let s := started.setSeat 2 { started.seat 2 with duplicates := 1, outOfOrder := 2, implausible := 3, resyncs := 4 }
    let x := (s.snapshot 0).seats[2]
    (x.duplicates, x.outOfOrder, x.implausible, x.resyncs) = (1, 2, 3, 4) := by decide +kernel

/-- R18: after reset the arbiter looks at port 0 first. -/
theorem test_first_port_served :
    ((asks 5 .query [0, 0] (asks 0 .query [0, 0] started)).nextRequest).map (·.1) = some 0 := by decide +kernel

/-! ## Each statement's hypotheses are met

One theorem for each statement that has hypotheses: a concrete state and operands that meet them, for each clause. -/

/-- The first boundary after reset is due. -/
def boundaryDue : State := atTime 16000 started

/-- Nothing due; one event due, at the boundary's very microsecond; several due; and RESET_N low. -/
theorem witness_EmptyQueueRunsTheClock :
    let one : State := { released with time := { released.time with nextBoundary := 0 } }
    released.pending = [] ∧ released.resetHeld = false ∧ released.eventsDue = [] ∧
      (∀ p, (one.port p).arrived = none ∧ (one.port p).handed = none) ∧ one.pending = [] ∧ one.resetHeld = false ∧
      one.eventsDue = [.roundBoundary] ∧ boundaryDue.pending = [] ∧ 2 ≤ boundaryDue.eventsDue.length ∧
      State.reset.pending = [] ∧ State.reset.resetHeld = true := by decide +kernel

theorem witness_TimerRunsForItsDuration : ∃ d k : Nat, d < 2 ^ 31 ∧ k < 2 ^ 31 ∧ d = k := ⟨2 ^ 31 - 1, 2 ^ 31 - 1, by decide⟩

theorem witness_ResetHoldsTheHubUntilRelease :
    State.reset.resetHeld = true ∧ Instr.hello ≠ .reset ∧ Instr.hello ≠ .resetRelease := by decide +kernel

theorem witness_BoundaryAdvancesTheRound :
    boundaryDue.resetHeld = false ∧ 0 ≤ diff boundaryDue.now boundaryDue.time.nextBoundary := by decide +kernel

/-- The quiet round 1, the sixteenth round, a demanded round, and a round outside IDLE. -/
theorem witness_BoundarySendsByCadence :
    let sixteenth : State := { boundaryDue with time := { boundaryDue.time with roundNumber := 15 } }
    let demanded : State := { boundaryDue with time := { boundaryDue.time with roundDemand := true } }
    let live := racing .racing [0, 1] boundaryDue
    boundaryDue.race.state = .idle ∧ (boundaryDue.time.roundNumber + 1).toNat % 16 ≠ 0 ∧
      boundaryDue.time.roundDemand = false ∧ (sixteenth.time.roundNumber + 1).toNat % 16 = 0 ∧
      demanded.time.roundDemand = true ∧ live.race.state ≠ .idle ∧ live.race.state ≠ .countdown ∧
      live.resetHeld = false ∧ 0 ≤ diff live.now live.time.nextBoundary := by decide +kernel

/-- A countdown from 0 to `e`, with the first boundary due. -/
def counting (e : HubTime) (s : State) : State :=
  { s with race := { s.race with state := .countdown, t0 := some 0, epoch := some e, fieldList := [0, 1] } }

theorem witness_CountdownLightsRise :
    let s := counting 5008000 boundaryDue
    s.resetHeld = false ∧ 0 ≤ diff s.now s.time.nextBoundary ∧ s.race.state = .countdown ∧ s.race.t0 = some 0 ∧
      s.race.epoch = some 5008000 ∧ s.time.nextBoundary ≠ 5008000 ∧
      0 < diff 5008000 0 ∧ 0 ≤ diff 0 0 ∧ diff 0 0 ≤ diff 16000 0 := by decide +kernel

/-- At the green: cars running; cars running with a finish recorded; every car done, with a seat to be waited for. `everyoneDone` is
`AllDone` (`everyoneDone_iff`). -/
theorem witness_GreenStartsTheRace :
    let s := seated 0 .running (seated 1 .running (counting 16000 boundaryDue))
    let early : State := { s with finishList := [{ car := 1, raw := -5, corrected := -5 }] }
    let done := linkUp 0 (seated 0 .finished (seated 1 .retired s))
    s.resetHeld = false ∧ 0 ≤ diff s.now s.time.nextBoundary ∧ s.race.state = .countdown ∧ s.race.t0 = some 0 ∧
      s.race.epoch = some s.time.nextBoundary ∧ s.everyoneDone = false ∧ s.finishList = [] ∧
      early.everyoneDone = false ∧ early.finishList ≠ [] ∧ done.everyoneDone = true ∧ done.counted 0 = true ∧
      done.portUp 0 = true := by decide +kernel

/-- Every car done with no seat to be waited for, at a boundary that does not send in IDLE and at one that does. -/
theorem witness_GreenStartsTheRace_unawaited :
    let s := seated 0 .retired (seated 1 .retired (counting 16000 boundaryDue))
    s.everyoneDone = true ∧ (∀ p : PortId, s.counted p = true → s.portUp p = false) ∧
      (s.time.roundNumber + 1).toNat % 16 ≠ 0 ∧ ((15 : RoundNo) + 1).toNat % 16 = 0 ∧
      (run .roundBoundary s).race.state = .idle := by decide +kernel

theorem witness_FirstBoundaryAtOrAfter :
    let t := started.time
    0 < t.pendingPeriod.getD t.period ∧ diff 16000 t.nextBoundary ≤ 0 ∧ 0 < diff 16001 t.nextBoundary := by
  decide +kernel

/-- A computation is in flight, with port 3 addressed. -/
def computing : State :=
  run .roundBoundary (linkUp 3 { boundaryDue with time := { boundaryDue.time with roundDemand := true } })

/-- A bounded computation with port 3 addressed; a car of the field; and a pacer in the field under RANKED, and under RUNNING.
-/
theorem witness_ComputationEndPlacesTheFrames :
    let snap := (seated 3 .finished (racing .racing [3] started)).snapshot 0
    let pacer (mode : PacerMode) (field : List CarId) : State :=
      let t := racing .racing field started
      { t with
        race := { t.race with pacerMode := some mode }
        pacer := { scaled := some (scaleProfile t.settings.profile 400000), nextCrossing := none } }
    computing.resetHeld = false ∧ computing.assembler.computation.map (·.addressees) = some [3] ∧
      computing.assembler.computation.map (·.framesBounded) = some true ∧ (snap.carOf? 3).isSome = true ∧
      (3 : CarId) ≠ pacerCar ∧ (pacer .ranked [3, 8]).race.epoch = some 0 ∧ (pacer .ranked [3, 8]).pacer.scaled.isSome = true ∧
      pacerCar ∈ (pacer .ranked [3, 8]).race.fieldList ∧ (pacer .ranked [3, 8]).race.pacerMode ≠ some .running ∧
      (pacer .running [3]).race.pacerMode = some .running ∧ (pacer .running [3]).race.state.live = true := by decide +kernel

theorem witness_QueueAppendsAndDrains :
    let pass : Event := .pass 0 1 0
    (List.replicate 31 pass).length < 32 ∧ 32 ≤ (List.replicate 32 pass).length := by decide +kernel

/-- The invariants' premises: the state after a boundary that sends, with a command in front. -/
theorem witness_invariants :
    let s : State := { computing with pending := [.roundComputationEnd] }
    s.eventsBounded = true ∧ s.countsSound = true ∧ s.fitsSound = true ∧ s.countersFit = true ∧ s.settingsSound = true ∧
      s.entryListSound = true ∧ s.roundsSound = true ∧ finishOrdered s.finishList = true := by decide +kernel

/-- The same in FINISHING: one car finished, one running, a ranked pacer, and a frame's entries bounded. -/
theorem witness_roundsSound :
    let t := seated 0 .finished (seated 1 .running (racing .finishing [0, 1, 8] boundaryDue))
    let s : State := { t with
      race := { t.race with pacerMode := some .ranked }
      finishList := [{ car := 0, raw := 1, corrected := 1 }] }
    s.roundsSound = true ∧ s.entryListSound = true ∧ (run .roundBoundary s).roundsSound = true := by decide +kernel

theorem witness_invariants_step :
    ∃ t, step { computing with pending := [.roundComputationEnd] } = .next t := ⟨_, rfl⟩

theorem witness_ClockSettingsDescriptorAndDelayAreHeld :
    let s := entrants .lobby [0] started
    Instr.lobbyExpiry ≠ .reset ∧ Instr.lobbyExpiry ≠ .setup ∧ exec .lobbyExpiry s = .next s ∧ s.race.state ≠ .idle := by
  refine ⟨by decide, by decide, rfl, by decide +kernel⟩

/-- An empty buffer, a full one, and a port in DOWN. -/
theorem witness_RequestEntersTheBuffer :
    started.resetHeld = false ∧ ((linkUp 2 started).port 2).link = .up ∧ ((linkUp 2 started).port 2).buffer = none ∧
      ((asks 2 .query [0, 0] started).port 2).link = .up ∧ ((asks 2 .query [0, 0] started).port 2).buffer.isSome = true ∧
      (started.port 2).link ≠ .up := by decide +kernel

theorem witness_ArbiterTakesTheFirstEligiblePort :
    let s := asks 3 .query [0, 0] started
    s.engine.inService = none ∧
      s.nextRequest = some (3, { kind := .query, order := .highFirst, payload := [0, 0] }) ∧
      (run .queryRace s).engine.inService ≠ none := by decide +kernel

/-- A request of kind `k` from a LINKED seat 3, the next to be taken. -/
def asking (k : ServiceKind) (payload : List Byte) (s : State) : State := seated 3 .linked (asks 3 k payload s)

def takes (s : State) (k : ServiceKind) (payload : List Byte) : Bool :=
  s.nextRequest == some (3, { kind := k, order := .highFirst, payload := payload }) && !s.resetHeld

/-- The seven tables, each at the ends of its index range. -/
theorem witness_QueryReturnsTheLiveEntry :
    (∀ payload ∈ ([[0, 0], [1, 0], [1, 7], [1, 8], [2, 0], [2, 7], [3, 0], [3, 7], [5, 1], [5, 9], [6, 0], [6, 15]] :
        List (List Byte)), takes (asking .query payload started) .query payload = true) ∧
      ((asking .query [0, 0] started).seat 3).state ≠ .vacant ∧
      (∀ payload ∈ ([[4, 0, 1], [4, 8, 3]] : List (List Byte)),
        takes (asking .query payload (racing .racing [0] started)) .query payload = true) ∧
      (racing .racing [0] started).race.descriptor = some track ∧ track.lapCount = 3 := by decide +kernel

/-- A request from a VACANT seat, of each kind but HELLO, and the refusals of QUERY at the ends of their ranges. -/
theorem witness_RefusalsChangeNothing :
    (∀ k ∈ [ServiceKind.enter, .ready, .withdraw, .setup, .query], takes (asks 3 k [0, 0] started) k [0, 0] = true) ∧
      ((asks 3 .enter [0, 0] started).seat 3).state = .vacant ∧
      (∀ t ∈ [0, 1, 2, 3, 4, 5, 6], asksTable t { kind := .query, order := .highFirst, payload := [BitVec.ofNat 8 t, 0] } = true) ∧
      (∀ payload ∈ ([[], [7], [255, 0], [0], [1, 0, 0], [2], [3], [4, 0], [5], [6], [0, 1], [1, 9], [2, 8], [3, 8],
          [4, 0, 1], [5, 0], [5, 10], [6, 16]] : List (List Byte)),
        takes (asking .query payload started) .query payload = true) ∧
      started.race.descriptor = none ∧
      (let s (payload : List Byte) := asking .query payload (racing .racing [0] started)
       (∀ payload ∈ ([[4, 9, 1], [4, 0, 0], [4, 0, 4]] : List (List Byte)), takes (s payload) .query payload = true) ∧
         (s [4, 0, 4]).race.descriptor = some track ∧ track.lapCount < 4) := by decide +kernel

/-- The refusals of HELLO, READY and WITHDRAW. -/
theorem witness_RefusalsChangeNothing_race :
    (∀ payload ∈ ([[], [0x5A, 0x3C, 0, 0, 0, 0, 0x41, 0x1B, 0], [0, 0x3C, 0, 0, 0, 7, 0x41, 0x1B, 0],
        [0x5A, 0x3C, 0, 0, 0, 7, 0x41, 0x1B, 2]] : List (List Byte)),
      takes (asks 3 .hello payload started) .hello payload = true ∧
        (payload.length ≠ 9 ∨ markerOrder payload = none ∨ BitVec.ofNat 32 (readField .highFirst payload 2 4) = 0 ∨
          formOfCode (readField .highFirst payload 8 1) = none)) ∧
      (∀ k ∈ [ServiceKind.ready, .withdraw], takes (asking k [0] started) k [0] = true ∧
        takes (asking k [] started) k [] = true) ∧
      ((asking .ready [] (entrants .grid [] started)).seat 3).state ≠ .entered ∧
      (∀ x ∈ [RaceState.idle, .void, .lobby, .grid, .racing, .results],
        let s := asking .withdraw [] (racing x [0] started)
        takes s .withdraw [] = true ∧ s.race.state = x ∧ (s.seat 3).state = .linked) := by decide +kernel

/-- The refusals of ENTER: too short, L of 0 in IDLE and in LOBBY, from an ENTERED seat, and in RESULTS. -/
theorem witness_RefusalsChangeNothing_enter :
    let outOfRange : List Byte := [0, 1, 0, 0, 0, 3]
    let entered := seated 3 .entered (asks 3 .enter outOfRange (entrants .lobby [3] started))
    (readDescriptor .highFirst outOfRange).inRange = false ∧ outOfRange.length = 6 ∧
      takes (asking .enter [0] started) .enter [0] = true ∧ takes (asking .enter outOfRange started) .enter outOfRange = true ∧
      started.race.state = .idle ∧
      takes (asking .enter outOfRange (entrants .lobby [1] started)) .enter outOfRange = true ∧
      takes entered .enter outOfRange = true ∧ (entered.seat 3).state ≠ .linked ∧
      takes (asking .enter outOfRange (racing .results [0] started)) .enter outOfRange = true := by decide +kernel

/-- The refusals of SETUP: items that do not parse, none, a number twice, a pacer mode of 3, shares above 255, and IDLE past. -/
theorem witness_RefusalsChangeNothing_setup :
    let parse (payload : List Byte) := parseSetup .highFirst payload.length payload
    let twice : List Byte := [5, 0, 0, 0, 30, 5, 0, 0, 0, 40]
    let shares : List Byte := [15, 3, 200, 80, 0x0B, 0xB8, 0x0B, 0xB8, 0x0B, 0xB8]
    let late := asking .setup [] (racing .racing [0] started)
    parse [5, 0] = none ∧ parse [] = some [] ∧ parse twice = some [.value 5 30, .value 5 40] ∧
      ¬([5, 5].Nodup) ∧ parse [14, 0, 0, 0, 3] = some [.value 14 3] ∧ parse shares = some [.profile [200, 80] [3000, 3000, 3000]] ∧
      255 < (([200, 80] : List Nat).map fun n => max 1 (min 255 n)).sum ∧
      (∀ payload ∈ [[5, 0], [], twice, [14, 0, 0, 0, 3], shares], takes (asking .setup payload started) .setup payload = true) ∧
      takes late .setup [] = true ∧ late.race.state ≠ .idle := by decide +kernel

/-- A SETUP of setting 0, setting 14 and a profile of two segments. -/
def setupPayload : List Byte := [0, 0, 0, 0x1B, 0x58, 14, 0, 0, 0, 2, 15, 2, 0, 0x0B, 0xB8, 0x07, 0xD0]

theorem witness_SetupWritesEveryItemClamped :
    let s := asking .setup setupPayload started
    takes s .setup setupPayload = true ∧ (s.seat 3).state ≠ .vacant ∧ s.race.state = .idle ∧
      parseSetup .highFirst setupPayload.length setupPayload =
        some [.value 0 7000, .value 14 2, .profile [0] [3000, 2000]] ∧
      ([SetupItem.value 0 7000, .value 14 2, .profile [0] [3000, 2000]].map (·.number)).Nodup ∧
      ([0].map fun n => max 1 (min 255 n)).sum ≤ 255 := by decide +kernel

/-- A reply accepted, and one on the line: with a ROUND waiting, with none, and at a port that has gone DOWN. -/
theorem witness_RepliesAreWrittenAndSent :
    let s := run .queryRace (asking .query [0, 0] started)
    let sent (link : LinkState) (round : Option (List Byte)) : State := s.setPort 3 { s.port 3 with
      link := link, round := round, sending := .reply [1], reply := some { payload := [1], carriesOverrun := true }
      sendEnds := s.now }
    s.resetHeld = false ∧ s.engine.inService.map (·.port) = some 3 ∧ (s.port 3).link = .up ∧
      ∀ t ∈ [sent .up (some [2]), sent .up none, sent .down none], t.resetHeld = false ∧
        (t.port 3).sending = .reply [1] ∧ (t.port 3).reply.isSome = true ∧ 0 ≤ diff t.now (t.port 3).sendEnds ∧
        (((t.port 3).link = .up ∧ (t.port 3).round = some [2]) ∨ (t.port 3).link = .down ∨
          ((t.port 3).link = .up ∧ (t.port 3).round = none)) := by
  decide +kernel

/-- A HELLO of cabinet 7, and of cabinet 8. -/
def helloOf (id : Byte) : List Byte := [0x5A, 0x3C, 0, 0, 0, id, 0x41, 0x1B, 0]

theorem witness_hello_payload :
    (helloOf 7).length = 9 ∧ markerOrder (helloOf 7) = some .highFirst ∧
      BitVec.ofNat 32 (readField .highFirst (helloOf 7) 2 4) = cabinet.id ∧
      BitVec.ofNat 32 (readField .highFirst (helloOf 8) 2 4) ≠ cabinet.id ∧
      formOfCode (readField .highFirst (helloOf 7) 8 1) = some .full := by decide +kernel

theorem witness_HelloLinksACabinet :
    let vacant := asks 3 .hello (helloOf 7) started
    let linked := asking .hello (helloOf 7) started
    takes vacant .hello (helloOf 7) = true ∧ (vacant.seat 3).state = .vacant ∧
      takes linked .hello (helloOf 7) = true ∧ (linked.seat 3).state = .linked ∧
      (linked.seat 3).cabinet.map (·.id) = some 7 := by decide +kernel

/-- The same cabinet, and another one: in LOBBY and in GRID, alone and with a seat READY or ENTERED behind it, and in VOID. -/
theorem witness_HelloFromAnEntrant :
    let s (id : Byte) (x : RaceState) (l : List PortId) (other : SeatState) :=
      seated 3 .ready (seated 1 other (asks 3 .hello (helloOf id) (entrants x l started)))
    (takes (s 7 .lobby [3, 1] .entered) .hello (helloOf 7) = true ∧ ((s 7 .lobby [3, 1] .entered).seat 3).state = .ready) ∧
      ∀ t ∈ [s 8 .lobby [3, 1] .entered, s 8 .lobby [3] .linked, s 8 .grid [3] .linked, s 8 .grid [3, 1] .ready,
        s 8 .grid [3, 1] .entered, s 8 .void [3, 1] .entered],
        takes t .hello (helloOf 8) = true ∧ (t.seat 3).state = .ready ∧ t.race.entryList.Nodup ∧
          (t.seat 3).cabinet.map (·.id) = some 7 := by decide +kernel

/-- The departures of R45 from lists as a departure leaves them. -/
theorem witness_Departed :
    let s (x : RaceState) (l : List PortId) (other : SeatState) := seated 1 other (entrants x l started)
    (s .lobby [] .linked).race.entryList = [] ∧ (s .grid [] .linked).race.state = .grid ∧
      (∀ r ∈ (s .grid [1] .ready).race.entryList, ((s .grid [1] .ready).seat r).state = .ready) ∧
      (s .grid [1] .ready).race.entryList ≠ [] ∧ (s .lobby [1] .entered).race.entryList ≠ [] ∧
      ((s .grid [1] .entered).seat 1).state ≠ .ready ∧ (s .void [1] .entered).race.state ≠ .grid := by decide +kernel

theorem witness_HelloInTheField :
    let s (x : SeatState) (id : Byte) := seated 3 x (asks 3 .hello (helloOf id) (racing .racing [3] started))
    let stalled := (s .stalled 7).setSeat 3 { (s .stalled 7).seat 3 with dropTimer := some 5 }
    takes (s .running 8) .hello (helloOf 8) = true ∧ ((s .running 8).seat 3).state.inField = true ∧
      takes (s .finished 7) .hello (helloOf 7) = true ∧ takes (s .retired 7) .hello (helloOf 7) = true ∧
      takes (s .running 7) .hello (helloOf 7) = true ∧ (s .running 7).race.state.live = true ∧
      takes stalled .hello (helloOf 7) = true ∧ (stalled.seat 3).dropTimer ≠ none := by decide +kernel

/-- Track 1, 4 km, 3 laps. -/
def enterPayload : List Byte := [0, 1, 6, 0x1A, 0x80, 3]

theorem witness_EnterJoinsTheRace :
    let idle := asking .enter enterPayload started
    let second := asking .enter enterPayload (entrants .lobby [1] started)
    let eighth := asking .enter enterPayload (entrants .lobby [0, 1, 2, 4, 5, 6, 7] started)
    let other := asking .enter (enterPayload.set 0 1) (entrants .lobby [1] started)
    enterPayload.length = 6 ∧ readDescriptor .highFirst enterPayload = track ∧ track.inRange = true ∧
      takes idle .enter enterPayload = true ∧ idle.race.state = .idle ∧ (idle.seat 3).state = .linked ∧
      takes second .enter enterPayload = true ∧ second.race.descriptor = some track ∧ 3 ∉ second.race.entryList ∧
      takes eighth .enter enterPayload = true ∧ eighth.race.entryList.length = 7 ∧ eighth.settings.minimumField ≤ 8 ∧
      takes other .enter (enterPayload.set 0 1) = true ∧
      other.race.descriptor ≠ some (readDescriptor .highFirst (enterPayload.set 0 1)) ∧
      (readDescriptor .highFirst (enterPayload.set 0 1)).inRange = true := by decide +kernel

theorem witness_ReadyNeedsATrackingFit :
    let s := seated 3 .entered (seated 1 .entered (asks 3 .ready [] (entrants .grid [3, 1] started)))
    let tracking := s.setFit 3 (fitAt .fitTracking 1 0 4266752 15)
    let last := seated 1 .ready tracking
    takes s .ready [] = true ∧ s.race.state = .grid ∧ (s.seat 3).state = .entered ∧ (s.fit 3).phase ≠ .fitTracking ∧
      takes tracking .ready [] = true ∧ (tracking.fit 3).phase = .fitTracking ∧ 1 ∈ tracking.race.entryList ∧
      (tracking.seat 1).state ≠ .ready ∧ takes last .ready [] = true ∧ (last.seat 3).state = .entered ∧
      (last.fit 3).phase = .fitTracking ∧ last.race.entryList ≠ [] ∧ last.race.entryList.Nodup ∧
      (∀ r ∈ last.race.entryList, r ≠ 3 → (last.seat r).state = .ready) := by decide +kernel

/-- In LOBBY and in GRID: the last entrant, one before an entrant that is not READY, and one before a READY entrant. -/
theorem witness_WithdrawFromTheEntryList :
    let s (x : RaceState) (l : List PortId) (other : SeatState) :=
      seated 3 .entered (seated 1 other (asks 3 .withdraw [] (entrants x l started)))
    ∀ t ∈ [s .lobby [3, 1] .entered, s .lobby [3] .linked, s .grid [3] .linked, s .grid [3, 1] .entered,
      s .grid [3, 1] .ready],
      takes t .withdraw [] = true ∧ (t.seat 3).state = .entered ∧ (t.race.state = .lobby ∨ t.race.state = .grid) ∧
        t.race.entryList.Nodup := by decide +kernel

/-- In RACING with another car running and with none; in COUNTDOWN the last seat of the field; in RESULTS with another seat to be
waited for and with none. -/
theorem witness_WithdrawFromTheField :
    let s := seated 3 .running (seated 1 .running (asks 3 .withdraw [] (racing .racing [3, 1] started)))
    let late := linkUp 1 (seated 3 .finished (seated 1 .finished (asks 3 .withdraw [] (racing .results [3, 1] started))))
    takes s .withdraw [] = true ∧ s.race.state.live = true ∧ (s.seat 3).state = .running ∧
      carOf 1 ∈ s.race.fieldList ∧ (s.seat 1).state = .running ∧ takes late .withdraw [] = true ∧
      late.race.state = .results ∧ (late.seat 3).state.inField = true ∧ late.counted 1 = true ∧ late.portUp 1 = true ∧
      late.race.seenMarks[1] ≠ some true ∧
      (∀ x ∈ [(RaceState.racing, RaceState.results), (.countdown, .void)],
        let last := seated 3 .running (seated 1 .retired (asks 3 .withdraw [] (racing x.1 [3, 1] started)))
        takes last .withdraw [] = true ∧ last.race.state.live = true ∧ (last.seat 3).state = .running ∧
          (run .withdraw last).race.state = x.2) ∧
      (let final := seated 3 .finished (seated 1 .finished (asks 3 .withdraw [] (racing .results [3, 1] started)))
       takes final .withdraw [] = true ∧ final.race.state = .results ∧ (final.seat 3).state.inField = true ∧
         (∀ r : PortId, r ≠ 3 → final.counted r = true → final.portUp r = true → final.race.seenMarks[r] = some true) ∧
         (run .withdraw final).race.state = .idle) := by decide +kernel

/-- At exactly the minimum field, and one below it. -/
theorem witness_LobbyExpiryClosesTheLobby :
    let s (l : List PortId) : State :=
      let t := entrants .lobby l started
      { t with race := { t.race with lobbyTimer := some 0 } }
    (s [0, 1]).resetHeld = false ∧ expired (s [0, 1]).now (s [0, 1]).race.lobbyTimer = true ∧
      (s [0, 1]).race.state = .lobby ∧ (s [0, 1]).settings.minimumField ≤ (s [0, 1]).race.entryList.length ∧
      (s [0]).race.entryList.length < (s [0]).settings.minimumField := by decide +kernel

/-- Two READY of three entrants, and one. -/
theorem witness_GridExpiryClosesTheGrid :
    let s (x : SeatState) : State :=
      let t := seated 0 .ready (seated 1 x (seated 2 .entered (entrants .grid [0, 1, 2] started)))
      { t with race := { t.race with gridTimer := some 0 } }
    let ready (t : State) := t.race.entryList.filter fun p => (t.seat p).state == .ready
    (s .ready).resetHeld = false ∧ expired (s .ready).now (s .ready).race.gridTimer = true ∧
      (s .ready).race.state = .grid ∧ (s .ready).race.entryList.Nodup ∧
      (s .ready).settings.minimumField ≤ (ready (s .ready)).length ∧
      (ready (s .entered)).length < (s .entered).settings.minimumField := by decide +kernel

/-- A race with both its end timers due. -/
def ending (x : RaceState) : State :=
  let t := linkUp 0 (seated 0 .running (racing x [0] started))
  { t with race := { t.race with finishWindowTimer := some 0, raceLimitTimer := some 0 } }

theorem witness_ExpiryEndsTheRace :
    (ending .finishing).resetHeld = false ∧ (ending .finishing).counted 0 = true ∧ (ending .finishing).portUp 0 = true ∧
      expired (ending .finishing).now (ending .finishing).race.finishWindowTimer = true ∧
      (ending .racing).counted 0 = true ∧ (ending .racing).portUp 0 = true ∧
      expired (ending .racing).now (ending .racing).race.raceLimitTimer = true ∧
      (let alone : State := { ending .racing with ports := started.ports }
       (∀ p, alone.counted p = true → alone.portUp p = false) ∧
         (run .raceLimitExpiry alone).race.state = .idle) := by decide +kernel

theorem witness_ExpiryReturnsTheRaceToIdle :
    let s (x : RaceState) : State :=
      let t := racing x [0] started
      { t with race := { t.race with resultsHoldTimer := some 0, voidTimer := some 0 } }
    (s .results).resetHeld = false ∧ expired (s .results).now (s .results).race.resultsHoldTimer = true ∧
      (s .results).race.state = .results ∧ expired (s .void).now (s .void).race.voidTimer = true ∧
      (s .void).race.state = .void := by decide +kernel

/-- Seat 3 in a state of a race, with both its timers due. -/
def timed (x : SeatState) (s : State) : State :=
  let t := seated 3 x s
  t.setSeat 3 { t.seat 3 with silenceTimer := some 0, dropTimer := some 0, frozenProgress := some 5 }

theorem witness_SilenceExpiryStallsTheSeat :
    let grid := timed .ready (entrants .grid [3] started)
    let live := timed .running (racing .countdown [3] started)
    grid.resetHeld = false ∧ expired grid.now (grid.seat 3).silenceTimer = true ∧ (grid.seat 3).state = .ready ∧
      grid.race.state = .grid ∧ expired live.now (live.seat 3).silenceTimer = true ∧ (live.seat 3).state = .running ∧
      live.race.state.live = true := by decide +kernel

theorem witness_DropExpiryRetiresTheSeat :
    let s := timed .stalled (seated 1 .running (racing .racing [3, 1] started))
    s.resetHeld = false ∧ expired s.now (s.seat 3).dropTimer = true ∧ (s.seat 3).state = .stalled ∧
      (s.seat 3).frozenProgress = some 5 ∧ s.race.state.live = true ∧ carOf 1 ∈ s.race.fieldList ∧
      (s.seat 1).state = .running ∧
      ∀ x ∈ [(RaceState.racing, RaceState.results), (.countdown, .void)],
        let last := timed .stalled (linkUp 1 (seated 1 .retired (racing x.1 [3, 1] started)))
        expired last.now (last.seat 3).dropTimer = true ∧ (last.seat 3).state = .stalled ∧ last.race.state.live = true ∧
          (run (.dropExpiry 3) last).race.state = x.2 := by decide +kernel

theorem witness_AnchorAgeExpiryEmptiesTheFit :
    let s := started.setFit 3 { fitAt .fitTracking 1 0 4266752 15 with ageTimer := some 0 }
    s.resetHeld = false ∧ expired s.now (s.fit 3).ageTimer = true := by decide +kernel

/-- A FULL report of frame 2, round-seen 1, lap 0, distance 150, speed 5,000. -/
def reportOf (lap : Byte) : Inbound :=
  { stamp := 300066900, order := .highFirst, payload := [0, 2, 0, 1, lap, 0, 0, 150, 0x13, 0x88] }

/-- Anchors at the ends of the four classes of a report of frame 2. -/
theorem witness_ReportReachesTheFitFirst :
    let s (frame : FrameCount) := (seated 3 .linked (linkUp 3 started)).setFit 3 (fitAt .fitTracking frame 300050000 4266752 15)
    let r (frame : FrameCount) := ((s frame).fit 3).take 2 300066900 (s frame).now
    let advance (frame : FrameCount) : Nat := ((2 : FrameCount) - frame).toNat
    ((s 2).port 3).link = .up ∧ ((linkUp 3 started).seat 3).state = .vacant ∧ (reportOf 0).payload.length = 10 ∧
      ((reportOf 0).payload.drop 1).length ≠ 10 ∧ advance 2 = 0 ∧ 32768 ≤ advance 32770 ∧
      (r 1).kind ≠ .duplicate ∧ (r 1).kind ≠ .outOfOrder ∧ ((s 1).seat 3).state = .linked ∧
      (s 1).resetHeld = false := by decide +kernel

/-- The classes meet at advances 0, 1, 16, 17, 32,767 and 32,768, and at an error of exactly the gate. -/
theorem witness_FitTakesAReport :
    let f := fitAt .fitTracking 100 80000000 4266752 15
    let advance (frame : FrameCount) : Nat := (frame - (100 : FrameCount)).toNat
    let two : Fit := { f with outliers := 2 }
    f.phase ≠ .fitNone ∧ f.anchor = some { frame := 100, time := 80000000 } ∧ (State.reset.fit 0).phase = .fitNone ∧
      advance 100 = 0 ∧ advance 101 = 1 ∧ advance 116 = 16 ∧ advance 117 = 17 ∧ advance 32867 = 32767 ∧
      advance 32868 = 32768 ∧ diff 80018167 80016667 = 1500 ∧ f.outliers < 2 ∧ 2 ≤ two.outliers ∧
      (f.take 101 80018167 0).kind = .inGate ∧ (f.take 101 80018168 0).kind = .outlier ∧
      (f.take 101 80015167 0).kind = .inGate ∧ (two.take 101 80018168 0).kind = .resync := by decide +kernel

/-- A RUNNING seat 3 past the green, its fit tracking. -/
def runner (high : Lap) : State :=
  let t := (seated 3 .running (linkUp 3 (racing .racing [3] (atTime 300067000 started)))).setFit 3
    (fitAt .fitTracking 1 300050000 4266752 15)
  (t.setSeat 3 { t.seat 3 with gridProgress := some 0 }).setLapRecord 3 { t.lapRecord 3 with highWater := some high }

/-- A port that is not UP; a RUNNING seat whose lap brings no crossing, one, two (from PRE_LINE into lap 1), and one into lap N
with another car running; a lap above N, implausible; the other states of the seat; and COUNTDOWN, with a report before the green and beyond the tolerance. -/
theorem witness_ReportBecomesTheCarState :
    let s := runner (.count 0)
    let r := (s.fit 3).take 2 300066900 s.now
    let last := seated 1 .running (runner (.count 2))
    let field : State := { last with race := { last.race with fieldList := [3, 1] } }
    let early : State := { s with race := { s.race with state := .countdown, epoch := some 300100000 } }
    (early.race.state.live = true ∧ (early.seat 3).state = .running ∧ (early.seat 3).jumped = false ∧
      (r.fitted.map fun t => decide (early.raceTime t < 0)) = some true ∧
      (0 : Int) + early.settings.jumpTolerance < 150) ∧
    (((runner .preLine).lapRecord 3).highWater = some .preLine ∧ (Lap.count 1).number = Lap.preLine.number + (2 : Nat) ∧
      ((run (.report 3 (reportOf 1)) (runner .preLine)).lapRecord 3).history.length = 1) ∧
    s.resetHeld = false ∧ (started.port 3).link ≠ .up ∧ (s.port 3).link = .up ∧ (s.seat 3).cabinet = some cabinet ∧
      (s.seat 3).state = .running ∧ s.race.descriptor = some track ∧ s.race.state.live = true ∧
      (reportOf 0).payload.length = cabinet.form.length ∧ r.fitted.isSome = true ∧
      (r.fitted.map fun t => decide (0 ≤ s.raceTime t)) = some true ∧ (s.car 3).latest = none ∧
      (Lap.count 0).number ≤ track.lapCount ∧ ¬((Lap.count 4).number ≤ track.lapCount) ∧ s.race.state ≠ .results ∧
      (s.lapRecord 3).highWater = some (.count 0) ∧ (Lap.count 0).number ≤ (Lap.count 0).number ∧
      ((1 : Nat) : Int) = (Lap.count 0).number + 1 ∧ 1 ≠ track.lapCount ∧ (field.lapRecord 3).highWater = some (.count 2) ∧
      ((3 : Nat) : Int) = (Lap.count 2).number + 1 ∧ carOf 1 ∈ field.race.fieldList ∧ (field.seat 1).state = .running := by
  decide +kernel

theorem witness_ReportBecomesTheCarState_states :
    ∀ x ∈ [SeatState.entered, .ready, .finished, .retired, .stalled],
      let t := runner (.count 0)
      let s := t.setSeat 3 { t.seat 3 with state := x, stallPhase := if x = .stalled then some .silent else none }
      (s.port 3).link = .up ∧ (s.seat 3).state ≠ .vacant ∧ (s.seat 3).state ≠ .linked ∧ (s.seat 3).cabinet = some cabinet ∧
        (s.seat 3).state = x ∧ ((s.fit 3).take 2 300066900 s.now).fitted.isSome = true ∧
        (x = .stalled → (s.seat 3).stallPhase = some .silent) := by decide +kernel

theorem witness_RecoveryAndJumpStart :
    let s := runner (.count 0)
    let silent := s.setSeat 3 { s.seat 3 with state := .stalled, stallPhase := some .silent }
    let recovering (run : Nat) := s.setSeat 3 { s.seat 3 with state := .stalled, stallPhase := some .recovering, recoveryRun := some run }
    let early : State := { s with race := { s.race with epoch := some 300067000 } }
    s.race.state.live = true ∧ (silent.seat 3).stallPhase = some .silent ∧ ((recovering 2).seat 3).recoveryRun = some 2 ∧
      ((recovering 3).seat 3).recoveryRun = some 3 ∧ early.raceTime 300066999 < 0 ∧ 0 ≤ early.raceTime 300067000 ∧
      (0 : Int) + early.settings.jumpTolerance < 51 ∧ (50 : Int) ≤ 0 + early.settings.jumpTolerance ∧
      (early.seat 3).jumped = false ∧ (early.seat 3).gridProgress = some 0 ∧ (early.seat 3).state = .running := by
  decide +kernel

/-- Round-seen at k_res, and one before it. -/
theorem witness_RoundSeenReleasesTheResults :
    let s : State :=
      let t := linkUp 1 (seated 3 .finished (seated 1 .finished (racing .results [3, 1] started)))
      { t with race := { t.race with resultsRound := some 5, seenMarks := t.race.seenMarks.set 3 (some false) } }
    let seen : State := { s with race := { s.race with seenMarks := s.race.seenMarks.set 1 (some true) } }
    s.race.state = .results ∧ (s.seat 3).state.inField = true ∧ ((5 : RoundNo) - 5).toNat < 32768 ∧
      32768 ≤ ((4 : RoundNo) - 5).toNat ∧ s.allSeen = false ∧ s.counted 1 = true ∧ s.portUp 1 = true ∧
      s.race.seenMarks[1] ≠ some true ∧ (∀ r : PortId, r ≠ 3 → seen.counted r = true → seen.portUp r = true →
        seen.race.seenMarks[r] = some true) := by decide +kernel

/-- Intervals of 1 and 2,000,000 µs, and the line at q1 and at q0. -/
theorem witness_CrossingTimeInterpolates :
    diff 1 0 = 1 ∧ diff 2000000 0 = 2000000 ∧
      crossingTime 400000 1 (some (carAt 0 (.count 0) 399999)) (carAt 2000000 (.count 1) 0) = (2000000, true) ∧
      crossingTime 400000 1 (some (carAt 0 (.count 1) 0)) (carAt 10 (.count 1) 5) = (10, false) ∧
      crossingTime 400000 1 (some (carAt 0 (.count 0) 399999)) (carAt 2000001 (.count 1) 0) = (2000001, false) := by
  decide +kernel

/-- Laps 1, 2 and 3 of 3, from E and from the last crossing; the same before the green; and lap 3 with every other car done. -/
theorem witness_CrossingRecordsLapAndFinish :
    let t := seated 1 .running (runner (.count 1))
    let s := ({ t with race := { t.race with fieldList := [3, 1] } } : State).setLapRecord 3
      { t.lapRecord 3 with lastCrossing := some { lap := 1, time := 95308216, resolved := true } }
    (s.lapRecord (carOf 3)).lastCrossing = some { lap := 1, time := 95308216, resolved := true } ∧
      s.race.epoch = some 0 ∧ (1 : PortId) ≠ 3 ∧ carOf 1 ∈ s.race.fieldList ∧ (s.seat 1).state = .running ∧
      s.race.state.live = true ∧ 1 ≠ s.lapCount ∧ 2 ≠ s.lapCount ∧ 3 = s.lapCount ∧
      (let early : State := { s with race := { s.race with state := .countdown } }
       early.race.state.live = true ∧ ¬(early.race.state ≠ .countdown) ∧ early.race.epoch = some 0 ∧
         (early.lapRecord (carOf 3)).lastCrossing.isSome = true) ∧
      (let last := seated 1 .retired s
       1 ≤ last.lapCount ∧ last.race.state.live = true ∧ last.race.epoch = some 0 ∧
         (recordCrossing 3 3 300066900 true false true last).race.state = .results) := by decide +kernel

theorem witness_FinishInsertionKeepsTheOrder :
    finishOrdered [{ car := 4, raw := 186025500, corrected := 186025500 }, { car := 2, raw := 183410000, corrected := 188410000 }] =
      true := by decide +kernel

/-- The pacer reaches its line into lap `k` of 3, under a mode. -/
def pacing (mode : PacerMode) (k : Nat) : State :=
  let t := seated 1 .running (racing .racing [1, 8] (atTime (BitVec.ofNat 32 (k * 95000000)) started))
  let table := scaleProfile [{ share := 96, speed := 5000 }, { share := 64, speed := 2500 }, { share := 96, speed := 6000 }] 400000
  ({ t with
      race := { t.race with pacerMode := some mode }
      pacer := { scaled := some table, nextCrossing := some { lap := k, raceTime := k * 95000000 } } } : State).setLapRecord 8
    { t.lapRecord 8 with lastCrossing := some { lap := k - 1, time := BitVec.ofNat 32 ((k - 1) * 95000000), resolved := true } }

/-- Laps 1 and 2 under both modes and lap 3 under RANKED, with a cabinet car running; and the same with every cabinet car done. -/
theorem witness_PacerCrossesOnTime :
    ∀ m ∈ [(PacerMode.running, 1), (.ranked, 1), (.running, 2), (.ranked, 2), (.ranked, 3)],
      let s := pacing m.1 m.2
      let k := m.2
      s.resetHeld = false ∧ s.race.state = .racing ∧ s.race.epoch = some 0 ∧ s.race.pacerMode = some m.1 ∧
        s.pacer.scaled.map (·.lapTime) = some 95000000 ∧
        s.pacer.nextCrossing = some { lap := k, raceTime := k * 95000000 } ∧ 1 ≤ k ∧
        ((k * 95000000 : Nat) : Int) ≤ diff s.now 0 ∧
        (s.lapRecord pacerCar).lastCrossing =
          some { lap := k - 1, time := 0 + BitVec.ofNat 32 ((k - 1) * 95000000), resolved := true } ∧
        carOf 1 ∈ s.race.fieldList ∧ (s.seat 1).state = .running ∧
        (run .pacerCrossing (linkUp 1 (seated 1 .finished s))).race.state = (if k = 3 then .results else .racing) := by
  decide +kernel

/-- Profiles of one segment and of eight; the first and the last microsecond of the one segment of lap 1, and the first of lap
2. -/
theorem witness_PacerProgressIsExactAndMonotone :
    let table := scaleProfile [{ share := 256, speed := 2000 }] 400000
    (table.lapTime = 200000000 ∧ ∀ g ∈ table.segments, g.startTime = 0 ∧ g.time = 200000000) ∧
    table.segments.length = 1 ∧
    table.view 400000 3 1 = { progress := 0, speed := 2000 } ∧
    table.view 400000 3 199999999 = { progress := 399999, speed := 2000 } ∧
    table.view 400000 3 200000000 = { progress := 400000, speed := 2000 } ∧
    profileSound [{ share := 256, speed := 100 }] = true ∧ profileSound (List.replicate 8 { share := 32, speed := 16383 }) = true ∧
      10000 ≤ track.lapLength := by decide +kernel

/-- RUNNING with a latest car state at the horizon and beyond it, RUNNING with none, the other states, and the pacer. -/
theorem witness_ProjectionStaysOnTheTrack :
    let s := racing .racing [3] (atTime 100000 started)
    let snap := s.snapshot 100000
    let car (x : SeatState) : SnapCar :=
      { car := 3, state := x, phase := none, latest := none, highWater := none, frozen := some (-400001)
        retireProgress := some 1200000, finish := none, best := none, jumped := false }
    let paced : State := { s with pacer := { scaled := some (scaleProfile s.settings.profile 400000), nextCrossing := none } }
    snap.descriptor = some track ∧ 1 ≤ track.lapLength ∧ 1 ≤ track.lapCount ∧ diff snap.instant 0 = 100000 ∧
      (3 : CarId) ≠ pacerCar ∧ (snap.rankingEntry 100000 (car .stalled)).projected = some (-400000) ∧
      (snap.rankingEntry 100000 (car .retired)).projected = some 1199999 ∧
      (snap.rankingEntry 100000 (car .finished)).projected = some 1200000 ∧
      (paced.snapshot 100000).pacerView = some { progress := 200, speed := 2000 } ∧
      ((paced.snapshot 100000).rankingEntry 100000 { car .running with car := pacerCar }).projected = some 200 := by
  decide +kernel

/-- Port 3 in TRAINING, with a training record. -/
def trainee (t : Training) : State := started.setPort 3 { started.port 3 with link := .training, training := some t }

def waitingProbe (probe errors : Nat) : Training :=
  { probe := probe, stage := .waiting, errors := errors, least := some 436, sentAt := 0, echoWait := some 0,
    retrainWait := some 0 }

/-- The port in DOWN, in TRAINING and in UP; hunting with the order the same in the start bit's microsecond; and a frame one
byte short of whole, and two. -/
theorem witness_BytesGainAndKeepLock :
    started.resetHeld = false ∧ (started.port 3).link = .down ∧ ((run (.byteReceived 3 0x55) started).port 3).link = .training ∧
      ((linkUp 3 started).port 3).link ≠ .down ∧ ((linkUp 3 started).port 3).receiver = .hunting ∧
      started.orderTrail[4][3] = .highFirst ∧ started.orderTrail[5][3] = .highFirst ∧
      ([0x10, 1, 9] : List Byte).length + 1 < 4 + (([0x10, 1, 9] : List Byte)[1]?.getD 0).toNat ∧
      ([0x10, 1, 9, 7] : List Byte) = 0x10 :: BitVec.ofNat 8 ([9] : List Byte).length :: ([9] ++ [7]) ∧
      (let s := trainee (waitingProbe 15 4)
       s.resetHeld = false ∧ (s.port 3).link = .training ∧ (s.port 3).training = some (waitingProbe 15 4) ∧
         expired s.now (waitingProbe 15 4).retrainWait = true) := by decide +kernel

theorem witness_ReceiverReadsBackEveryFrame : (List.replicate 255 (0xD3 : Byte)).length ≤ 255 ∧ ([] : List Byte).length ≤ 255 := by
  decide +kernel

theorem witness_FieldsReadBackInBothOrders : 65535 < 256 ^ 2 ∧ (-32768 : Int) ≤ -32768 ∧ (32767 : Int) ≤ 32767 := by decide

theorem witness_FramesAreCheckedAndHandedOn :
    let f (kind : Byte) : RxFrame := { stamp := 0, order := .highFirst, kind := kind, payload := [], crc := frameCrc kind [] }
    (∀ kind ∈ ([0x10, 0x30, 0x21, 0x26, 0x40] : List Byte), (f kind).crc = crc16 ((f kind).kind :: 0 :: (f kind).payload)) ∧
      ¬(0 : BitVec 16) = crc16 [0x10, 0] ∧ ((linkUp 3 started).port 3).link = .up ∧
      (∀ k : Fin 6, (0x40 : Byte).toNat ≠ 0x21 + k.val) ∧ (started.port 3).receiver = .hunting ∧
      (let s := linkUp 3 started
       (s.setPort 3 { s.port 3 with receiver := .reading 0 .highFirst [] }).resetHeld = false) := by decide +kernel

/-- At probe 14, the last before the end of the pass: a good echo, a mismatch, another number, no echo wait, a frame of the
wrong CRC, and a receiver within a frame. -/
theorem witness_EchoesResolveProbes :
    let t := waitingProbe 14 0
    let s := trainee t
    let reading := s.setPort 3 { s.port 3 with receiver := .reading 0 .highFirst [0x30] }
    let pattern := (List.range 32).map fun j => BitVec.ofNat 8 ((14 * 37 + j * 11) % 256)
    s.resetHeld = false ∧ (s.port 3).link = .training ∧ (s.port 3).training = some t ∧ t.probe < 15 ∧
      t.echoWait ≠ none ∧ expired s.now t.echoWait = true ∧ probePayload 14 = BitVec.ofNat 8 14 :: pattern ∧
      ([] : List Byte) ≠ pattern ∧ (3 : Byte).toNat ≠ t.probe ∧ ¬(0 : BitVec 16) = crc16 [0x30, 0] ∧
      (reading.port 3).receiver = .reading 0 .highFirst [0x30] ∧ (reading.port 3).training = some t ∧
      ((trainee { t with echoWait := none }).port 3).training.map (·.echoWait) = some none := by decide +kernel

/-- The outcomes at the edge of three and four probe errors. -/
theorem witness_TrainingPassEnds :
    ∀ errors ∈ [2, 3, 4],
      let t := waitingProbe 15 errors
      let s := trainee t
      s.resetHeld = false ∧ (s.port 3).link = .training ∧ (s.port 3).training = some t ∧ t.probe = 15 ∧
        t.echoWait ≠ none ∧ t.least = some 436 ∧ expired s.now t.echoWait = true ∧ ¬(0 : BitVec 16) = crc16 [0x30, 0] ∧
        (errors ≤ 2 ∨ 3 ≤ errors) ∧ (errors ≤ 3 ∨ 4 ≤ errors) := by decide +kernel

/-- Seat 3 LINKED, VACANT, RUNNING in a race, in RESULTS with another seat to be waited for and with none, and READY on the grid,
alone and before another, when its port's lock watch expires. -/
theorem witness_LossOfLockEmptiesThePort :
    let lost (s : State) : State := s.setPort 3 { s.port 3 with link := .up, lockWatch := some 0 }
    let running := lost (seated 3 .running (racing .racing [3] started))
    (lost started).resetHeld = false ∧ ((lost started).port 3).link ≠ .down ∧
      expired (lost started).now ((lost started).port 3).lockWatch = true ∧ ((lost started).seat 3).state = .vacant ∧
      ((lost (seated 3 .linked started)).seat 3).state = .linked ∧ (running.seat 3).state.inField = true ∧
      running.race.state ≠ .results ∧
      (let final := lost (seated 3 .finished (seated 1 .finished (racing .results [3, 1] started)))
       let awaited := linkUp 1 final
       (final.seat 3).state.inField = true ∧ final.race.state = .results ∧
         (∀ r : PortId, r ≠ 3 → final.counted r = true → final.portUp r = true → final.race.seenMarks[r] = some true) ∧
         (run (.lockWatchExpiry 3) final).race.state = .idle ∧ awaited.counted 1 = true ∧ awaited.portUp 1 = true ∧
         awaited.race.seenMarks[1] ≠ some true ∧ (run (.lockWatchExpiry 3) awaited).race.state = .results) ∧
      ∀ l ∈ [[3], [3, 1]],
        let grid := lost (seated 1 .ready (seated 3 .ready (entrants .grid l started)))
        (grid.port 3).link ≠ .down ∧ (grid.seat 3).state = .ready ∧ grid.race.entryList.Nodup := by decide +kernel

/-- UP with a reply and a ROUND, with a ROUND, with neither; DOWN; and TRAINING with a probe due and one sent. -/
theorem witness_TransmitterChoosesTheNextFrame :
    let q := (linkUp 3 started).port 3
    let up (reply : Option ReplySlot) (round : Option (List Byte)) : Port := { q with reply := reply, round := round }
    let t (stage : ProbeStage) : Training :=
      { probe := 0, stage := stage, errors := 0, least := none, sentAt := 0, echoWait := none, retrainWait := none }
    let training (stage : ProbeStage) (sending : Sending) : Port := { q with link := .training, training := some (t stage), sending := sending }
    0 ≤ diff started.now q.sendEnds ∧ q.sending = .filler ∧ q.link = .up ∧
      (up (some { payload := [1], carriesOverrun := false }) (some [2])).reply.isSome = true ∧
      (up none (some [2])).reply = none ∧ (up none (some [2])).round = some [2] ∧ (up none none).round = none ∧
      (started.port 3).link = .down ∧ (training .due .filler).training = some (t .due) ∧ (t .due).stage = .due ∧
      (training .sending (.probe [1])).sending = .probe [1] ∧ (t .sending).stage = .sending := by decide +kernel

end Sys2Proof.Tests
end

section
/-! O42: the clock fit unit. What `Fit.take` does by the frame advance (R67 to R69, R77) and what a normal report does by its
error against the gate (R70 to R76), each as one equation to the record of that outcome. -/

namespace Sys2Proof.Machine

/-! ## Classification by the frame advance (R67 to R69, R77) -/

section
variable {f : Fit} {a : Anchor} {frame : FrameCount} {observed now : HubTime}

theorem Fit.take_eq_first (hphase : f.phase = .fitNone) : f.take frame observed now = f.first frame observed now := by
  simp only [Fit.take, hphase]

/-- The classification of R68 as one equation; each class below reads its own branch of it. -/
theorem Fit.take_of_anchor (hphase : f.phase ≠ .fitNone) (hanchor : f.anchor = some a) :
    f.take frame observed now =
      if (frame - a.frame).toNat = 0 then { fit := f, kind := .duplicate, fitted := none }
      else if (frame - a.frame).toNat ≤ 16 then f.normal a frame (frame - a.frame).toNat observed now
      else if (frame - a.frame).toNat ≤ 32767 then f.resync frame observed now
      else { fit := f, kind := .outOfOrder, fitted := none } := by
  cases hp : f.phase with
  | fitNone => exact absurd hp hphase
  | fitSettling => simp only [Fit.take, hp, hanchor]
  | fitTracking => simp only [Fit.take, hp, hanchor]

theorem Fit.take_duplicate (hphase : f.phase ≠ .fitNone) (hanchor : f.anchor = some a)
    (hzero : (frame - a.frame).toNat = 0) :
    f.take frame observed now = { fit := f, kind := .duplicate, fitted := none } := by
  rw [Fit.take_of_anchor hphase hanchor, if_pos hzero]

theorem Fit.take_outOfOrder (hphase : f.phase ≠ .fitNone) (hanchor : f.anchor = some a)
    (hback : 32768 ≤ (frame - a.frame).toNat) :
    f.take frame observed now = { fit := f, kind := .outOfOrder, fitted := none } := by
  rw [Fit.take_of_anchor hphase hanchor, if_neg (by omega), if_neg (by omega), if_neg (by omega)]

theorem Fit.take_gap (hphase : f.phase ≠ .fitNone) (hanchor : f.anchor = some a)
    (hlow : 17 ≤ (frame - a.frame).toNat) (hhigh : (frame - a.frame).toNat ≤ 32767) :
    f.take frame observed now = f.resync frame observed now := by
  rw [Fit.take_of_anchor hphase hanchor, if_neg (by omega), if_neg (by omega), if_pos hhigh]

theorem Fit.take_eq_normal (hphase : f.phase ≠ .fitNone) (hanchor : f.anchor = some a)
    (hlow : 1 ≤ (frame - a.frame).toNat) (hhigh : (frame - a.frame).toNat ≤ 16) :
    f.take frame observed now = f.normal a frame (frame - a.frame).toNat observed now := by
  rw [Fit.take_of_anchor hphase hanchor, if_neg (by omega), if_pos hhigh]

end

/-! ## A normal report against the gate (R70 to R76) -/

/-- R71: the gate of a fit, by its phase. -/
theorem gateOf_tracking (f : Fit) :
    gateOf (f.phase == .fitTracking) = if f.phase = .fitTracking then 1500 else 4000 := by
  simp only [gateOf, beq_iff_eq]

section
variable {f : Fit} {a : Anchor} {frame : FrameCount} {advance period : Nat} {observed now : HubTime}

theorem Fit.normal_inGate (hperiod : f.period = some period)
    (hlow : -gateOf (f.phase == .fitTracking) ≤ diff observed (predict a period advance))
    (hhigh : diff observed (predict a period advance) ≤ gateOf (f.phase == .fitTracking)) :
    f.normal a frame advance observed now = f.inGateUpdate frame advance (predict a period advance)
      (diff observed (predict a period advance)) now := by
  simp only [Fit.normal, hperiod, Option.getD_some, if_pos (And.intro hlow hhigh)]

/-- R75, R76: beyond the gate the run of outliers decides between coasting and a resync. -/
theorem Fit.normal_beyond_gate (hperiod : f.period = some period)
    (hbeyond : diff observed (predict a period advance) < -gateOf (f.phase == .fitTracking) ∨
      gateOf (f.phase == .fitTracking) < diff observed (predict a period advance)) :
    f.normal a frame advance observed now =
      if 2 ≤ f.outliers then f.resync frame observed now else f.coast frame (predict a period advance) now := by
  have hout : ¬(-gateOf (f.phase == .fitTracking) ≤ diff observed (predict a period advance) ∧
      diff observed (predict a period advance) ≤ gateOf (f.phase == .fitTracking)) := by omega
  simp only [Fit.normal, hperiod, Option.getD_some, if_neg hout]

/-- R73: the band of the period, its bounds as integers. -/
theorem clampPeriod_eq (nominal : Nat) (moved : Int) :
    clampPeriod nominal moved =
      (max ((nominal : Int) - (nominal / 32 : Nat)) (min ((nominal : Int) + (nominal / 32 : Nat)) moved)).toNat := by
  have hlow : ((nominal - nominal / 32 : Nat) : Int) = (nominal : Int) - (nominal / 32 : Nat) :=
    Nat.cast_sub (Nat.div_le_self nominal 32)
  rw [clampPeriod, clampInt, hlow, Nat.cast_add]

/-- R72 to R74: the record of an in-gate update, its gains as the divisors 2 or 8 of the error and 8 or 64 of the period
step. -/
theorem Fit.inGateUpdate_eq {nominal : Nat} (hperiod : f.period = some period) (hnominal : f.nominal = some nominal)
    (predicted : HubTime) (e : Int) :
    f.inGateUpdate frame advance predicted e now =
      { fit :=
          { phase := if f.phase = .fitTracking ∨ 8 ≤ min 15 (f.inGate + 1) then .fitTracking else .fitSettling
            anchor := some
              { frame := frame
                time := predicted + BitVec.ofInt 32 (Int.tdiv e (if f.phase = .fitTracking then 8 else 2)) }
            period := some (clampPeriod nominal
              (period + Int.tdiv (e * 256) (advance * (if f.phase = .fitTracking then 64 else 8))))
            nominal := some nominal
            inGate := min 15 (f.inGate + 1), outliers := 0, ageTimer := startTimer now anchorAgeLimit }
        kind := .inGate
        fitted := some (predicted + BitVec.ofInt 32 (Int.tdiv e (if f.phase = .fitTracking then 8 else 2))) } := by
  by_cases htrack : f.phase = .fitTracking <;>
    simp [Fit.inGateUpdate, htrack, hperiod, hnominal, shiftTime, phaseGain, periodGain, bump]

end

/-- Settles O42: the classes of R68 one by one, then a normal report by its error against the gate. -/
theorem fitTakesAReport : Obligations.FitTakesAReport := by
  intro f frame observed now age anchored
  refine ⟨Fit.take_eq_first, ?_⟩
  intro a hphase hanchor advance
  refine ⟨Fit.take_duplicate hphase hanchor, Fit.take_outOfOrder hphase hanchor, Fit.take_gap hphase hanchor, ?_⟩
  intro period nominal hperiod hnominal hlow hhigh tracking predicted e gate
  have hgate : gateOf (f.phase == .fitTracking) = gate := gateOf_tracking f
  have hnormal : f.take frame observed now = f.normal a frame advance observed now :=
    Fit.take_eq_normal hphase hanchor hlow hhigh
  refine ⟨fun habove hbelow => ?inGate, fun hbeyond hfew => ?coast, fun hbeyond hthird => ?resync⟩
  case inGate =>
    rw [← hgate] at habove hbelow
    rw [hnormal, Fit.normal_inGate hperiod habove hbelow, Fit.inGateUpdate_eq hperiod hnominal, clampPeriod_eq]
    rfl
  case coast =>
    rw [← hgate] at hbeyond
    rw [hnormal, Fit.normal_beyond_gate hperiod hbeyond, if_neg (Nat.not_le.mpr hfew)]
    rfl
  case resync =>
    rw [← hgate] at hbeyond
    rw [hnormal, Fit.normal_beyond_gate hperiod hbeyond, if_pos hthird]
    rfl

end Sys2Proof.Machine
end

section
/-! O52: the ranking (R106 to R111). `climb` and `insertRetired` are the library's `takeWhile`/`dropWhile` split and ordered
insertion; what a ranking's three groups are follows from that. -/

namespace Sys2Proof.Machine

/-! ## Taking one car of the running group (R108, R109) -/

/-- R108. -/
theorem Contender.beats_iff (margin : Nat) (a b : Contender) :
    a.beats margin b = true ↔ a.stalled = false ∧ b.progress + margin < a.progress := by
  simp [Contender.beats]

/-- R109 step 2: the cars passed are the longest run directly above the bottom that `c` beats. -/
theorem climb_eq_takeWhile_dropWhile (margin : Nat) (c : Contender) (above : List Contender) :
    climb margin c above =
      (above.takeWhile (c.beats margin) ++ c :: above.dropWhile (c.beats margin),
        (above.takeWhile (c.beats margin)).map (·.entry.car)) := by
  induction above with
  | nil => rfl
  | cons x above ih =>
    by_cases hbeats : c.beats margin x = true
    · simp [climb, hbeats, ih]
    · simp [climb, hbeats]

theorem climb_passes_beaten_run (margin : Nat) (c : Contender) (above : List Contender) :
    ∃ passed rest, above = passed ++ rest ∧ (climb margin c above).1 = passed ++ c :: rest ∧
      (climb margin c above).2 = passed.map (·.entry.car) ∧ (∀ x ∈ passed, c.beats margin x = true) ∧
      ∀ x ∈ rest.head?, c.beats margin x = false := by
  rw [climb_eq_takeWhile_dropWhile]
  refine ⟨_, _, List.takeWhile_append_dropWhile.symm, rfl, rfl, fun x hx => List.mem_takeWhile_imp hx, ?_⟩
  intro x hx
  have hfirst := List.head?_dropWhile_not (c.beats margin) above
  rwa [Option.mem_def.1 hx] at hfirst

/-- R108: a STALLED car passes nobody. -/
theorem not_stalled_of_mem_climb {margin : Nat} {c : Contender} {above : List Contender} {d : CarId}
    (hd : d ∈ (climb margin c above).2) : c.stalled = false := by
  obtain ⟨passed, -, -, -, hpassed, hbeaten, -⟩ := climb_passes_beaten_run margin c above
  rw [hpassed] at hd
  obtain ⟨x, hx, -⟩ := List.mem_map.1 hd
  exact ((Contender.beats_iff margin c x).1 (hbeaten x hx)).1

/-! ## The insertion of the whole group (R109) -/

theorem insertAll_cons (margin : Nat) (c : Contender) (rest built : List Contender) :
    insertAll margin (c :: rest) built =
      ((insertAll margin rest (climb margin c built).1).1,
        (climb margin c built).2.map (fun d => (c.entry.car, d)) ++
          (insertAll margin rest (climb margin c built).1).2) := rfl

/-- Every move is made by a car of the group that is not STALLED. -/
theorem insertAll_mover (margin : Nat) (cars : List Contender) :
    ∀ built, ∀ m ∈ (insertAll margin cars built).2, ∃ a ∈ cars, a.entry.car = m.1 ∧ a.stalled = false := by
  induction cars with
  | nil => intro built m hm; cases hm
  | cons c rest ih =>
    intro built m hm
    rw [insertAll_cons] at hm
    rcases List.mem_append.1 hm with hnow | hlater
    · obtain ⟨d, hd, rfl⟩ := List.mem_map.1 hnow
      exact ⟨c, List.mem_cons_self, rfl, not_stalled_of_mem_climb hd⟩
    · obtain ⟨a, ha, hmover⟩ := ih _ m hlater
      exact ⟨a, List.mem_cons_of_mem c ha, hmover⟩

/-! ## The RETIRED cars (R111) -/

theorem Contender.retiredBefore_iff (a b : Contender) :
    a.retiredBefore b = true ↔
      b.progress < a.progress ∨ (a.progress = b.progress ∧ a.entry.car ≤ b.entry.car) := by
  simp [Contender.retiredBefore]

theorem Contender.retiredBefore_total (a b : Contender) :
    a.retiredBefore b = true ∨ b.retiredBefore a = true := by
  simp only [retiredBefore_iff, Fin.le_def]
  omega

theorem Contender.retiredBefore_trans (a b c : Contender) (hab : a.retiredBefore b = true)
    (hbc : b.retiredBefore c = true) : a.retiredBefore c = true := by
  simp only [retiredBefore_iff, Fin.le_def] at *
  omega

theorem insertRetired_eq_orderedInsert (c : Contender) (l : List Contender) :
    insertRetired c l = l.orderedInsert (fun a b => a.retiredBefore b = true) c := by
  induction l with
  | nil => rfl
  | cons x rest ih => rw [insertRetired, ih, List.orderedInsert_cons]

theorem insertRetired_pairwise (c : Contender) {l : List Contender}
    (hl : l.Pairwise fun a b => a.retiredBefore b = true) :
    (insertRetired c l).Pairwise fun a b => a.retiredBefore b = true := by
  have : Std.Total fun a b : Contender => a.retiredBefore b = true := ⟨Contender.retiredBefore_total⟩
  have : IsTrans Contender fun a b => a.retiredBefore b = true := ⟨Contender.retiredBefore_trans⟩
  rw [insertRetired_eq_orderedInsert]
  exact hl.orderedInsert c l

theorem foldr_insertRetired_pairwise (l : List Contender) :
    (l.foldr insertRetired []).Pairwise fun a b => a.retiredBefore b = true := by
  induction l with
  | nil => exact List.Pairwise.nil
  | cons c rest ih => exact insertRetired_pairwise c ih

/-! ## The ranking (R106) -/

/-- Settles O52: the climb as a `takeWhile` split, the insertion car by car, and the three groups of a ranking. -/
theorem insertionMovesPastBeatenCars : Obligations.InsertionMovesPastBeatenCars := by
  refine ⟨Contender.beats_iff, climb_passes_beaten_run, fun margin cars built => ?insertion,
    fun margin c rest built => ⟨rfl, insertAll_cons margin c rest built⟩, ?ranking⟩
  case insertion => exact ⟨insertAll_perm margin cars built, insertAll_mover margin cars built⟩
  case ranking =>
    intro snap horizon margin previous contender cars finished running group
    let retired := (cars.filter fun x => x.state == .retired).map contender
    refine ⟨retired.foldr insertRetired [], ?groups, foldr_insertRetired_perm retired, ?ordered⟩
    case groups =>
      have hfinished : (finished.map contender).map (·.entry) = finished.map (snap.rankingEntry horizon) :=
        List.map_map
      rw [← hfinished, ← List.map_append, ← List.map_append]
      rfl
    case ordered =>
      exact (foldr_insertRetired_pairwise retired).imp fun {a b} => (Contender.retiredBefore_iff a b).1

end Sys2Proof.Machine
end

section
/-! O46: the time of a crossing (R121, R122). The two outcomes of `crossingTime` as one equation each, and where the floored
share of the interval lies. -/

namespace Sys2Proof.Machine

/-! ## The floored share of an interval (R121) -/

/-- `part` of `whole`, taken of `interval` and floored. -/
def flooredShare (part whole interval : Int) : Int := Int.fdiv (part * interval) whole

section
variable {part whole interval : Int}

theorem flooredShare_eq_ediv (hwhole : 0 < whole) : flooredShare part whole interval = part * interval / whole :=
  Int.fdiv_eq_ediv_of_nonneg _ hwhole.le

theorem flooredShare_mul_le (hwhole : 0 < whole) : flooredShare part whole interval * whole ≤ part * interval := by
  rw [flooredShare_eq_ediv hwhole]
  exact Int.ediv_mul_le _ hwhole.ne'

theorem lt_flooredShare_add_one_mul (hwhole : 0 < whole) :
    part * interval < (flooredShare part whole interval + 1) * whole := by
  rw [flooredShare_eq_ediv hwhole]
  exact Int.lt_ediv_add_one_mul_self _ hwhole

theorem flooredShare_nonneg (hpart : 0 ≤ part) (hwhole : 0 < whole) (hinterval : 0 ≤ interval) :
    0 ≤ flooredShare part whole interval :=
  Int.fdiv_nonneg (mul_nonneg hpart hinterval) hwhole.le

theorem flooredShare_whole (hwhole : 0 < whole) : flooredShare whole whole interval = interval :=
  Int.mul_fdiv_cancel_left _ hwhole.ne'

theorem flooredShare_le (hwhole : 0 < whole) (hpart : part ≤ whole) (hinterval : 0 ≤ interval) :
    flooredShare part whole interval ≤ interval := by
  refine le_of_mul_le_mul_right ?_ hwhole
  calc flooredShare part whole interval * whole
      ≤ part * interval := flooredShare_mul_le hwhole
    _ ≤ whole * interval := mul_le_mul_of_nonneg_right hpart hinterval
    _ = interval * whole := mul_comm _ _

/-- A part short of the whole takes less than the whole interval: its floor times the whole would pass its exact share. -/
theorem flooredShare_eq_interval_iff (hwhole : 0 < whole) (hpart : part ≤ whole) (hinterval : 0 < interval) :
    flooredShare part whole interval = interval ↔ part = whole := by
  refine ⟨fun hall => ?_, fun hsame => hsame ▸ flooredShare_whole (hsame ▸ hwhole)⟩
  have hfloor : flooredShare part whole interval * whole ≤ part * interval := flooredShare_mul_le hwhole
  rw [hall, mul_comm interval whole] at hfloor
  exact le_antisymm hpart (le_of_mul_le_mul_right hfloor hinterval)

end

/-! ## The outcomes of a crossing (R121, R122) -/

section
variable {lapLength k : Nat} {before latest : CarState}

/-- R122: the first car state of a seat. -/
theorem crossingTime_of_no_previous : crossingTime lapLength k none latest = (latest.time, false) := rfl

/-- R121: when a crossing between two states is resolved. -/
def Interpolates (lapLength k : Nat) (before latest : CarState) : Prop :=
  1 ≤ diff latest.time before.time ∧ diff latest.time before.time ≤ longestInterval ∧
    before.lineProgress lapLength < (k : Int) * lapLength ∧ (k : Int) * lapLength ≤ latest.lineProgress lapLength

theorem crossingTime_of_interpolates (h : Interpolates lapLength k before latest) :
    crossingTime lapLength k (some before) latest =
      (shiftTime before.time (flooredShare ((k : Int) * lapLength - before.lineProgress lapLength)
        (latest.lineProgress lapLength - before.lineProgress lapLength) (diff latest.time before.time)), true) :=
  if_pos h

theorem crossingTime_of_not_interpolates (h : ¬Interpolates lapLength k before latest) :
    crossingTime lapLength k (some before) latest = (latest.time, false) :=
  if_neg h

end

/-- Settles O46: the resolved outcome with the bounds of its floored share, and the unresolved outcomes. -/
theorem crossingTimeInterpolates : Obligations.CrossingTimeInterpolates := by
  intro lapLength k latest line x q1
  refine ⟨crossingTime_of_no_previous, ?_⟩
  intro before q0 interval
  refine ⟨?resolved, crossingTime_of_not_interpolates⟩
  case resolved =>
    intro hforward hshort habove hreached
    have hwhole : 0 < q1 - q0 := by omega
    have hpart : x - q0 ≤ q1 - q0 := by omega
    have hend : x - q0 = q1 - q0 ↔ x = q1 := sub_left_inj
    exact ⟨flooredShare (x - q0) (q1 - q0) interval,
      crossingTime_of_interpolates ⟨hforward, hshort, habove, hreached⟩,
      flooredShare_mul_le hwhole, lt_flooredShare_add_one_mul hwhole,
      flooredShare_nonneg (by omega) hwhole (by omega), flooredShare_le hwhole hpart (by omega),
      (flooredShare_eq_interval_iff hwhole hpart (by omega)).trans hend⟩

end Sys2Proof.Machine
end

section
/-! O38: the silence expiry (R137 to R139). What a stall does to a state, and what the expiry does in the two rows of R137 that
act on the seat. -/

namespace Sys2Proof.Machine

/-! ## A stall (R138, R139) -/

section
variable (s : State) (p : PortId) (rejoin : Bool)

/-- R139: the freeze as a clamp of the first progress at hand. -/
theorem State.freezeAt_eq :
    s.freezeAt p = max (-(s.lapLength : Int)) (min ((s.lapCount : Int) * s.lapLength - 1)
      (match s.lastProjected (carOf p), (s.car p).latest with
        | some r, _ => r
        | none, some cs => cs.progress
        | none, none => -(s.lapLength : Int))) := by
  rw [State.freezeAt, clampProgress, clampInt]
  cases s.lastProjected (carOf p) with
  | some r => rfl
  | none =>
    cases (s.car p).latest with
    | some cs => rfl
    | none => rfl

/-- The freeze reads the standings, the car state and the settings, never a seat. -/
@[simp] theorem State.freezeAt_setSeat (x : Seat) (r : PortId) : (s.setSeat r x).freezeAt p = s.freezeAt p := rfl

theorem stallSeat_seat_self :
    (stallSeat p rejoin s).seat p =
      { s.seat p with
        state := .stalled, stallPhase := some (if rejoin then .recovering else .silent),
        recoveryRun := if rejoin then some 0 else none, frozenProgress := some (s.freezeAt p), silenceTimer := none,
        dropTimer := startTimer s.now (ofS s.settings.dropLimit) } := by
  rw [stallSeat, appendEvent_seat, State.seat_setSeat_self]

theorem stallSeat_seat_ne {r : PortId} (h : r ≠ p) : (stallSeat p rejoin s).seat r = s.seat r := by
  rw [stallSeat, appendEvent_seat, State.seat_setSeat_ne s _ h]

theorem stallSeat_events :
    (stallSeat p rejoin s).events = s.events.append (.stall p (s.raceTime s.now) rejoin) := rfl

theorem stallSeat_frame : { stallSeat p rejoin s with seats := s.seats, events := s.events } = s := rfl

/-- A stall cancels the silence timer itself, so cancelling it first makes no difference. -/
theorem stallSeat_of_silence_cancelled :
    stallSeat p rejoin (s.setSeat p { s.seat p with silenceTimer := none }) = stallSeat p rejoin s := by
  simp only [stallSeat, State.seat_setSeat_self, State.setSeat_setSeat, State.freezeAt_setSeat, State.setSeat_now,
    State.setSeat_raceTime, State.setSeat_settings]

end

/-! ## The expiry (R137) -/

section
variable {s : State} {p : PortId}

theorem exec_silenceExpiry (hreset : s.resetHeld = false) :
    exec (.silenceExpiry p) s = .next (silenceExpires p s) := by
  change whileRunning (silenceExpires p) s = _
  rw [whileRunning, hreset]
  rfl

theorem silenceExpires_ready_grid (hdue : expired s.now (s.seat p).silenceTimer = true)
    (hready : (s.seat p).state = .ready) (hgrid : s.race.state = .grid) :
    silenceExpires p s = s.setSeat p { s.seat p with state := .entered, silenceTimer := none } := by
  simp only [silenceExpires, if_pos hdue, State.seat_setSeat_self, hready, State.setSeat_race, if_pos hgrid,
    State.setSeat_setSeat]

theorem silenceExpires_running_live (hdue : expired s.now (s.seat p).silenceTimer = true)
    (hrunning : (s.seat p).state = .running) (hlive : s.race.state.live = true) :
    silenceExpires p s = stallSeat p false s := by
  rw [← stallSeat_of_silence_cancelled]
  simp only [silenceExpires, if_pos hdue, State.seat_setSeat_self, hrunning, State.setSeat_race, if_pos hlive]

end

/-- Settles O38: the READY row of R137 in GRID, then the RUNNING row in a live race, which is a stall by silence. -/
theorem silenceExpiryStallsTheSeat : Obligations.SilenceExpiryStallsTheSeat := by
  intro p s hreset hdue
  rw [exec_silenceExpiry hreset]
  refine ⟨fun hready hgrid => ?ready, fun hrunning hlive => ?running⟩
  case ready => rw [silenceExpires_ready_grid hdue hready hgrid]
  case running =>
    rw [silenceExpires_running_live hdue hrunning hlive]
    refine ⟨stallSeat p false s, rfl, ?_, fun r hr => stallSeat_seat_ne s p false hr, stallSeat_events s p false,
      stallSeat_frame s p false⟩
    rw [stallSeat_seat_self, State.freezeAt_eq]
    rfl

end Sys2Proof.Machine
end

section
/-! What a command does while RESET_N is high, as one total function, and the shape of a step: every later proof about a command
starts from `exec_running`, every invariant from `step_establishes`. -/

namespace Sys2Proof.Machine

/-- The effect of a command while RESET_N is high. -/
def effect : Instr → State → State
  | .reset, s => { State.reset with freeDraws := s.freeDraws, pending := s.pending }
  | .resetRelease, s => s
  | .roundBoundary, s => roundBoundary s
  | .roundComputationEnd, s => computationEnds s
  | .byteReceived p b, s => byteArrives p b s
  | .framingError p, s => framingErrorArrives p s
  | .lockWatchExpiry p, s => lockWatchExpires p s
  | .frameArrival p f, s => frameArrives p f s
  | .echo p m, s => echoArrives p m s
  | .echoWaitExpiry p, s => echoWaitExpires p s
  | .retrainWaitExpiry p, s => retrainWaitExpires p s
  | .frameBoundary p, s => frameBoundary p s
  | .replyTransmitted p, s => replyLeaves p s
  | .serviceRequestArrival p k m, s => requestArrives p k m s
  | .hello, s => serve (fun q => q.kind == .hello) decideHello s
  | .enter, s => serve (fun q => q.kind == .enter) decideEnter s
  | .ready, s => serve (fun q => q.kind == .ready) decideReady s
  | .withdraw, s => serve (fun q => q.kind == .withdraw) decideWithdraw s
  | .queryRace, s => serve (asksTable 0) (decideQuery 0 2 queryRaceItems) s
  | .querySeat, s => serve (asksTable 1) (decideQuery 1 2 querySeatItems) s
  | .queryFit, s => serve (asksTable 2) (decideQuery 2 2 queryFitItems) s
  | .queryLink, s => serve (asksTable 3) (decideQuery 3 2 queryLinkItems) s
  | .queryLaps, s => serve (asksTable 4) (decideQuery 4 3 queryLapsItems) s
  | .queryFinish, s => serve (asksTable 5) (decideQuery 5 2 queryFinishItems) s
  | .queryParam, s => serve (asksTable 6) (decideQuery 6 2 queryParamItems) s
  | .setup, s => serve (fun q => q.kind == .setup) decideSetup s
  | .serviceComplete, s => serviceCompletes s
  | .report p m, s => reportArrives p m s
  | .lobbyExpiry, s => lobbyExpires s
  | .gridExpiry, s => gridExpires s
  | .finishWindowExpiry, s => finishWindowExpires s
  | .raceLimitExpiry, s => raceLimitExpires s
  | .resultsHoldExpiry, s => resultsHoldExpires s
  | .voidExpiry, s => voidExpires s
  | .silenceExpiry p, s => silenceExpires p s
  | .dropExpiry p, s => dropExpires p s
  | .anchorAgeExpiry p, s => anchorAgeExpires p s
  | .pacerCrossing, s => pacerCrosses s

theorem whileRunning_running {f : State → State} {s : State} (hreset : s.resetHeld = false) :
    whileRunning f s = .next (f s) := by
  simp only [whileRunning, hreset, Bool.false_eq_true, if_false]

theorem whileRunning_held {f : State → State} {s : State} (hreset : s.resetHeld = true) :
    whileRunning f s = .next s := by
  simp only [whileRunning, hreset, if_true]

theorem exec_running (c : Instr) {s : State} (hreset : s.resetHeld = false) : exec c s = .next (effect c s) := by
  cases c
  case reset => rfl
  case resetRelease => simp only [exec, execResetRelease, hreset, Bool.false_eq_true, if_false, effect]
  all_goals exact whileRunning_running hreset

/-- R193. -/
theorem exec_held {c : Instr} {s : State} (hreset : s.resetHeld = true) (hr : c ≠ .reset) (hrr : c ≠ .resetRelease) :
    exec c s = .next s := by
  cases c
  case reset => exact absurd rfl hr
  case resetRelease => exact absurd rfl hrr
  all_goals exact whileRunning_held hreset

/-- R193: the hub at the release of RESET_N. -/
def released (s : State) : State :=
  { s with resetHeld := false, ports := map8 (fun _ q => q.sendFiller s.now) s.ports }

theorem exec_resetRelease_held {s : State} (hreset : s.resetHeld = true) : exec .resetRelease s = .next (released s) := by
  simp only [exec, execResetRelease, hreset, if_true, released]

/-- Everything a command can do: its effect, the release, or nothing while RESET_N is low. -/
theorem exec_cases {c : Instr} {s t : State} (h : exec c s = .next t) :
    t = effect c s ∨ t = released s ∨ t = s := by
  have eq_of_next : ∀ {u : State}, exec c s = .next u → t = u := fun hu =>
    Host.Outcome.next.inj (h.symm.trans hu)
  by_cases hreset : s.resetHeld = false
  · exact .inl (eq_of_next (exec_running c hreset))
  rw [Bool.not_eq_false] at hreset
  by_cases hr : c = .reset
  · subst hr; exact .inl (eq_of_next rfl)
  by_cases hrr : c = .resetRelease
  · subst hrr; exact .inr (.inl (eq_of_next (exec_resetRelease_held hreset)))
  · exact .inr (.inr (eq_of_next (exec_held hreset hr hrr)))

/-! ## The step -/

/-- `t` is `s` after the clock step on an empty queue: hub time, the trail, the queue and the count of free values alone may
have changed. -/
def ClockKept (s t : State) : Prop :=
  { t with
    time := { t.time with hubTime := s.time.hubTime }, orderTrail := s.orderTrail, pending := s.pending
    freeDraws := s.freeDraws } = s

theorem clockKept_idleStep (s : State) : ClockKept s (idleStep s) := by
  unfold idleStep
  split
  · rfl
  · split <;> rfl

/-- What holds before a step and is kept by its queue gives what holds after it, once the clock, the release and each command's
effect give it. -/
theorem step_establishes {Pre Post : State → Prop}
    (hqueue : ∀ s rest, Pre s → Pre { s with pending := rest })
    (hstay : ∀ s, Pre s → Post s)
    (hclock : ∀ s t, ClockKept s t → Pre s → Post t)
    (hrelease : ∀ s, Pre s → Post (released s))
    (heffect : ∀ c s, Pre s → Post (effect c s))
    {s t : State} (hs : Pre s) (h : step s = .next t) : Post t := by
  unfold step at h
  split at h
  next c rest _ =>
    have hpre := hqueue s rest hs
    rcases exec_cases h with rfl | rfl | rfl
    · exact heffect c _ hpre
    · exact hrelease _ hpre
    · exact hstay _ hpre
  next =>
    cases h
    exact hclock s _ (clockKept_idleStep s) hs

end Sys2Proof.Machine
end

section
/-! What the race controller, seat health, lap timing and the report steps do to the event queue, the finish list, the entry list
and the seats' counters: one relation, one lemma per operation. The invariants of O13, O15, O17, O18 and the descriptor of O20
are read from it. -/

namespace Sys2Proof.Machine

/-! ## The relation -/

/-- The frames being built carry at most 8 events (R165). -/
def DrainedFits (s : State) : Prop := ∀ c, s.assembler.computation = some c → c.drained.length ≤ 8

/-- A seat gains no cabinet, and its counters stay within 255. -/
structure SeatKept (x y : Seat) : Prop where
  cabinet : x.cabinet = none → y.cabinet = none
  counters : x.countersFit = true → y.countersFit = true

/-- The race is IDLE, or it was not and holds the descriptor it held. -/
def DescriptorKept (r r' : Race) : Prop := r'.state = .idle ∨ (r.state ≠ .idle ∧ r'.descriptor = r.descriptor)

/-- What an operation of the race keeps: bounds and orders that held, and the entry list but for seats that leave it. -/
structure RaceKept (s t : State) : Prop where
  events : s.events.list.length ≤ 32 → t.events.list.length ≤ 32
  drained : DrainedFits s → DrainedFits t
  finishes : finishOrdered s.finishList = true → finishOrdered t.finishList = true
  seats : ∀ p, SeatKept (s.seat p) (t.seat p)
  outside : ∀ p, (s.seat p).state.entrant = false → (t.seat p).state.entrant = false
  listed : t.race.entryList.Sublist s.race.entryList
  entrants : ListedAreEntrants s → ListedAreEntrants t
  descriptor : DescriptorKept s.race t.race

theorem SeatKept.refl (x : Seat) : SeatKept x x := ⟨id, id⟩

theorem SeatKept.trans {x y z : Seat} (h : SeatKept x y) (k : SeatKept y z) : SeatKept x z :=
  ⟨k.cabinet ∘ h.cabinet, k.counters ∘ h.counters⟩

theorem DescriptorKept.refl (r : Race) : DescriptorKept r r := by
  by_cases h : r.state = .idle
  · exact .inl h
  · exact .inr ⟨h, rfl⟩

theorem DescriptorKept.trans {r r' r'' : Race} (h : DescriptorKept r r') (k : DescriptorKept r' r'') :
    DescriptorKept r r'' := by
  rcases k with k | ⟨hstate, kd⟩
  · exact .inl k
  · obtain ⟨hs, hd⟩ := h.resolve_left hstate
    exact .inr ⟨hs, kd.trans hd⟩

theorem DescriptorKept.of_eq {r r' : Race} (hs : r'.state = r.state) (hd : r'.descriptor = r.descriptor) :
    DescriptorKept r r' := by
  by_cases h : r.state = .idle
  · exact .inl (hs.trans h)
  · exact .inr ⟨h, hd⟩

namespace RaceKept

theorem refl (s : State) : RaceKept s s :=
  ⟨id, id, id, fun _ => .refl _, fun _ => id, .refl _, id, .refl _⟩

theorem trans {s t u : State} (h : RaceKept s t) (k : RaceKept t u) : RaceKept s u :=
  ⟨k.events ∘ h.events, k.drained ∘ h.drained, k.finishes ∘ h.finishes, fun p => (h.seats p).trans (k.seats p),
    fun p => k.outside p ∘ h.outside p, k.listed.trans h.listed, k.entrants ∘ h.entrants, h.descriptor.trans k.descriptor⟩

/-- Composition read backwards, from the last operation. -/
theorem after {s t u : State} (k : RaceKept t u) (h : RaceKept s t) : RaceKept s u := h.trans k

/-- An operation that touches neither events, computation, finish list nor the entrants of the list. -/
theorem of_seats {s t : State} (he : t.events = s.events) (ha : t.assembler.computation = s.assembler.computation)
    (hf : t.finishList = s.finishList) (hseat : ∀ p, SeatKept (s.seat p) (t.seat p))
    (hent : ∀ p, (t.seat p).state.entrant = (s.seat p).state.entrant)
    (hl : t.race.entryList.Sublist s.race.entryList) (hd : DescriptorKept s.race t.race) : RaceKept s t :=
  ⟨by rw [he]; exact id, by simp only [DrainedFits, ha]; exact id, by rw [hf]; exact id, hseat,
    fun p h => (hent p).trans h, hl, fun h p hp => (hent p).trans (h p (hl.subset hp)), hd⟩

/-- An operation outside the seats, the race record, the events, the assembler and the finish list. -/
theorem of_eq {s t : State} (he : t.events = s.events) (ha : t.assembler.computation = s.assembler.computation)
    (hf : t.finishList = s.finishList) (hs : t.seats = s.seats) (hr : t.race = s.race) : RaceKept s t := by
  have hseat : ∀ p, t.seat p = s.seat p := fun p => by simp only [State.seat, hs]
  exact of_seats he ha hf (fun p => by rw [hseat]; exact .refl _) (fun p => by rw [hseat]) (by rw [hr])
    (by rw [hr]; exact .refl _)

end RaceKept

/-! ## The primitive writes -/

theorem seatKept_setSeat {s : State} {p : PortId} {x : Seat} (hx : SeatKept (s.seat p) x) (r : PortId) :
    SeatKept (s.seat r) ((s.setSeat p x).seat r) := by
  rw [State.seat_setSeat]
  split
  next h => rw [h]; exact hx
  next => exact .refl _

theorem raceKept_setSeat {s : State} {p : PortId} {x : Seat} (hx : SeatKept (s.seat p) x)
    (he : x.state.entrant = (s.seat p).state.entrant) : RaceKept s (s.setSeat p x) := by
  refine .of_seats rfl rfl rfl (seatKept_setSeat hx) (fun r => ?_) (.refl _) (.refl _)
  rw [State.seat_setSeat]
  split
  next h => rw [h]; exact he
  next => rfl

/-- A seat that is not on the entry list leaves the entrants. -/
theorem raceKept_setSeat_unlisted {s : State} {p : PortId} {x : Seat} (hx : SeatKept (s.seat p) x)
    (he : x.state.entrant = false) (hp : p ∉ s.race.entryList) : RaceKept s (s.setSeat p x) where
  events := id
  drained := id
  finishes := id
  seats := seatKept_setSeat hx
  outside r h := by
    rw [State.seat_setSeat]
    split
    next => exact he
    next => exact h
  listed := .refl _
  entrants h r hr := by
    rw [State.seat_setSeat_ne s x (ne_of_mem_of_not_mem hr hp)]
    exact h r hr
  descriptor := .refl _

theorem raceKept_setCar (s : State) (p : PortId) (x : CarRecord) : RaceKept s (s.setCar p x) :=
  .of_eq rfl rfl rfl rfl rfl

theorem raceKept_setFit (s : State) (p : PortId) (x : Fit) : RaceKept s (s.setFit p x) := .of_eq rfl rfl rfl rfl rfl

theorem raceKept_setPort (s : State) (p : PortId) (x : Port) : RaceKept s (s.setPort p x) := .of_eq rfl rfl rfl rfl rfl

theorem raceKept_setLapRecord (s : State) (c : CarId) (x : LapRecord) : RaceKept s (s.setLapRecord c x) :=
  .of_eq rfl rfl rfl rfl rfl

/-- A write to the race record that keeps its state, descriptor and entry list. -/
theorem raceKept_race {s : State} {r : Race} (hs : r.state = s.race.state) (hd : r.descriptor = s.race.descriptor)
    (hl : r.entryList = s.race.entryList) : RaceKept s { s with race := r } :=
  .of_seats rfl rfl rfl (fun _ => .refl _) (fun _ => rfl) (by show r.entryList.Sublist _; rw [hl]) (.of_eq hs hd)

/-- R162: a full queue takes no event. -/
theorem append_length_le (q : EventQueue) (e : Event) (h : q.list.length ≤ 32) : (q.append e).list.length ≤ 32 := by
  unfold EventQueue.append
  split
  next hroom =>
    have : q.list.length < 32 := hroom
    simp only [List.length_append, List.length_singleton]
    omega
  next => exact h

theorem raceKept_appendEvent (e : Event) (s : State) : RaceKept s (appendEvent e s) :=
  { RaceKept.refl s with events := append_length_le s.events e }

theorem raceKept_appendPasses (t : Int) (moves : List (CarId × CarId)) (s : State) :
    RaceKept s (appendPasses t moves s) := by
  induction moves generalizing s with
  | nil => exact .refl s
  | cons m rest ih => exact (raceKept_appendEvent _ s).trans (ih _)

/-! ## The finish list (R129) -/

theorem finishOrdered_cons (x : FinishEntry) (l : List FinishEntry) :
    finishOrdered (x :: l) = true ↔ (∀ y ∈ l, y.before x = false) ∧ finishOrdered l = true := by
  simp only [finishOrdered, Bool.and_eq_true, List.all_eq_true, Bool.not_eq_true']

theorem insertFinish_of_before {e x : FinishEntry} {l : List FinishEntry} (h : (x :: l).any (·.before e) = true) :
    insertFinish e (x :: l) = x :: insertFinish e l := by
  rw [insertFinish, if_pos h]

theorem insertFinish_of_none_before {e : FinishEntry} {l : List FinishEntry} (h : ∀ x ∈ l, x.before e = false) :
    insertFinish e l = e :: l := by
  cases l with
  | nil => rfl
  | cons x l =>
    rw [insertFinish, if_neg]
    simpa using h

/-- R129: a finish stands directly below the last entry that orders before it. -/
theorem insertFinish_split (e : FinishEntry) (l : List FinishEntry) (hl : finishOrdered l = true) :
    ∃ above below, l = above ++ below ∧ insertFinish e l = above ++ e :: below ∧
      (∀ x ∈ above, x.before e = true) ∧ ∀ x ∈ below, x.before e = false := by
  induction l with
  | nil => exact ⟨[], [], rfl, rfl, by simp, by simp⟩
  | cons x l ih =>
    obtain ⟨hx, hrest⟩ := (finishOrdered_cons x l).1 hl
    by_cases hany : (x :: l).any (·.before e) = true
    case pos =>
      obtain ⟨above, below, rfl, hins, habove, hbelow⟩ := ih hrest
      have hxe : x.before e = true := by
        by_contra hnot
        rw [Bool.not_eq_true] at hnot
        obtain ⟨y, hy, hye⟩ := List.any_eq_true.1 hany
        rcases List.mem_cons.1 hy with rfl | hy
        · rw [hnot] at hye; cases hye
        · rw [not_before_trans hnot (hx y hy)] at hye; cases hye
      refine ⟨x :: above, below, rfl, ?_, ?_, hbelow⟩
      · rw [insertFinish_of_before hany, hins, List.cons_append]
      · exact List.forall_mem_cons.2 ⟨hxe, habove⟩
    case neg =>
      have hnone : ∀ y ∈ x :: l, y.before e = false := by
        simpa only [List.any_eq_true, not_exists, not_and, Bool.not_eq_true] using hany
      exact ⟨[], x :: l, rfl, insertFinish_of_none_before hnone, by simp, hnone⟩

theorem finishOrdered_insertFinish (e : FinishEntry) (l : List FinishEntry) (hl : finishOrdered l = true) :
    finishOrdered (insertFinish e l) = true := by
  induction l with
  | nil => simp [insertFinish, finishOrdered]
  | cons x l ih =>
    obtain ⟨hx, hrest⟩ := (finishOrdered_cons x l).1 hl
    obtain ⟨above, below, hsplit, hins, habove, hbelow⟩ := insertFinish_split e (x :: l) hl
    cases above with
    | nil =>
      have hall : ∀ y ∈ x :: l, y.before e = false := by rw [hsplit]; exact hbelow
      rw [insertFinish_of_none_before hall, finishOrdered_cons]
      exact ⟨hall, hl⟩
    | cons y above =>
      obtain ⟨rfl, -⟩ := List.cons.inj hsplit
      have hxe : x.before e = true := habove x (List.mem_cons_self)
      rw [insertFinish_of_before (List.any_eq_true.2 ⟨x, List.mem_cons_self, hxe⟩), finishOrdered_cons]
      refine ⟨fun z hz => ?_, ih hrest⟩
      rcases List.mem_cons.1 ((insertFinish_perm e l).mem_iff.1 hz) with rfl | hz
      · exact before_asymm hxe
      · exact hx z hz

/-! ## The race controller -/

theorem drainedFits_supersede {s : State} (h : DrainedFits s) :
    ∀ c, s.assembler.supersede.computation = some c → c.drained.length ≤ 8 := by
  intro c hc
  obtain ⟨d, hd, rfl⟩ := Option.map_eq_some_iff.1 hc
  exact h d hd

theorem seatKept_release (up : Bool) (x : Seat) : SeatKept x (x.release up) := by
  unfold Seat.release
  split
  case h_1 | h_2 => exact ⟨id, id⟩
  all_goals
    split
    · exact ⟨id, id⟩
    · exact ⟨fun _ => rfl, id⟩

theorem entrant_release (up : Bool) (x : Seat) : (x.release up).state.entrant = false := by
  cases hx : x.state <;> cases up <;> simp [Seat.release, hx, Seat.clearRaceFields, Seat.vacate, SeatState.entrant]

theorem enterIdle_seat (s : State) (p : PortId) : (enterIdle s).seat p = (s.seat p).release (s.portUp p) :=
  map8_getElem _ s.seats p

theorem raceKept_enterIdle (s : State) : RaceKept s (enterIdle s) where
  events _ := Nat.zero_le 32
  drained h := drainedFits_supersede h
  finishes _ := rfl
  seats p := by rw [enterIdle_seat]; exact seatKept_release _ _
  outside p _ := by rw [enterIdle_seat]; exact entrant_release _ _
  listed := List.nil_sublist _
  entrants _ := fun _ hp => absurd hp List.not_mem_nil
  descriptor := .inl rfl

theorem raceKept_checkRelease (s : State) : RaceKept s (checkRelease s) := by
  unfold checkRelease
  split
  · exact raceKept_enterIdle s
  · exact .refl s

theorem raceKept_finalStandings (h : HubTime) (s : State) : RaceKept s (finalStandings h s) := by
  have hpasses := raceKept_appendPasses (s.raceTime h)
    ((s.snapshot h).rank s.settings.horizon s.settings.swapMargin (s.recentStandings.map (·.car))).2 s
  rw [appendPasses_eq] at hpasses
  rw [finalStandings_eq]
  exact { RaceKept.refl s with events := hpasses.events, drained := fun k => drainedFits_supersede k }

theorem haltRace_seat (k : RoundNo) (s : State) (p : PortId) :
    (haltRace k s).seat p =
      if s.race.fieldList.contains (carOf p) then { s.seat p with silenceTimer := none, dropTimer := none } else s.seat p :=
  map8_getElem _ s.seats p

theorem raceKept_haltRace (k : RoundNo) {s : State} (h : s.race.state ≠ .idle) : RaceKept s (haltRace k s) := by
  refine .of_seats rfl rfl rfl (fun p => ?_) (fun p => ?_) (.refl _) (.inr ⟨h, rfl⟩) <;> rw [haltRace_seat] <;> split
  · exact ⟨id, id⟩
  · exact .refl _
  · rfl
  · rfl

theorem raceKept_startResultsHold (s : State) : RaceKept s (startResultsHold s) := raceKept_race rfl rfl rfl

theorem raceKept_enterResults (k : RoundNo) {s : State} (h : s.race.state ≠ .idle) : RaceKept s (enterResults k s) :=
  (((raceKept_haltRace k h).trans (raceKept_finalStandings _ _)).trans (raceKept_startResultsHold _)).trans
    (raceKept_checkRelease _)

theorem raceKept_checkEveryoneDone (k : RoundNo) (s : State) : RaceKept s (checkEveryoneDone k s) := by
  unfold checkEveryoneDone
  split
  next h =>
    refine raceKept_enterResults k fun hidle => ?_
    rcases h.1 with h | h <;> rw [h] at hidle <;> cases hidle
  next => exact .refl s

theorem raceKept_enterFinishing {s : State} (h : s.race.state ≠ .idle) : RaceKept s (enterFinishing s) :=
  .of_seats rfl rfl rfl (fun _ => .refl _) (fun _ => rfl) (.refl _) (.inr ⟨h, rfl⟩)

theorem raceKept_finishNotice (s : State) : RaceKept s (finishNotice s) := by
  unfold finishNotice
  split
  next h => exact (raceKept_enterFinishing (by rw [h]; simp)).trans (raceKept_checkEveryoneDone _ _)
  next => exact raceKept_checkEveryoneDone _ s
  all_goals exact .refl s

theorem enterVoid_seat (s : State) (p : PortId) :
    (enterVoid s).seat p = if (s.seat p).state = .ready then { s.seat p with silenceTimer := none } else s.seat p :=
  map8_getElem _ s.seats p

theorem raceKept_enterVoid {s : State} (h : s.race.state ≠ .idle) : RaceKept s (enterVoid s) where
  events := id
  drained h := drainedFits_supersede h
  finishes := id
  seats p := by rw [enterVoid_seat]; split; exacts [⟨id, id⟩, .refl _]
  outside p hp := by rw [enterVoid_seat]; split <;> exact hp
  listed := .refl _
  entrants he p hp := by rw [enterVoid_seat]; split <;> exact he p hp
  descriptor := .inr ⟨h, rfl⟩

theorem raceKept_checkCountdownVoid (s : State) : RaceKept s (checkCountdownVoid s) := by
  unfold checkCountdownVoid
  split
  next h => exact raceKept_enterVoid (by rw [h.1]; simp)
  next => exact .refl s

theorem raceKept_retirementNotice (s : State) : RaceKept s (retirementNotice s) :=
  (raceKept_checkCountdownVoid s).trans (raceKept_checkEveryoneDone _ _)

theorem enterCountdown_seat (s : State) (p : PortId) :
    (enterCountdown s).seat p =
      if s.race.entryList.contains p then
        { s.seat p with
          state := .running, gridPosition := placeIn p s.race.entryList
          gridProgress := (s.car p).latest.map (·.progress) }
      else s.seat p :=
  map8_getElem _ s.seats p

theorem raceKept_enterCountdown {s : State} (h : s.race.state ≠ .idle) : RaceKept s (enterCountdown s) where
  events := id
  drained := id
  finishes := id
  seats p := by rw [enterCountdown_seat]; split; exacts [⟨id, id⟩, .refl _]
  outside p hp := by rw [enterCountdown_seat]; split; exacts [rfl, hp]
  listed := List.nil_sublist _
  entrants _ := fun _ hp => absurd hp List.not_mem_nil
  descriptor := .inr ⟨h, rfl⟩

/-! ## The entry list -/

theorem raceKept_leaveEntryList (p : PortId) (s : State) : RaceKept s (leaveEntryList p s) :=
  .of_seats rfl rfl rfl (fun _ => .refl _) (fun _ => rfl) List.filter_sublist (.of_eq rfl rfl)

theorem not_mem_leaveEntryList (p : PortId) (s : State) : p ∉ (leaveEntryList p s).race.entryList := by
  simp [leaveEntryList]

/-- A seat leaves the entry list and the entrants. -/
theorem raceKept_leave (p : PortId) {s : State} {x : Seat} (hx : SeatKept (s.seat p) x) (he : x.state.entrant = false) :
    RaceKept s ((leaveEntryList p s).setSeat p x) :=
  (raceKept_leaveEntryList p s).trans
    (raceKept_setSeat_unlisted (s := leaveEntryList p s) hx he (not_mem_leaveEntryList p s))

theorem raceKept_dropNotReady (p : PortId) (s : State) : RaceKept s (dropNotReady p s) := by
  unfold dropNotReady
  split
  · exact .refl s
  · exact (raceKept_appendEvent _ _).after ((raceKept_setCar _ p _).after (raceKept_leave p ⟨id, id⟩ rfl))

theorem raceKept_dropAll (l : List PortId) (s : State) : RaceKept s (l.foldl (fun t p => dropNotReady p t) s) := by
  induction l generalizing s with
  | nil => exact .refl s
  | cons p rest ih => exact (raceKept_dropNotReady p s).trans (ih _)

theorem raceKept_closeGrid {s : State} (h : s.race.state = .grid) : RaceKept s (closeGrid s) := by
  unfold closeGrid
  have hdrop := raceKept_dropAll s.race.entryList s
  have hstate : (s.race.entryList.foldl (fun t p => dropNotReady p t) s).race.state = .grid := by
    obtain ⟨-, -, hrace, -⟩ := dropAll_eq s.race.entryList s
    rw [hrace]; exact h
  generalize s.race.entryList.foldl (fun t p => dropNotReady p t) s = u at hdrop hstate
  have htimer : RaceKept u { u with race := { u.race with gridTimer := none } } := raceKept_race rfl rfl rfl
  have hne : ({ u with race := { u.race with gridTimer := none } } : State).race.state ≠ .idle := by
    show u.race.state ≠ .idle; rw [hstate]; simp
  simp only []
  split
  · exact (hdrop.trans htimer).trans (raceKept_enterCountdown hne)
  · exact (hdrop.trans htimer).trans (raceKept_enterVoid hne)

theorem raceKept_checkAllReady {s : State} (h : s.race.state = .grid) : RaceKept s (checkAllReady s) := by
  unfold checkAllReady
  split
  · exact raceKept_closeGrid h
  · exact .refl s

theorem raceKept_departure (s : State) : RaceKept s (departure s) := by
  unfold departure
  split
  next =>
    split
    · exact raceKept_enterIdle s
    · exact .refl s
  next h =>
    split
    · exact raceKept_enterVoid (by rw [h]; simp)
    · exact raceKept_checkAllReady h
  all_goals exact .refl s

theorem raceKept_closeLobby {s : State} (h : s.race.state ≠ .idle) : RaceKept s (closeLobby s) := by
  unfold closeLobby
  split
  · exact .of_seats rfl rfl rfl (fun _ => .refl _) (fun _ => rfl) (.refl _) (.inr ⟨h, rfl⟩)
  · exact raceKept_enterVoid h

/-! ## Expiries of the controller timers -/

theorem raceKept_lobbyExpires (s : State) : RaceKept s (lobbyExpires s) := by
  unfold lobbyExpires
  have htimer : RaceKept s { s with race := { s.race with lobbyTimer := none } } := raceKept_race rfl rfl rfl
  simp only []
  split
  · split
    next h => exact htimer.trans (raceKept_closeLobby (by rw [h]; simp))
    next => exact htimer
  · exact .refl s

theorem raceKept_gridExpires (s : State) : RaceKept s (gridExpires s) := by
  unfold gridExpires
  have htimer : RaceKept s { s with race := { s.race with gridTimer := none } } := raceKept_race rfl rfl rfl
  simp only []
  split
  · split
    next h => exact htimer.trans (raceKept_closeGrid h)
    next => exact htimer
  · exact .refl s

theorem raceKept_finishWindowExpires (s : State) : RaceKept s (finishWindowExpires s) := by
  unfold finishWindowExpires
  have htimer : RaceKept s { s with race := { s.race with finishWindowTimer := none } } := raceKept_race rfl rfl rfl
  simp only []
  split
  · split
    next h => exact htimer.trans (raceKept_enterResults _ (by rw [h]; simp))
    next => exact htimer
  · exact .refl s

theorem raceKept_raceLimitExpires (s : State) : RaceKept s (raceLimitExpires s) := by
  unfold raceLimitExpires
  have htimer : RaceKept s { s with race := { s.race with raceLimitTimer := none } } := raceKept_race rfl rfl rfl
  simp only []
  split
  · split
    next h => exact htimer.trans (raceKept_enterResults _ (by rcases h with h | h <;> rw [h] <;> simp))
    next => exact htimer
  · exact .refl s

theorem raceKept_resultsHoldExpires (s : State) : RaceKept s (resultsHoldExpires s) := by
  unfold resultsHoldExpires
  have htimer : RaceKept s { s with race := { s.race with resultsHoldTimer := none } } := raceKept_race rfl rfl rfl
  simp only []
  split
  · split
    · exact htimer.trans (raceKept_enterIdle _)
    · exact htimer
  · exact .refl s

theorem raceKept_voidExpires (s : State) : RaceKept s (voidExpires s) := by
  unfold voidExpires
  have htimer : RaceKept s { s with race := { s.race with voidTimer := none } } := raceKept_race rfl rfl rfl
  simp only []
  split
  · split
    · exact htimer.trans (raceKept_enterIdle _)
    · exact htimer
  · exact .refl s

/-! ## Seat health -/

section
variable {s : State} {p : PortId}

theorem raceKept_stallSeat (rejoin : Bool) (h : (s.seat p).state = .running) : RaceKept s (stallSeat p rejoin s) :=
  (raceKept_appendEvent _ _).after (raceKept_setSeat ⟨id, id⟩ (by rw [h]; rfl))

theorem raceKept_readmit (h : (s.seat p).state = .stalled) : RaceKept s (readmit p s) :=
  (raceKept_appendEvent _ _).after (raceKept_setSeat ⟨id, id⟩ (by rw [h]; rfl))

theorem raceKept_retireSeat (reason : RetireReason) (progress : Int) (h : (s.seat p).state.entrant = false) :
    RaceKept s (retireSeat p reason progress s) :=
  (raceKept_retirementNotice _).after ((raceKept_appendEvent _ _).after (raceKept_setSeat ⟨id, id⟩ h.symm))

theorem raceKept_silenceExpires (p : PortId) (s : State) : RaceKept s (silenceExpires p s) := by
  unfold silenceExpires
  have htimer : RaceKept s (s.setSeat p { s.seat p with silenceTimer := none }) := raceKept_setSeat ⟨id, id⟩ rfl
  simp only []
  split
  · split
    next h =>
      split
      · exact htimer.trans (raceKept_setSeat ⟨id, id⟩ (by rw [h]; rfl))
      · exact htimer
    next h =>
      split
      · exact htimer.trans (raceKept_stallSeat false h)
      · exact htimer
    all_goals exact htimer
  · exact .refl s

theorem raceKept_dropExpires (p : PortId) (s : State) : RaceKept s (dropExpires p s) := by
  unfold dropExpires
  have htimer : RaceKept s (s.setSeat p { s.seat p with dropTimer := none }) := raceKept_setSeat ⟨id, id⟩ rfl
  simp only []
  split
  · split
    next h => exact htimer.trans (raceKept_retireSeat _ _ (by rw [h.1]; rfl))
    next => exact htimer
  · exact .refl s

theorem raceKept_rejoin (p : PortId) (s : State) : RaceKept s (rejoin p s) := by
  unfold rejoin
  simp only []
  split
  next h => exact raceKept_stallSeat true h
  next => exact raceKept_setSeat ⟨id, id⟩ rfl
  all_goals exact .refl s

end

/-! ## Lap timing -/

theorem raceKept_makeFinished {c : CarId} {s : State} (hc : ∀ p, seatOf c = some p → (s.seat p).state.entrant = false) :
    RaceKept s (makeFinished c s) := by
  unfold makeFinished
  split
  next p h => exact raceKept_setSeat ⟨id, id⟩ (hc p h).symm
  next => exact .of_eq rfl rfl rfl rfl rfl

theorem raceKept_insertFinish (e : FinishEntry) (s : State) :
    RaceKept s { s with finishList := insertFinish e s.finishList } :=
  { RaceKept.refl s with finishes := finishOrdered_insertFinish e s.finishList }

theorem raceKept_finishCar {c : CarId} (crossing : HubTime) (unverified ranked : Bool) {s : State}
    (hc : ∀ p, seatOf c = some p → (s.seat p).state.entrant = false) :
    RaceKept s (finishCar c crossing unverified ranked s) := by
  unfold finishCar
  simp only []
  generalize hr : ({ s.lapRecord c with
    finish := some { raw := s.raceTime crossing, corrected := s.raceTime crossing + s.penaltyOf c } } : LapRecord) = r
  have hmade : RaceKept s (makeFinished c (s.setLapRecord c r)) :=
    (raceKept_setLapRecord s c r).trans (raceKept_makeFinished hc)
  split
  · exact ((hmade.trans (raceKept_insertFinish _ _)).trans (raceKept_appendEvent _ _)).trans (raceKept_finishNotice _)
  · exact hmade

theorem raceKept_recordCrossing {c : CarId} (k : Nat) (crossing : HubTime) (resolved stalled ranked : Bool) {s : State}
    (hc : ∀ p, seatOf c = some p → (s.seat p).state.entrant = false) :
    RaceKept s (recordCrossing c k crossing resolved stalled ranked s) := by
  by_cases hk : k = 0
  · simp only [recordCrossing, if_pos hk]
    exact raceKept_setLapRecord s c _
  have heq := recordCrossing_eq c k crossing resolved stalled ranked s hk
  simp only at heq
  rw [heq]
  have hlap : ∀ (records : Vector LapRecord 9) (fastest : Option FastestLap) (e : Event),
      RaceKept s { s with
        lapRecords := records, fastestLap := fastest
        events := if ranked then s.events.append e else s.events } := by
    intro records fastest e
    cases ranked
    · exact .of_eq rfl rfl rfl rfl rfl
    · exact (raceKept_appendEvent e s).trans (.of_eq rfl rfl rfl rfl rfl)
  split
  · exact (hlap _ _ _).trans (raceKept_finishCar _ _ _ hc)
  · exact hlap _ _ _

theorem raceKept_recordCrossings (p : PortId) (previous : Option CarState) (latest : CarState) (stalled : Bool)
    (n k : Nat) {s : State} (hp : (s.seat p).state.entrant = false) :
    RaceKept s (recordCrossings (carOf p) previous latest stalled n k s) := by
  induction n generalizing k s with
  | zero => exact .refl s
  | succ n ih =>
    have hfirst : RaceKept s (recordCrossing (carOf p) k (crossingTime s.lapLength k previous latest).1
        (crossingTime s.lapLength k previous latest).2 stalled true s) := by
      refine raceKept_recordCrossing k _ _ _ _ fun r hr => ?_
      rw [seatOf_carOf] at hr
      cases hr
      exact hp
    exact hfirst.trans (ih (k + 1) (hfirst.outside p hp))

theorem raceKept_pacerCrosses (s : State) : RaceKept s (pacerCrosses s) := by
  unfold pacerCrosses
  split
  next =>
    exact (raceKept_recordCrossing _ _ _ _ _ fun p hp => by cases hp).after (.of_eq rfl rfl rfl rfl rfl)
  next => exact .refl s

/-! ## The steps of a report -/

theorem bump_le (limit n : Nat) : bump limit n ≤ limit := Nat.min_le_left _ _

theorem countersFit_iff (x : Seat) : x.countersFit = true ↔
    x.duplicates ≤ 255 ∧ x.outOfOrder ≤ 255 ∧ x.implausible ≤ 255 ∧ x.resyncs ≤ 255 := by
  simp only [Seat.countersFit, Bool.and_eq_true, decide_eq_true_eq, and_assoc]

theorem countersFit_implausible {x : Seat} (h : x.countersFit = true) :
    Seat.countersFit { x with implausible := bump 255 x.implausible } = true := by
  rw [countersFit_iff] at h ⊢
  exact ⟨h.1, h.2.1, bump_le _ _, h.2.2.2⟩

theorem seatKept_countClass (x : Seat) (kind : FitClass) : SeatKept x (x.countClass kind) := by
  refine ⟨fun h => by cases kind <;> exact h, fun h => ?_⟩
  rw [countersFit_iff] at h ⊢
  obtain ⟨hd, ho, hi, hr⟩ := h
  cases kind
  case duplicate => exact ⟨bump_le _ _, ho, hi, hr⟩
  case outOfOrder => exact ⟨hd, bump_le _ _, hi, hr⟩
  case resync => exact ⟨hd, ho, hi, bump_le _ _⟩
  all_goals exact ⟨hd, ho, hi, hr⟩

theorem countClass_state (x : Seat) (kind : FitClass) : (x.countClass kind).state = x.state := by cases kind <;> rfl

theorem raceKept_seatTold (p : PortId) (kind : FitClass) (s : State) : RaceKept s (seatTold p kind s) := by
  unfold seatTold
  simp only []
  split
  next =>
    split
    · exact raceKept_setSeat ⟨id, id⟩ rfl
    · exact .refl s
  next =>
    split
    · exact raceKept_setSeat ⟨id, id⟩ rfl
    · exact .refl s
  next h =>
    split
    · split
      · split
        · exact raceKept_readmit h
        · exact raceKept_setSeat ⟨id, id⟩ rfl
      all_goals exact raceKept_setSeat ⟨id, id⟩ rfl
    · exact .refl s
  all_goals exact .refl s

theorem raceKept_judgeJump (p : PortId) (cs : CarState) (s : State) : RaceKept s (judgeJump p cs s) := by
  unfold judgeJump
  simp only []
  split
  · split
    · exact raceKept_setSeat ⟨id, id⟩ rfl
    · split
      · exact (raceKept_appendEvent _ _).after (raceKept_setSeat ⟨id, id⟩ rfl)
      · exact .refl s
  · exact .refl s

theorem raceKept_handToLapTiming (p : PortId) (previous : Option CarState) (cs : CarState) (s : State) :
    RaceKept s (handToLapTiming p previous cs s) := by
  unfold handToLapTiming
  split
  next h => exact raceKept_recordCrossings p _ _ _ _ _ (by rcases h.2 with h | h <;> rw [h] <;> rfl)
  next => exact .refl s

theorem raceKept_carFields (p : PortId) (form : ReportForm) (r : ReportFields) (kind : FitClass) (time : HubTime)
    (s : State) : RaceKept s (carFields p form r kind time s) := by
  unfold carFields
  split
  case h_4 =>
    unfold carStage
    simp only []
    split
    · exact (((raceKept_setCar s p _).trans (raceKept_seatTold p kind _)).trans (raceKept_judgeJump p _ _)).trans
        (raceKept_handToLapTiming p _ _ _)
    · exact raceKept_setSeat ⟨id, countersFit_implausible⟩ rfl
  all_goals exact .refl s

theorem raceKept_captureRoundSeen (p : PortId) (seen : RoundNo) (s : State) :
    RaceKept s (captureRoundSeen p seen s) := by
  unfold captureRoundSeen
  split
  · split
    · split
      · exact (raceKept_checkRelease _).after (raceKept_race rfl rfl rfl)
      · exact raceKept_checkRelease s
    · exact raceKept_checkRelease s
  · exact .refl s

theorem raceKept_reportPath (p : PortId) (form : ReportForm) (m : Inbound) (s : State) :
    RaceKept s (reportPath p form m s) := by
  unfold reportPath
  simp only []
  have hfit : ∀ (f : Fit) (kind : FitClass), RaceKept s ((s.setFit p f).setSeat p ((s.seat p).countClass kind)) :=
    fun f kind => (raceKept_setFit s p f).trans
      (raceKept_setSeat (s := s.setFit p f) (seatKept_countClass _ _) (congrArg _ (countClass_state _ _)))
  split
  · exact hfit _ _
  · exact ((hfit _ _).trans (raceKept_carFields p _ _ _ _ _)).trans (raceKept_captureRoundSeen p _ _)

theorem raceKept_reportArrives (p : PortId) (m : Inbound) (s : State) : RaceKept s (reportArrives p m s) := by
  unfold reportArrives
  simp only []
  have hport := raceKept_setPort s p { s.port p with handed := none }
  split
  · split
    · exact hport
    · exact hport
    · split
      · exact hport.trans (raceKept_reportPath p _ m _)
      · exact hport.trans (raceKept_setPort _ p _)
  all_goals exact hport

end Sys2Proof.Machine
end

section
/-! The takes of the service engine, the links and the round boundary, as far as the race's invariants read them: every command but
RESET, HELLO and ENTER is an operation that `RaceKept` describes, and those three are described one by one. -/

namespace Sys2Proof.Machine

/-! ## The take of a request (R27, R28) -/

theorem serve_cases (wanted : Request → Bool) (decision : PortId → Request → State → State × Reply) (s : State) :
    serve wanted decision s = s ∨ ∃ p q, s.nextRequest = some (p, q) ∧ wanted q = true ∧
      serve wanted decision s = inServiceAfter p s.now (decision p q (takeFrom p s)) := by
  cases hn : s.nextRequest with
  | none => left; simp only [serve, hn]
  | some pq =>
    obtain ⟨p, q⟩ := pq
    by_cases hw : wanted q = true
    · right; exact ⟨p, q, rfl, hw, by simp only [serve, hn, if_pos hw]⟩
    · left; simp only [serve, hn, if_neg hw]

theorem raceKept_takeFrom (p : PortId) (s : State) : RaceKept s (takeFrom p s) := .of_eq rfl rfl rfl rfl rfl

theorem raceKept_inServiceAfter (p : PortId) (now : HubTime) (d : State × Reply) :
    RaceKept d.1 (inServiceAfter p now d) := .of_eq rfl rfl rfl rfl rfl

theorem raceKept_serve (wanted : Request → Bool) {decision : PortId → Request → State → State × Reply}
    (hd : ∀ p q s, RaceKept s (decision p q s).1) (s : State) : RaceKept s (serve wanted decision s) := by
  rcases serve_cases wanted decision s with h | ⟨p, q, -, -, h⟩ <;> rw [h]
  · exact .refl s
  · exact ((raceKept_takeFrom p s).trans (hd p q _)).trans (raceKept_inServiceAfter p _ _)

/-! ### HELLO -/

/-- The seat with the cabinet that its HELLO declares (R21). -/
def State.declareCabinet (s : State) (p : PortId) (c : Cabinet) : State := s.setSeat p { s.seat p with cabinet := some c }

theorem seatKept_newCabinet (s : State) (p : PortId) :
    SeatKept (s.seat p)
      { s.seat p with
        state := .linked, silenceTimer := none, duplicates := 0, outOfOrder := 0, implausible := 0, resyncs := 0 } :=
  ⟨id, fun _ => by simp [countersFit_iff]⟩

theorem raceKept_newCabinet (p : PortId) {s : State} (h : (s.seat p).state.entrant = false) :
    RaceKept s (newCabinet p s) :=
  (raceKept_setCar _ p _).after (raceKept_setSeat (seatKept_newCabinet s p) h.symm)

theorem raceKept_newCabinet_left (p : PortId) (s : State) : RaceKept s (newCabinet p (leaveEntryList p s)) :=
  (raceKept_setCar _ p _).after (raceKept_leave p (seatKept_newCabinet s p) rfl)

/-- R21 to R24: once the cabinet is declared, an accepted HELLO is an operation of the race. -/
theorem raceKept_acceptHello (p : PortId) (c : Cabinet) (s : State) :
    RaceKept (s.declareCabinet p c) (acceptHello p c s) := by
  unfold acceptHello
  simp only []
  have hfit : RaceKept (s.declareCabinet p c)
      ((s.setSeat p { s.seat p with cabinet := some c }).setFit p ((s.fit p).declare c.framePeriod)) :=
    raceKept_setFit (s.declareCabinet p c) p _
  have hstate : (((s.setSeat p { s.seat p with cabinet := some c }).setFit p
      ((s.fit p).declare c.framePeriod)).seat p).state = (s.seat p).state := by simp
  generalize (s.setSeat p { s.seat p with cabinet := some c }).setFit p ((s.fit p).declare c.framePeriod) = u at *
  split
  next h => exact hfit.trans (raceKept_newCabinet p (by rw [hstate, h]; rfl))
  next h =>
    split
    · exact hfit
    · exact hfit.trans (raceKept_newCabinet p (by rw [hstate, h]; rfl))
  case h_3 h | h_4 h =>
    split
    · exact hfit.trans (raceKept_setSeat ⟨id, id⟩ (by simp only [hstate, h, SeatState.entrant]))
    · exact (hfit.trans (raceKept_newCabinet_left p u)).trans (raceKept_departure _)
  case h_5 | h_6 =>
    split
    · exact hfit.trans (raceKept_rejoin p u)
    · exact hfit
  all_goals exact hfit

theorem decideHello_cases (p : PortId) (q : Request) (s : State) :
    (decideHello p q s).1 = s ∨ ∃ c, (decideHello p q s).1 = acceptHello p c s := by
  unfold decideHello
  simp only []
  split
  · exact .inl rfl
  · split
    · exact .inl rfl
    · split
      · exact .inl rfl
      · split
        · exact .inl rfl
        · split
          · exact .inl rfl
          · exact .inr ⟨_, rfl⟩

/-- A HELLO's take is an operation of the race, but for the cabinet it may declare at the seat and at its fit. -/
theorem hello_cases (s : State) :
    (RaceKept s (effect .hello s) ∧ (effect .hello s).fits = s.fits) ∨
    ∃ p c, RaceKept (s.declareCabinet p c) (effect .hello s) ∧
      (effect .hello s).fits = (s.setFit p ((s.fit p).declare c.framePeriod)).fits := by
  rcases serve_cases (fun q => q.kind == .hello) decideHello s with h | ⟨p, q, -, -, h⟩ <;> simp only [effect] <;> rw [h]
  · exact .inl ⟨.refl s, rfl⟩
  have hin := raceKept_inServiceAfter p s.now (decideHello p q (takeFrom p s))
  have hfits : (inServiceAfter p s.now (decideHello p q (takeFrom p s))).fits = (decideHello p q (takeFrom p s)).1.fits := rfl
  rcases decideHello_cases p q (takeFrom p s) with hsame | ⟨c, haccept⟩
  · rw [hsame] at hin hfits
    exact .inl ⟨(raceKept_takeFrom p s).trans hin, hfits⟩
  · rw [haccept] at hin hfits
    have htake : RaceKept (s.declareCabinet p c) ((takeFrom p s).declareCabinet p c) := .of_eq rfl rfl rfl rfl rfl
    exact .inr ⟨p, c, (htake.trans (raceKept_acceptHello p c _)).trans hin,
      hfits.trans (outerKept_acceptHello p c (takeFrom p s)).fits⟩

/-! ### ENTER -/

theorem decideEnter_cases (p : PortId) (q : Request) (s : State) :
    (decideEnter p q s).1 = s ∨
    (s.race.state = .idle ∧ ∃ d, (decideEnter p q s).1 = openLobby p d s) ∨
    (s.race.state = .lobby ∧ (s.seat p).state = .linked ∧ (decideEnter p q s).1 = joinLobby p s) := by
  unfold decideEnter
  simp only [acceptWith, refuseWith]
  split
  · exact .inl rfl
  split
  · exact .inl rfl
  split
  next h =>
    split
    · exact .inr (.inl ⟨h, _, rfl⟩)
    · exact .inl rfl
  next h =>
    split
    · exact .inl rfl
    next hlinked =>
      split
      · exact .inl rfl
      · split
        · exact .inl rfl
        · exact .inr (.inr ⟨h, not_not.1 hlinked, rfl⟩)
  all_goals exact .inl rfl

theorem joinLobby_eq (p : PortId) (s : State) :
    joinLobby p s = joinEntryList p s ∨ joinLobby p s = closeLobby (joinEntryList p s) := by
  unfold joinLobby
  simp only []
  split
  · exact .inr rfl
  · exact .inl rfl

/-! ### READY, WITHDRAW, QUERY and SETUP -/

theorem raceKept_decideReady (p : PortId) (q : Request) (s : State) : RaceKept s (decideReady p q s).1 := by
  unfold decideReady
  simp only [acceptWith, refuseWith]
  split
  · exact .refl s
  split
  · exact .refl s
  split
  next h =>
    split
    · refine RaceKept.after (raceKept_checkAllReady ?_) (raceKept_setSeat ⟨id, id⟩ (by rw [h.2]; rfl))
      exact h.1
    · exact .refl s
  next => exact .refl s

theorem raceKept_withdrawEntrant (p : PortId) (s : State) : RaceKept s (withdrawEntrant p s) :=
  (raceKept_departure _).after ((raceKept_setCar _ p _).after (raceKept_leave p ⟨id, id⟩ rfl))

theorem raceKept_withdrawInResults {p : PortId} {s : State} (h : (s.seat p).state.entrant = false) :
    RaceKept s (withdrawInResults p s) :=
  (raceKept_checkRelease _).after ((raceKept_setCar _ p _).after (raceKept_setSeat ⟨id, id⟩ h.symm))

theorem entrant_eq_false_of_onTrack {x : SeatState} (h : x = .running ∨ x = .stalled) : x.entrant = false := by
  rcases h with rfl | rfl <;> rfl

theorem entrant_eq_false_of_inField {x : SeatState} (h : x.inField = true) : x.entrant = false := by
  cases x <;> first | rfl | cases h

theorem raceKept_decideWithdraw (p : PortId) (q : Request) (s : State) : RaceKept s (decideWithdraw p q s).1 := by
  unfold decideWithdraw
  simp only [acceptWith, refuseWith]
  split
  · exact .refl s
  split
  · exact .refl s
  split
  case h_1 | h_2 =>
    split
    · exact raceKept_withdrawEntrant p s
    · exact .refl s
  case h_3 | h_4 | h_5 =>
    split
    next h => exact raceKept_retireSeat _ _ (entrant_eq_false_of_onTrack h)
    next => exact .refl s
  case h_6 =>
    split
    next h => exact raceKept_withdrawInResults (entrant_eq_false_of_inField h)
    next => exact .refl s
  all_goals exact .refl s

theorem decideQuery_state (table length : Nat) (entry : List Byte → State → Option (List Field)) (p : PortId)
    (q : Request) (s : State) : (decideQuery table length entry p q s).1 = s := by
  unfold decideQuery
  split
  · rfl
  split
  · rfl
  split <;> rfl

theorem raceKept_decideQuery (table length : Nat) (entry : List Byte → State → Option (List Field)) (p : PortId)
    (q : Request) (s : State) : RaceKept s (decideQuery table length entry p q s).1 := by
  rw [decideQuery_state]
  exact .refl s

theorem decideSetup_cases (p : PortId) (q : Request) (s : State) :
    (decideSetup p q s).1 = s ∨ ∃ items, parseSetup q.order q.payload.length q.payload = some items ∧
      items.any (·.refused) = false ∧ (decideSetup p q s).1 = items.foldl SetupItem.write s := by
  unfold decideSetup
  simp only []
  split
  · exact .inl rfl
  split
  · exact .inl rfl
  next items hparse =>
    split
    · exact .inl rfl
    split
    · exact .inl rfl
    next h =>
      rw [not_or, not_or, Bool.not_eq_true] at h
      exact .inr ⟨items, hparse, h.2.2, rfl⟩

theorem raceKept_decideSetup (p : PortId) (q : Request) (s : State) : RaceKept s (decideSetup p q s).1 := by
  rcases decideSetup_cases p q s with h | ⟨items, -, -, h⟩ <;> rw [h]
  · exact .refl s
  · have hframe := foldl_frame items s
    generalize items.foldl SetupItem.write s = t at hframe
    exact .of_eq (congrArg (·.events) hframe) (congrArg (·.assembler.computation) hframe)
      (congrArg (·.finishList) hframe) (congrArg (·.seats) hframe) (congrArg (·.race) hframe)

/-! ## Completions, links and boundaries -/

theorem raceKept_serviceCompletes (s : State) : RaceKept s (serviceCompletes s) := by
  unfold serviceCompletes
  split
  · exact .refl s
  · simp only []
    split <;> exact .of_eq rfl rfl rfl rfl rfl

/-- Nothing but the ports and the count of free values differs. -/
def PortsOnly (s t : State) : Prop := { t with ports := s.ports, freeDraws := s.freeDraws } = s

theorem RaceKept.of_portsOnly {s t : State} (h : PortsOnly s t) : RaceKept s t :=
  .of_eq (congrArg (·.events) h) (congrArg (·.assembler.computation) h) (congrArg (·.finishList) h)
    (congrArg (·.seats) h) (congrArg (·.race) h)

theorem portsOnly_requestArrives (p : PortId) (k : ServiceKind) (m : Inbound) (s : State) :
    PortsOnly s (requestArrives p k m s) := by
  unfold requestArrives
  simp only []
  split <;> rfl

theorem portsOnly_byteArrives (p : PortId) (b : Byte) (s : State) : PortsOnly s (byteArrives p b s) := by
  unfold byteArrives
  simp only []
  split <;> rfl

theorem portsOnly_echoWaitExpires (p : PortId) (s : State) : PortsOnly s (echoWaitExpires p s) := by
  unfold echoWaitExpires
  split
  · split <;> rfl
  · rfl

theorem portsOnly_retrainWaitExpires (p : PortId) (s : State) : PortsOnly s (retrainWaitExpires p s) := by
  unfold retrainWaitExpires
  split
  · split <;> rfl
  · rfl

theorem portsOnly_frameBoundary (p : PortId) (s : State) : PortsOnly s (frameBoundary p s) := by
  unfold frameBoundary
  split <;> rfl

theorem portsOnly_replyLeaves (p : PortId) (s : State) : PortsOnly s (replyLeaves p s) := by
  unfold replyLeaves
  split
  · split <;> rfl
  all_goals rfl

theorem seatKept_vacated (s : State) (p : PortId) : SeatKept (s.seat p) { (s.seat p).vacate with silenceTimer := none } :=
  ⟨fun _ => rfl, id⟩

theorem raceKept_linkDownAtSeat (p : PortId) (s : State) : RaceKept s (linkDownAtSeat p s) := by
  unfold linkDownAtSeat
  split
  case h_1 => exact .refl s
  case h_2 h =>
    exact (raceKept_setCar _ p _).after (raceKept_setSeat (seatKept_vacated s p) (by rw [h]; rfl))
  case h_3 | h_4 =>
    exact (raceKept_departure _).after
      ((raceKept_setCar _ p _).after (raceKept_leave p (seatKept_vacated s p) rfl))
  all_goals exact raceKept_checkRelease s

theorem raceKept_loseLock (p : PortId) (s : State) : RaceKept s (loseLock p s) := by
  unfold loseLock
  refine RaceKept.after (raceKept_linkDownAtSeat p _) ?_
  refine { RaceKept.refl s with drained := fun h c hc => ?_ }
  obtain ⟨d, hd, rfl⟩ := Option.map_eq_some_iff.1 hc
  exact h d hd

theorem raceKept_lockWatchExpires (p : PortId) (s : State) : RaceKept s (lockWatchExpires p s) := by
  unfold lockWatchExpires
  split
  · split
    · exact raceKept_setPort s p _
    · exact raceKept_loseLock p s
  · exact .refl s

theorem raceKept_computationEnds (s : State) : RaceKept s (computationEnds s) := by
  unfold computationEnds
  split
  · exact .refl s
  · exact { RaceKept.refl s with drained := fun _ _ hc => by cases hc }

theorem raceKept_green {s : State} (h : s.race.state ≠ .idle) : RaceKept s (green s) := by
  unfold green
  refine RaceKept.after (raceKept_checkEveryoneDone _ _) ?_
  have hracing : RaceKept s { s with race := { s.race with
      state := .racing, lights := none, raceLimitTimer := startTimer s.now (ofS s.settings.raceLimit) } } :=
    .of_seats rfl rfl rfl (fun _ => .refl _) (fun _ => rfl) (.refl _) (.inr ⟨h, rfl⟩)
  split
  · exact hracing
  · exact hracing.trans (raceKept_enterFinishing (by simp))

theorem raceKept_raceAtBoundary (b : HubTime) (s : State) : RaceKept s (raceAtBoundary b s) := by
  unfold raceAtBoundary
  split
  next h =>
    split
    · split
      · exact raceKept_green (by rw [h]; simp)
      · exact raceKept_race rfl rfl rfl
    · exact .refl s
  next => exact .refl s

theorem raceKept_beginComputation (b : HubTime) (s : State) : RaceKept s (beginComputation b s) := by
  unfold beginComputation
  simp only []
  have hpasses := raceKept_appendPasses (s.snapshot b).raceTime
    (((if s.race.state.live = true then
        some ((s.snapshot b).rank s.settings.horizon s.settings.swapMargin (s.standings.map (·.car)))
      else none).map (·.2)).getD []) s
  rw [appendPasses_eq] at hpasses ⊢
  refine { RaceKept.refl s with events := fun h => ?_, drained := fun _ c hc => ?_ }
  · exact (List.drop_sublist _ _).length_le.trans (hpasses.events h)
  · cases hc
    exact List.length_take_le _ _

theorem raceKept_roundBoundary (s : State) : RaceKept s (roundBoundary s) := by
  unfold roundBoundary
  split
  · unfold boundaryAt
    simp only []
    have hrace : RaceKept s (raceAtBoundary s.time.nextBoundary { s with time := s.time.advanceRound }) :=
      (raceKept_raceAtBoundary _ _).after (.of_eq rfl rfl rfl rfl rfl)
    split
    · exact hrace.trans (raceKept_beginComputation _ _)
    · exact hrace
  · exact .refl s

theorem raceKept_anchorAgeExpires (p : PortId) (s : State) : RaceKept s (anchorAgeExpires p s) := by
  unfold anchorAgeExpires
  split
  · exact raceKept_setFit s p _
  · exact .refl s

/-! ## Every command -/

/-- Every command but RESET, HELLO and ENTER is an operation of the race. -/
theorem raceKept_effect {c : Instr} (hreset : c ≠ .reset) (hhello : c ≠ .hello) (henter : c ≠ .enter) (s : State) :
    RaceKept s (effect c s) := by
  cases c with
  | reset => exact absurd rfl hreset
  | hello => exact absurd rfl hhello
  | enter => exact absurd rfl henter
  | resetRelease => exact .refl s
  | roundBoundary => exact raceKept_roundBoundary s
  | roundComputationEnd => exact raceKept_computationEnds s
  | byteReceived p b => exact .of_portsOnly (portsOnly_byteArrives p b s)
  | framingError p => exact raceKept_setPort s p _
  | lockWatchExpiry p => exact raceKept_lockWatchExpires p s
  | frameArrival p f => exact raceKept_setPort s p _
  | echo p m => exact raceKept_setPort s p _
  | echoWaitExpiry p => exact .of_portsOnly (portsOnly_echoWaitExpires p s)
  | retrainWaitExpiry p => exact .of_portsOnly (portsOnly_retrainWaitExpires p s)
  | frameBoundary p => exact .of_portsOnly (portsOnly_frameBoundary p s)
  | replyTransmitted p => exact .of_portsOnly (portsOnly_replyLeaves p s)
  | serviceRequestArrival p k m => exact .of_portsOnly (portsOnly_requestArrives p k m s)
  | ready => exact raceKept_serve _ raceKept_decideReady s
  | withdraw => exact raceKept_serve _ raceKept_decideWithdraw s
  | queryRace => exact raceKept_serve _ (raceKept_decideQuery 0 2 _) s
  | querySeat => exact raceKept_serve _ (raceKept_decideQuery 1 2 _) s
  | queryFit => exact raceKept_serve _ (raceKept_decideQuery 2 2 _) s
  | queryLink => exact raceKept_serve _ (raceKept_decideQuery 3 2 _) s
  | queryLaps => exact raceKept_serve _ (raceKept_decideQuery 4 3 _) s
  | queryFinish => exact raceKept_serve _ (raceKept_decideQuery 5 2 _) s
  | queryParam => exact raceKept_serve _ (raceKept_decideQuery 6 2 _) s
  | setup => exact raceKept_serve _ raceKept_decideSetup s
  | serviceComplete => exact raceKept_serviceCompletes s
  | report p m => exact raceKept_reportArrives p m s
  | lobbyExpiry => exact raceKept_lobbyExpires s
  | gridExpiry => exact raceKept_gridExpires s
  | finishWindowExpiry => exact raceKept_finishWindowExpires s
  | raceLimitExpiry => exact raceKept_raceLimitExpires s
  | resultsHoldExpiry => exact raceKept_resultsHoldExpires s
  | voidExpiry => exact raceKept_voidExpires s
  | silenceExpiry p => exact raceKept_silenceExpires p s
  | dropExpiry p => exact raceKept_dropExpires p s
  | anchorAgeExpiry p => exact raceKept_anchorAgeExpires p s
  | pacerCrossing => exact raceKept_pacerCrosses s

end Sys2Proof.Machine
end

section
/-! O13, O17, O18: the invariants of the event queue, the entry list and the finish list, from `RaceKept` and the soundness of
rounds. -/

namespace Sys2Proof.Machine

/-! ## RESET, HELLO and ENTER -/

theorem RaceKept.of_clock {s t : State} (h : ClockKept s t) : RaceKept s t :=
  .of_eq (congrArg (·.events) h) (congrArg (·.assembler.computation) h) (congrArg (·.finishList) h)
    (congrArg (·.seats) h) (congrArg (·.race) h)

theorem raceKept_released (s : State) : RaceKept s (released s) := .of_eq rfl rfl rfl rfl rfl

/-- A predicate that operations of the race keep is kept by every step, once RESET gives it, a declared cabinet keeps it and
ENTER keeps it. -/
theorem step_keeps_of_raceKept {P : State → Prop} (hkept : ∀ s t, RaceKept s t → P s → P t)
    (hreset : ∀ draws pending, P { State.reset with freeDraws := draws, pending := pending })
    (hcabinet : ∀ s p c, P s → P (s.declareCabinet p c)) (henter : ∀ s, P s → P (effect .enter s))
    {s t : State} (hs : P s) (h : step s = .next t) : P t := by
  refine step_establishes (Pre := P) (Post := P) (fun u rest => hkept u _ (.of_eq rfl rfl rfl rfl rfl)) (fun _ => id)
    (fun u v hc => hkept u v (.of_clock hc)) (fun u => hkept u _ (raceKept_released u)) (fun c u hu => ?_) hs h
  by_cases hr : c = .reset
  · subst hr; exact hreset _ _
  by_cases he : c = .enter
  · subst he; exact henter u hu
  by_cases hh : c = .hello
  · subst hh
    rcases hello_cases u with ⟨k, -⟩ | ⟨p, cabinet, k, -⟩
    · exact hkept _ _ k hu
    · exact hkept _ _ k (hcabinet u p cabinet hu)
  · exact hkept _ _ (raceKept_effect hr hh he u) hu

theorem joinEntryList_seat (p r : PortId) (s : State) :
    (joinEntryList p s).seat r = if r = p then { s.seat p with state := .entered } else s.seat r :=
  State.seat_setSeat s p r _

/-- ENTER's take: nothing, or a seat that joins an empty list, or a LINKED seat that joins the list, which may then close. -/
theorem enter_cases (s : State) :
    RaceKept s (effect .enter s) ∨
    (s.race.state = .idle ∧ ∃ p d u, RaceKept s u ∧ RaceKept (openLobby p d u) (effect .enter s)) ∨
    (s.race.state = .lobby ∧ ∃ p u, (s.seat p).state = .linked ∧ u.race = s.race ∧ u.seats = s.seats ∧ RaceKept s u ∧
      RaceKept (joinEntryList p u) (effect .enter s)) := by
  rcases serve_cases (fun q => q.kind == .enter) decideEnter s with h | ⟨p, q, -, -, h⟩ <;> simp only [effect] <;> rw [h]
  · exact .inl (.refl s)
  have htake := raceKept_takeFrom p s
  have hin := raceKept_inServiceAfter p s.now (decideEnter p q (takeFrom p s))
  rcases decideEnter_cases p q (takeFrom p s) with hsame | ⟨hidle, d, hopen⟩ | ⟨hlobby, hlinked, hjoin⟩
  · rw [hsame] at hin
    exact .inl (htake.trans hin)
  · rw [hopen] at hin
    exact .inr (.inl ⟨hidle, p, d, takeFrom p s, htake, hin⟩)
  · rw [hjoin] at hin
    refine .inr (.inr ⟨hlobby, p, takeFrom p s, hlinked, rfl, rfl, htake, RaceKept.trans ?_ hin⟩)
    rcases joinLobby_eq p (takeFrom p s) with hj | hj <;> rw [hj]
    · exact .refl _
    · exact raceKept_closeLobby (by show s.race.state ≠ .idle; rw [show s.race.state = .lobby from hlobby]; simp)

/-! ## The event queue (R162, R165) and the soundness of rounds (R192) -/

theorem eventsBounded_iff (s : State) : s.eventsBounded = true ↔ s.events.list.length ≤ 32 ∧ DrainedFits s := by
  unfold State.eventsBounded DrainedFits
  cases s.assembler.computation <;> simp

theorem eventsBounded_of_raceKept {s t : State} (k : RaceKept s t) (h : s.eventsBounded = true) :
    t.eventsBounded = true := by
  rw [eventsBounded_iff] at h ⊢
  exact ⟨k.events h.1, k.drained h.2⟩

theorem eventsBounded_congr {s t : State} (he : t.events = s.events) (ha : t.assembler = s.assembler)
    (h : s.eventsBounded = true) : t.eventsBounded = true := by
  simpa only [State.eventsBounded, he, ha] using h

theorem eventsBounded_enter {s : State} (h : s.eventsBounded = true) : (effect .enter s).eventsBounded = true := by
  rcases enter_cases s with k | ⟨-, p, d, u, k, k'⟩ | ⟨-, p, u, -, -, -, k, k'⟩
  · exact eventsBounded_of_raceKept k h
  · exact eventsBounded_of_raceKept k' (eventsBounded_congr (s := u) rfl rfl (eventsBounded_of_raceKept k h))
  · exact eventsBounded_of_raceKept k' (eventsBounded_congr (s := u) rfl rfl (eventsBounded_of_raceKept k h))

theorem eventsBounded_step {s t : State} (hs : s.eventsBounded = true) (h : step s = .next t) :
    t.eventsBounded = true :=
  step_keeps_of_raceKept (P := fun s => s.eventsBounded = true) (fun _ _ k => eventsBounded_of_raceKept k)
    (fun _ _ => rfl) (fun s _ _ => eventsBounded_congr (s := s) rfl rfl) (fun _ => eventsBounded_enter) hs h

/-! ### Rounds -/

/-- The controller timers play no part in the soundness of rounds. -/
theorem rounds_timers {s : State} (h : RoundsKept s) (lobby grid finishWindow raceLimit resultsHold void : Timer) :
    RoundsKept { s with race := { s.race with
      lobbyTimer := lobby, gridTimer := grid, finishWindowTimer := finishWindow, raceLimitTimer := raceLimit
      resultsHoldTimer := resultsHold, voidTimer := void } } := by
  obtain ⟨w, hgoes⟩ := h
  exact ⟨⟨w.lights, w.rr, w.fn, w.fp, w.sn, w.ln, w.lb, w.ls, w.rl, w.cp, w.el⟩, hgoes⟩

theorem rounds_lobbyExpires {s : State} (h : RoundsKept s) : RoundsKept (lobbyExpires s) := by
  unfold lobbyExpires
  have htimer := rounds_timers h none s.race.gridTimer s.race.finishWindowTimer s.race.raceLimitTimer
    s.race.resultsHoldTimer s.race.voidTimer
  simp only []
  split
  · split
    next hlobby => exact rounds_closeLobby htimer hlobby
    next => exact htimer
  · exact h

theorem rounds_gridExpires {s : State} (h : RoundsKept s) : RoundsKept (gridExpires s) := by
  unfold gridExpires
  have htimer := rounds_timers h s.race.lobbyTimer none s.race.finishWindowTimer s.race.raceLimitTimer
    s.race.resultsHoldTimer s.race.voidTimer
  simp only []
  split
  · split
    next hgrid => exact rounds_closeGrid htimer.1 hgrid
    next => exact htimer
  · exact h

theorem rounds_finishWindowExpires {s : State} (h : RoundsKept s) : RoundsKept (finishWindowExpires s) := by
  unfold finishWindowExpires
  have htimer := rounds_timers h s.race.lobbyTimer s.race.gridTimer none s.race.raceLimitTimer
    s.race.resultsHoldTimer s.race.voidTimer
  simp only []
  split
  · split
    · exact rounds_enterResults _ htimer.1
    · exact htimer
  · exact h

theorem rounds_raceLimitExpires {s : State} (h : RoundsKept s) : RoundsKept (raceLimitExpires s) := by
  unfold raceLimitExpires
  have htimer := rounds_timers h s.race.lobbyTimer s.race.gridTimer s.race.finishWindowTimer none
    s.race.resultsHoldTimer s.race.voidTimer
  simp only []
  split
  · split
    · exact rounds_enterResults _ htimer.1
    · exact htimer
  · exact h

theorem rounds_resultsHoldExpires {s : State} (h : RoundsKept s) : RoundsKept (resultsHoldExpires s) := by
  unfold resultsHoldExpires
  have htimer := rounds_timers h s.race.lobbyTimer s.race.gridTimer s.race.finishWindowTimer s.race.raceLimitTimer
    none s.race.voidTimer
  simp only []
  split
  · split
    · exact rounds_enterIdle htimer.1
    · exact htimer
  · exact h

theorem rounds_voidExpires {s : State} (h : RoundsKept s) : RoundsKept (voidExpires s) := by
  unfold voidExpires
  have htimer := rounds_timers h s.race.lobbyTimer s.race.gridTimer s.race.finishWindowTimer s.race.raceLimitTimer
    s.race.resultsHoldTimer none
  simp only []
  split
  · split
    · exact rounds_enterIdle htimer.1
    · exact htimer
  · exact h

theorem RoundsKept.of_portsOnly {s t : State} (h : RoundsKept s) (k : PortsOnly s t) : RoundsKept t := by
  have hview := congrArg State.roundsView k
  exact h.congr hview

theorem RoundsKept.of_clock {s t : State} (h : RoundsKept s) (k : ClockKept s t) : RoundsKept t := by
  have hview := congrArg State.roundsView k
  exact h.congr hview

theorem rounds_serviceCompletes {s : State} (h : RoundsKept s) : RoundsKept (serviceCompletes s) := by
  unfold serviceCompletes
  split
  · exact h
  · simp only []
    split <;> exact h.congr rfl

theorem rounds_loseLock {s : State} (p : PortId) (h : RoundsKept s) : RoundsKept (loseLock p s) := by
  unfold loseLock
  refine rounds_linkDownAtSeat p ⟨?_, h.2⟩
  have w := h.1
  refine ⟨w.lights, w.rr, w.fn, w.fp, w.sn, w.ln, w.lb, w.ls, w.rl, fun c hc => ?_, w.el⟩
  obtain ⟨d, hd, rfl⟩ := Option.map_eq_some_iff.1 hc
  exact w.cp d hd

theorem rounds_lockWatchExpires {s : State} (p : PortId) (h : RoundsKept s) : RoundsKept (lockWatchExpires p s) := by
  unfold lockWatchExpires
  split
  · split
    · exact rounds_setPort p _ h
    · exact rounds_loseLock p h
  · exact h

/-- R102: a ranking that is installed names no car twice. -/
theorem rounds_computationEnds {s : State} (h : RoundsKept s) : RoundsKept (computationEnds s) := by
  unfold computationEnds
  split
  · exact h
  next c hc =>
    have w := h.1
    have hstandings : ((if c.superseded = true then s.standings
        else match c.ranking with
          | some r => r
          | none => s.standings).map (·.car)).Nodup := by
      split
      · exact w.sn
      · have hranked := (w.cp c hc).2
        cases hr : c.ranking with
        | none => exact w.sn
        | some r => rw [hr] at hranked; exact hranked
    exact ⟨⟨w.lights, w.rr, w.fn, w.fp, hstandings, w.ln, w.lb, w.ls, w.rl, (fun _ hn => nomatch hn), w.el⟩, h.2⟩

theorem rounds_roundBoundary {s : State} (h : RoundsKept s) : RoundsKept (roundBoundary s) := by
  unfold roundBoundary
  split
  · exact rounds_boundaryAt _ h
  · exact h

theorem rounds_anchorAgeExpires {s : State} (p : PortId) (h : RoundsKept s) : RoundsKept (anchorAgeExpires p s) := by
  unfold anchorAgeExpires
  split
  · exact rounds_setFit p _ h
  · exact h

theorem roundsKept_reset (draws : Nat) (pending : List Instr) :
    RoundsKept { State.reset with freeDraws := draws, pending := pending } := by
  have hsound : State.reset.roundsSound = true := by decide +kernel
  have hlist : State.reset.race.entryList.Nodup := List.nodup_nil
  exact RoundsKept.congr (s := State.reset) ((roundsSound_iff State.reset hlist).1 hsound) rfl

/-- R192: on a sound entry list every command keeps the soundness of rounds. -/
theorem rounds_effect (c : Instr) {s : State} (h : RoundsKept s) (he : ListedAreEntrants s) : RoundsKept (effect c s) := by
  cases c with
  | reset => exact roundsKept_reset _ _
  | resetRelease => exact h
  | roundBoundary => exact rounds_roundBoundary h
  | roundComputationEnd => exact rounds_computationEnds h
  | byteReceived p b => exact h.of_portsOnly (portsOnly_byteArrives p b s)
  | framingError p => exact rounds_setPort p _ h
  | lockWatchExpiry p => exact rounds_lockWatchExpires p h
  | frameArrival p f => exact rounds_setPort p _ h
  | echo p m => exact rounds_setPort p _ h
  | echoWaitExpiry p => exact h.of_portsOnly (portsOnly_echoWaitExpires p s)
  | retrainWaitExpiry p => exact h.of_portsOnly (portsOnly_retrainWaitExpires p s)
  | frameBoundary p => exact h.of_portsOnly (portsOnly_frameBoundary p s)
  | replyTransmitted p => exact h.of_portsOnly (portsOnly_replyLeaves p s)
  | serviceRequestArrival p k m => exact h.of_portsOnly (portsOnly_requestArrives p k m s)
  | hello => exact rounds_serve rounds_decideHello s h he
  | enter => exact rounds_serve rounds_decideEnter s h he
  | ready => exact rounds_serve rounds_decideReady s h he
  | withdraw => exact rounds_serve rounds_decideWithdraw s h he
  | queryRace => exact rounds_serve (rounds_decideQuery 0 2 _) s h he
  | querySeat => exact rounds_serve (rounds_decideQuery 1 2 _) s h he
  | queryFit => exact rounds_serve (rounds_decideQuery 2 2 _) s h he
  | queryLink => exact rounds_serve (rounds_decideQuery 3 2 _) s h he
  | queryLaps => exact rounds_serve (rounds_decideQuery 4 3 _) s h he
  | queryFinish => exact rounds_serve (rounds_decideQuery 5 2 _) s h he
  | queryParam => exact rounds_serve (rounds_decideQuery 6 2 _) s h he
  | setup => exact rounds_serve rounds_decideSetup s h he
  | serviceComplete => exact rounds_serviceCompletes h
  | report p m => exact rounds_reportArrives p m h
  | lobbyExpiry => exact rounds_lobbyExpires h
  | gridExpiry => exact rounds_gridExpires h
  | finishWindowExpiry => exact rounds_finishWindowExpires h
  | raceLimitExpiry => exact rounds_raceLimitExpires h
  | resultsHoldExpiry => exact rounds_resultsHoldExpires h
  | voidExpiry => exact rounds_voidExpires h
  | silenceExpiry p => exact rounds_silenceExpires p h
  | dropExpiry p => exact rounds_dropExpires p h
  | anchorAgeExpiry p => exact rounds_anchorAgeExpires p h
  | pacerCrossing => exact rounds_pacerCrosses h

theorem entryListSound_iff (s : State) :
    s.entryListSound = true ↔ s.race.entryList.Nodup ∧ ListedAreEntrants s := by
  simp only [State.entryListSound, ListedAreEntrants, Bool.and_eq_true, decide_eq_true_eq, List.all_eq_true]

theorem roundsSound_step {s t : State} (hr : s.roundsSound = true) (he : s.entryListSound = true)
    (h : step s = .next t) : t.roundsSound = true := by
  obtain ⟨hlist, hentrants⟩ := (entryListSound_iff s).1 he
  have hkept : RoundsKept t := step_establishes (Pre := fun u => RoundsKept u ∧ ListedAreEntrants u) (Post := RoundsKept)
    (fun _ _ hu => ⟨hu.1.congr rfl, hu.2⟩) (fun _ hu => hu.1) (fun _ _ hc hu => hu.1.of_clock hc)
    (fun _ hu => hu.1.congr rfl) (fun c _ hu => rounds_effect c hu.1 hu.2)
    ⟨(roundsSound_iff s hlist).1 hr, hentrants⟩ h
  exact (roundsSound_iff t hkept.1.el).2 hkept

/-- Settles O13: the bound on the queue from `RaceKept`, the soundness of rounds from the rules of each operation. -/
theorem stepKeepsEventQueueBounded : Obligations.StepKeepsEventQueueBounded :=
  fun _ _ h => ⟨fun hs => eventsBounded_step hs h, fun hr he => roundsSound_step hr he h⟩

/-! ## The entry list (R41) -/

theorem entryListSound_of_raceKept {s t : State} (k : RaceKept s t) (h : s.entryListSound = true) :
    t.entryListSound = true := by
  rw [entryListSound_iff] at h ⊢
  exact ⟨h.1.sublist k.listed, k.entrants h.2⟩

/-- R41: a seat that is not listed joins at the tail. -/
theorem entryListSound_joinEntryList {s : State} {p : PortId} (h : s.entryListSound = true)
    (hp : p ∉ s.race.entryList) : (joinEntryList p s).entryListSound = true := by
  rw [entryListSound_iff] at h ⊢
  obtain ⟨hnodup, hent⟩ := h
  refine ⟨?_, fun r hr => ?_⟩
  · show (s.race.entryList ++ [p]).Nodup
    exact List.nodup_append.2 ⟨hnodup, List.nodup_singleton p, fun a ha b hb e => hp (by rwa [← List.mem_singleton.1 hb, ← e])⟩
  · rw [joinEntryList_seat]
    split
    · rfl
    next hne =>
      have hmem : r ∈ s.race.entryList ++ [p] := hr
      exact hent r ((List.mem_append.1 hmem).resolve_right (by simpa using hne))

theorem entryListSound_openLobby (p : PortId) (d : Descriptor) (s : State) : (openLobby p d s).entryListSound = true :=
  entryListSound_joinEntryList ((entryListSound_iff _).2 ⟨List.nodup_nil, fun _ hr => absurd hr List.not_mem_nil⟩)
    List.not_mem_nil

theorem entryListSound_congr {s t : State} (hs : t.seats = s.seats) (hr : t.race = s.race)
    (h : s.entryListSound = true) : t.entryListSound = true := by
  simpa only [State.entryListSound, State.seat, hs, hr] using h

theorem entryListSound_enter {s : State} (h : s.entryListSound = true) : (effect .enter s).entryListSound = true := by
  rcases enter_cases s with k | ⟨-, p, d, u, -, k⟩ | ⟨-, p, u, hlinked, hrace, hseats, -, k⟩
  · exact entryListSound_of_raceKept k h
  · exact entryListSound_of_raceKept k (entryListSound_openLobby p d u)
  · have hp : p ∉ u.race.entryList := by
      rw [hrace]
      intro hmem
      have hent := ((entryListSound_iff s).1 h).2 p hmem
      rw [hlinked] at hent
      cases hent
    exact entryListSound_of_raceKept k
      (entryListSound_joinEntryList (entryListSound_congr hseats hrace h) hp)

theorem entryListSound_declareCabinet (s : State) (p : PortId) (c : Cabinet) (h : s.entryListSound = true) :
    (s.declareCabinet p c).entryListSound = true := by
  rw [entryListSound_iff] at h ⊢
  refine ⟨h.1, fun r hr => ?_⟩
  rw [State.declareCabinet, State.seat_setSeat]
  split
  next e => subst e; exact h.2 r hr
  next => exact h.2 r hr

/-- Settles O17. At most 8 seats are listed because none is listed twice. -/
theorem stepKeepsEntryListSound : Obligations.StepKeepsEntryListSound := by
  intro s t hs h
  have ht : t.entryListSound = true :=
    step_keeps_of_raceKept (P := fun s => s.entryListSound = true) (fun _ _ k => entryListSound_of_raceKept k)
      (fun _ _ => rfl) entryListSound_declareCabinet (fun _ => entryListSound_enter) hs h
  exact ⟨ht, by simpa using ((entryListSound_iff t).1 ht).1.length_le_card⟩

/-! ## The finish list (R129) -/

theorem finishOrdered_enter {s : State} (h : finishOrdered s.finishList = true) :
    finishOrdered (effect .enter s).finishList = true := by
  rcases enter_cases s with k | ⟨-, p, d, u, k, k'⟩ | ⟨-, p, u, -, -, -, k, k'⟩
  · exact k.finishes h
  · exact k'.finishes (k.finishes h)
  · exact k'.finishes (k.finishes h)

/-- Settles O18. -/
theorem stepKeepsFinishListOrdered : Obligations.StepKeepsFinishListOrdered :=
  fun _ _ hs h => step_keeps_of_raceKept (P := fun s => finishOrdered s.finishList = true) (fun _ _ k => k.finishes)
    (fun _ _ => rfl) (fun _ _ _ => id) (fun _ => finishOrdered_enter) hs h

/-- Settles O48. -/
theorem finishInsertionKeepsTheOrder : Obligations.FinishInsertionKeepsTheOrder :=
  fun e l hl => ⟨finishOrdered_insertFinish e l hl, insertFinish_split e l hl⟩

end Sys2Proof.Machine
end

section
/-! What a command does to the timebase, the settings, the fits and the link of each port: the race and the service engine leave
them (`BlocksKept`), the link operations keep the error counts sound and the delay (`LinkKept`). O14 and the delay of O20 are
read from it. -/

namespace Sys2Proof.Machine

/-! ## The link of one port (R176 to R181) -/

/-- The part of a port record that training, lock and the error count own. -/
def Port.linkView (q : Port) : LinkState × Option Training × Nat × Nat := (q.link, q.training, q.errorCount, q.delay)

/-- Sound counts stay sound, and the delay moves only as training takes the port UP (R181). -/
structure LinkKept (q q' : Port) : Prop where
  count : q.countSound = true → q'.countSound = true
  delay : q'.delay = q.delay ∨ (q.link = .training ∧ q'.link = .up)

theorem LinkKept.of_view {q q' : Port} (h : q'.linkView = q.linkView) : LinkKept q q' := by
  simp only [Port.linkView, Prod.mk.injEq] at h
  obtain ⟨hlink, htraining, hcount, hdelay⟩ := h
  exact ⟨by simp only [Port.countSound, hlink, htraining, hcount]; exact id, .inl hdelay⟩

theorem LinkKept.view_trans {q q' q'' : Port} (k : LinkKept q' q'') (h : q'.linkView = q.linkView) : LinkKept q q'' := by
  have hsame := LinkKept.of_view h
  simp only [Port.linkView, Prod.mk.injEq] at h
  exact ⟨k.count ∘ hsame.count, by rw [← h.1, ← h.2.2.2]; exact k.delay⟩

theorem LinkKept.trans_view {q q' q'' : Port} (k : LinkKept q q') (h : q''.linkView = q'.linkView) : LinkKept q q'' := by
  have hsame := LinkKept.of_view h
  simp only [Port.linkView, Prod.mk.injEq] at h
  exact ⟨hsame.count ∘ k.count, by rw [h.1, h.2.2.2]; exact k.delay⟩

/-- What sound counts say of a port in TRAINING. -/
theorem countSound_training_iff {q : Port} (h : q.link = .training) : q.countSound = true ↔
    ∃ t, q.training = some t ∧ t.errors = q.errorCount ∧ t.probe ≤ 15 ∧ t.errors ≤ 16 ∧
      ((t.stage = .passFailed ∧ t.echoWait = none) ∨ t.errors ≤ t.probe) := by
  unfold Port.countSound
  rw [h]
  cases q.training with
  | none => simp
  | some t => simp [and_assoc]

theorem countSound_up_iff {q : Port} (h : q.link = .up) : q.countSound = true ↔ q.errorCount ≤ 254 := by
  unfold Port.countSound
  rw [h]
  exact decide_eq_true_iff

theorem countSound_down_iff {q : Port} (h : q.link = .down) : q.countSound = true ↔ q.errorCount = 255 := by
  unfold Port.countSound
  rw [h]
  exact beq_iff_eq

/-- R180, R181, R183: the error count is 255 exactly in DOWN. -/
theorem errorCount_eq_255_iff {q : Port} (h : q.countSound = true) : q.errorCount = 255 ↔ q.link = .down := by
  cases hl : q.link with
  | down => simp [(countSound_down_iff hl).1 h]
  | up =>
    have := (countSound_up_iff hl).1 h
    simp only [reduceCtorEq, iff_false]
    omega
  | training =>
    obtain ⟨t, -, herrors, -, hle, -⟩ := (countSound_training_iff hl).1 h
    simp only [reduceCtorEq, iff_false]
    omega

/-! ### Training -/

theorem awaiting_eq_some_iff {q : Port} {t : Training} :
    q.awaiting = some t ↔ q.link = .training ∧ q.training = some t ∧ t.echoWait.isSome = true := by
  unfold Port.awaiting
  split
  next h => simp [h, Option.filter_eq_some_iff]
  next h => simp [h]

theorem linkKept_startPass {q : Port} (h : q.link = .training) : LinkKept q q.startPass :=
  ⟨fun _ => (countSound_training_iff (q := q.startPass) h).2 ⟨_, rfl, rfl, Nat.zero_le _, Nat.zero_le _, .inr le_rfl⟩,
    .inl rfl⟩

/-- R181: a pass ends UP with at most 3 errors, or in a failed pass. -/
theorem endPass_countSound {q : Port} (now : HubTime) {t : Training} (h : q.link = .training)
    (hprobe : t.probe ≤ 15) (herrors : t.errors ≤ 16) : (q.endPass now t).countSound = true := by
  unfold Port.endPass
  split
  next hfew =>
    rw [countSound_up_iff rfl]
    show t.errors ≤ 254
    omega
  next =>
    exact (countSound_training_iff (q := { q with
      errorCount := t.errors
      training := some { t with stage := .passFailed, echoWait := none, retrainWait := startTimer now retrainWaitTime } }) h).2
        ⟨_, rfl, rfl, hprobe, herrors, .inl ⟨rfl, rfl⟩⟩

theorem endPass_delay (q : Port) (now : HubTime) (t : Training) :
    (q.endPass now t).delay = q.delay ∨ (q.endPass now t).link = .up := by
  unfold Port.endPass
  split
  · exact .inr rfl
  · exact .inl rfl

theorem linkKept_resolve {q : Port} (now : HubTime) {t : Training} (measure : Option Int) (h : q.awaiting = some t) :
    LinkKept q (q.resolve now t measure) := by
  obtain ⟨hlink, htraining, hwait⟩ := awaiting_eq_some_iff.1 h
  suffices hsuff : ∀ (q1 : Port) (t1 : Training), q1.link = .training → q1.delay = q.delay → t1.probe = t.probe →
      (q.countSound = true → t1.errors = q1.errorCount ∧ t1.probe ≤ 15 ∧ t1.errors ≤ t1.probe + 1) →
      LinkKept q (if 15 ≤ t.probe then q1.endPass now t1
        else { q1 with training := some { t1 with probe := t.probe + 1, stage := .due } }) by
    have hsound (hs : q.countSound = true) : t.errors = q.errorCount ∧ t.probe ≤ 15 ∧ t.errors ≤ t.probe := by
      obtain ⟨u, hu, herrors, hprobe, -, hstage⟩ := (countSound_training_iff hlink).1 hs
      obtain rfl : t = u := Option.some.inj (htraining.symm.trans hu)
      refine ⟨herrors, hprobe, hstage.resolve_left fun hfailed => ?_⟩
      rw [hfailed.2] at hwait
      cases hwait
    cases measure with
    | some m =>
      refine hsuff q { t with least := some (leastOf t.least m), echoWait := none } hlink rfl rfl fun hs => ?_
      obtain ⟨herrors, hprobe, hle⟩ := hsound hs
      exact ⟨herrors, hprobe, Nat.le_succ_of_le hle⟩
    | none =>
      refine hsuff { q with errorCount := q.errorCount + 1 } { t with errors := t.errors + 1, echoWait := none } hlink rfl rfl
        fun hs => ?_
      obtain ⟨herrors, hprobe, hle⟩ := hsound hs
      exact ⟨congrArg (· + 1) herrors, hprobe, Nat.succ_le_succ hle⟩
  intro q1 t1 hlink1 hdelay1 hprobe1 hs1
  split
  next hlast =>
    refine ⟨fun hs => ?_, (endPass_delay q1 now t1).imp (·.trans hdelay1) fun hup => ⟨hlink, hup⟩⟩
    obtain ⟨-, hprobe, hle⟩ := hs1 hs
    exact endPass_countSound now hlink1 hprobe (hle.trans (Nat.succ_le_succ hprobe))
  next hmore =>
    refine ⟨fun hs => ?_, .inl hdelay1⟩
    obtain ⟨herrors, hprobe, hle⟩ := hs1 hs
    rw [hprobe1] at hprobe hle
    exact (countSound_training_iff (q := { q1 with training := some { t1 with probe := t.probe + 1, stage := .due } })
      hlink1).2 ⟨_, rfl, herrors, by show t.probe + 1 ≤ 15; omega, by show t1.errors ≤ 16; omega, .inr hle⟩

theorem linkKept_judgeEcho (q : Port) (now : HubTime) (m : Inbound) : LinkKept q (q.judgeEcho now m) := by
  unfold Port.judgeEcho
  split
  · exact .of_view rfl
  next h =>
    split
    · exact .of_view rfl
    · split
      · exact .of_view rfl
      · split <;> exact linkKept_resolve now _ h

/-! ### Frames and bytes -/

theorem linkKept_countError {q : Port} (h : q.link = .up) : LinkKept q q.countError :=
  ⟨fun _ => (countSound_up_iff (q := q.countError) h).2 (bump_le _ _), .inl rfl⟩

theorem linkKept_frameFails (q : Port) (now : HubTime) : LinkKept q (q.frameFails now) := by
  unfold Port.frameFails
  split
  next h => exact linkKept_countError h
  next =>
    split
    next h => exact linkKept_resolve now _ h
    next => exact .of_view rfl
  next => exact .of_view rfl

theorem linkKept_checkFrame (q : Port) (now : HubTime) (f : RxFrame) : LinkKept q (q.checkFrame now f) := by
  unfold Port.checkFrame
  split
  · exact .of_view rfl
  split
  · split
    · exact .of_view rfl
    · split
      next h => exact linkKept_countError h
      next => exact .of_view rfl
  · exact linkKept_frameFails q now

theorem linkKept_takeFramingError (q : Port) (now : HubTime) : LinkKept q (q.takeFramingError now) := by
  unfold Port.takeFramingError
  split
  · exact .of_view rfl
  · exact .of_view rfl
  · exact (linkKept_frameFails { q with receiver := .hunting } now).view_trans rfl

/-- R177: gaining lock starts a first pass; any other byte leaves the link as it is. -/
theorem linkKept_takeByte (q : Port) (now : HubTime) (order : ByteOrder) (b : Byte) :
    LinkKept q (q.takeByte now order b) := by
  unfold Port.takeByte
  simp only []
  split
  · exact ⟨fun _ => (linkKept_startPass (q := { q with
      lockWatch := startTimer now lockWatchTime, link := .training, receiver := .hunting, arrived := none
      handed := none, training := some
        { probe := 0, stage := .due, errors := 0, least := none, sentAt := 0, echoWait := none, retrainWait := none }
      errorCount := 0 }) rfl).count rfl, .inl rfl⟩
  · exact .of_view rfl

theorem loseLock_linkView (q : Port) (now : HubTime) : (q.loseLock now).linkView = (.down, none, 255, q.delay) := by
  unfold Port.loseLock Port.abandonFrame
  split <;> rfl

theorem linkKept_loseLock (q : Port) (now : HubTime) : LinkKept q (q.loseLock now) := by
  have h := loseLock_linkView q now
  simp only [Port.linkView, Prod.mk.injEq] at h
  obtain ⟨hlink, -, hcount, hdelay⟩ := h
  exact ⟨fun _ => (countSound_down_iff hlink).2 hcount, .inl hdelay⟩

/-! ### The transmitter -/

/-- A training record that keeps its probe and its errors, and is not put back from a failed pass, keeps the counts sound. -/
theorem linkKept_setTraining {q q' : Port} {t t' : Training} (hlink : q'.link = q.link) (hcount : q'.errorCount = q.errorCount)
    (hdelay : q'.delay = q.delay) (ht : q.training = some t) (ht' : q'.training = some t') (hprobe : t'.probe = t.probe)
    (herrors : t'.errors = t.errors) (hstage : t.stage ≠ .passFailed) : LinkKept q q' := by
  refine ⟨fun hs => ?_, .inl hdelay⟩
  cases hl : q.link with
  | down => rw [countSound_down_iff (hlink.trans hl), hcount]; exact (countSound_down_iff hl).1 hs
  | up => rw [countSound_up_iff (hlink.trans hl), hcount]; exact (countSound_up_iff hl).1 hs
  | training =>
    obtain ⟨u, hu, h1, h2, h3, h4⟩ := (countSound_training_iff hl).1 hs
    obtain rfl : t = u := Option.some.inj (ht.symm.trans hu)
    refine (countSound_training_iff (hlink.trans hl)).2 ⟨t', ht', ?_, ?_, ?_, .inr ?_⟩
    · rw [herrors, hcount]; exact h1
    · rw [hprobe]; exact h2
    · rw [herrors]; exact h3
    · rw [herrors, hprobe]
      exact h4.resolve_left fun h => hstage h.1

theorem linkKept_completeProbe (q : Port) (now : HubTime) : LinkKept q (q.completeProbe now) := by
  unfold Port.completeProbe
  split
  next t ht =>
    split
    next h => exact linkKept_setTraining rfl rfl rfl ht rfl rfl rfl (by rw [h]; simp)
    next => exact .of_view rfl
  next => exact .of_view rfl

theorem completeReply_linkView (q : Port) : q.completeReply.linkView = q.linkView := by
  unfold Port.completeReply
  split <;> rfl

theorem linkKept_completeSending (q : Port) (now : HubTime) : LinkKept q (q.completeSending now) := by
  unfold Port.completeSending
  split
  · exact .of_view (completeReply_linkView q)
  · exact linkKept_completeProbe q now
  all_goals exact .of_view rfl

theorem completeSending_link_delay (q : Port) (now : HubTime) :
    (q.completeSending now).link = q.link ∧ (q.completeSending now).delay = q.delay := by
  unfold Port.completeSending Port.completeReply Port.completeProbe
  split
  · split <;> exact ⟨rfl, rfl⟩
  · split
    · split <;> exact ⟨rfl, rfl⟩
    · exact ⟨rfl, rfl⟩
  all_goals exact ⟨rfl, rfl⟩

theorem sendWaiting_linkView (q : Port) (now : HubTime) : (q.sendWaiting now).linkView = q.linkView := by
  unfold Port.sendWaiting
  split <;> rfl

theorem linkKept_sendProbe (q : Port) (now : HubTime) : LinkKept q (q.sendProbe now) := by
  unfold Port.sendProbe
  split
  next t ht =>
    split
    next h => exact linkKept_setTraining rfl rfl rfl ht rfl rfl rfl (by rw [h]; simp)
    next => exact .of_view rfl
  next => exact .of_view rfl

theorem linkKept_sendNext (q : Port) (now : HubTime) : LinkKept q (q.sendNext now) := by
  unfold Port.sendNext
  split
  · exact .of_view rfl
  · exact linkKept_sendProbe q now
  · exact .of_view (sendWaiting_linkView q now)

/-- The transmitter's two steps at a frame boundary: the first keeps link and delay. -/
theorem linkKept_boundary (q : Port) (now : HubTime) : LinkKept q ((q.completeSending now).sendNext now) := by
  have hfirst := linkKept_completeSending q now
  have hnext := linkKept_sendNext (q.completeSending now) now
  obtain ⟨hlink, hdelay⟩ := completeSending_link_delay q now
  exact ⟨hnext.count ∘ hfirst.count, by rw [← hlink, ← hdelay]; exact hnext.delay⟩

/-! ## Every port -/

def LinksKept (s t : State) : Prop := ∀ p, LinkKept (s.port p) (t.port p)

def LinksSame (s t : State) : Prop := ∀ p, (t.port p).linkView = (s.port p).linkView

theorem LinksKept.of_same {s t : State} (h : LinksSame s t) : LinksKept s t := fun p => .of_view (h p)

theorem LinksKept.trans_same {s t u : State} (h : LinksKept s t) (k : LinksSame t u) : LinksKept s u :=
  fun p => (h p).trans_view (k p)

theorem LinksSame.refl (s : State) : LinksSame s s := fun _ => rfl

theorem LinksSame.trans {s t u : State} (h : LinksSame s t) (k : LinksSame t u) : LinksSame s u :=
  fun p => (k p).trans (h p)

theorem LinksSame.of_ports {s t : State} (h : t.ports = s.ports) : LinksSame s t :=
  fun p => by simp only [State.port, h]

theorem LinksSame.of_outerKept {s t : State} (k : OuterKept s t) : LinksSame s t := .of_ports k.ports

theorem linksKept_setPort {s : State} {p : PortId} {q : Port} (h : LinkKept (s.port p) q) : LinksKept s (s.setPort p q) := by
  intro r
  rw [State.port_setPort]
  split
  next e => rw [e]; exact h
  next => exact .of_view rfl

theorem linksSame_setPort {s : State} {p : PortId} {q : Port} (h : q.linkView = (s.port p).linkView) :
    LinksSame s (s.setPort p q) := by
  intro r
  rw [State.port_setPort]
  split
  next e => rw [e]; exact h
  next => rfl

/-! ## The blocks that the race and the service engine leave -/

/-- The timebase but for the demand flag, the settings, the fits, and the link of each port. -/
structure BlocksKept (s t : State) : Prop where
  time : { t.time with roundDemand := s.time.roundDemand } = s.time
  settings : t.settings = s.settings
  fits : t.fits = s.fits
  links : LinksSame s t

namespace BlocksKept

theorem refl (s : State) : BlocksKept s s := ⟨rfl, rfl, rfl, .refl s⟩

theorem trans {s t u : State} (h : BlocksKept s t) (k : BlocksKept t u) : BlocksKept s u where
  time := by
    have h1 := h.time
    rw [← k.time] at h1
    exact h1
  settings := k.settings.trans h.settings
  fits := k.fits.trans h.fits
  links := h.links.trans k.links

theorem after {s t u : State} (k : BlocksKept t u) (h : BlocksKept s t) : BlocksKept s u := h.trans k

theorem of_outerKept {s t : State} (k : OuterKept s t) : BlocksKept s t :=
  ⟨by rw [k.time], k.settings, k.fits, .of_outerKept k⟩

end BlocksKept

theorem blocksKept_takeFrom (p : PortId) (s : State) : BlocksKept s (takeFrom p s) :=
  ⟨rfl, rfl, rfl, linksSame_setPort rfl⟩

theorem blocksKept_inServiceAfter (p : PortId) (now : HubTime) (d : State × Reply) :
    BlocksKept d.1 (inServiceAfter p now d) := ⟨rfl, rfl, rfl, .refl _⟩

theorem blocksKept_serve (wanted : Request → Bool) {decision : PortId → Request → State → State × Reply}
    (hd : ∀ p q s, OuterKept s (decision p q s).1) (s : State) : BlocksKept s (serve wanted decision s) := by
  rcases serve_cases wanted decision s with h | ⟨p, q, -, -, h⟩ <;> rw [h]
  · exact .refl s
  · exact ((blocksKept_takeFrom p s).trans (.of_outerKept (hd p q _))).trans (blocksKept_inServiceAfter p _ _)

theorem outerKept_ite {c : Prop} [Decidable c] {s t u : State} (ht : OuterKept s t) (hu : OuterKept s u) :
    OuterKept s (if c then t else u) := by
  split
  · exact ht
  · exact hu

theorem outerKept_race (s : State) (r : Race) : OuterKept s { s with race := r } :=
  ⟨rfl, rfl, rfl, rfl, rfl, rfl, rfl, rfl, rfl⟩

/-! ### The decisions of the take -/

theorem outerKept_joinEntryList (p : PortId) (s : State) : OuterKept s (joinEntryList p s) :=
  (outerKept_setSeat s p _).trans (outerKept_race _ _)

theorem outerKept_decideEnter (p : PortId) (q : Request) (s : State) : OuterKept s (decideEnter p q s).1 := by
  rcases decideEnter_cases p q s with h | ⟨-, d, h⟩ | ⟨-, -, h⟩ <;> rw [h]
  · exact .refl s
  · exact (outerKept_race s _).trans (outerKept_joinEntryList p _)
  · rcases joinLobby_eq p s with h | h <;> rw [h]
    · exact outerKept_joinEntryList p s
    · exact (outerKept_joinEntryList p s).trans (outerKept_closeLobby _)

theorem outerKept_acceptReady (p : PortId) (s : State) : OuterKept s (acceptReady p s) :=
  (outerKept_setSeat s p _).trans (outerKept_checkAllReady _)

theorem outerKept_decideReady (p : PortId) (q : Request) (s : State) : OuterKept s (decideReady p q s).1 := by
  unfold decideReady
  simp only [acceptWith, refuseWith]
  split
  · exact .refl s
  split
  · exact .refl s
  split
  · split
    · exact outerKept_acceptReady p s
    · exact .refl s
  · exact .refl s

theorem outerKept_withdrawEntrant (p : PortId) (s : State) : OuterKept s (withdrawEntrant p s) :=
  (((outerKept_leaveEntryList p s).trans (outerKept_setSeat _ p _)).trans (outerKept_setCar _ p _)).trans
    (outerKept_departure _)

theorem outerKept_withdrawInResults (p : PortId) (s : State) : OuterKept s (withdrawInResults p s) :=
  ((outerKept_setSeat s p _).trans (outerKept_setCar _ p _)).trans (outerKept_checkRelease _)

theorem outerKept_decideWithdraw (p : PortId) (q : Request) (s : State) : OuterKept s (decideWithdraw p q s).1 := by
  unfold decideWithdraw
  simp only [acceptWith, refuseWith]
  split
  · exact .refl s
  split
  · exact .refl s
  split
  case h_1 | h_2 =>
    split
    · exact outerKept_withdrawEntrant p s
    · exact .refl s
  case h_3 | h_4 | h_5 =>
    split
    · exact outerKept_retireSeat p _ _ s
    · exact .refl s
  case h_6 =>
    split
    · exact outerKept_withdrawInResults p s
    · exact .refl s
  all_goals exact .refl s

theorem outerKept_decideQuery (table length : Nat) (entry : List Byte → State → Option (List Field)) (p : PortId)
    (q : Request) (s : State) : OuterKept s (decideQuery table length entry p q s).1 := by
  rw [decideQuery_state]
  exact .refl s

/-! ### The expiries of the controller timers -/

section
variable (s : State)

theorem outerKept_lobbyExpires : OuterKept s (lobbyExpires s) :=
  outerKept_ite (outerKept_ite ((outerKept_race s _).trans (outerKept_closeLobby _)) (outerKept_race s _)) (.refl s)

theorem outerKept_gridExpires : OuterKept s (gridExpires s) :=
  outerKept_ite (outerKept_ite ((outerKept_race s _).trans (outerKept_closeGrid _)) (outerKept_race s _)) (.refl s)

theorem outerKept_finishWindowExpires : OuterKept s (finishWindowExpires s) :=
  outerKept_ite (outerKept_ite ((outerKept_race s _).trans (outerKept_enterResults _ _)) (outerKept_race s _)) (.refl s)

theorem outerKept_raceLimitExpires : OuterKept s (raceLimitExpires s) :=
  outerKept_ite (outerKept_ite ((outerKept_race s _).trans (outerKept_enterResults _ _)) (outerKept_race s _)) (.refl s)

theorem outerKept_resultsHoldExpires : OuterKept s (resultsHoldExpires s) :=
  outerKept_ite (outerKept_ite ((outerKept_race s _).trans (outerKept_enterIdle _)) (outerKept_race s _)) (.refl s)

theorem outerKept_voidExpires : OuterKept s (voidExpires s) :=
  outerKept_ite (outerKept_ite ((outerKept_race s _).trans (outerKept_enterIdle _)) (outerKept_race s _)) (.refl s)

end

/-! ### Ports that the links do not own -/

theorem takeIn_linkView (q : Port) (r : Request) : (q.takeIn r).linkView = q.linkView := by
  unfold Port.takeIn
  split <;> rfl

theorem blocksKept_requestArrives (p : PortId) (k : ServiceKind) (m : Inbound) (s : State) :
    BlocksKept s (requestArrives p k m s) := by
  have hclear : BlocksKept s (s.setPort p { s.port p with handed := none }) := ⟨rfl, rfl, rfl, linksSame_setPort rfl⟩
  unfold requestArrives
  simp only []
  split
  · exact hclear.trans ⟨rfl, rfl, rfl, linksSame_setPort (takeIn_linkView _ _)⟩
  all_goals exact hclear

theorem blocksKept_serviceCompletes (s : State) : BlocksKept s (serviceCompletes s) := by
  unfold serviceCompletes
  split
  · exact .refl s
  next v _ =>
    have hdone : BlocksKept s { s with
        engine := { s.engine with inService := none }
        time := { s.time with roundDemand := s.time.roundDemand || v.reply.reason.isNone } } :=
      ⟨rfl, rfl, rfl, .refl s⟩
    simp only []
    split
    · exact hdone.trans ⟨rfl, rfl, rfl, linksSame_setPort rfl⟩
    · exact hdone

theorem placeRound_linkView (c : Computation) (s : State) (p : PortId) (q : Port) :
    (placeRound c s p q).linkView = q.linkView := by
  unfold placeRound
  split <;> rfl

theorem blocksKept_computationEnds (s : State) : BlocksKept s (computationEnds s) := by
  unfold computationEnds
  split
  · exact .refl s
  next c _ =>
    refine ⟨rfl, rfl, rfl, fun p => ?_⟩
    have hport : (map8 (placeRound c s) s.ports)[p] = placeRound c s p (s.port p) := map8_getElem _ s.ports p
    exact (congrArg Port.linkView hport).trans (placeRound_linkView c s p _)

/-- The commands that write the timebase, the settings, a fit or a link. -/
def writesBlocks : Instr → Bool
  | .reset | .roundBoundary | .byteReceived _ _ | .framingError _ | .lockWatchExpiry _ | .frameArrival _ _ | .echo _ _
  | .echoWaitExpiry _ | .retrainWaitExpiry _ | .frameBoundary _ | .replyTransmitted _ | .hello | .setup | .report _ _
  | .anchorAgeExpiry _ => true
  | _ => false

theorem blocksKept_effect {c : Instr} (h : writesBlocks c = false) (s : State) : BlocksKept s (effect c s) := by
  cases c with
  | resetRelease => exact .refl s
  | roundComputationEnd => exact blocksKept_computationEnds s
  | serviceRequestArrival p k m => exact blocksKept_requestArrives p k m s
  | enter => exact blocksKept_serve _ outerKept_decideEnter s
  | ready => exact blocksKept_serve _ outerKept_decideReady s
  | withdraw => exact blocksKept_serve _ outerKept_decideWithdraw s
  | queryRace => exact blocksKept_serve _ (outerKept_decideQuery 0 2 _) s
  | querySeat => exact blocksKept_serve _ (outerKept_decideQuery 1 2 _) s
  | queryFit => exact blocksKept_serve _ (outerKept_decideQuery 2 2 _) s
  | queryLink => exact blocksKept_serve _ (outerKept_decideQuery 3 2 _) s
  | queryLaps => exact blocksKept_serve _ (outerKept_decideQuery 4 3 _) s
  | queryFinish => exact blocksKept_serve _ (outerKept_decideQuery 5 2 _) s
  | queryParam => exact blocksKept_serve _ (outerKept_decideQuery 6 2 _) s
  | serviceComplete => exact blocksKept_serviceCompletes s
  | lobbyExpiry => exact .of_outerKept (outerKept_lobbyExpires s)
  | gridExpiry => exact .of_outerKept (outerKept_gridExpires s)
  | finishWindowExpiry => exact .of_outerKept (outerKept_finishWindowExpires s)
  | raceLimitExpiry => exact .of_outerKept (outerKept_raceLimitExpires s)
  | resultsHoldExpiry => exact .of_outerKept (outerKept_resultsHoldExpires s)
  | voidExpiry => exact .of_outerKept (outerKept_voidExpires s)
  | silenceExpiry p => exact .of_outerKept (outerKept_silenceExpires p s)
  | dropExpiry p => exact .of_outerKept (outerKept_dropExpires p s)
  | pacerCrossing => exact .of_outerKept (outerKept_pacerCrosses s)
  | _ => cases h

/-! ## The commands that write a link -/

theorem linksKept_byteArrives (p : PortId) (b : Byte) (s : State) : LinksKept s (byteArrives p b s) := by
  have hport := linksKept_setPort (linkKept_takeByte (s.port p) s.now (s.orderAtStart p) b)
  unfold byteArrives
  simp only []
  split
  · exact hport
  · exact hport.trans_same (.refl _)

theorem linksKept_frameArrives (p : PortId) (f : RxFrame) (s : State) : LinksKept s (frameArrives p f s) :=
  linksKept_setPort ((linkKept_checkFrame { s.port p with arrived := none } s.now f).view_trans rfl)

theorem linksKept_echoArrives (p : PortId) (m : Inbound) (s : State) : LinksKept s (echoArrives p m s) :=
  linksKept_setPort ((linkKept_judgeEcho { s.port p with handed := none } s.now m).view_trans rfl)

theorem linksKept_echoWaitExpires (p : PortId) (s : State) : LinksKept s (echoWaitExpires p s) := by
  unfold echoWaitExpires
  split
  next h =>
    split
    · exact linksKept_setPort (linkKept_resolve _ _ h)
    · exact .of_same (.refl s)
  next => exact .of_same (.refl s)

theorem linksKept_retrainWaitExpires (p : PortId) (s : State) : LinksKept s (retrainWaitExpires p s) := by
  unfold retrainWaitExpires
  split
  · split
    next h => exact linksKept_setPort (linkKept_startPass h.1)
    next => exact .of_same (.refl s)
  · exact .of_same (.refl s)

theorem linksKept_frameBoundary (p : PortId) (s : State) : LinksKept s (frameBoundary p s) := by
  unfold frameBoundary
  split
  · exact linksKept_setPort (linkKept_boundary _ _)
  · exact .of_same (.refl s)

theorem linksKept_replyLeaves (p : PortId) (s : State) : LinksKept s (replyLeaves p s) := by
  unfold replyLeaves
  split
  · split
    · exact linksKept_setPort ((linkKept_sendNext _ _).view_trans (completeReply_linkView _))
    · exact .of_same (.refl s)
  all_goals exact .of_same (.refl s)

theorem outerKept_vacateSeat (p : PortId) (s : State) : OuterKept s (vacateSeat p s) :=
  (outerKept_setSeat s p _).trans (outerKept_setCar _ p _)

theorem outerKept_linkDownAtSeat (p : PortId) (s : State) : OuterKept s (linkDownAtSeat p s) := by
  unfold linkDownAtSeat
  split
  case h_1 => exact .refl s
  case h_2 => exact outerKept_vacateSeat p s
  case h_3 | h_4 =>
    exact ((outerKept_leaveEntryList p s).trans (outerKept_vacateSeat p _)).trans (outerKept_departure _)
  all_goals exact outerKept_checkRelease s

/-- The state in which the seat table and the race controller are told of a loss of lock. -/
def State.lockLost (s : State) (p : PortId) : State :=
  { s.setPort p ((s.port p).loseLock s.now) with assembler := s.assembler.dropAddressee p }

theorem loseLock_eq (p : PortId) (s : State) : loseLock p s = linkDownAtSeat p (s.lockLost p) := rfl

theorem linksKept_lockWatchExpires (p : PortId) (s : State) : LinksKept s (lockWatchExpires p s) := by
  unfold lockWatchExpires
  split
  · split
    · exact .of_same (linksSame_setPort rfl)
    · have hport : LinksKept s (s.lockLost p) := fun r =>
        linksKept_setPort (s := s) (linkKept_loseLock (s.port p) s.now) r
      exact hport.trans_same (.of_outerKept (outerKept_linkDownAtSeat p _))
  · exact .of_same (.refl s)

/-- Every block of a report's path but the fit of its seat. -/
theorem outerKept_reportPath (p : PortId) (form : ReportForm) (m : Inbound) (s : State) :
    OuterKept (s.setFit p ((s.fit p).take (readReport m).frame (m.stamp - BitVec.ofNat 32 (s.port p).delay) s.now).fit)
      (reportPath p form m s) := by
  unfold reportPath
  simp only []
  split
  · exact outerKept_setSeat _ p _
  · exact ((outerKept_setSeat _ p _).trans (outerKept_carFields p _ _ _ _ _)).trans (outerKept_captureRoundSeen p _ _)

theorem linksKept_reportArrives (p : PortId) (m : Inbound) (s : State) : LinksKept s (reportArrives p m s) := by
  have hclear : LinksSame s (s.setPort p { s.port p with handed := none }) := linksSame_setPort rfl
  unfold reportArrives
  simp only []
  split
  next hup =>
    split
    · exact .of_same hclear
    · exact .of_same hclear
    · split
      · exact .of_same (hclear.trans (.of_ports (outerKept_reportPath p _ m _).ports))
      · exact fun r => (linksKept_setPort (linkKept_countError hup) r).view_trans (hclear r)
  all_goals exact .of_same hclear

theorem blocksKept_raceAtBoundary (b : HubTime) (s : State) : BlocksKept s (raceAtBoundary b s) :=
  .of_outerKept (outerKept_raceAtBoundary b s)

theorem beginComputation_blocks (b : HubTime) (s : State) : BlocksKept s (beginComputation b s) := by
  unfold beginComputation
  simp only [appendPasses_eq]
  exact ⟨rfl, rfl, rfl, .refl s⟩

/-- R6, R8: at a boundary the timebase advances, and settings, fits and links stay. -/
theorem blocksKept_roundBoundary (s : State) :
    BlocksKept s (roundBoundary s) ∨ BlocksKept { s with time := s.time.advanceRound } (roundBoundary s) := by
  unfold roundBoundary
  split
  · right
    unfold boundaryAt
    simp only []
    have hrace := blocksKept_raceAtBoundary s.time.nextBoundary { s with time := s.time.advanceRound }
    split
    · exact hrace.trans (beginComputation_blocks _ _)
    · exact hrace
  · exact .inl (.refl s)

theorem decideSetup_links (p : PortId) (q : Request) (s : State) : LinksSame s (decideSetup p q s).1 := by
  rcases decideSetup_cases p q s with h | ⟨items, -, -, h⟩ <;> rw [h]
  · exact .refl s
  · exact .of_ports (congrArg (·.ports) (foldl_frame items s))

theorem decideHello_links (p : PortId) (q : Request) (s : State) : LinksSame s (decideHello p q s).1 := by
  rcases decideHello_cases p q s with h | ⟨c, h⟩ <;> rw [h]
  · exact .refl s
  · exact .of_ports (outerKept_acceptHello p c s).ports

theorem linksSame_serve (wanted : Request → Bool) {decision : PortId → Request → State → State × Reply}
    (hd : ∀ p q s, LinksSame s (decision p q s).1) (s : State) : LinksSame s (serve wanted decision s) := by
  rcases serve_cases wanted decision s with h | ⟨p, q, -, -, h⟩ <;> rw [h]
  · exact .refl s
  · exact ((blocksKept_takeFrom p s).links.trans (hd p q _)).trans (blocksKept_inServiceAfter p _ _).links

theorem anchorAgeExpires_ports (p : PortId) (s : State) : (anchorAgeExpires p s).ports = s.ports := by
  unfold anchorAgeExpires
  split <;> rfl

/-- Every command but RESET keeps every link. -/
theorem linksKept_effect {c : Instr} (hreset : c ≠ .reset) (s : State) : LinksKept s (effect c s) := by
  cases hw : writesBlocks c with
  | false => exact .of_same (blocksKept_effect hw s).links
  | true =>
    cases c with
    | reset => exact absurd rfl hreset
    | roundBoundary =>
      rcases blocksKept_roundBoundary s with k | k
      · exact .of_same k.links
      · exact .of_same fun p => k.links p
    | byteReceived p b => exact linksKept_byteArrives p b s
    | framingError p => exact linksKept_setPort (linkKept_takeFramingError _ _)
    | lockWatchExpiry p => exact linksKept_lockWatchExpires p s
    | frameArrival p f => exact linksKept_frameArrives p f s
    | echo p m => exact linksKept_echoArrives p m s
    | echoWaitExpiry p => exact linksKept_echoWaitExpires p s
    | retrainWaitExpiry p => exact linksKept_retrainWaitExpires p s
    | frameBoundary p => exact linksKept_frameBoundary p s
    | replyTransmitted p => exact linksKept_replyLeaves p s
    | hello => exact .of_same (linksSame_serve _ decideHello_links s)
    | setup => exact .of_same (linksSame_serve _ decideSetup_links s)
    | report p m => exact linksKept_reportArrives p m s
    | anchorAgeExpiry p => exact .of_same (.of_ports (anchorAgeExpires_ports p s))
    | _ => cases hw

theorem released_port (s : State) (p : PortId) : (released s).port p = (s.port p).sendFiller s.now :=
  map8_getElem _ s.ports p

theorem linksSame_released (s : State) : LinksSame s (released s) := fun p => by
  rw [released_port]; rfl

/-! ## The error counts (R180, R181, R183) -/

theorem countsSound_iff (s : State) : s.countsSound = true ↔ ∀ p, (s.port p).countSound = true := by
  simp only [State.countsSound, List.all_eq_true]
  exact ⟨fun h p => h p (mem_allPorts p), fun h p _ => h p⟩

/-- Settles O14: the counts stay sound by `LinkKept`, and sound counts are 255 exactly in DOWN. -/
theorem stepKeepsLinkErrorCounts : Obligations.StepKeepsLinkErrorCounts := by
  intro s t hs h
  have hkept {u v : State} (k : LinksKept u v) (hu : ∀ p, (u.port p).countSound = true) (p : PortId) :
      (v.port p).countSound = true := (k p).count (hu p)
  have ht : ∀ p, (t.port p).countSound = true := by
    refine step_establishes (Pre := fun u => ∀ p, (u.port p).countSound = true)
      (Post := fun u => ∀ p, (u.port p).countSound = true) (fun _ _ hu => hu) (fun _ hu => hu)
      (fun u v hc => hkept (.of_same (.of_ports (congrArg (·.ports) hc))))
      (fun u => hkept (.of_same (linksSame_released u))) (fun c u hu => ?_) ((countsSound_iff s).1 hs) h
    by_cases hreset : c = .reset
    · subst hreset; exact (countsSound_iff State.reset).1 rfl
    · exact hkept (linksKept_effect hreset u) hu
  exact ⟨(countsSound_iff t).2 ht, fun p => errorCount_eq_255_iff (ht p)⟩

end Sys2Proof.Machine
end

section
/-! O15, O16, O20: the fits, the counters, the settings, and what only one command writes. -/

namespace Sys2Proof.Machine

/-! ## Commands that leave the timebase, the settings and the fits -/

/-- The timebase but for the demand flag, and the settings. -/
def TimingKept (s t : State) : Prop := { t.time with roundDemand := s.time.roundDemand } = s.time ∧ t.settings = s.settings

theorem TimingKept.of_portsOnly {s t : State} (h : PortsOnly s t) : TimingKept s t :=
  ⟨by rw [show t.time = s.time from congrArg (·.time) h], congrArg (·.settings) h⟩

theorem TimingKept.of_outerKept {s t : State} (k : OuterKept s t) : TimingKept s t := ⟨by rw [k.time], k.settings⟩

theorem lockWatchExpires_frame (p : PortId) (s : State) :
    TimingKept s (lockWatchExpires p s) ∧ (lockWatchExpires p s).fits = s.fits := by
  unfold lockWatchExpires
  split
  · split
    · exact ⟨⟨rfl, rfl⟩, rfl⟩
    · have k := outerKept_linkDownAtSeat p (s.lockLost p)
      have htiming := TimingKept.of_outerKept k
      exact ⟨htiming, k.fits⟩
  · exact ⟨⟨rfl, rfl⟩, rfl⟩

theorem timingKept_reportPath (p : PortId) (form : ReportForm) (m : Inbound) (s : State) :
    TimingKept s (reportPath p form m s) := by
  have htiming := TimingKept.of_outerKept (outerKept_reportPath p form m s)
  exact htiming

theorem timingKept_reportArrives (p : PortId) (m : Inbound) (s : State) : TimingKept s (reportArrives p m s) := by
  unfold reportArrives
  simp only []
  split
  · split
    · exact ⟨rfl, rfl⟩
    · exact ⟨rfl, rfl⟩
    · split
      · exact timingKept_reportPath p _ m (s.setPort p { s.port p with handed := none })
      · exact ⟨rfl, rfl⟩
  all_goals exact ⟨rfl, rfl⟩

theorem timingKept_decideHello (p : PortId) (q : Request) (s : State) : TimingKept s (decideHello p q s).1 := by
  rcases decideHello_cases p q s with h | ⟨c, h⟩ <;> rw [h]
  · exact ⟨rfl, rfl⟩
  · have htiming := TimingKept.of_outerKept (outerKept_acceptHello p c s)
    exact htiming

theorem timingKept_hello (s : State) : TimingKept s (effect .hello s) := by
  rcases serve_cases (fun q => q.kind == .hello) decideHello s with h | ⟨p, q, -, -, h⟩ <;> simp only [effect] <;> rw [h]
  · exact ⟨rfl, rfl⟩
  · exact timingKept_decideHello p q (takeFrom p s)

/-- R1, R5, R34: only RESET, SETUP and a boundary write the timebase or the settings. -/
theorem timingKept_effect {c : Instr} (hreset : c ≠ .reset) (hsetup : c ≠ .setup) (hboundary : c ≠ .roundBoundary)
    (s : State) : TimingKept s (effect c s) := by
  cases hw : writesBlocks c with
  | false => exact ⟨(blocksKept_effect hw s).time, (blocksKept_effect hw s).settings⟩
  | true =>
    cases c with
    | reset => exact absurd rfl hreset
    | setup => exact absurd rfl hsetup
    | roundBoundary => exact absurd rfl hboundary
    | byteReceived p b => exact .of_portsOnly (portsOnly_byteArrives p b s)
    | framingError p => exact ⟨rfl, rfl⟩
    | lockWatchExpiry p => exact (lockWatchExpires_frame p s).1
    | frameArrival p f => exact ⟨rfl, rfl⟩
    | echo p m => exact ⟨rfl, rfl⟩
    | echoWaitExpiry p => exact .of_portsOnly (portsOnly_echoWaitExpires p s)
    | retrainWaitExpiry p => exact .of_portsOnly (portsOnly_retrainWaitExpires p s)
    | frameBoundary p => exact .of_portsOnly (portsOnly_frameBoundary p s)
    | replyTransmitted p => exact .of_portsOnly (portsOnly_replyLeaves p s)
    | hello => exact timingKept_hello s
    | report p m => exact timingKept_reportArrives p m s
    | anchorAgeExpiry p => simp only [effect, anchorAgeExpires]; split <;> exact ⟨rfl, rfl⟩
    | _ => cases hw

theorem fits_of_portsOnly {s t : State} (h : PortsOnly s t) : t.fits = s.fits := congrArg (·.fits) h

theorem setup_frame (s : State) : (effect .setup s).fits = s.fits ∧ (effect .setup s).race = s.race := by
  rcases serve_cases (fun q => q.kind == .setup) decideSetup s with h | ⟨p, q, -, -, h⟩ <;> simp only [effect] <;> rw [h]
  · exact ⟨rfl, rfl⟩
  · show (decideSetup p q (takeFrom p s)).1.fits = s.fits ∧ (decideSetup p q (takeFrom p s)).1.race = s.race
    rcases decideSetup_cases p q (takeFrom p s) with h | ⟨items, -, -, h⟩ <;> rw [h]
    · exact ⟨rfl, rfl⟩
    · exact ⟨congrArg (·.fits) (foldl_frame items (takeFrom p s)), congrArg (·.race) (foldl_frame items (takeFrom p s))⟩

/-- R65: only RESET, a HELLO, a REPORT and the anchor age timer write a fit. -/
theorem effect_fits {c : Instr} (hreset : c ≠ .reset) (hhello : c ≠ .hello) (hreport : ∀ p m, c ≠ .report p m)
    (hage : ∀ p, c ≠ .anchorAgeExpiry p) (s : State) : (effect c s).fits = s.fits := by
  cases hw : writesBlocks c with
  | false => exact (blocksKept_effect hw s).fits
  | true =>
    cases c with
    | reset => exact absurd rfl hreset
    | hello => exact absurd rfl hhello
    | report p m => exact absurd rfl (hreport p m)
    | anchorAgeExpiry p => exact absurd rfl (hage p)
    | setup => exact (setup_frame s).1
    | roundBoundary => exact (blocksKept_roundBoundary s).elim (·.fits) (·.fits)
    | byteReceived p b => exact fits_of_portsOnly (portsOnly_byteArrives p b s)
    | framingError p => rfl
    | lockWatchExpiry p => exact (lockWatchExpires_frame p s).2
    | frameArrival p f => rfl
    | echo p m => rfl
    | echoWaitExpiry p => exact fits_of_portsOnly (portsOnly_echoWaitExpires p s)
    | retrainWaitExpiry p => exact fits_of_portsOnly (portsOnly_retrainWaitExpires p s)
    | frameBoundary p => exact fits_of_portsOnly (portsOnly_frameBoundary p s)
    | replyTransmitted p => exact fits_of_portsOnly (portsOnly_replyLeaves p s)
    | _ => cases hw

/-! ## The fits (R65, R73) and the counters (R92) -/

/-- A fit outside FIT_NONE has its anchor, and its period lies in the band of its nominal one. -/
theorem sound_fitted_iff {f : Fit} (h : f.phase ≠ .fitNone) : f.sound = true ↔
    f.anchor.isSome = true ∧ (∃ n p, f.nominal = some n ∧ f.period = some p ∧ inBand n p = true) ∧ f.inGate ≤ 15 ∧
      f.outliers ≤ 2 := by
  unfold Fit.sound
  cases hp : f.phase with
  | fitNone => exact absurd hp h
  | fitSettling => cases f.nominal <;> cases f.period <;> simp [and_assoc]
  | fitTracking => cases f.nominal <;> cases f.period <;> simp [and_assoc]

theorem sound_toNone (f : Fit) : f.toNone.sound = true := by simp [Fit.toNone, Fit.sound]

theorem sound_declare (f : Fit) (period : Nat) : (f.declare period).sound = true := sound_toNone _

theorem inBand_iff (nominal period : Nat) :
    inBand nominal period = true ↔ nominal - nominal / 32 ≤ period ∧ period ≤ nominal + nominal / 32 := by
  rw [inBand, Bool.and_eq_true, decide_eq_true_iff, decide_eq_true_iff]

theorem inBand_nominal (n : Nat) : inBand n n = true := (inBand_iff n n).2 (by omega)

theorem inBand_clampPeriod (n : Nat) (x : Int) : inBand n (clampPeriod n x) = true := by
  rw [inBand_iff, clampPeriod, clampInt]
  omega

section
variable {f : Fit} {frame : FrameCount} {observed now : HubTime}

theorem sound_first (hn : f.nominal.isSome = true) : (f.first frame observed now).fit.sound = true := by
  obtain ⟨n, hn⟩ := Option.isSome_iff_exists.1 hn
  exact (sound_fitted_iff (f := (f.first frame observed now).fit) nofun).2
    ⟨rfl, ⟨n, n, hn, hn, inBand_nominal n⟩, Nat.zero_le _, Nat.zero_le _⟩

theorem sound_resync (hs : f.sound = true) (hphase : f.phase ≠ .fitNone) : (f.resync frame observed now).fit.sound = true := by
  obtain ⟨-, hband, -, -⟩ := (sound_fitted_iff hphase).1 hs
  exact (sound_fitted_iff (f := (f.resync frame observed now).fit) nofun).2
    ⟨rfl, hband, Nat.zero_le _, Nat.zero_le _⟩

theorem sound_normal (a : Anchor) (advance : Nat) (hs : f.sound = true) (hphase : f.phase ≠ .fitNone) :
    (f.normal a frame advance observed now).fit.sound = true := by
  obtain ⟨-, ⟨n, p, hn, hp, hband⟩, -, houtliers⟩ := (sound_fitted_iff hphase).1 hs
  unfold Fit.normal
  simp only []
  split
  · have hne : ((f.inGateUpdate frame advance (predict a (f.period.getD 0) advance)
        (diff observed (predict a (f.period.getD 0) advance)) now).fit).phase ≠ .fitNone := by
      simp only [Fit.inGateUpdate]
      split <;> nofun
    refine (sound_fitted_iff hne).2 ⟨rfl, ⟨n, _, hn, by simp only [Fit.inGateUpdate, hp, hn]; rfl, inBand_clampPeriod n _⟩,
      bump_le _ _, Nat.zero_le _⟩
  · split
    · exact sound_resync hs hphase
    next hfew =>
      exact (sound_fitted_iff (f := (f.coast frame (predict a (f.period.getD 0) advance) now).fit) hphase).2
        ⟨rfl, ⟨n, p, hn, hp, hband⟩, Nat.zero_le _, by show f.outliers + 1 ≤ 2; omega⟩

/-- R67 to R79: what a report makes of a sound fit whose cabinet has declared its period. -/
theorem sound_take (hs : f.sound = true) (hn : f.nominal.isSome = true) : (f.take frame observed now).fit.sound = true := by
  unfold Fit.take
  split
  · exact sound_first hn
  · exact sound_first hn
  next a _ hphase =>
    have hphase : f.phase ≠ .fitNone := hphase
    simp only []
    split
    · exact hs
    split
    · exact sound_normal a _ hs hphase
    split
    · exact sound_resync hs hphase
    · exact hs

theorem take_nominal : (f.take frame observed now).fit.nominal = f.nominal := by
  unfold Fit.take Fit.normal
  simp only []
  repeat' split
  all_goals rfl

end

/-- R21, R65 at one seat: its fit is sound, and a cabinet has declared a nominal period. -/
def FitFine (s : State) (p : PortId) : Prop :=
  (s.fit p).sound = true ∧ ((s.seat p).cabinet = none ∨ (s.fit p).nominal.isSome = true)

theorem fitsSound_iff (s : State) : s.fitsSound = true ↔ ∀ p, FitFine s p := by
  simp only [State.fitsSound, FitFine, List.all_eq_true, Bool.and_eq_true, Bool.or_eq_true, Option.isNone_iff_eq_none]
  exact ⟨fun h p => h p (mem_allPorts p), fun h p _ => h p⟩

theorem allCountersFit_iff (s : State) : s.countersFit = true ↔ ∀ p, (s.seat p).countersFit = true := by
  simp only [State.countersFit, List.all_eq_true]
  exact ⟨fun h p => h p (mem_allPorts p), fun h p _ => h p⟩

theorem FitFine.of_seat {s t : State} {p : PortId} (h : FitFine s p) (hseat : SeatKept (s.seat p) (t.seat p))
    (hfit : t.fit p = s.fit p) : FitFine t p :=
  ⟨by rw [hfit]; exact h.1, by rw [hfit]; exact h.2.imp hseat.cabinet id⟩

/-- Every command but RESET and HELLO gives no seat a cabinet, and keeps its counters within 255. -/
theorem seatsKept_effect {c : Instr} (hreset : c ≠ .reset) (hhello : c ≠ .hello) (s : State) (p : PortId) :
    SeatKept (s.seat p) ((effect c s).seat p) := by
  by_cases henter : c = .enter
  · subst henter
    have hjoin (r : PortId) (u : State) : SeatKept (u.seat p) ((joinEntryList r u).seat p) :=
      seatKept_setSeat (s := u) (p := r) (x := { u.seat r with state := .entered }) ⟨id, id⟩ p
    rcases enter_cases s with k | ⟨-, r, d, u, k, k'⟩ | ⟨-, r, u, -, -, -, k, k'⟩
    · exact k.seats p
    · exact ((k.seats p).trans (hjoin r _)).trans (k'.seats p)
    · exact ((k.seats p).trans (hjoin r u)).trans (k'.seats p)
  · exact (raceKept_effect hreset hhello henter s).seats p

/-- A REPORT writes the fit of its own seat alone, and only when a cabinet is there. -/
theorem reportArrives_fit (p : PortId) (m : Inbound) (s : State) :
    (reportArrives p m s).fits = s.fits ∨
      ((s.seat p).cabinet ≠ none ∧ ∃ frame observed, (reportArrives p m s).fits =
        (s.setFit p ((s.fit p).take frame observed s.now).fit).fits) := by
  unfold reportArrives
  simp only []
  split
  · split
    · exact .inl rfl
    · exact .inl rfl
    next c hcabinet _ =>
      split
      · have hcabinet : (s.seat p).cabinet = some c := hcabinet
        exact .inr ⟨by rw [hcabinet]; nofun, _, _, (outerKept_reportPath p _ m _).fits⟩
      · exact .inl rfl
  all_goals exact .inl rfl

/-- The fits stay fine where one fit alone is written, with a fine one. -/
theorem fitFine_of_setFit {s t : State} {p : PortId} {f : Fit} (hfits : t.fits = (s.setFit p f).fits)
    (hseats : ∀ r, SeatKept (s.seat r) (t.seat r)) (hs : ∀ r, r ≠ p → FitFine s r)
    (hf : f.sound = true ∧ ((s.seat p).cabinet = none ∨ f.nominal.isSome = true)) : ∀ r, FitFine t r := by
  intro r
  have hfit : t.fit r = if r = p then f else s.fit r := by
    rw [← State.fit_setFit]
    simp only [State.fit, hfits]
  by_cases hr : r = p
  · subst hr
    rw [if_pos rfl] at hfit
    exact ⟨by rw [hfit]; exact hf.1, by rw [hfit]; exact hf.2.imp (hseats r).cabinet id⟩
  · rw [if_neg hr] at hfit
    exact (hs r hr).of_seat (hseats r) hfit

theorem fitFine_effect (c : Instr) {s : State} (hs : ∀ p, FitFine s p) : ∀ p, FitFine (effect c s) p := by
  by_cases hreset : c = .reset
  · subst hreset; exact (fitsSound_iff State.reset).1 rfl
  by_cases hhello : c = .hello
  · subst hhello
    rcases hello_cases s with ⟨k, hfits⟩ | ⟨p, cabinet, k, hfits⟩
    · exact fun r => (hs r).of_seat (k.seats r) (by simp only [State.fit, hfits])
    · refine fitFine_of_setFit (s := s.declareCabinet p cabinet) hfits k.seats (fun r hr => ?_)
        ⟨sound_declare _ _, .inr rfl⟩
      exact (hs r).of_seat (by rw [State.declareCabinet, State.seat_setSeat_ne s _ hr]; exact .refl _) rfl
  have hseats := seatsKept_effect hreset hhello s
  by_cases hreport : ∃ p m, c = .report p m
  · obtain ⟨p, m, rfl⟩ := hreport
    rcases reportArrives_fit p m s with hfits | ⟨hcabinet, frame, observed, hfits⟩
    · exact fun r => (hs r).of_seat (hseats r) (congrArg (·[r]) hfits)
    · have hnominal := (hs p).2.resolve_left hcabinet
      exact fitFine_of_setFit hfits hseats (fun r _ => hs r) ⟨sound_take (hs p).1 hnominal, .inr (by rw [take_nominal]; exact hnominal)⟩
  by_cases hage : ∃ p, c = .anchorAgeExpiry p
  · obtain ⟨p, rfl⟩ := hage
    simp only [effect, anchorAgeExpires] at hseats ⊢
    split at hseats
    next h => rw [if_pos h]; exact fitFine_of_setFit rfl hseats (fun r _ => hs r) ⟨sound_toNone _, (hs p).2⟩
    next h => rw [if_neg h]; exact hs
  · have hfits := effect_fits hreset hhello (fun p m h => hreport ⟨p, m, h⟩) (fun p h => hage ⟨p, h⟩) s
    exact fun r => (hs r).of_seat (hseats r) (congrArg (·[r]) hfits)

theorem countersFit_effect (c : Instr) {s : State} (hs : ∀ p, (s.seat p).countersFit = true) :
    ∀ p, ((effect c s).seat p).countersFit = true := by
  by_cases hreset : c = .reset
  · subst hreset; exact (allCountersFit_iff State.reset).1 rfl
  by_cases hhello : c = .hello
  · subst hhello
    rcases hello_cases s with ⟨k, -⟩ | ⟨p, cabinet, k, -⟩
    · exact fun r => (k.seats r).counters (hs r)
    · refine fun r => (k.seats r).counters ?_
      rw [State.declareCabinet, State.seat_setSeat]
      split
      next e => subst e; exact hs r
      next => exact hs r
  · exact fun p => (seatsKept_effect hreset hhello s p).counters (hs p)

/-- Settles O15. -/
theorem stepKeepsFitsInTheirBands : Obligations.StepKeepsFitsInTheirBands := by
  intro s t hfits hcounters h
  refine step_establishes (Pre := fun u => (∀ p, FitFine u p) ∧ ∀ p, (u.seat p).countersFit = true)
    (Post := fun u => u.fitsSound = true ∧ u.countersFit = true) (fun _ _ hu => hu)
    (fun u hu => ⟨(fitsSound_iff u).2 hu.1, (allCountersFit_iff u).2 hu.2⟩) (fun u v hc hu => ?_)
    (fun u hu => ⟨(fitsSound_iff _).2 hu.1, (allCountersFit_iff _).2 hu.2⟩)
    (fun c u hu => ⟨(fitsSound_iff _).2 (fitFine_effect c hu.1), (allCountersFit_iff _).2 (countersFit_effect c hu.2)⟩)
    ⟨(fitsSound_iff s).1 hfits, (allCountersFit_iff s).1 hcounters⟩ h
  have hseat (p : PortId) : v.seat p = u.seat p := congrArg (·[p]) (congrArg (·.seats) hc : v.seats = u.seats)
  have hfit (p : PortId) : v.fit p = u.fit p := congrArg (·[p]) (congrArg (·.fits) hc : v.fits = u.fits)
  refine ⟨(fitsSound_iff v).2 fun p => ?_, (allCountersFit_iff v).2 fun p => ?_⟩
  · exact (hu.1 p).of_seat (by rw [hseat]; exact .refl _) (hfit p)
  · rw [hseat]; exact hu.2 p

end Sys2Proof.Machine
end

section
/-! O16, O20: the ranges of the settings, and what only one command writes. -/

namespace Sys2Proof.Machine

/-! ## The ranges of the settings (R6, R35, R36, R152) -/

theorem within_iff (lo hi n : Nat) : within lo hi n = true ↔ lo ≤ n ∧ n ≤ hi := by
  rw [within, Bool.and_eq_true, decide_eq_true_iff, decide_eq_true_iff]

theorem Settings.sound_iff (x : Settings) : x.sound = true ↔
    (∀ k, k ≤ 13 → within (settingRange k).1 (settingRange k).2 (x.get k) = true) ∧ profileSound x.profile = true := by
  constructor
  · intro h
    simp only [Settings.sound, Bool.and_eq_true] at h
    obtain ⟨⟨⟨⟨⟨⟨⟨⟨⟨⟨⟨⟨⟨⟨h0, h1⟩, h2⟩, h3⟩, h4⟩, h5⟩, h6⟩, h7⟩, h8⟩, h9⟩, h10⟩, h11⟩, h12⟩, h13⟩, hprofile⟩ := h
    refine ⟨fun k hk => ?_, hprofile⟩
    interval_cases k <;> assumption
  · rintro ⟨h, hprofile⟩
    have h0 := h 0; have h1 := h 1; have h2 := h 2; have h3 := h 3; have h4 := h 4; have h5 := h 5; have h6 := h 6
    have h7 := h 7; have h8 := h 8; have h9 := h 9; have h10 := h 10; have h11 := h 11; have h12 := h 12; have h13 := h 13
    simp only [Nat.reduceLeDiff, forall_const, settingRange, Settings.get] at *
    simp only [Settings.sound, Bool.and_eq_true, *, and_self]

theorem settingRange_le {k : Nat} (hk : k ≤ 13) : (settingRange k).1 ≤ (settingRange k).2 := by
  interval_cases k <;> decide

theorem within_clampSetting {k : Nat} (hk : k ≤ 13) (v : Nat) :
    within (settingRange k).1 (settingRange k).2 (clampSetting k v) = true := by
  have := settingRange_le hk
  rw [within_iff, clampSetting, clampNat]
  omega

theorem clampShare_bounds (v : Nat) : 1 ≤ clampShare v ∧ clampShare v ≤ 255 := by
  rw [clampShare, clampNat]
  omega

theorem clampSegmentSpeed_bounds (v : Nat) : 100 ≤ clampSegmentSpeed v ∧ clampSegmentSpeed v ≤ 16383 := by
  rw [clampSegmentSpeed, clampNat]
  omega

theorem profileSound_iff (profile : List ProfileSegment) : profileSound profile = true ↔
    1 ≤ profile.length ∧ profile.length ≤ 8 ∧ (profile.map (·.share)).sum = 256 ∧
      ∀ g ∈ profile, 1 ≤ g.share ∧ 100 ≤ g.speed ∧ g.speed ≤ 16383 := by
  simp only [profileSound, Bool.and_eq_true, decide_eq_true_eq, List.all_eq_true, and_assoc]

/-- R36: the shares and the speeds of a profile that is built. -/
theorem buildProfile_columns {shares speeds : List Nat} {profile : List ProfileSegment}
    (h : buildProfile shares speeds = some profile) (hlength : shares.length + 1 = speeds.length) :
    (shares.map clampShare).sum ≤ 255 ∧
    profile.map (·.share) = shares.map clampShare ++ [256 - (shares.map clampShare).sum] ∧
      profile.map (·.speed) = speeds.map clampSegmentSpeed := by
  unfold buildProfile at h
  simp only [] at h
  split at h
  · cases h
  next hsum =>
    cases h
    have hcolumns : (shares.map clampShare ++ [256 - (shares.map clampShare).sum]).length = speeds.length := by
      simp only [List.length_append, List.length_map, List.length_singleton, hlength]
    refine ⟨Nat.le_of_not_lt hsum, ?_, ?_⟩
    · rw [List.map_zipWith]
      exact zipWith_left _ _ hcolumns
    · rw [List.map_zipWith]
      exact zipWith_right clampSegmentSpeed _ _ hcolumns

theorem profileSound_buildProfile {shares speeds : List Nat} {profile : List ProfileSegment}
    (h : buildProfile shares speeds = some profile) (hlength : shares.length + 1 = speeds.length)
    (height : speeds.length ≤ 8) : profileSound profile = true := by
  obtain ⟨hsum, hshares, hspeeds⟩ := buildProfile_columns h hlength
  have hlen : profile.length = speeds.length := by
    simpa only [List.length_map] using congrArg List.length hspeeds
  refine (profileSound_iff profile).2 ⟨by omega, by omega, ?_, fun g hg => ⟨?_, ?_⟩⟩
  · rw [hshares, List.sum_append, List.sum_singleton]
    omega
  · have hmem : g.share ∈ profile.map (·.share) := List.mem_map_of_mem hg
    rw [hshares, List.mem_append, List.mem_map, List.mem_singleton] at hmem
    rcases hmem with ⟨v, -, hv⟩ | hlast
    · rw [← hv]; exact (clampShare_bounds v).1
    · omega
  · have hmem : g.speed ∈ profile.map (·.speed) := List.mem_map_of_mem hg
    rw [hspeeds, List.mem_map] at hmem
    obtain ⟨v, -, hv⟩ := hmem
    rw [← hv]
    exact clampSegmentSpeed_bounds v

/-- A parsed profile has at most 8 segments (R189). -/
theorem parse_profile_length (order : ByteOrder) (fuel : Nat) (bytes : List Byte) (items : List SetupItem)
    (h : parseSetup order fuel bytes = some items) : ∀ a b, SetupItem.profile a b ∈ items → b.length ≤ 8 := by
  induction fuel generalizing bytes items with
  | zero => cases bytes <;> simp [parseSetup] at h; subst h; simp
  | succ fuel ih =>
    cases bytes with
    | nil => simp [parseSetup] at h; subst h; simp
    | cons number rest =>
      simp only [parseSetup] at h
      split at h
      · split at h
        · cases h
        · obtain ⟨items, hrest, rfl⟩ := Option.map_eq_some_iff.1 h
          intro a b hmem
          exact ih _ _ hrest a b ((List.mem_cons.1 hmem).resolve_left nofun)
      · split at h
        · cases rest with
          | nil => cases h
          | cons count body =>
            simp only [] at h
            split at h
            · cases h
            next hcount =>
              obtain ⟨items, hrest, rfl⟩ := Option.map_eq_some_iff.1 h
              intro a b hmem
              rcases List.mem_cons.1 hmem with heq | hmem
              · cases heq
                rw [readMany_length]
                omega
              · exact ih _ _ hrest a b hmem
        · cases h

/-- What a parsed item is known to be: a setting 0 to 14, or a profile of 1 to 8 segments. -/
def SetupItem.shaped : SetupItem → Prop
  | .value k _ => k ≤ 14
  | .profile shares speeds => shares.length + 1 = speeds.length ∧ speeds.length ≤ 8

theorem shaped_of_parse {order : ByteOrder} {fuel : Nat} {bytes : List Byte} {items : List SetupItem}
    (h : parseSetup order fuel bytes = some items) : ∀ i ∈ items, i.shaped := by
  intro i hi
  cases i with
  | value k v => exact parse_numbers order fuel bytes items h k v hi
  | profile a b => exact ⟨parse_profile order fuel bytes items h a b hi, parse_profile_length order fuel bytes items h a b hi⟩

theorem settingsSound_iff (s : State) : s.settingsSound = true ↔
    s.settings.sound = true ∧ within 8000 50000 s.time.period = true ∧
      ∀ n, s.time.pendingPeriod = some n → within 8000 50000 n = true := by
  unfold State.settingsSound
  cases s.time.pendingPeriod <;> simp [and_assoc]

/-- R35: an item is written clamped. -/
theorem settingsSound_write {s : State} {i : SetupItem} (hi : i.shaped) (h : s.settingsSound = true) :
    (i.write s).settingsSound = true := by
  rw [settingsSound_iff] at h ⊢
  obtain ⟨hsettings, hperiod, hpending⟩ := h
  rw [Settings.sound_iff] at hsettings
  obtain ⟨hvalues, hprofile⟩ := hsettings
  refine ⟨(Settings.sound_iff _).2 ⟨fun k hk => ?_, ?_⟩, ?_, fun n => ?_⟩
  · rw [get_write s i k hk fun n v e => by subst e; exact hi]
    cases i with
    | value n v =>
      simp only []
      split
      · exact within_clampSetting hk v
      · exact hvalues k hk
    | profile a b => exact hvalues k hk
  · rw [prof_write]
    cases i with
    | value n v => exact hprofile
    | profile a b =>
      cases hbuild : buildProfile a b with
      | none => simp only [hbuild]; exact hprofile
      | some profile => simp only [hbuild]; exact profileSound_buildProfile hbuild hi.1 hi.2
  · rw [time_write]
    cases i with
    | value n v => simp only []; split <;> exact hperiod
    | profile a b => exact hperiod
  · rw [time_write]
    cases i with
    | value k v =>
      simp only []
      split
      · rintro ⟨⟩
        exact within_clampSetting (k := 0) (by omega) v
      · exact hpending n
    | profile a b => exact hpending n

theorem settingsSound_writes {items : List SetupItem} {s : State} (hi : ∀ i ∈ items, i.shaped)
    (h : s.settingsSound = true) : (items.foldl SetupItem.write s).settingsSound = true := by
  induction items generalizing s with
  | nil => exact h
  | cons i rest ih =>
    obtain ⟨hfirst, hrest⟩ := List.forall_mem_cons.1 hi
    exact ih hrest (settingsSound_write hfirst h)

/-- What the settings' ranges are read from. -/
theorem settingsSound_congr {s t : State} (hs : t.settings = s.settings) (hp : t.time.period = s.time.period)
    (hpending : t.time.pendingPeriod = s.time.pendingPeriod) (h : s.settingsSound = true) : t.settingsSound = true := by
  simpa only [State.settingsSound, hs, hp, hpending] using h

theorem settingsSound_of_timingKept {s t : State} (k : TimingKept s t) (h : s.settingsSound = true) :
    t.settingsSound = true :=
  settingsSound_congr k.2 (congrArg (·.period) k.1) (congrArg (·.pendingPeriod) k.1) h

theorem settingsSound_setup {s : State} (h : s.settingsSound = true) : (effect .setup s).settingsSound = true := by
  rcases serve_cases (fun q => q.kind == .setup) decideSetup s with hserve | ⟨p, q, -, -, hserve⟩ <;> simp only [effect] <;>
    rw [hserve]
  · exact h
  · have htaken : (takeFrom p s).settingsSound = true := h
    rcases decideSetup_cases p q (takeFrom p s) with hsame | ⟨items, hparse, -, hwritten⟩
    · exact settingsSound_congr (s := (decideSetup p q (takeFrom p s)).1) rfl rfl rfl (by rw [hsame]; exact htaken)
    · exact settingsSound_congr (s := (decideSetup p q (takeFrom p s)).1) rfl rfl rfl
        (by rw [hwritten]; exact settingsSound_writes (shaped_of_parse hparse) htaken)

/-- R6: a pending period is installed. -/
theorem settingsSound_advanceRound {s : State} (h : s.settingsSound = true) :
    ({ s with time := s.time.advanceRound } : State).settingsSound = true := by
  rw [settingsSound_iff] at h ⊢
  obtain ⟨hsettings, hperiod, hpending⟩ := h
  refine ⟨hsettings, ?_, nofun⟩
  show within 8000 50000 (s.time.pendingPeriod.getD s.time.period) = true
  cases hp : s.time.pendingPeriod with
  | none => exact hperiod
  | some n => exact hpending n hp

theorem settingsSound_effect (c : Instr) {s : State} (h : s.settingsSound = true) : (effect c s).settingsSound = true := by
  by_cases hreset : c = .reset
  · subst hreset; exact settingsSound_congr (s := State.reset) rfl rfl rfl rfl
  by_cases hsetup : c = .setup
  · subst hsetup; exact settingsSound_setup h
  by_cases hboundary : c = .roundBoundary
  · subst hboundary
    rcases blocksKept_roundBoundary s with k | k
    · exact settingsSound_of_timingKept ⟨k.time, k.settings⟩ h
    · exact settingsSound_of_timingKept ⟨k.time, k.settings⟩ (settingsSound_advanceRound h)
  · exact settingsSound_of_timingKept (timingKept_effect hreset hsetup hboundary s) h

/-- Settles O16. -/
theorem stepKeepsSettingsInRange : Obligations.StepKeepsSettingsInRange := by
  intro s t hs h
  refine step_establishes (Pre := fun u => u.settingsSound = true) (Post := fun u => u.settingsSound = true)
    (fun _ _ hu => hu) (fun _ hu => hu) (fun u v hc hu => ?_) (fun _ hu => hu) (fun c u hu => settingsSound_effect c hu) hs h
  have htime := (congrArg (·.time) hc : { v.time with hubTime := u.time.hubTime } = u.time)
  exact settingsSound_congr (congrArg (·.settings) hc) (congrArg (·.period) htime) (congrArg (·.pendingPeriod) htime) hu

/-! ## What only one command writes -/

theorem hubTime_write (s : State) (i : SetupItem) : (i.write s).time.hubTime = s.time.hubTime := by
  rw [time_write]
  cases i with
  | value k v => simp only []; split <;> rfl
  | profile a b => rfl

/-- R1. -/
theorem hubTime_effect {c : Instr} (hreset : c ≠ .reset) (s : State) : (effect c s).time.hubTime = s.time.hubTime := by
  by_cases hsetup : c = .setup
  · subst hsetup
    rcases serve_cases (fun q => q.kind == .setup) decideSetup s with h | ⟨p, q, -, -, h⟩ <;> simp only [effect] <;> rw [h]
    show (decideSetup p q (takeFrom p s)).1.time.hubTime = (takeFrom p s).time.hubTime
    rcases decideSetup_cases p q (takeFrom p s) with hsame | ⟨items, -, -, hwritten⟩
    · rw [hsame]
    · rw [hwritten]
      exact fold_keep (·.time.hubTime) (fun _ => False) (fun u i _ => hubTime_write u i) items _ fun _ _ => id
  by_cases hboundary : c = .roundBoundary
  · subst hboundary
    rcases blocksKept_roundBoundary s with k | k
    · exact congrArg (·.hubTime) k.time
    · exact congrArg (·.hubTime) k.time
  · exact congrArg (·.hubTime) (timingKept_effect hreset hsetup hboundary s).1

theorem settings_effect {c : Instr} (hreset : c ≠ .reset) (hsetup : c ≠ .setup) (s : State) :
    (effect c s).settings = s.settings := by
  by_cases hboundary : c = .roundBoundary
  · subst hboundary
    exact (blocksKept_roundBoundary s).elim (·.settings) (·.settings)
  · exact (timingKept_effect hreset hsetup hboundary s).2

/-- R40: a race that is under way and stays out of IDLE keeps its descriptor; only an ENTER in IDLE brings one. -/
theorem descriptor_effect {c : Instr} (hreset : c ≠ .reset) (s : State) :
    s.race.state = .idle ∨ DescriptorKept s.race (effect c s).race := by
  by_cases henter : c = .enter
  · subst henter
    rcases enter_cases s with k | ⟨hidle, -⟩ | ⟨-, p, u, -, -, -, k, k'⟩
    · exact .inr k.descriptor
    · exact .inl hidle
    · have hjoin : DescriptorKept u.race (joinEntryList p u).race := .of_eq rfl rfl
      exact .inr ((k.descriptor.trans hjoin).trans k'.descriptor)
  by_cases hhello : c = .hello
  · subst hhello
    rcases hello_cases s with ⟨k, -⟩ | ⟨p, cabinet, k, -⟩
    · exact .inr k.descriptor
    · exact .inr k.descriptor
  · exact .inr (raceKept_effect hreset hhello henter s).descriptor

/-- Settles O20. -/
theorem clockSettingsDescriptorAndDelayAreHeld : Obligations.ClockSettingsDescriptorAndDelayAreHeld := by
  intro c s t hreset h
  rcases exec_cases h with rfl | rfl | rfl
  case inl =>
    refine ⟨hubTime_effect hreset s, fun hsetup => settings_effect hreset hsetup s, fun hrace hrace' => ?_,
      fun p => (linksKept_effect hreset s p).delay⟩
    exact (((descriptor_effect hreset s).resolve_left hrace).resolve_left hrace').2
  case inr.inl => exact ⟨rfl, fun _ => rfl, fun _ _ => rfl, fun p => (LinkKept.of_view (linksSame_released s p)).delay⟩
  case inr.inr => exact ⟨rfl, fun _ => rfl, fun _ _ => rfl, fun _ => .inl rfl⟩

end Sys2Proof.Machine
end

section
/-! O1 to O5, O10, O12, O19, O21, O22, O40: the step on an empty queue, timers, reset, the event queue and the arbiter. -/

namespace Sys2Proof.Machine

/-! ## The step and the events due (R1, R5, R15, R17) -/

/-- Settles O1. -/
theorem stepRunsFrontCommand : Obligations.StepRunsFrontCommand := fun _ _ _ => rfl

/-- Settles O19: the reset state is closed, so the invariants evaluate. -/
theorem resetMeetsTheInvariants : Obligations.ResetMeetsTheInvariants := by
  refine ⟨rfl, rfl, rfl, rfl, rfl, rfl, ?_, rfl⟩
  decide +kernel

theorem mem_onlyIf {b : Bool} {c i : Instr} : c ∈ onlyIf b i ↔ b = true ∧ c = i := by
  unfold onlyIf
  cases b <;> simp

/-- The block whose event raises a command. -/
inductive Source where
  | link
  | seat
  | engine
  | race
  deriving DecidableEq

def sourceOf : Instr → Source
  | .lockWatchExpiry _ | .echoWaitExpiry _ | .retrainWaitExpiry _ | .replyTransmitted _ | .frameBoundary _ => .link
  | .silenceExpiry _ | .dropExpiry _ | .anchorAgeExpiry _ => .seat
  | .hello | .enter | .ready | .withdraw | .queryRace | .querySeat | .queryFit | .queryLink | .queryLaps | .queryFinish
  | .queryParam | .setup | .serviceComplete => .engine
  | _ => .race

theorem sourceOf_port {q : Port} {now : HubTime} {p : PortId} {c : Instr} (h : c ∈ q.eventsDue now p) :
    sourceOf c = .link := by
  unfold Port.eventsDue at h
  rcases List.mem_append.1 h with h | h
  · rcases List.mem_append.1 h with h | h
    · obtain ⟨-, rfl⟩ := mem_onlyIf.1 h; rfl
    · split at h
      · rcases List.mem_append.1 h with h | h <;> obtain ⟨-, rfl⟩ := mem_onlyIf.1 h <;> rfl
      · cases h
  · split at h <;> obtain ⟨-, rfl⟩ := mem_onlyIf.1 h <;> rfl

theorem mem_seatEventsDue {s : State} {p : PortId} {c : Instr} : c ∈ s.seatEventsDue p ↔
    (expired s.now (s.seat p).silenceTimer = true ∧ c = .silenceExpiry p) ∨
    (expired s.now (s.seat p).dropTimer = true ∧ c = .dropExpiry p) ∨
    (expired s.now (s.fit p).ageTimer = true ∧ c = .anchorAgeExpiry p) := by
  simp only [State.seatEventsDue, List.mem_append, mem_onlyIf, or_assoc]

theorem sourceOf_seat {s : State} {p : PortId} {c : Instr} (h : c ∈ s.seatEventsDue p) : sourceOf c = .seat := by
  rcases mem_seatEventsDue.1 h with ⟨-, rfl⟩ | ⟨-, rfl⟩ | ⟨-, rfl⟩ <;> rfl

theorem sourceOf_takeStep (q : Request) : sourceOf (takeStep q) = .engine := by
  unfold takeStep
  split <;> first | rfl | (split <;> rfl)

theorem sourceOf_engine {s : State} {c : Instr} (h : c ∈ s.engineEventsDue) : sourceOf c = .engine := by
  unfold State.engineEventsDue at h
  split at h
  · obtain ⟨-, rfl⟩ := mem_onlyIf.1 h; rfl
  · split at h
    · rw [List.mem_singleton] at h; rw [h]; exact sourceOf_takeStep _
    · cases h

/-- The race's events but for the end of a computation and the pacer's crossing. -/
theorem mem_raceEventsDue {s : State} {c : Instr} (hend : c ≠ .roundComputationEnd) (hpacer : c ≠ .pacerCrossing) :
    c ∈ s.raceEventsDue ↔
    (expired s.now s.race.lobbyTimer = true ∧ c = .lobbyExpiry) ∨ (expired s.now s.race.gridTimer = true ∧ c = .gridExpiry) ∨
    (expired s.now s.race.finishWindowTimer = true ∧ c = .finishWindowExpiry) ∨
    (expired s.now s.race.raceLimitTimer = true ∧ c = .raceLimitExpiry) ∨
    (expired s.now s.race.resultsHoldTimer = true ∧ c = .resultsHoldExpiry) ∨
    (expired s.now s.race.voidTimer = true ∧ c = .voidExpiry) ∨
    (0 ≤ diff s.now s.time.nextBoundary ∧ c = .roundBoundary) := by
  cases hc : s.assembler.computation <;>
    simp [State.raceEventsDue, mem_onlyIf, hc, hend, hpacer]

theorem sourceOf_race {s : State} {c : Instr} (h : c ∈ s.raceEventsDue) : sourceOf c = .race := by
  by_cases hend : c = .roundComputationEnd
  · rw [hend]; rfl
  by_cases hpacer : c = .pacerCrossing
  · rw [hpacer]; rfl
  rcases (mem_raceEventsDue hend hpacer).1 h with ⟨-, rfl⟩ | ⟨-, rfl⟩ | ⟨-, rfl⟩ | ⟨-, rfl⟩ | ⟨-, rfl⟩ | ⟨-, rfl⟩ | ⟨-, rfl⟩ <;>
    rfl

theorem eventsDue_of_none_arrived {s : State} (h : ∀ p, (s.port p).arrived = none ∧ (s.port p).handed = none) :
    s.eventsDue = (allPorts.flatMap fun p => (s.port p).eventsDue s.now p) ++ allPorts.flatMap s.seatEventsDue ++
      s.engineEventsDue ++ s.raceEventsDue := by
  have hnone : allPorts.flatMap (fun p => (s.port p).arrivalDue p) = [] := by
    rw [List.flatMap_eq_nil_iff]
    intro p _
    simp only [Port.arrivalDue, (h p).1, (h p).2, List.append_nil]
  unfold State.eventsDue
  rw [hnone]

section
variable {s : State} (h : ∀ p, (s.port p).arrived = none ∧ (s.port p).handed = none)
include h

theorem mem_eventsDue_of_race {c : Instr} (hc : sourceOf c = .race) : c ∈ s.eventsDue ↔ c ∈ s.raceEventsDue := by
  rw [eventsDue_of_none_arrived h]
  simp only [List.mem_append, List.mem_flatMap]
  refine ⟨fun hmem => ?_, .inr⟩
  rcases hmem with ((⟨p, -, hmem⟩ | ⟨p, -, hmem⟩) | hmem) | hmem
  · rw [sourceOf_port hmem] at hc; cases hc
  · rw [sourceOf_seat hmem] at hc; cases hc
  · rw [sourceOf_engine hmem] at hc; cases hc
  · exact hmem

theorem mem_eventsDue_of_seat {c : Instr} (hc : sourceOf c = .seat) : c ∈ s.eventsDue ↔ ∃ p, c ∈ s.seatEventsDue p := by
  rw [eventsDue_of_none_arrived h]
  simp only [List.mem_append, List.mem_flatMap]
  refine ⟨fun hmem => ?_, fun ⟨p, hmem⟩ => .inl (.inl (.inr ⟨p, mem_allPorts p, hmem⟩))⟩
  rcases hmem with ((⟨p, -, hmem⟩ | ⟨p, -, hmem⟩) | hmem) | hmem
  · rw [sourceOf_port hmem] at hc; cases hc
  · exact ⟨p, hmem⟩
  · rw [sourceOf_engine hmem] at hc; cases hc
  · rw [sourceOf_race hmem] at hc; cases hc

end

theorem step_of_empty {s : State} (h : s.pending = []) : step s = .next (idleStep s) := by
  unfold step
  rw [h]

theorem chooseEvent_mem (draw : Nat) (first : Instr) (rest : List Instr) : chooseEvent draw first rest ∈ first :: rest := by
  unfold chooseEvent
  cases hget : (first :: rest)[Config.tieOrder draw % (rest.length + 1)]? with
  | none => exact List.mem_cons_self
  | some c => exact List.mem_of_getElem? hget

/-- Settles O2: the clock, then which events are due, block by block. -/
theorem emptyQueueRunsTheClock : Obligations.EmptyQueueRunsTheClock := by
  intro s hempty
  rw [step_of_empty hempty]
  refine ⟨fun hreset hdue => ?tick, fun hreset hdue => ?raised, fun hreset => ?held, fun hquiet => ?due⟩
  case tick =>
    refine ⟨s.nextTrail, ?_, fun p => ?_⟩
    · simp only [idleStep, hreset, hdue, Bool.false_eq_true, if_false, tick]
    · have horder : (map8 (fun _ x => Seat.order x) s.seats)[p] = s.orderAt p := map8_getElem _ s.seats p
      exact ⟨horder, rfl, rfl, rfl, rfl, rfl⟩
  case raised =>
    cases hlist : s.eventsDue with
    | nil => exact absurd hlist hdue
    | cons c rest =>
      cases rest with
      | nil =>
        exact ⟨c, List.mem_cons_self, s.freeDraws, by
          simp only [idleStep, hreset, hlist, Bool.false_eq_true, if_false], fun _ => rfl⟩
      | cons d rest =>
        exact ⟨_, chooseEvent_mem s.freeDraws c (d :: rest), s.freeDraws + 1, by
          simp only [idleStep, hreset, hlist, Bool.false_eq_true, if_false], fun hone => by simp at hone⟩
  case held => simp only [idleStep, hreset, if_true]
  case due =>
    have hrace {c : Instr} (hc : sourceOf c = .race) (hend : c ≠ .roundComputationEnd) (hpacer : c ≠ .pacerCrossing) :=
      (mem_eventsDue_of_race hquiet hc).trans (mem_raceEventsDue hend hpacer)
    refine ⟨?_, ?_, ?_, ?_, ?_, ?_, ?_, fun p => ⟨?_, ?_, ?_⟩⟩
    case refine_8 | refine_9 | refine_10 =>
      refine (mem_eventsDue_of_seat hquiet rfl).trans ?_
      simp [mem_seatEventsDue]
    all_goals
      refine (hrace (by rfl) (by nofun) (by nofun)).trans ?_
      simp

/-! ## Differences and timers (R2, R15) -/

theorem diff_eq (a b : HubTime) :
    diff a b = if (a.toNat + 2 ^ 32 - b.toNat) % 2 ^ 32 < 2 ^ 31 then (((a.toNat + 2 ^ 32 - b.toNat) % 2 ^ 32 : Nat) : Int)
      else (((a.toNat + 2 ^ 32 - b.toNat) % 2 ^ 32 : Nat) : Int) - 2 ^ 32 := by
  have hsub : (a - b).toNat = (a.toNat + 2 ^ 32 - b.toNat) % 2 ^ 32 := by
    rw [BitVec.toNat_sub]
    congr 1
    omega
  rw [diff, BitVec.toInt_eq_toNat_cond, hsub]
  have := Nat.mod_lt (a.toNat + 2 ^ 32 - b.toNat) (show 0 < 2 ^ 32 by decide)
  split <;> split <;> omega

/-- R2: the difference of two instants counted from the same hub time, each within 2^31 µs of it. -/
theorem diff_add_add (now : HubTime) {j k : Nat} (hj : j < 2 ^ 31) (hk : k < 2 ^ 31) :
    diff (now + BitVec.ofNat 32 j) (now + BitVec.ofNat 32 k) = (j : Int) - k := by
  rcases Nat.le_total k j with hle | hle
  · rw [diff_add_ofNat now k j hle (by omega)]
    omega
  · rw [diff_eq, BitVec.toNat_add, BitVec.toNat_add, BitVec.toNat_ofNat, BitVec.toNat_ofNat]
    have := now.isLt
    split <;> omega

/-- Settles O3. -/
theorem timerRunsForItsDuration : Obligations.TimerRunsForItsDuration := by
  refine ⟨diff_eq, fun now d k hd hk => ⟨?_, ?_⟩⟩
  · rw [startTimer, expired, diff_add_add now hk hd, Bool.eq_iff_iff, decide_eq_true_iff, decide_eq_true_iff]
    omega
  · rw [startTimer, remaining, Option.map_some, diff_add_add now hd hk, Option.some.injEq]
    omega

/-! ## Reset (R17, R193) -/

/-- Settles O4. -/
theorem resetWritesTheResetValues : Obligations.ResetWritesTheResetValues := by
  intro s
  have hreplicate {α : Type} (x : α) (p : PortId) : (Vector.replicate 8 x)[p] = x := Vector.getElem_replicate _
  refine ⟨_, rfl, rfl, rfl, rfl, hreplicate Seat.reset, hreplicate Fit.reset, hreplicate CarRecord.empty,
    fun c => Vector.getElem_replicate _, fun p => ?_, rfl, rfl, rfl, rfl, rfl, rfl, rfl, rfl, rfl, rfl, rfl, rfl,
    hreplicate none, rfl, rfl, rfl, rfl, rfl, rfl, rfl, rfl, rfl⟩
  have hport : ({ State.reset with freeDraws := s.freeDraws, pending := s.pending } : State).port p = Port.reset :=
    hreplicate Port.reset p
  rw [hport]
  exact ⟨rfl, rfl, rfl, rfl, rfl, rfl, rfl, rfl, rfl, rfl, rfl⟩

/-- Settles O5. -/
theorem resetHoldsTheHubUntilRelease : Obligations.ResetHoldsTheHubUntilRelease :=
  ⟨fun _ _ hheld hreset hrelease => exec_held hheld hreset hrelease,
    fun s hheld => ⟨released s, exec_resetRelease_held hheld, rfl, released_port s, rfl⟩⟩

/-! ## The first boundary at or after a hub time (R7) -/

/-- Settles O10: the number of periods is the distance divided by the period, rounded up. -/
theorem firstBoundaryAtOrAfter : Obligations.FirstBoundaryAtOrAfter := by
  intro t h period hpos
  refine ⟨fun hle => if_pos hle, fun hlt => ⟨ceilDiv (diff h t.nextBoundary).toNat period, if_neg (by omega), ?_⟩⟩
  have hdiv := Nat.div_add_mod ((diff h t.nextBoundary).toNat + period - 1) period
  have hmod := Nat.mod_lt ((diff h t.nextBoundary).toNat + period - 1) hpos
  rw [← Nat.cast_mul, ceilDiv, Nat.mul_comm _ period]
  omega

/-! ## The event queue (R162, R164, R165) -/

/-- Settles O12. -/
theorem queueAppendsAndDrains : Obligations.QueueAppendsAndDrains :=
  ⟨fun _ _ => ⟨fun hroom => if_pos hroom, fun hfull => if_neg (Nat.not_lt.2 hfull)⟩, fun _ => rfl, fun _ _ => ⟨rfl, rfl⟩⟩

/-! ## The service buffer and the arbiter (R26, R27) -/

/-- Settles O21. -/
theorem requestEntersTheBuffer : Obligations.RequestEntersTheBuffer := by
  intro p k m s hreset
  have hexec : exec (.serviceRequestArrival p k m) s = .next (requestArrives p k m s) := exec_running _ hreset
  have hlink : ((s.setPort p { s.port p with handed := none }).port p).link = (s.port p).link := by simp
  rw [hexec]
  unfold requestArrives
  simp only [hlink]
  refine ⟨fun hup hempty => ?_, fun hup hfull => ?_, fun hnot => ?_⟩
  · simp [hup, Port.takeIn, hempty]
  · obtain ⟨r, hr⟩ := Option.isSome_iff_exists.1 hfull
    simp [hup, Port.takeIn, hr]
  · cases hl : (s.port p).link with
    | up => exact absurd hl hnot
    | training => rfl
    | down => rfl

theorem eligible_iff (s : State) (p : PortId) :
    s.eligible p = true ↔ (s.port p).buffer.isSome = true ∧ (s.port p).reply = none := by
  simp only [State.eligible, Bool.and_eq_true, Option.isNone_iff_eq_none]

theorem getElem_arbiterOrder (ptr : PortId) (i : Nat) (hi : i < (arbiterOrder ptr).length) :
    (arbiterOrder ptr)[i] = ptr + 1 + ⟨i, hi⟩ :=
  Option.some.inj ((List.getElem?_eq_getElem hi).symm.trans (arbiterOrder_getElem ptr ⟨i, hi⟩))

/-- R27: a port stands in the scan at its cyclic distance from pointer + 1. -/
theorem getElem_arbiterOrder_sub (ptr p : PortId) (h : (p - (ptr + 1)).val < (arbiterOrder ptr).length) :
    (arbiterOrder ptr)[(p - (ptr + 1)).val] = p :=
  (getElem_arbiterOrder ptr _ h).trans (add_sub_cancel (ptr + 1) p)

/-- R27: the scan finds the eligible port at the least cyclic distance from pointer + 1. -/
theorem find?_arbiterOrder (ptr p : PortId) (eligible : PortId → Bool) :
    (arbiterOrder ptr).find? eligible = some p ↔
      eligible p = true ∧ ∀ r : PortId, (r - (ptr + 1)).val < (p - (ptr + 1)).val → ¬eligible r = true := by
  rw [List.find?_eq_some_iff_getElem]
  refine and_congr_right fun _ => ⟨?_, fun hfirst => ?_⟩
  · rintro ⟨i, hi, rfl, hbefore⟩ r hr
    rw [getElem_arbiterOrder, add_sub_cancel_left] at hr
    have hskip := hbefore (r - (ptr + 1)).val hr
    rw [getElem_arbiterOrder_sub] at hskip
    simpa using hskip
  · refine ⟨(p - (ptr + 1)).val, (p - (ptr + 1)).isLt, getElem_arbiterOrder_sub ptr p _, fun j hj => ?_⟩
    have hlt : j < (arbiterOrder ptr).length := hj.trans (p - (ptr + 1)).isLt
    have hskip := hfirst (arbiterOrder ptr)[j] (by rw [getElem_arbiterOrder, add_sub_cancel_left]; exact hj)
    simpa using hskip

/-- Settles O22. -/
theorem arbiterTakesTheFirstEligiblePort : Obligations.ArbiterTakesTheFirstEligiblePort := by
  intro s
  refine ⟨fun hfree p q => ?_, fun hbusy => ?_⟩
  · have hnext : s.nextRequest = some (p, q) ↔
        (arbiterOrder s.engine.pointer).find? s.eligible = some p ∧ (s.port p).buffer = some q := by
      unfold State.nextRequest
      rw [hfree, Option.isSome_none, if_neg (by simp)]
      cases (arbiterOrder s.engine.pointer).find? s.eligible with
      | none => simp
      | some r =>
        simp only [Option.map_eq_some_iff, Prod.mk.injEq, Option.some.injEq]
        constructor
        · rintro ⟨_, hq, rfl, rfl⟩; exact ⟨rfl, hq⟩
        · rintro ⟨rfl, hq⟩; exact ⟨q, hq, rfl, rfl⟩
    rw [hnext, find?_arbiterOrder]
    simp only [eligible_iff]
    constructor
    · rintro ⟨⟨⟨-, hreply⟩, hfirst⟩, hbuffer⟩; exact ⟨hbuffer, hreply, hfirst⟩
    · rintro ⟨hbuffer, hreply, hfirst⟩; exact ⟨⟨⟨by rw [hbuffer]; rfl, hreply⟩, hfirst⟩, hbuffer⟩
  · unfold State.nextRequest
    rw [if_pos (Option.isSome_iff_ne_none.2 hbusy)]

/-! ## The anchor age timer (R3, R80) -/

/-- Settles O40. -/
theorem anchorAgeExpiryEmptiesTheFit : Obligations.AnchorAgeExpiryEmptiesTheFit := by
  intro p s hreset hdue
  rw [exec_running _ hreset]
  show Host.Outcome.next (anchorAgeExpires p s) = _
  rw [anchorAgeExpires, if_pos hdue]
  rfl

end Sys2Proof.Machine
end

section
/-! O34 to O37, O39, O44, O45: the expiries of the controller timers and of the drop timer, and the last steps of a report. -/

namespace Sys2Proof.Machine

/-! ## The controller timers (R46, R49, R56, R59, R61) -/

/-- R61: only READY seats lose a timer at entry into VOID. -/
theorem enterVoid_seat_timer (s : State) (p : PortId) : (enterVoid s).seat p =
    { s.seat p with silenceTimer := if (s.seat p).state = .ready then none else (s.seat p).silenceTimer } := by
  rw [enterVoid_seat]
  split <;> rfl

/-- Settles O34. -/
theorem lobbyExpiryClosesTheLobby : Obligations.LobbyExpiryClosesTheLobby := by
  intro s hreset hdue hlobby
  have hexec : exec .lobbyExpiry s = .next (closeLobby { s with race := { s.race with lobbyTimer := none } }) := by
    rw [exec_running _ hreset]
    simp only [effect, lobbyExpires, hdue, hlobby, if_true]
  rw [hexec]
  refine ⟨fun henough => ?_, fun hfew => ?_⟩
  · rw [closeLobby, if_pos henough]
    rfl
  · rw [closeLobby, if_neg (Nat.not_le.2 hfew)]
    exact ⟨_, rfl, rfl, enterVoid_seat_timer _, rfl, rfl, rfl⟩

/-- Settles O35. The grid timer itself plays no part in the closing of the grid. -/
theorem gridExpiryClosesTheGrid : Obligations.GridExpiryClosesTheGrid := by
  intro s hreset hdue hgrid hnodup
  have hexec : exec .gridExpiry s = .next (closeGrid { s with race := { s.race with gridTimer := none } }) := by
    rw [exec_running _ hreset]
    simp only [effect, gridExpires, hdue, hgrid, if_true]
  have hcloses := closesGrid_closeGrid { s with race := { s.race with gridTimer := none } } hnodup
  have hkept := outerKept_closeGrid { s with race := { s.race with gridTimer := none } }
  exact ⟨_, hexec, hcloses, hkept.engine, hkept.freeDraws⟩

/-- Settles O36: both timers lead into RESULTS under the number of the next boundary. -/
theorem expiryEndsTheRace : Obligations.ExpiryEndsTheRace := by
  intro s hreset after
  have hafter (f l : Timer) :
      after (enterResults (s.time.roundNumber + 1)
        { s with race := { s.race with finishWindowTimer := f, raceLimitTimer := l } }) := by
    have hkept := outerKept_enterResults (s.time.roundNumber + 1)
      { s with race := { s.race with finishWindowTimer := f, raceLimitTimer := l } }
    exact ⟨endsRace_raceTimers f l (endsRace_enterResults _ _), hkept.engine, hkept.freeDraws⟩
  refine ⟨fun hstate hdue => ⟨_, ?_, hafter none s.race.raceLimitTimer⟩,
    fun hstate hdue => ⟨_, ?_, hafter s.race.finishWindowTimer none⟩⟩
  · rw [exec_running _ hreset]
    simp only [effect, finishWindowExpires, hdue, hstate, if_true]
    rfl
  · rw [exec_running _ hreset]
    simp only [effect, raceLimitExpires, hdue, hstate, if_true]
    rfl

/-- Settles O37. -/
theorem expiryReturnsTheRaceToIdle : Obligations.ExpiryReturnsTheRaceToIdle := by
  intro s hreset after
  have hafter (hold void : Timer) :
      after (enterIdle { s with race := { s.race with resultsHoldTimer := hold, voidTimer := void } }) :=
    ⟨entersIdle_enterIdle { s with race := { s.race with resultsHoldTimer := hold, voidTimer := void } }, rfl, rfl⟩
  refine ⟨fun hstate hdue => ⟨_, ?_, hafter none s.race.voidTimer⟩,
    fun hstate hdue => ⟨_, ?_, hafter s.race.resultsHoldTimer none⟩⟩
  · rw [exec_running _ hreset]
    simp only [effect, resultsHoldExpires, hdue, hstate, if_true]
  · rw [exec_running _ hreset]
    simp only [effect, voidExpires, hdue, hstate, if_true]

/-! ## The drop timer (R145) -/

/-- Settles O39. -/
theorem dropExpiryRetiresTheSeat : Obligations.DropExpiryRetiresTheSeat := by
  intro p s frozen hreset hdue hstalled hfrozen hlive retired left
  have hexec : exec (.dropExpiry p) s = .next (retirementNotice left) := by
    rw [exec_running _ hreset]
    simp only [effect, dropExpires, hdue, if_true, State.seat_setSeat_self, State.setSeat_race, hstalled, hlive, and_self,
      hfrozen, Option.getD_some, retireSeat, State.setSeat_setSeat]
    rfl
  have hkept := outerKept_retirementNotice left
  refine ⟨_, hexec, retirementTold_notice left, hkept.engine, hkept.freeDraws, fun ⟨r, hne, hfield, hrunning⟩ => ?_⟩
  exact retirementNotice_goesOn (s := left) (r := r) hfield (by
    show ((s.setSeat p retired).seat r).state = .running
    rw [State.seat_setSeat_ne s _ hne]
    exact hrunning)

/-! ## Recovery, the jump start and round-seen (R94 to R96, R141 to R143) -/

section
variable {p : PortId} {s : State}

theorem seatTold_silent (hlive : s.race.state.live = true) (hstalled : (s.seat p).state = .stalled)
    (hsilent : (s.seat p).stallPhase = some .silent) (kind : FitClass) :
    seatTold p kind s = s.setSeat p { s.seat p with stallPhase := some .recovering, recoveryRun := some 0 } := by
  simp only [seatTold, hstalled, hlive, hsilent, if_true]

theorem seatTold_recovering (hlive : s.race.state.live = true) (hstalled : (s.seat p).state = .stalled)
    (hphase : (s.seat p).stallPhase = some .recovering) {run : Nat} (hrun : (s.seat p).recoveryRun = some run)
    (kind : FitClass) : seatTold p kind s =
      if 4 ≤ nextRecoveryRun run kind then readmit p s
      else s.setSeat p { s.seat p with recoveryRun := some (nextRecoveryRun run kind) } := by
  simp only [seatTold, hstalled, hlive, hphase, hrun, if_true, Option.getD_some]

theorem nextRecoveryRun_of_ne_inGate {run : Nat} {kind : FitClass} (h : kind ≠ .inGate) : nextRecoveryRun run kind = 0 := by
  cases kind
  case inGate => exact absurd rfl h
  all_goals rfl

theorem readmit_seat : (readmit p s).seat p = { s.seat p with
    state := .running, stallPhase := none, recoveryRun := none, frozenProgress := none, dropTimer := none
    silenceTimer := startTimer s.now (s.settings.stallLimit * 1000) } :=
  State.seat_setSeat_self s p _

theorem judgeJump_of_grid {cs : CarState} {grid : Int} (hlive : s.race.state.live = true)
    (hrunning : (s.seat p).state = .running) (hgrid : (s.seat p).gridProgress = some grid) : judgeJump p cs s =
      if s.raceTime cs.time < 0 ∧ grid + s.settings.jumpTolerance < cs.progress ∧ (s.seat p).jumped = false then
        appendEvent (.jump p (s.raceTime cs.time))
          (s.setSeat p { s.seat p with jumped := true, penalty := s.settings.jumpPenalty * 1000 })
      else s := by
  simp only [judgeJump, hlive, hrunning, SeatState.inField, Bool.and_self, if_true, hgrid, true_and]
  rfl

end

/-- Settles O44. -/
theorem recoveryAndJumpStart : Obligations.RecoveryAndJumpStart := by
  intro p s hlive x
  refine ⟨⟨fun hstalled hsilent => seatTold_silent hlive hstalled hsilent, fun run hstalled hphase hrun => ?_⟩,
    fun cs grid hrunning hgrid => ?_⟩
  · have htold := seatTold_recovering hlive hstalled hphase hrun
    refine ⟨fun hlow => ?_, fun kind hkind => ?_, fun hthree => ?_⟩
    · rw [htold, nextRecoveryRun, if_neg (by omega)]
    · rw [htold, nextRecoveryRun_of_ne_inGate hkind, if_neg (by omega)]
    · rw [htold, nextRecoveryRun, if_pos (by omega)]
      exact ⟨readmit_seat, rfl, rfl⟩
  · have hjump := judgeJump_of_grid (cs := cs) hlive hrunning hgrid
    refine ⟨fun hbefore hbeyond hfirst => ?_, fun hnot => ?_⟩
    · rw [hjump, if_pos ⟨hbefore, hbeyond, hfirst⟩]
      exact ⟨State.seat_setSeat_self s p _, rfl, rfl⟩
    · rw [hjump, if_neg]
      rintro ⟨hbefore, hbeyond, hfirst⟩
      rcases hnot with h | h | h
      · omega
      · omega
      · rw [show (s.seat p).jumped = true from h] at hfirst; cases hfirst

/-- R58: the release waits for nobody. -/
theorem allSeen_iff (s : State) : s.allSeen = true ↔
    ∀ r : PortId, s.counted r = true → s.portUp r = true → s.race.seenMarks[r] = some true := by
  simp only [State.allSeen, List.all_eq_true, Bool.or_eq_true, Bool.not_eq_true', Bool.and_eq_false_iff, beq_iff_eq]
  constructor
  · intro h r hcounted hup
    have hr := h r (mem_allPorts r)
    rw [hcounted, hup] at hr
    simpa using hr
  · intro h r _
    by_cases hcounted : s.counted r = true
    · by_cases hup : s.portUp r = true
      · exact .inr (h r hcounted hup)
      · exact .inl (.inr (by simpa using hup))
    · exact .inl (.inl (by simpa using hcounted))

theorem captureRoundSeen_results {p : PortId} {seen k : RoundNo} {s : State} (hresults : s.race.state = .results)
    (hk : s.race.resultsRound = some k) (hfield : (s.seat p).state.inField = true) : captureRoundSeen p seen s =
      if (seen - k).toNat < 32768 then
        checkRelease { s with race := { s.race with seenMarks := s.race.seenMarks.set p (some true) } }
      else checkRelease s := by
  simp only [captureRoundSeen, hresults, hfield, hk, roundAtOrAfter, decide_eq_true_eq, and_self, if_true]

theorem checkRelease_waits {s : State} (h : s.allSeen = false) : checkRelease s = s := by
  rw [checkRelease, h]
  exact if_neg (by simp)

theorem seenMarks_set_ne (marks : Vector (Option Bool) 8) {p r : PortId} (h : r ≠ p) (x : Option Bool) :
    (marks.set p x)[r] = marks[r] :=
  Vector.getElem_set_ne p.isLt r.isLt fun e => h (Fin.ext e.symm)

theorem seenMarks_set_self (marks : Vector (Option Bool) 8) (p : PortId) (x : Option Bool) : (marks.set p x)[p] = x :=
  Vector.getElem_set_self p.isLt

/-- Settles O45. -/
theorem roundSeenReleasesTheResults : Obligations.RoundSeenReleasesTheResults := by
  intro p seen k s hresults hk hfield
  have hcapture := captureRoundSeen_results (seen := seen) hresults hk hfield
  refine ⟨fun hseen ⟨r, hne, hcounted, hup, hmark⟩ => ?_, fun hseen hall => ?_, fun hbefore hwaits => ?_⟩
  · rw [hcapture, if_pos hseen]
    refine checkRelease_waits ?_
    rw [Bool.eq_false_iff]
    intro hall
    refine hmark (Eq.trans ?_ ((allSeen_iff _).1 hall r hcounted hup))
    exact (seenMarks_set_ne s.race.seenMarks hne _).symm
  · have hseenAll : ({ s with race := { s.race with seenMarks := s.race.seenMarks.set p (some true) } } : State).allSeen =
        true := by
      refine (allSeen_iff _).2 fun r hcounted hup => ?_
      by_cases hr : r = p
      · subst hr
        exact seenMarks_set_self s.race.seenMarks r _
      · exact (seenMarks_set_ne s.race.seenMarks hr _).trans (hall r hr hcounted hup)
    rw [hcapture, if_pos hseen, checkRelease, if_pos ⟨hresults, hseenAll⟩]
    exact entersIdle_enterIdle _
  · rw [hcapture, if_neg (Nat.not_lt.2 hbefore), checkRelease_waits hwaits]

end Sys2Proof.Machine
end

section
/-! O53 to O58, O60: fields and frames on the line, the receiver, training and the transmitter. -/

namespace Sys2Proof.Machine

/-! ## Fields (R19, R189) -/

/-- A written number reads back modulo the width of its field, in both orders. -/
theorem readNat_bytes (order : ByteOrder) (f : Field) :
    readNat order (f.bytes order) = (f.value % 256 ^ f.width).toNat % 256 ^ f.width := by
  cases order with
  | highFirst => simp [readNat, Field.bytes, foldl_highFirstBytes]
  | lowFirst => simp [readNat, Field.bytes, foldl_highFirstBytes]

theorem readField_written (order : ByteOrder) (f : Field) (before after : List Byte) :
    readField order (before ++ f.bytes order ++ after) before.length f.width =
      (f.value % 256 ^ f.width).toNat % 256 ^ f.width := by
  rw [readField_middle, readNat_bytes]

/-- Settles O55. -/
theorem fieldsReadBackInBothOrders : Obligations.FieldsReadBackInBothOrders := by
  intro order width n before after hn
  refine ⟨?_, fun v hlow hhigh => ?_⟩
  · have hread := readField_written order { width := width, value := n } before after
    have hmod : ((n : Int) % 256 ^ width).toNat = n := by
      have hcast : ((n : Int) % 256 ^ width) = ((n % 256 ^ width : Nat) : Int) := by push_cast; rfl
      rw [hcast, Nat.mod_eq_of_lt hn, Int.toNat_natCast]
    rw [hmod, Nat.mod_eq_of_lt hn] at hread
    exact hread
  · have hread : readField order (before ++ Field.bytes order { width := 2, value := v } ++ after) before.length 2 =
        (v % 65536).toNat % 65536 := readField_written order { width := 2, value := v } before after
    rw [hread, signed16, BitVec.toInt_eq_toNat_cond, BitVec.toNat_ofNat]
    split <;> omega

/-! ## The receiver (R182) -/

theorem byte_length_toNat {payload : List Byte} (h : payload.length ≤ 255) :
    (BitVec.ofNat 8 payload.length).toNat = payload.length := by
  rw [BitVec.toNat_ofNat]
  exact Nat.mod_eq_of_lt (by omega)

theorem wireBytes_length (kind : Byte) (payload : List Byte) : (wireBytes kind payload).length = payload.length + 6 := by
  simp only [wireBytes, List.length_cons, List.length_append, highFirstBytes_length]

/-- A 16-bit number written high byte first reads back. -/
theorem readNat_highFirstBytes (crc : BitVec 16) : BitVec.ofNat 16 (readNat .highFirst (highFirstBytes 2 crc.toNat)) = crc := by
  rw [readNat, foldl_highFirstBytes, Nat.zero_mul, Nat.zero_add]
  apply BitVec.eq_of_toNat_eq
  have := crc.isLt
  rw [BitVec.toNat_ofNat]
  omega

/-- Settles O54: the marker and the first two bytes one by one, the rest by `receive_reading`. -/
theorem receiverReadsBackEveryFrame : Obligations.ReceiverReadsBackEveryFrame := by
  intro order now kind payload hlen
  refine ⟨?_, wireBytes_length kind payload⟩
  have hbytes := byte_length_toNat hlen
  have hcrc := highFirstBytes_length 2 (frameCrc kind payload).toNat
  have hrest := receive_reading (now - 5) order order kind (BitVec.ofNat 8 payload.length) (payload.length + 2)
    (by rw [hbytes]) (payload ++ highFirstBytes 2 (frameCrc kind payload).toNat) [] (now + 5 + 5 + 5 + 5)
    (by simp [hcrc]) (by simp [hcrc])
  have hkind : wholeFrame (now - 5) order [kind] = none := rfl
  have hlength : wholeFrame (now - 5) order [kind, BitVec.ofNat 8 payload.length] = none := by
    rw [wholeFrame, if_neg (by rw [hbytes]; simp)]
  have hstart : startOfByte now = now - 5 := rfl
  simp only [wireBytes, receive, Receiver.take, if_true, hstart, List.nil_append, List.cons_append, hkind, hlength, hrest,
    hbytes, List.take_left, List.drop_left, readNat_highFirstBytes, Option.toList_none]

/-- R182: a frame is whole at its last CRC byte and not before. -/
theorem wholeFrame_eq_none {stamp : HubTime} {held : ByteOrder} {got : List Byte} {b : Byte}
    (h : got.length + 1 < 4 + (got[1]?.getD 0).toNat) : wholeFrame stamp held (got ++ [b]) = none := by
  match got with
  | [] => rfl
  | [kind] =>
    have hnot : ¬([] : List Byte).length = b.toNat + 2 := by simp
    rw [List.cons_append, List.nil_append, wholeFrame, if_neg hnot]
  | kind :: length :: rest =>
    have hshort : rest.length + 1 + 1 + 1 < 4 + length.toNat := h
    have hnot : ¬(rest ++ [b]).length = length.toNat + 2 := by
      rw [List.length_append, List.length_singleton]
      omega
    exact if_neg hnot

theorem two_bytes_append (high low : Byte) : BitVec.ofNat 16 (readNat .highFirst [high, low]) = high ++ low := by
  apply BitVec.eq_of_toNat_eq
  have hhigh := high.isLt
  have hlow := low.isLt
  have happend : (high ++ low).toNat = high.toNat * 256 + low.toNat := by
    rw [BitVec.toNat_append, ← Nat.shiftLeft_add_eq_or_of_lt hlow, Nat.shiftLeft_eq]
  rw [happend, BitVec.toNat_ofNat]
  simp only [readNat, List.foldl_cons, List.foldl_nil]
  omega

theorem wholeFrame_complete {stamp : HubTime} {held : ByteOrder} {kind high low : Byte} {payload : List Byte}
    (h : payload.length ≤ 255) :
    wholeFrame stamp held (kind :: BitVec.ofNat 8 payload.length :: (payload ++ [high]) ++ [low]) =
      some { stamp := stamp, order := held, kind := kind, payload := payload, crc := high ++ low } := by
  have hbytes := byte_length_toNat h
  have hshape : (kind :: BitVec.ofNat 8 payload.length :: (payload ++ [high]) ++ [low]) =
      kind :: BitVec.ofNat 8 payload.length :: (payload ++ [high, low]) := by simp
  rw [hshape, wholeFrame, if_pos (by rw [hbytes]; simp), hbytes, List.take_left, List.drop_left, two_bytes_append]

theorem orderAtStart_cases (s : State) (p : PortId) :
    s.orderAtStart p = s.orderTrail[4][p] ∨ s.orderAtStart p = s.orderTrail[5][p] := by
  unfold State.orderAtStart State.ordersAtStart
  simp only []
  split
  · exact .inl rfl
  · split
    · exact .inr rfl
    · exact .inl rfl

theorem orderAtStart_of_same {s : State} {p : PortId} {order : ByteOrder} (hended : s.orderTrail[4][p] = order)
    (hbegan : s.orderTrail[5][p] = order) : s.orderAtStart p = order := by
  rcases orderAtStart_cases s p with h | h
  · exact h.trans hended
  · exact h.trans hbegan

/-- R19: the port takes the byte, and a free value is drawn where the order changed at its start bit (log 29). -/
theorem byteArrives_eq (p : PortId) (b : Byte) (s : State) : byteArrives p b s =
    { s.setPort p ((s.port p).takeByte s.now (s.orderAtStart p) b) with
      freeDraws := s.freeDraws + if s.orderTrail[5][p] = s.orderTrail[4][p] then 0 else 1 } := by
  unfold byteArrives State.ordersAtStart
  simp only []
  split <;> rfl

theorem takeByte_down {q : Port} (h : q.link = .down) (now : HubTime) (order : ByteOrder) (b : Byte) :
    q.takeByte now order b =
      { q with
        link := .training, lockWatch := startTimer now 50000, errorCount := 0, receiver := .hunting, arrived := none
        handed := none
        training := some { probe := 0, stage := .due, errors := 0, least := none, sentAt := 0, echoWait := none,
                           retrainWait := none } } :=
  if_pos h

theorem takeByte_locked {q : Port} (h : q.link ≠ .down) (now : HubTime) (order : ByteOrder) (b : Byte) :
    q.takeByte now order b =
      { q with
        lockWatch := startTimer now 50000, receiver := (q.receiver.take now order b).1
        arrived := match (q.receiver.take now order b).2 with
          | some f => some f
          | none => q.arrived } :=
  if_neg h

/-- Settles O53. -/
theorem bytesGainAndKeepLock : Obligations.BytesGainAndKeepLock := by
  intro p s hreset first draws
  have hbyte (b : Byte) : exec (.byteReceived p b) s = .next (byteArrives p b s) := exec_running _ hreset
  refine ⟨fun b hdown => ?_, fun b hlocked => ?_, orderAtStart_cases s p, fun now order held stamp b got => ⟨rfl, ?_, ?_, ?_⟩,
    fun order hlocked hhunting hended hbegan => ?_, fun t hlink htraining hdue => ?_⟩
  · rw [hbyte, byteArrives_eq, takeByte_down hdown]
  · rw [hbyte, byteArrives_eq, takeByte_locked hlocked] <;> rfl
  · rw [Receiver.take]
    split
    next hsecond => exact congrArg (·, none) (if_pos hsecond).symm
    next hnot =>
      split
      next hfirst => exact congrArg (·, none) ((if_neg hnot).trans (if_pos hfirst)).symm
      next hneither => exact congrArg (·, none) ((if_neg hnot).trans (if_neg hneither)).symm
  · intro hshort
    simp only [Receiver.take, wholeFrame_eq_none hshort]
  · rintro kind payload high hlen rfl
    simp only [Receiver.take, wholeFrame_complete hlen]
  · rw [hbyte, byteArrives_eq, takeByte_locked hlocked, orderAtStart_of_same hended hbegan, hended, hbegan, hhunting, if_pos rfl]
    rfl
  · have hexpires : retrainWaitExpires p s = s.setPort p (s.port p).startPass := by
      simp only [retrainWaitExpires, htraining, hlink, hdue, and_self, if_true]
    rw [exec_running _ hreset]
    exact congrArg _ hexpires

/-! ## Frames checked and handed on (R183, R184) -/

theorem serviceOfCode_of_code {kind : Byte} {k : ServiceKind} (h : kind.toNat = serviceCode k) : serviceOfCode kind = some k := by
  have hkind : kind = BitVec.ofNat 8 (serviceCode k) := by
    apply BitVec.eq_of_toNat_eq
    rw [h]
    cases k <;> rfl
  rw [hkind]
  cases k <;> rfl

theorem code_of_serviceOfCode {kind : Byte} {k : ServiceKind} (h : serviceOfCode kind = some k) : kind.toNat = serviceCode k := by
  unfold serviceOfCode at h
  split at h
  next hkind => cases h; rw [hkind]; rfl
  split at h
  next hkind => cases h; rw [hkind]; rfl
  split at h
  next hkind => cases h; rw [hkind]; rfl
  split at h
  next hkind => cases h; rw [hkind]; rfl
  split at h
  next hkind => cases h; rw [hkind]; rfl
  split at h
  next hkind => cases h; rw [hkind]; rfl
  cases h

section
variable {f : RxFrame}

theorem handOn_report (h : f.kind = 0x10) :
    handOn f = some (.report { stamp := f.stamp, order := f.order, payload := f.payload }) := if_pos h

theorem handOn_echo (h : f.kind = 0x30) :
    handOn f = some (.echo { stamp := f.stamp, order := f.order, payload := f.payload }) := by
  simp only [handOn, h]
  rfl

theorem handOn_service {k : ServiceKind} (h : f.kind.toNat = serviceCode k) :
    handOn f = some (.service k { stamp := f.stamp, order := f.order, payload := f.payload }) := by
  have hreport : f.kind ≠ reportCode := fun e => by rw [e] at h; cases k <;> cases h
  have hecho : f.kind ≠ echoCode := fun e => by rw [e] at h; cases k <;> cases h
  simp only [handOn, if_neg hreport, if_neg hecho, serviceOfCode_of_code h, Option.map_some]

theorem handOn_none (hreport : f.kind ≠ 0x10) (hecho : f.kind ≠ 0x30) (hservice : ∀ k, f.kind.toNat ≠ serviceCode k) :
    handOn f = none := by
  have hnone : serviceOfCode f.kind = none := by
    rw [Option.eq_none_iff_forall_ne_some]
    exact fun k hk => hservice k (code_of_serviceOfCode hk)
  have hreport' : f.kind ≠ reportCode := hreport
  have hecho' : f.kind ≠ echoCode := hecho
  simp only [handOn, if_neg hreport', if_neg hecho', hnone, Option.map_none]

variable {q : Port} {now : HubTime}

theorem checkFrame_good (hlink : q.link ≠ .down) (hcrc : f.crc = frameCrc f.kind f.payload) {h : Handed}
    (hh : handOn f = some h) : q.checkFrame now f = { q with handed := some h } := by
  rw [Port.checkFrame, if_neg hlink, if_pos hcrc, hh]

theorem checkFrame_bad (hlink : q.link ≠ .down) (hcrc : f.crc ≠ frameCrc f.kind f.payload) :
    q.checkFrame now f = q.frameFails now := by
  rw [Port.checkFrame, if_neg hlink, if_neg hcrc]

theorem frameFails_up (hlink : q.link = .up) : q.frameFails now = q.countError := by
  simp only [Port.frameFails, hlink]

/-- R183: a kind the hub does not receive is a fault in UP. -/
theorem checkFrame_unknown (hlink : q.link = .up) (hcrc : f.crc = frameCrc f.kind f.payload) (hnone : handOn f = none) :
    q.checkFrame now f = q.countError := by
  rw [Port.checkFrame, if_neg (by rw [hlink]; nofun), if_pos hcrc, hnone]
  exact if_pos hlink

end

/-- Settles O56. -/
theorem framesAreCheckedAndHandedOn : Obligations.FramesAreCheckedAndHandedOn := by
  intro p f s hreset q m count good
  have hexec : exec (.frameArrival p f) s = .next (s.setPort p (q.checkFrame s.now f)) := exec_running _ hreset
  have herror : exec (.framingError p) s = .next (s.setPort p ((s.port p).takeFramingError s.now)) := exec_running _ hreset
  refine ⟨fun hgood hlink hkind => ?_, fun hgood hlink hkind => ?_, fun hgood hlink k hkind => ?_,
    fun hgood hlink hreport hecho hservice => ?_, fun hbad hlink => ?_, fun stamp order got hlink hreading => ?_,
    fun hhunting => ?_⟩
  · rw [hexec, checkFrame_good (q := q) hlink hgood (handOn_report hkind)]
  · rw [hexec, checkFrame_good (q := q) hlink hgood (handOn_echo hkind)]
  · rw [hexec, checkFrame_good (q := q) hlink hgood (handOn_service hkind)]
  · rw [hexec, checkFrame_unknown (q := q) hlink hgood (handOn_none hreport hecho hservice)]
    rfl
  · have hlocked : q.link ≠ .down := fun hdown => by cases hdown.symm.trans (show q.link = .up from hlink)
    rw [hexec, checkFrame_bad hlocked hbad, frameFails_up (q := q) hlink]
    rfl
  · rw [herror, Port.takeFramingError, hreading]
    simp only []
    rw [frameFails_up (q := { s.port p with receiver := .hunting }) hlink]
    rfl
  · rw [herror, Port.takeFramingError, hhunting]
    simp only [State.setPort_port]

end Sys2Proof.Machine
end

section
/-! O57, O58, O60: probes and echoes, the end of a training pass, and what the transmitter sends next. -/

namespace Sys2Proof.Machine

/-! ## Probes and echoes (R180, R181) -/

section
variable {q : Port} {now : HubTime} {t : Training}

theorem awaiting_of_training (hlink : q.link = .training) (ht : q.training = some t) (hwait : t.echoWait ≠ none) :
    q.awaiting = some t :=
  awaiting_eq_some_iff.2 ⟨hlink, ht, Option.isSome_iff_ne_none.2 hwait⟩

theorem awaiting_of_no_wait (ht : q.training = some t) (hwait : t.echoWait = none) : q.awaiting = none := by
  rw [Option.eq_none_iff_forall_ne_some]
  intro u hu
  obtain ⟨-, hu, hrunning⟩ := awaiting_eq_some_iff.1 hu
  obtain rfl : t = u := Option.some.inj (ht.symm.trans hu)
  rw [hwait] at hrunning
  cases hrunning

/-- R180: a probe before the last is resolved with a measure. -/
theorem resolve_measured (h : t.probe < 15) (m : Int) : q.resolve now t (some m) =
    { q with
      training := some
        { t with probe := t.probe + 1, stage := .due, echoWait := none, least := some (leastOf t.least m) } } := by
  unfold Port.resolve
  rw [if_neg (Nat.not_le.2 h)]
  rfl

/-- R180: a probe before the last is resolved with a probe error. -/
theorem resolve_error (h : t.probe < 15) : q.resolve now t none =
    { q with
      errorCount := q.errorCount + 1
      training := some { t with probe := t.probe + 1, stage := .due, echoWait := none, errors := t.errors + 1 } } := by
  unfold Port.resolve
  rw [if_neg (Nat.not_le.2 h)]
  rfl

theorem resolve_last_measured (h : t.probe = 15) (m : Int) : q.resolve now t (some m) =
    q.endPass now { t with least := some (leastOf t.least m), echoWait := none } := by
  unfold Port.resolve
  rw [if_pos (le_of_eq h.symm)]
  rfl

theorem resolve_last_error (h : t.probe = 15) : q.resolve now t none =
    ({ q with errorCount := q.errorCount + 1 } : Port).endPass now { t with errors := t.errors + 1, echoWait := none } := by
  unfold Port.resolve
  rw [if_pos (le_of_eq h.symm)]
  rfl

theorem endPass_up (hfew : t.errors ≤ 3) {least : Int} (hleast : t.least = some least) : q.endPass now t =
    { q with
      link := .up, training := none, errorCount := t.errors, buffer := none, reply := none, round := none
      delay := (max 0 (min 4095 (Int.fdiv least 2))).toNat } := by
  rw [Port.endPass, if_pos hfew, hleast]
  rfl

theorem endPass_failed (hmany : 4 ≤ t.errors) : q.endPass now t =
    { q with
      errorCount := t.errors
      training := some { t with stage := .passFailed, echoWait := none, retrainWait := startTimer now 1000000 } } :=
  if_neg (by omega)

theorem judgeEcho_of_not_awaiting (h : q.awaiting = none) (m : Inbound) : q.judgeEcho now m = q := by
  rw [Port.judgeEcho, h]

theorem judgeEcho_of_awaiting (h : q.awaiting = some t) {m : Inbound} {number : Byte} {rest : List Byte}
    (hm : m.payload = number :: rest) : q.judgeEcho now m =
      if number.toNat ≠ t.probe then q
      else if m.payload = probePayload t.probe then q.resolve now t (some (diff m.stamp t.sentAt - probeTime))
      else q.resolve now t none := by
  rw [Port.judgeEcho, h]
  simp only [hm]

theorem toNat_probe_number (h : t.probe ≤ 15) : (BitVec.ofNat 8 t.probe).toNat = t.probe := by
  rw [BitVec.toNat_ofNat]
  exact Nat.mod_eq_of_lt (by omega)

theorem judgeEcho_match (h : q.awaiting = some t) (hprobe : t.probe ≤ 15) {m : Inbound}
    (hm : m.payload = probePayload t.probe) :
    q.judgeEcho now m = q.resolve now t (some (diff m.stamp t.sentAt - 195)) := by
  rw [judgeEcho_of_awaiting h (hm.trans rfl), if_neg (not_not.2 (toNat_probe_number hprobe)), if_pos hm]
  rfl

theorem judgeEcho_mismatch (h : q.awaiting = some t) (hprobe : t.probe ≤ 15) {m : Inbound} {rest : List Byte}
    (hm : m.payload = BitVec.ofNat 8 t.probe :: rest) (hne : m.payload ≠ probePayload t.probe) :
    q.judgeEcho now m = q.resolve now t none := by
  rw [judgeEcho_of_awaiting h hm, if_neg (not_not.2 (toNat_probe_number hprobe)), if_neg hne]

/-- R180: an echo of another number changes nothing, whether the wait runs or not. -/
theorem judgeEcho_other_number (ht : q.training = some t) {m : Inbound} {number : Byte} {rest : List Byte}
    (hm : m.payload = number :: rest) (hne : number.toNat ≠ t.probe) : q.judgeEcho now m = q := by
  cases h : q.awaiting with
  | none => exact judgeEcho_of_not_awaiting h m
  | some u =>
    obtain rfl : t = u := Option.some.inj (ht.symm.trans (awaiting_eq_some_iff.1 h).2.1)
    rw [judgeEcho_of_awaiting h hm, if_pos hne]

theorem frameFails_awaiting (h : q.awaiting = some t) : q.frameFails now = q.resolve now t none := by
  simp only [Port.frameFails, (awaiting_eq_some_iff.1 h).1, h]

theorem frameFails_not_awaiting (hlink : q.link = .training) (h : q.awaiting = none) : q.frameFails now = q := by
  simp only [Port.frameFails, hlink, h]

end

/-- R179: the pattern bytes, each the low byte of its number. -/
theorem probePayload_eq (k : Nat) :
    probePayload k = BitVec.ofNat 8 k :: (List.range 32).map fun j => BitVec.ofNat 8 ((k * 37 + j * 11) % 256) := by
  have hmod (n : Nat) : BitVec.ofNat 8 (n % 256) = BitVec.ofNat 8 n := by
    apply BitVec.eq_of_toNat_eq
    rw [BitVec.toNat_ofNat, BitVec.toNat_ofNat]
    omega
  simp only [probePayload, hmod]

section
variable {p : PortId} {s : State} {t : Training}

theorem exec_echo (hreset : s.resetHeld = false) (m : Inbound) : exec (.echo p m) s =
    .next (s.setPort p (({ s.port p with handed := none } : Port).judgeEcho s.now m)) := exec_running _ hreset

theorem exec_bad_frame (hreset : s.resetHeld = false) {f : RxFrame}
    (hcrc : f.crc ≠ crc16 (f.kind :: BitVec.ofNat 8 f.payload.length :: f.payload)) (hlink : (s.port p).link ≠ .down) :
    exec (.frameArrival p f) s = .next (s.setPort p (({ s.port p with arrived := none } : Port).frameFails s.now)) := by
  rw [exec_running _ hreset]
  exact congrArg (fun q => Host.Outcome.next (s.setPort p q)) (checkFrame_bad (q := { s.port p with arrived := none }) hlink hcrc)

theorem exec_framingError_reading (hreset : s.resetHeld = false) {stamp : HubTime} {order : ByteOrder} {got : List Byte}
    (hreading : (s.port p).receiver = .reading stamp order got) : exec (.framingError p) s =
      .next (s.setPort p (({ s.port p with receiver := .hunting } : Port).frameFails s.now)) := by
  rw [exec_running _ hreset]
  simp only [effect, framingErrorArrives, Port.takeFramingError, hreading]

theorem exec_echoWaitExpiry (hreset : s.resetHeld = false) (hlink : (s.port p).link = .training)
    (ht : (s.port p).training = some t) (hdue : expired s.now t.echoWait = true) :
    exec (.echoWaitExpiry p) s = .next (s.setPort p ((s.port p).resolve s.now t none)) := by
  have hwait : t.echoWait ≠ none := fun h => by rw [h] at hdue; cases hdue
  rw [exec_running _ hreset]
  simp only [effect, echoWaitExpires, awaiting_of_training hlink ht hwait, hdue, if_true]

end

/-- Settles O57. -/
theorem echoesResolveProbes : Obligations.EchoesResolveProbes := by
  intro p m s t hreset hlink ht hprobe q next measure pattern good bad
  have hpayload : probePayload t.probe = BitVec.ofNat 8 t.probe :: pattern := probePayload_eq t.probe
  have hwaiting (hwait : t.echoWait ≠ none) : q.awaiting = some t := awaiting_of_training (q := q) hlink ht hwait
  refine ⟨fun hwait hm => ?_, fun hwait rest hm hne => ?_, fun number rest hm hne => ?_, fun hwait => ?_,
    fun f hcrc => ⟨fun hwait => ?_, fun hwait => ?_⟩, fun stamp order got hreading => ⟨fun hwait => ?_, fun hwait => ?_⟩,
    fun hdue => ?_⟩
  · rw [exec_echo hreset, judgeEcho_match (hwaiting hwait) hprobe.le (hm.trans hpayload.symm), resolve_measured hprobe]
    rfl
  · have hmismatch : m.payload ≠ probePayload t.probe := by
      rw [hm, hpayload]
      exact fun h => hne (List.cons.inj h).2
    rw [exec_echo hreset, judgeEcho_mismatch (hwaiting hwait) hprobe.le hm hmismatch, resolve_error hprobe]
  · rw [exec_echo hreset, judgeEcho_other_number (q := q) ht hm hne]
  · rw [exec_echo hreset, judgeEcho_of_not_awaiting (q := q) (awaiting_of_no_wait (q := q) ht hwait)]
  · rw [exec_bad_frame hreset hcrc (by rw [hlink]; nofun),
      frameFails_awaiting (q := { s.port p with arrived := none }) (awaiting_of_training hlink ht hwait), resolve_error hprobe]
  · rw [exec_bad_frame hreset hcrc (by rw [hlink]; nofun),
      frameFails_not_awaiting (q := { s.port p with arrived := none }) hlink (awaiting_of_no_wait ht hwait)]
  · rw [exec_framingError_reading hreset hreading,
      frameFails_awaiting (q := { s.port p with receiver := .hunting }) (awaiting_of_training hlink ht hwait),
      resolve_error hprobe]
  · rw [exec_framingError_reading hreset hreading,
      frameFails_not_awaiting (q := { s.port p with receiver := .hunting }) hlink (awaiting_of_no_wait ht hwait)]
  · rw [exec_echoWaitExpiry hreset hlink ht hdue, resolve_error hprobe]

/-- Settles O58. -/
theorem trainingPassEnds : Obligations.TrainingPassEnds := by
  intro p m s t hreset hlink ht hprobe hwait measure least failed
  have hawaiting {q : Port} (hq : q.link = .training) (htq : q.training = some t) : q.awaiting = some t :=
    awaiting_of_training hq htq hwait
  have hgood (hm : m.payload = probePayload 15) : exec (.echo p m) s = .next (s.setPort p
      (({ s.port p with handed := none } : Port).endPass s.now
        { t with least := some (leastOf t.least measure), echoWait := none })) := by
    rw [exec_echo hreset,
      judgeEcho_match (q := { s.port p with handed := none }) (hawaiting hlink ht) (by omega) (by rw [hprobe]; exact hm),
      resolve_last_measured hprobe]
  have hbad {f : RxFrame} (hcrc : f.crc ≠ crc16 (f.kind :: BitVec.ofNat 8 f.payload.length :: f.payload)) :
      exec (.frameArrival p f) s = .next (s.setPort p
        (({ s.port p with arrived := none, errorCount := (s.port p).errorCount + 1 } : Port).endPass s.now
          { t with errors := t.errors + 1, echoWait := none })) := by
    rw [exec_bad_frame hreset hcrc (by rw [hlink]; nofun),
      frameFails_awaiting (q := { s.port p with arrived := none }) (hawaiting hlink ht), resolve_last_error hprobe]
  refine ⟨fun hm hfew => ?_, fun hm hmany => ?_, fun f hcrc => ⟨fun hfew l hl => ?_, fun hmany => ?_⟩,
    fun hdue hfew l hl => ?_, fun hdue hmany => ?_⟩
  · rw [hgood hm, endPass_up (t := { t with least := some (leastOf t.least measure), echoWait := none }) hfew rfl]
    rfl
  · rw [hgood hm, endPass_failed (t := { t with least := some (leastOf t.least measure), echoWait := none }) hmany]
    rfl
  · rw [hbad hcrc, endPass_up (t := { t with errors := t.errors + 1, echoWait := none }) (Nat.succ_le_succ hfew) hl]
  · rw [hbad hcrc, endPass_failed (t := { t with errors := t.errors + 1, echoWait := none }) (Nat.succ_le_succ hmany)]
  · rw [exec_echoWaitExpiry hreset hlink ht hdue, resolve_last_error hprobe,
      endPass_up (t := { t with errors := t.errors + 1, echoWait := none }) (Nat.succ_le_succ hfew) hl]
  · rw [exec_echoWaitExpiry hreset hlink ht hdue, resolve_last_error hprobe,
      endPass_failed (t := { t with errors := t.errors + 1, echoWait := none }) (Nat.succ_le_succ hmany)]

/-! ## The transmitter (R175, R179, R185) -/

theorem lineTime_wireBytes (kind : Byte) (payload : List Byte) :
    lineTime (wireBytes kind payload) = BitVec.ofNat 32 ((payload.length + 6) * 5) := by
  rw [lineTime, wireBytes_length]
  rfl

theorem probePayload_length (k : Nat) : (probePayload k).length = 33 := by
  rw [probePayload, List.length_cons, List.length_map, List.length_range]

section
variable {q : Port} {now : HubTime}

/-- A frame's bytes are on the line for 5 µs each. -/
theorem send_frame {x : Sending} {kind : Byte} {payload : List Byte} (hx : x.bytes = wireBytes kind payload) :
    q.send now x = { q with sending := x, sendEnds := now + BitVec.ofNat 32 ((payload.length + 6) * 5) } := by
  rw [Port.send, hx, lineTime_wireBytes]

theorem sendFiller_eq : q.sendFiller now = { q with sending := .filler, sendEnds := now + 5 } := rfl

theorem sendNext_reply (hlink : q.link = .up) {r : ReplySlot} (hreply : q.reply = some r) :
    q.sendNext now = q.send now (.reply (wireBytes 0x41 r.payload)) := by
  simp only [Port.sendNext, hlink, Port.sendWaiting, hreply]
  rfl

theorem sendNext_round (hlink : q.link = .up) (hreply : q.reply = none) {payload : List Byte}
    (hround : q.round = some payload) :
    q.sendNext now = { q.send now (.round (wireBytes 0x40 payload)) with round := none } := by
  simp only [Port.sendNext, hlink, Port.sendWaiting, hreply, hround]
  rfl

theorem sendNext_filler (h : q.link = .down ∨ (q.link = .up ∧ q.reply = none ∧ q.round = none)) :
    q.sendNext now = q.sendFiller now := by
  rcases h with hlink | ⟨hlink, hreply, hround⟩
  · simp only [Port.sendNext, hlink]
  · simp only [Port.sendNext, hlink, Port.sendWaiting, hreply, hround]

theorem sendNext_probe (hlink : q.link = .training) {t : Training} (ht : q.training = some t) (hdue : t.stage = .due) :
    q.sendNext now = { q.send now (.probe (wireBytes 0x42 (probePayload t.probe))) with
      training := some { t with stage := .sending, sentAt := now } } := by
  simp only [Port.sendNext, hlink, Port.sendProbe, ht, hdue, if_true]
  rfl

theorem sendNext_not_due (hlink : q.link = .training) {t : Training} (ht : q.training = some t) (hnot : t.stage ≠ .due) :
    q.sendNext now = q.sendFiller now := by
  simp only [Port.sendNext, hlink, Port.sendProbe, ht, if_neg hnot]

/-- R185: the end of a filler byte or of a ROUND leaves nothing but an idle line. -/
theorem completeSending_free (h : q.sending = .filler ∨ ∃ bytes, q.sending = .round bytes) :
    q.completeSending now = { q with sending := .filler } := by
  rcases h with h | ⟨bytes, h⟩
  · have hsame : q.completeSending now = q := by simp only [Port.completeSending, h]
    rw [hsame, ← h]
  · simp only [Port.completeSending, h]

theorem completeSending_probe {bytes : List Byte} (h : q.sending = .probe bytes) {t : Training}
    (ht : q.training = some t) (hstage : t.stage = .sending) : q.completeSending now =
      { q with
        sending := .filler, training := some { t with stage := .waiting, echoWait := startTimer now 2000 } } := by
  simp only [Port.completeSending, h, Port.completeProbe, ht, hstage, if_true]
  rfl

end

theorem exec_frameBoundary {p : PortId} {s : State} (hreset : s.resetHeld = false) (hsent : 0 ≤ diff s.now (s.port p).sendEnds) :
    exec (.frameBoundary p) s = .next (s.setPort p (((s.port p).completeSending s.now).sendNext s.now)) := by
  rw [exec_running _ hreset]
  simp only [effect, frameBoundary, Port.sent, hsent, decide_true, if_true]

/-- Settles O60. -/
theorem transmitterChoosesTheNextFrame : Obligations.TransmitterChoosesTheNextFrame := by
  refine ⟨⟨rfl, rfl, fun _ => ⟨rfl, rfl, rfl⟩⟩, ?_⟩
  intro p s hreset hsent q free
  have hidle (hfree : free) : exec (.frameBoundary p) s =
      .next (s.setPort p (({ q with sending := .filler } : Port).sendNext s.now)) := by
    rw [exec_frameBoundary hreset hsent, completeSending_free hfree]
  refine ⟨fun hfree hlink r hreply => ?_, fun hfree hlink hreply payload hround => ?_, fun hfree hnone => ?_,
    fun hfree hlink t ht hdue => ?_, fun bytes t hsending hlink ht hstage => ?_⟩
  · rw [hidle hfree, sendNext_reply (q := { q with sending := .filler }) hlink hreply, send_frame rfl]
  · rw [hidle hfree, sendNext_round (q := { q with sending := .filler }) hlink hreply hround, send_frame rfl]
  · rw [hidle hfree, sendNext_filler (q := { q with sending := .filler }) hnone, sendFiller_eq]
  · rw [hidle hfree, sendNext_probe (q := { q with sending := .filler }) hlink ht hdue, send_frame rfl,
      probePayload_length]
    rfl
  · rw [exec_frameBoundary hreset hsent, completeSending_probe hsending ht hstage,
      sendNext_not_due (q := { s.port p with
        sending := .filler, training := some { t with stage := .waiting, echoWait := startTimer s.now 2000 } })
        hlink rfl nofun, sendFiller_eq]

end Sys2Proof.Machine
end

section
/-! O59: the loss of lock, at the port, at its seat and in the race. -/

namespace Sys2Proof.Machine

/-! ## The port and the seat (R25, R178) -/

theorem loseLock_port (q : Port) (now : HubTime) : q.loseLock now =
    { q with
      link := .down, lockWatch := none, errorCount := 255, training := none, receiver := .hunting, buffer := none
      reply := none, round := none, overrun := false, lostSinceReply := false, arrived := none, handed := none
      sending := .filler, sendEnds := if q.sending = .filler then q.sendEnds else now + 5 } := by
  unfold Port.loseLock Port.abandonFrame
  simp only []
  split
  next h =>
    have hfiller : q.sending = .filler := h
    rw [if_pos hfiller, ← hfiller]
  case h_2 h | h_3 h | h_4 h =>
    rw [show q.sending = _ from h, if_neg nofun]
    rfl

section
variable (s : State) (p : PortId)

theorem lockLost_port_self : (s.lockLost p).port p = (s.port p).loseLock s.now := State.port_setPort_self s p _

theorem lockLost_port_ne {r : PortId} (h : r ≠ p) : (s.lockLost p).port r = s.port r := State.port_setPort_ne s _ h

theorem lockLost_portUp_self : (s.lockLost p).portUp p = false := by
  rw [State.portUp, lockLost_port_self, loseLock_port]
  rfl

theorem lockLost_portUp_ne {r : PortId} (h : r ≠ p) : (s.lockLost p).portUp r = s.portUp r := by
  rw [State.portUp, lockLost_port_ne s p h]
  rfl

/-- R58: with port `p` DOWN the release waits for the counted seats of the other ports. -/
theorem lockLost_allSeen_iff : (s.lockLost p).allSeen = true ↔
    ∀ r : PortId, r ≠ p → s.counted r = true → s.portUp r = true → s.race.seenMarks[r] = some true := by
  rw [allSeen_iff]
  constructor
  · intro h r hr hcounted hup
    exact h r hcounted (by rw [lockLost_portUp_ne s p hr]; exact hup)
  · intro h r hcounted hup
    by_cases hr : r = p
    · subst hr
      rw [lockLost_portUp_self] at hup
      cases hup
    · exact h r hr hcounted (by rw [← lockLost_portUp_ne s p hr]; exact hup)

theorem linkDownAtSeat_linked {u : State} (h : (u.seat p).state = .linked) : linkDownAtSeat p u = vacateSeat p u := by
  simp only [linkDownAtSeat, h]

theorem linkDownAtSeat_vacant {u : State} (h : (u.seat p).state = .vacant) : linkDownAtSeat p u = u := by
  simp only [linkDownAtSeat, h]

theorem linkDownAtSeat_field {u : State} (h : (u.seat p).state.inField = true) : linkDownAtSeat p u = checkRelease u := by
  unfold linkDownAtSeat
  cases hx : (u.seat p).state <;> rw [hx] at h <;> first | rfl | cases h

theorem linkDownAtSeat_entrant {u : State} (h : (u.seat p).state = .entered ∨ (u.seat p).state = .ready) :
    linkDownAtSeat p u = departure (vacateSeat p (leaveEntryList p u)) := by
  rcases h with h | h <;> simp only [linkDownAtSeat, h]

theorem vacateSeat_seat_self (u : State) : (vacateSeat p u).seat p =
    { u.seat p with state := .vacant, cabinet := none, silenceTimer := none } :=
  State.seat_setSeat_self u p _

theorem vacateSeat_seat_ne (u : State) {r : PortId} (h : r ≠ p) : (vacateSeat p u).seat r = u.seat r :=
  State.seat_setSeat_ne u _ h

theorem vacateSeat_car_self (u : State) : (vacateSeat p u).car p = { latest := none, previous := none } :=
  State.car_setCar_self _ p _

theorem vacateSeat_car_ne (u : State) {r : PortId} (h : r ≠ p) : (vacateSeat p u).car r = u.car r :=
  State.car_setCar_ne _ _ h

theorem gone_vacated (u : State) : Gone p (vacateSeat p (leaveEntryList p u)) where
  state := by rw [vacateSeat_seat_self]
  cabinet := by rw [vacateSeat_seat_self]
  silence := by rw [vacateSeat_seat_self]
  car := vacateSeat_car_self p _
  unlisted := not_mem_leaveEntryList p u

end

theorem othersKept_lockLost (s : State) (p : PortId) : OthersKept p s (s.lockLost p) :=
  fun _ hr => ⟨lockLost_port_ne s p hr, rfl, rfl, rfl⟩

/-- Settles O59. -/
theorem lossOfLockEmptiesThePort : Obligations.LossOfLockEmptiesThePort := by
  intro p s hreset hlink hdue
  have hexec : exec (.lockWatchExpiry p) s = .next (linkDownAtSeat p (s.lockLost p)) := by
    rw [exec_running _ hreset]
    simp only [effect, lockWatchExpires, hdue, if_true, if_neg hlink, loseLock_eq]
  have hkept := outerKept_linkDownAtSeat p (s.lockLost p)
  refine ⟨_, hexec, ?port, fun r hr => ?ports, hkept.fits, hkept.settings, hkept.time, hkept.engine, fun hlinked => ?linked,
    fun hstays => ?stays, fun hfield hresults hall => ?released, fun hentrant => ?entrant⟩
  case port => rw [hkept.port, lockLost_port_self, loseLock_port]
  case ports => rw [hkept.port, lockLost_port_ne s p hr]
  case linked =>
    rw [linkDownAtSeat_linked p (u := s.lockLost p) hlinked]
    exact ⟨vacateSeat_seat_self p _, vacateSeat_car_self p _,
      fun r hr => ⟨lockLost_port_ne s p hr, vacateSeat_seat_ne p _ hr, rfl, vacateSeat_car_ne p _ hr⟩, rfl⟩
  case stays =>
    have hsame : linkDownAtSeat p (s.lockLost p) = s.lockLost p := by
      rcases hstays with hvacant | ⟨hfield, hgoes⟩
      · exact linkDownAtSeat_vacant p (u := s.lockLost p) hvacant
      rw [linkDownAtSeat_field p (u := s.lockLost p) hfield]
      rcases hgoes with hstate | ⟨r, hr, hcounted, hup, hmark⟩
      · exact if_neg fun h => hstate h.1
      · refine checkRelease_waits ?_
        rw [Bool.eq_false_iff]
        exact fun hall => hmark ((lockLost_allSeen_iff s p).1 hall r hr hcounted hup)
    rw [hsame]
    exact ⟨rfl, rfl, othersKept_lockLost s p, rfl⟩
  case released =>
    have hidle : linkDownAtSeat p (s.lockLost p) = enterIdle (s.lockLost p) := by
      rw [linkDownAtSeat_field p (u := s.lockLost p) hfield]
      exact if_pos ⟨hresults, (lockLost_allSeen_iff s p).2 hall⟩
    rw [hidle]
    exact ⟨entersIdle_enterIdle (s.lockLost p), rfl⟩
  case entrant =>
    rw [linkDownAtSeat_entrant p (u := s.lockLost p) hentrant]
    have hgone := gone_departure (gone_vacated p (s.lockLost p))
    refine ⟨hgone.state, hgone.cabinet, hgone.silence, hgone.car, hgone.unlisted, fun hnodup => ?_⟩
    rw [(outerKept_departure (vacateSeat p (leaveEntryList p (s.lockLost p)))).ports]
    exact departed_departure (vacateSeat p (leaveEntryList p (s.lockLost p))) (hnodup.filter _)

end Sys2Proof.Machine
end

section
/-! O6 to O9: the round boundary in every race state, and what a sending boundary begins. -/

namespace Sys2Proof.Machine

/-! ## What a boundary is made of (R9, R10) -/

/-- R10, R13, R14, R102, R165. -/
theorem beginsComputation (b : HubTime) (u : State) : BeginsComputation b u (beginComputation b u) := by
  unfold BeginsComputation beginComputation
  simp only [appendPasses_eq]
  refine ⟨_, rfl, rfl, rfl, rfl, rfl, rfl, ?_, trivial, trivial⟩
  cases u.race.state.live
  · simp [drainLimit, EventQueue.drain]
  · simp [drainLimit, EventQueue.drain]

theorem sends_iff (s : State) : s.sends = true ↔
    s.race.state ≠ .idle ∨ s.time.roundNumber.toNat % 16 = 0 ∨ s.time.roundDemand = true := by
  simp only [State.sends, Bool.or_eq_true, bne_iff_ne, beq_iff_eq, or_assoc]

/-- The state as a boundary finds it once its timebase has advanced (R5, R6, R8). -/
def State.ticked (s : State) : State := { s with time := s.time.advanceRound }

/-- The state as the race controller leaves it at a boundary (R9). -/
def State.atBoundary (s : State) : State := raceAtBoundary s.time.nextBoundary s.ticked

theorem exec_roundBoundary {s : State} (hreset : s.resetHeld = false) (hdue : 0 ≤ diff s.now s.time.nextBoundary) :
    exec .roundBoundary s = .next
      (if s.atBoundary.sends = true then beginComputation s.time.nextBoundary s.atBoundary else s.atBoundary) := by
  rw [exec_running _ hreset]
  exact congrArg Host.Outcome.next (if_pos hdue)

theorem exec_roundBoundary_sends {s : State} (hreset : s.resetHeld = false) (hdue : 0 ≤ diff s.now s.time.nextBoundary)
    (hsends : s.atBoundary.sends = true) :
    exec .roundBoundary s = .next (beginComputation s.time.nextBoundary s.atBoundary) :=
  (exec_roundBoundary hreset hdue).trans (congrArg Host.Outcome.next (if_pos hsends))

theorem exec_roundBoundary_silent {s : State} (hreset : s.resetHeld = false) (hdue : 0 ≤ diff s.now s.time.nextBoundary)
    (hsilent : ¬s.atBoundary.sends = true) : exec .roundBoundary s = .next s.atBoundary :=
  (exec_roundBoundary hreset hdue).trans (congrArg Host.Outcome.next (if_neg hsilent))

theorem atBoundary_time (s : State) : s.atBoundary.time = s.time.advanceRound :=
  (outerKept_raceAtBoundary s.time.nextBoundary s.ticked).time

theorem beginComputation_time (b : HubTime) (u : State) :
    (beginComputation b u).time = { u.time with roundDemand := false } := by
  obtain ⟨c, -, -, -, -, -, -, -, htime, -⟩ := beginsComputation b u
  exact htime

/-- Settles O6: the race controller leaves the timebase alone, and a boundary that does not send had no demand. -/
theorem boundaryAdvancesTheRound : Obligations.BoundaryAdvancesTheRound := by
  intro s hreset hdue
  by_cases hsends : s.atBoundary.sends = true
  · refine ⟨_, exec_roundBoundary_sends hreset hdue hsends, ?_⟩
    rw [beginComputation_time, atBoundary_time]
    rfl
  · refine ⟨_, exec_roundBoundary_silent hreset hdue hsends, ?_⟩
    have hdemand : s.time.roundDemand = false := by
      rw [sends_iff, atBoundary_time] at hsends
      exact Bool.eq_false_iff.2 fun h => hsends (.inr (.inr h))
    rw [atBoundary_time, ← hdemand]
    rfl

/-! ## Outside COUNTDOWN -/

theorem atBoundary_of_ne_countdown {s : State} (h : s.race.state ≠ .countdown) : s.atBoundary = s.ticked := if_neg h

theorem live_iff_of_ne_countdown {x : RaceState} (h : x ≠ .countdown) : x.live = true ↔ x = .racing ∨ x = .finishing := by
  cases x
  case countdown => exact absurd rfl h
  all_goals simp [RaceState.live]

/-- Settles O7. -/
theorem boundarySendsByCadence : Obligations.BoundarySendsByCadence := by
  intro s hreset hdue hstate
  have hat := atBoundary_of_ne_countdown hstate
  refine ⟨fun ⟨hidle, hround, hdemand⟩ => ?_, fun hcadence => ?_⟩
  · have hsilent : ¬s.atBoundary.sends = true := by
      rw [hat, sends_iff]
      rintro (h | h | h)
      · exact h hidle
      · exact hround h
      · exact Bool.false_ne_true (hdemand.symm.trans h)
    exact ⟨_, exec_roundBoundary_silent hreset hdue hsilent, by rw [hat]; rfl⟩
  · have hsends : s.atBoundary.sends = true := by
      rw [hat, sends_iff]
      exact hcadence
    obtain ⟨c, hassembler, hnumber, hstart, hsuper, haddr, hsnap, hqueue, -, hframe⟩ :=
      beginsComputation s.time.nextBoundary s.ticked
    refine ⟨_, c, hat ▸ exec_roundBoundary_sends hreset hdue hsends, congrArg Assembler.computation hassembler, hnumber,
      hstart, hsuper, haddr, hsnap, ?_, (congrArg Assembler.results hassembler).trans rfl,
      congrArg (fun x : State => { x with time := s.time }) hframe⟩
    have hlive : s.ticked.race.state.live = true ↔ s.race.state = .racing ∨ s.race.state = .finishing :=
      live_iff_of_ne_countdown hstate
    simp only [hlive] at hqueue
    exact hqueue

/-! ## In COUNTDOWN -/

theorem raceAtBoundary_before {s : State} {t0 e b : HubTime} (h : s.race.state = .countdown) (ht0 : s.race.t0 = some t0)
    (he : s.race.epoch = some e) (hb : b ≠ e) :
    raceAtBoundary b s = { s with race := { s.race with lights := some (lightsAt b t0 e) } } := by
  rw [raceAtBoundary, if_pos h, ht0, he]
  exact if_neg hb

theorem raceAtBoundary_green {s : State} {t0 b : HubTime} (h : s.race.state = .countdown) (ht0 : s.race.t0 = some t0)
    (he : s.race.epoch = some b) : raceAtBoundary b s = green s := by
  rw [raceAtBoundary, if_pos h, ht0, he]
  exact if_pos rfl

theorem lightsAt_mono {t0 e b b' : HubTime} (he : 0 < diff e t0) (hb : diff b t0 ≤ diff b' t0) :
    lightsAt b t0 e ≤ lightsAt b' t0 e := by
  have hquot : Int.fdiv (diff b t0 * 6) (diff e t0) ≤ Int.fdiv (diff b' t0 * 6) (diff e t0) := by
    rw [Int.fdiv_eq_ediv_of_nonneg _ he.le, Int.fdiv_eq_ediv_of_nonneg _ he.le]
    exact Int.ediv_le_ediv he (by omega)
  exact Int.toNat_le_toNat (min_le_min le_rfl hquot)

theorem lightsAt_le_five (b t0 e : HubTime) : lightsAt b t0 e ≤ 5 := by
  unfold lightsAt
  omega

/-- Settles O8. -/
theorem countdownLightsRise : Obligations.CountdownLightsRise := by
  refine ⟨fun s t0 e hreset hdue hstate ht0 he hbefore => ?_,
    fun t0 e b b' hpos _ hle => ⟨lightsAt_mono hpos hle, lightsAt_le_five b' t0 e⟩⟩
  have hat : s.atBoundary =
      { s.ticked with race := { s.race with lights := some (lightsAt s.time.nextBoundary t0 e) } } :=
    raceAtBoundary_before (s := s.ticked) hstate ht0 he hbefore
  have hlive : s.atBoundary.race.state.live = true := by rw [hat]; exact congrArg RaceState.live hstate
  have hsends : s.atBoundary.sends = true := by
    rw [sends_iff, hat]
    exact .inl fun h => by cases hstate.symm.trans h
  obtain ⟨c, hassembler, hnumber, hstart, hsuper, haddr, hsnap, hqueue, -, hframe⟩ :=
    beginsComputation s.time.nextBoundary s.atBoundary
  have htime : c.snapshot.raceTime = diff s.time.nextBoundary e := by
    rw [hsnap, hat]
    show (match s.race.epoch with | some e => diff s.time.nextBoundary e | none => 0) = _
    rw [he]
  have hrace : (beginComputation s.time.nextBoundary s.atBoundary).race = s.atBoundary.race :=
    congrArg (·.race) hframe
  simp only [if_pos hlive, htime] at hqueue
  rw [hat] at hassembler hnumber haddr hsnap hqueue hframe hrace
  refine ⟨_, c, hat ▸ exec_roundBoundary_sends hreset hdue hsends, hrace, hassembler, hnumber, hstart, hsuper, haddr, ?_,
    hqueue, congrArg (fun x : State => { x with time := s.time, race := s.race }) hframe⟩
  rw [hrace]
  exact hsnap

/-! ## The green (R53) -/

/-- The race as the green finds it started, before it is looked at whether everyone is done. -/
def State.started (s : State) : State :=
  let racing : State := { s with
    race := { s.race with
      state := .racing, lights := none, raceLimitTimer := startTimer s.now (s.settings.raceLimit * 1000000) } }
  if s.finishList = [] then racing
  else { racing with race := { racing.race with
    state := .finishing, finishWindowTimer := startTimer s.now (s.settings.finishWindow * 1000000) } }

theorem green_eq (s : State) : green s = checkEveryoneDone s.time.roundNumber s.started := rfl

theorem started_allDone (s : State) : AllDone s.started ↔ AllDone s := by
  unfold State.started
  simp only []
  split
  · exact Iff.rfl
  · exact Iff.rfl

theorem started_state (s : State) : s.started.race.state = .racing ∨ s.started.race.state = .finishing := by
  unfold State.started
  simp only []
  split
  · exact .inl rfl
  · exact .inr rfl

theorem started_epoch (s : State) : s.started.race.epoch = s.race.epoch := by
  unfold State.started
  simp only []
  split <;> rfl

theorem green_goesOn {s : State} (h : ¬AllDone s) : green s = s.started := by
  rw [green_eq, checkEveryoneDone, if_neg]
  rintro ⟨-, hdone⟩
  exact h ((started_allDone s).1 ((everyoneDone_iff _).1 hdone))

theorem green_ends {s : State} (h : AllDone s) : green s = enterResults s.time.roundNumber s.started := by
  rw [green_eq, checkEveryoneDone, if_pos ⟨started_state s, (everyoneDone_iff _).2 ((started_allDone s).2 h)⟩]

/-- Settles O9. -/
theorem greenStartsTheRace : Obligations.GreenStartsTheRace := by
  intro s t0 hreset hdue hstate ht0 he period ticked racing started
  have hat : s.atBoundary = green s.ticked := raceAtBoundary_green (s := s.ticked) hstate ht0 he
  have hkept := outerKept_green s.ticked
  have hexec := exec_roundBoundary hreset hdue
  refine ⟨s.atBoundary, _, hexec, fun hgoes => ?_, fun hdone => ?_, fun hcadence => ?_, fun hidle hround hdemand => ?_⟩
  · have hstarted : s.atBoundary = s.ticked.started := hat.trans (green_goesOn hgoes)
    refine ⟨hstarted, fun c hc => ?_⟩
    have hsends : s.atBoundary.sends = true := by
      rw [sends_iff, hstarted]
      refine .inl fun h => ?_
      rcases started_state s.ticked with h' | h' <;> cases h.symm.trans h'
    rw [if_pos hsends] at hc
    obtain ⟨c', hassembler, -, -, -, -, hsnap, -⟩ := beginsComputation s.time.nextBoundary s.atBoundary
    have hsame : c' = c := Option.some.inj ((congrArg Assembler.computation hassembler).symm.trans hc)
    rw [← hsame, hsnap, hstarted]
    show (match s.ticked.started.race.epoch with | some e => diff s.time.nextBoundary e | none => 0) = 0
    rw [started_epoch, show s.ticked.race.epoch = some s.time.nextBoundary from he]
    simp [diff]
  · rw [hat]
    refine ⟨?_, hkept.engine, hkept.freeDraws⟩
    rw [green_ends (s := s.ticked) hdone]
    exact endsRace_enterResults _ _
  · rw [if_pos ((sends_iff _).2 hcadence)]
    exact beginsComputation _ _
  · refine if_neg fun h => ?_
    rcases (sends_iff _).1 h with h | h | h
    · exact h hidle
    · exact hround h
    · exact Bool.false_ne_true (hdemand.symm.trans h)

end Sys2Proof.Machine
end

section
/-! O11: the layout and the length of a ROUND, the entries of its field part, and the end of a computation. -/

namespace Sys2Proof.Machine

/-! ## Within 255 bytes (R192) -/

theorem widthOf_part_idle {c : Computation} (h : c.snapshot.raceState = .idle) :
    widthOf c.part ≤ 1 + c.snapshot.linkedSeats.length * 5 := by
  unfold Computation.part
  rw [h]
  exact Nat.add_le_add_left (widthOf_flatMap_le _ 5 _ fun _ _ => le_rfl) 1

theorem part_field {c : Computation} (h : c.snapshot.raceState.live = true ∨ c.snapshot.raceState = .results) :
    c.part = byteField c.carEntries.length :: c.carEntries.flatMap CarEntry.fields := by
  unfold Computation.part
  generalize c.snapshot.raceState = x at h
  revert h
  cases x <;> simp [RaceState.live]

/-- What `Computation.framesBounded` says. -/
structure FramesBounded (c : Computation) : Prop where
  drained : c.drained.length ≤ 8
  entries : c.snapshot.entries.length ≤ 8
  linked : c.snapshot.linkedSeats.length ≤ 8
  cars : c.carEntries.length ≤ 9
  timers : c.snapshot.timers.length ≤ if c.snapshot.raceState = .finishing then 2 else 1
  lights : c.snapshot.lights = none ∨ c.snapshot.raceState = .countdown
  round : c.snapshot.resultsRound = none ∨ c.snapshot.raceState = .results
  finishing : c.snapshot.raceState ≠ .finishing ∨ c.carEntries.length ≤ 8 ∨ c.carEntries.any (·.finish.isNone) = true

theorem framesBounded_iff (c : Computation) : c.framesBounded = true ↔ FramesBounded c := by
  simp only [Computation.framesBounded, Bool.and_eq_true, Bool.or_eq_true, decide_eq_true_eq, Option.isNone_iff_eq_none,
    beq_iff_eq, bne_iff_ne, or_assoc]
  exact ⟨fun ⟨⟨⟨⟨⟨⟨⟨h1, h2⟩, h3⟩, h4⟩, h5⟩, h6⟩, h7⟩, h8⟩ => ⟨h1, h2, h3, h4, h5, h6, h7, h8⟩,
    fun h => ⟨⟨⟨⟨⟨⟨⟨h.drained, h.entries⟩, h.linked⟩, h.cars⟩, h.timers⟩, h.lights⟩, h.round⟩, h.finishing⟩⟩

/-- The common part takes at most 65 bytes, a second timer 4, the lights 1 and the results round 2. -/
theorem FramesBounded.common_le {c : Computation} (h : FramesBounded c) : widthOf c.commonPart ≤
    64 + (if c.snapshot.raceState = .finishing then 8 else 4) + (if c.snapshot.raceState = .countdown then 1 else 0) +
      (if c.snapshot.raceState = .results then 2 else 0) := by
  have hepoch : (if c.snapshot.epoch.isSome then 4 else 0) ≤ 4 := by split <;> omega
  have hlights : (if c.snapshot.lights.isSome then 1 else 0) ≤ if c.snapshot.raceState = .countdown then 1 else 0 := by
    rcases h.lights with h | h
    · rw [h]
      exact Nat.zero_le _
    · rw [if_pos h]
      split <;> omega
  have hround : (if c.snapshot.resultsRound.isSome then 2 else 0) ≤ if c.snapshot.raceState = .results then 2 else 0 := by
    rcases h.round with h | h
    · rw [h]
      exact Nat.zero_le _
    · rw [if_pos h]
      split <;> omega
  have htimers : c.snapshot.timers.length * 4 ≤ if c.snapshot.raceState = .finishing then 8 else 4 := by
    have := h.timers
    split at this <;> rename_i hs <;> simp only [hs, if_true, if_false] <;> omega
  have hdrained := h.drained
  rw [widthOf_commonPart]
  omega

/-- The field part takes at most 172 bytes, and in FINISHING at most 168. -/
theorem FramesBounded.field_le {c : Computation} (h : FramesBounded c) :
    widthOf (byteField c.carEntries.length :: c.carEntries.flatMap CarEntry.fields) ≤
      if c.snapshot.raceState = .finishing then 168 else 172 := by
  have hcars := h.cars
  have hall := widthOf_entries c.carEntries
  have hsome := widthOf_entries_unfinished c.carEntries
  rw [widthOf_cons, show (byteField c.carEntries.length).width = 1 from rfl]
  split
  next hfinishing =>
    rcases h.finishing with hs | hfew | hany
    · exact absurd hfinishing hs
    · omega
    · have := hsome hany
      omega
  next => omega

/-- R192. -/
theorem payloadFor_length_le {c : Computation} (p : PortId) (order : ByteOrder) (h : FramesBounded c) :
    (c.payloadFor p order).length ≤ 255 := by
  have hcommon := h.common_le
  have hpersonal := widthOf_personalPart c.snapshot p
  rw [Computation.payloadFor, writeFields_length, widthOf_append, widthOf_append]
  cases hs : c.snapshot.raceState with
  | idle =>
    have hpart := widthOf_part_idle hs
    have hlinked := h.linked
    simp only [hs, reduceCtorEq, if_false] at hcommon
    omega
  | lobby | grid | void =>
    have hpart : widthOf c.part ≤ 7 + c.snapshot.entries.length := by
      rw [Computation.part, hs]
      exact widthOf_lobbyPart c.snapshot
    have hentries := h.entries
    simp only [hs, reduceCtorEq, if_false] at hcommon
    omega
  | countdown | racing | finishing | results =>
    have hpart := h.field_le
    rw [← part_field (by rw [hs]; simp [RaceState.live])] at hpart
    simp only [hs, reduceCtorEq, if_false, if_true] at hcommon hpart
    omega

/-! ## The layout (R167 to R173, R191) -/

theorem carOf?_snapshot {s : State} (b : HubTime) {c : CarId} (h : c ∈ s.race.fieldList) :
    (s.snapshot b).carOf? c = some (s.snapCar c) := by
  cases hc : (s.snapshot b).carOf? c with
  | some x => rw [(snapshot_carOf? hc).2]
  | none =>
    have hnone := List.find?_eq_none.1 hc (s.snapCar c) (List.mem_map_of_mem h)
    exact absurd (beq_iff_eq.2 (snapCar_car s c)) hnone

/-- The pacer has no seat, no car state and no penalty (R151). -/
theorem snapCar_pacer (s : State) : s.snapCar pacerCar =
    { car := pacerCar, state := s.carSeatState pacerCar, phase := none, latest := none
      highWater := (s.lapRecord pacerCar).highWater, frozen := none, retireProgress := none
      finish := (s.lapRecord pacerCar).finish, best := (s.lapRecord pacerCar).bestLap, jumped := false } := rfl

theorem carSeatState_pacer (s : State) : s.carSeatState pacerCar = match s.pacerRecord with
    | some .running => .running
    | some .finished => .finished
    | none => .vacant := rfl

/-- The pacer record is the pacer's seat state (R151): it is never STALLED or RETIRED. -/
theorem carSeatState_pacer_cases (s : State) :
    (s.carSeatState pacerCar = .finished ↔ s.pacerRecord = some .finished) ∧
      (s.carSeatState pacerCar == .finished) = (s.pacerRecord == some .finished) ∧
      (s.carSeatState pacerCar == .stalled) = false ∧ (s.carSeatState pacerCar == .retired) = false := by
  rw [carSeatState_pacer]
  cases s.pacerRecord with
  | none => exact ⟨by simp, rfl, rfl, rfl⟩
  | some x => cases x <;> exact ⟨by simp, rfl, rfl, rfl⟩

theorem snapshot_pacer_running {s : State} {b : HubTime} (hmode : s.race.pacerMode = some .running)
    (hrace : s.race.state.live = true ∨ s.race.state = .results) : (s.snapshot b).pacer = some (s.snapCar pacerCar) :=
  if_pos ⟨hmode, by rcases hrace with h | h <;> simp [h]⟩

theorem snapshot_pacer_none {s : State} {b : HubTime} (hmode : s.race.pacerMode ≠ some .running) :
    (s.snapshot b).pacer = none :=
  if_neg fun h => hmode h.1

/-- Settles O11. -/
theorem computationEndPlacesTheFrames : Obligations.ComputationEndPlacesTheFrames := by
  refine ⟨?_, ?_, ?_, ?_⟩
  · intro c p order snap x flag event entry field common lobby part personal
    have hevent (e : Event) : event e = e.fields := by
      cases e with
      | retire r time reason => cases reason <;> rfl
      | _ => rfl
    have hentry (e : CarEntry) : entry e = e.fields := by
      obtain ⟨car, laps, flags, ranked, progress, speed, finish, best⟩ := e
      cases laps <;> cases speed <;> cases finish <;> cases best <;> rfl
    have hcommon : common = c.commonPart := by
      have hidle : decide (snap.raceState ≠ .idle) = (snap.raceState != .idle) := by cases snap.raceState <;> rfl
      have hmark : decide (snap.resultsRound = some c.number) = c.resultsMark := by
        simp only [Computation.resultsMark, Bool.beq_eq_decide_eq, snap]
      have hepoch : (snap.epoch.toList.map fun e => longField (diff snap.instant e)) =
          if snap.epoch.isSome = true then [longField snap.raceTime] else [] := by
        simp only [Snapshot.raceTime]
        cases snap.epoch <;> rfl
      have hlights : snap.lights.toList.map byteField = match snap.lights with
          | some n => [byteField n]
          | none => [] := by
        cases snap.lights <;> rfl
      have hround : (snap.resultsRound.toList.map fun k => wordField k.toNat) = match snap.resultsRound with
          | some k => [wordField k.toNat]
          | none => [] := by
        cases snap.resultsRound <;> rfl
      simp only [common, hidle, hmark, hepoch, hlights, hround, funext hevent]
      rfl
    have hpart : part = c.part := by
      have hfield (l : List CarEntry) : field l = byteField l.length :: l.flatMap CarEntry.fields :=
        congrArg (byteField l.length :: ·) (congrArg (l.flatMap ·) (funext hentry))
      have hlobby : lobby = snap.lobbyPart := by
        show _ ++ _ = _ ++ _
        cases snap.descriptor <;> rfl
      have hentries (hs : snap.raceState.live = true) :
          c.carEntries = (c.ranking.getD []).map snap.carEntry ++ snap.pacerEntry := by
        revert hs
        simp only [Computation.carEntries, snap]
        cases c.snapshot.raceState <;> simp [RaceState.live]
      simp only [part, snap]
      cases hs : c.snapshot.raceState with
      | idle => rw [Computation.part, hs]
      | lobby | grid | void =>
        rw [Computation.part, hs]
        exact hlobby
      | countdown | racing | finishing =>
        rw [part_field (.inl (by rw [hs]; rfl)), hentries (by simp only [snap, hs]; rfl)]
        exact hfield _
      | results =>
        rw [part_field (.inr hs), Computation.carEntries, hs]
        exact hfield _
    have hpersonal : personal = c.snapshot.personalPart p := by
      by_cases hv : x.state = .vacant
      · simp only [personal, Snapshot.personalPart, personalByte, snap, x] at hv ⊢
        rw [if_pos hv, if_pos hv, hv] <;> rfl
      · simp only [personal, Snapshot.personalPart, personalByte, snap, x] at hv ⊢
        rw [if_neg hv, if_neg hv, if_neg hv] <;> rfl
    refine ⟨?_, fun h => payloadFor_length_le p order ((framesBounded_iff c).1 h)⟩
    rw [hcommon, hpart, hpersonal]
    rfl
  · intro snap e x hx hcar
    have hpacer : (e.car == pacerCar) = false := beq_eq_false_iff_ne.2 hcar
    simp only [Snapshot.carEntry, hx, hpacer]
    cases x.latest <;> simp
  · intro s b e table hepoch htable record view entry
    have hview : (s.snapshot b).pacerView = some view := by
      simp only [State.snapshot, hepoch, Option.isSome_some, if_true, State.pacerViewAt, htable, State.raceTime]
      rfl
    obtain ⟨hfinished, hisFinished, hnotStalled, hnotRetired⟩ := carSeatState_pacer_cases s
    refine ⟨fun x hx hfield => ?_, fun hmode hrace => ?_, fun hmode => ?_⟩
    · rw [Snapshot.carEntry, hx, carOf?_snapshot b hfield, hview]
      simp only [snapCar_pacer, hfinished, hisFinished, hnotStalled, hnotRetired, beq_self_eq_true, Bool.not_true,
        Bool.and_false]
      rfl
    · rw [Snapshot.pacerEntry, hview, snapshot_pacer_running hmode hrace]
      simp only [snapCar_pacer, hisFinished]
      rfl
    · rw [Snapshot.pacerEntry, snapshot_pacer_none hmode]
  · intro s c hreset hc
    have hends : exec .roundComputationEnd s = .next { s with
        assembler := { s.assembler with computation := none }, ports := map8 (placeRound c s) s.ports
        standings := if c.superseded = true then s.standings else c.ranking.getD s.standings } := by
      rw [exec_running _ hreset]
      simp only [effect, computationEnds, hc]
      cases c.ranking <;> rfl
    refine ⟨_, hends, rfl, fun p => ?_, rfl, rfl⟩
    show (map8 (placeRound c s) s.ports)[p] = _
    rw [map8_getElem, placeRound]
    simp only [Bool.and_eq_true, List.contains_iff_mem, beq_iff_eq]
    rfl

end Sys2Proof.Machine
end

section
/-! O26: the completion of a service, the layout of a REPLY, and the end of a reply. -/

namespace Sys2Proof.Machine

/-! ## The completion (R11, R28, R30) -/

theorem serviceCompletes_eq {s : State} {v : InService} (hv : s.engine.inService = some v) : serviceCompletes s =
    { s with
      engine := { s.engine with inService := none }
      time := { s.time with roundDemand := s.time.roundDemand || v.reply.reason.isNone }
      ports := if s.portUp v.port = true then
          s.ports.set v.port ((s.port v.port).writeReply v.reply (v.reply.order.getD (s.orderAt v.port)))
        else s.ports } := by
  simp only [serviceCompletes, hv]
  cases hup : s.portUp v.port with
  | true => exact (if_pos hup).trans rfl
  | false => exact (if_neg (fun h : s.portUp v.port = true => Bool.false_ne_true (hup.symm.trans h))).trans rfl

theorem serviceCompletes_ports {s : State} {v : InService} (hv : s.engine.inService = some v) (r : PortId) :
    (serviceCompletes s).port r =
      if r = v.port ∧ s.portUp v.port = true then
        (s.port r).writeReply v.reply (v.reply.order.getD (s.orderAt r))
      else s.port r := by
  rw [serviceCompletes_eq hv]
  by_cases hup : s.portUp v.port = true
  · have hset := State.port_setPort s v.port r
      ((s.port v.port).writeReply v.reply (v.reply.order.getD (s.orderAt v.port)))
    simp only [hup, if_true, and_true]
    by_cases hr : r = v.port
    · subst hr
      exact hset
    · rw [if_neg hr] at hset ⊢
      exact hset
  · have hnot : ¬(r = v.port ∧ s.portUp v.port = true) := fun h => hup h.2
    rw [if_neg hnot]
    exact congrArg (fun l : Vector Port 8 => l[r]) (if_neg hup)

/-! ## The layout (R188, R191) -/

theorem byteField_bytes (order : ByteOrder) (n : Nat) : (byteField n).bytes order = [BitVec.ofNat 8 n] := by
  have hvalue : BitVec.ofNat 8 (((n : Int) % 256).toNat / 256 ^ 0) = BitVec.ofNat 8 n := by
    apply BitVec.eq_of_toNat_eq
    rw [BitVec.toNat_ofNat, BitVec.toNat_ofNat]
    omega
  cases order
  · exact congrArg (fun b => [b]) hvalue
  · exact congrArg (fun b => [b]) hvalue

theorem replyPayload_eq (r : Reply) (overrun : Bool) (order : ByteOrder) : r.payload overrun order =
    BitVec.ofNat 8 (serviceCode r.kind) :: BitVec.ofNat 8 (resultCode r.reason) ::
      BitVec.ofNat 8 (replyFlags r.clamped overrun) :: r.body.flatMap (Field.bytes order) := by
  simp only [Reply.payload, writeFields, List.flatMap_cons, byteField_bytes]
  rfl

/-! ## The end of a reply (R30, R185, R186) -/

theorem completeReply_eq {q : Port} {r : ReplySlot} (h : q.reply = some r) : q.completeReply =
    { q with
      sending := .filler, reply := none, overrun := q.overrun && !(r.carriesOverrun && !q.lostSinceReply) } := by
  have hflag : (if (r.carriesOverrun && !q.lostSinceReply) = true then false else q.overrun) =
      (q.overrun && !(r.carriesOverrun && !q.lostSinceReply)) := by
    cases (r.carriesOverrun && !q.lostSinceReply) <;> simp
  simp only [Port.completeReply, h, hflag]

theorem exec_replyTransmitted {p : PortId} {s : State} {bytes : List Byte} (hreset : s.resetHeld = false)
    (hsending : (s.port p).sending = .reply bytes) (hsent : 0 ≤ diff s.now (s.port p).sendEnds) :
    exec (.replyTransmitted p) s = .next (s.setPort p ((s.port p).completeReply.sendNext s.now)) := by
  rw [exec_running _ hreset]
  simp only [effect, replyLeaves, hsending, Port.sent, hsent, decide_true, if_true]

/-- Settles O26. -/
theorem repliesAreWrittenAndSent : Obligations.RepliesAreWrittenAndSent := by
  refine ⟨fun s v hreset hv => ?_, ?_, ?_⟩
  · have heq := serviceCompletes_eq hv
    refine ⟨_, exec_running _ hreset, congrArg State.engine heq, congrArg State.time heq, fun r hr => ?_, ?_, ?_⟩
    · exact (serviceCompletes_ports hv r).trans (if_neg fun h => hr h.1)
    · refine (serviceCompletes_ports hv v.port).trans ?_
      by_cases hup : (s.port v.port).link = .up
      · rw [if_pos ⟨rfl, beq_iff_eq.2 hup⟩, if_pos hup]
        rfl
      · rw [if_neg fun h => hup (beq_iff_eq.1 h.2), if_neg hup]
    · exact congrArg (fun t : State => { t with engine := s.engine, time := s.time, ports := s.ports }) heq
  · intro r overrun order kind result flags
    refine ⟨?_, fun b _ => Field.bytes_length order b⟩
    have hkind : BitVec.ofNat 8 (serviceCode r.kind) = kind := by
      simp only [kind]
      cases r.kind <;> rfl
    have hresult : BitVec.ofNat 8 (resultCode r.reason) = result := by
      simp only [result]
      rcases r.reason with - | reason
      · rfl
      · cases reason <;> rfl
    have hflags : BitVec.ofNat 8 (replyFlags r.clamped overrun) = flags := by
      simp only [flags]
      cases r.clamped <;> cases overrun <;> rfl
    rw [replyPayload_eq, hkind, hresult, hflags]
  · intro p s bytes r hreset hsending hreply hsent sent
    have hexec : exec (.replyTransmitted p) s =
        .next (s.setPort p (({ sent with sending := .filler } : Port).sendNext s.now)) := by
      rw [exec_replyTransmitted hreset hsending hsent, completeReply_eq hreply]
    refine ⟨fun hlink payload hround => ?_, fun hnone => ?_⟩
    · rw [hexec, sendNext_round (q := { sent with sending := .filler }) hlink rfl hround, send_frame rfl]
    · have hwaits : ({ sent with sending := .filler } : Port).link = .down ∨
          (({ sent with sending := .filler } : Port).link = .up ∧ ({ sent with sending := .filler } : Port).reply = none ∧
            ({ sent with sending := .filler } : Port).round = none) :=
        hnone.imp id fun ⟨hlink, hround⟩ => ⟨hlink, rfl, hround⟩
      rw [hexec, sendNext_filler hwaits, sendFiller_eq]

end Sys2Proof.Machine
end

section
/-! O24: what each check of a take refuses, and that a refusal changes nothing but the engine. -/

namespace Sys2Proof.Machine

/-! ## A decision (R28, R29) -/

/-- The decision of a take keeps the ports, the engine and the count of free values, and one that refuses keeps everything. -/
structure Decided (s : State) (d : State × Reply) : Prop where
  ports : d.1.ports = s.ports
  engine : d.1.engine = s.engine
  freeDraws : d.1.freeDraws = s.freeDraws
  refused : d.2.reason.isSome = true → d.1 = s

theorem decided_refuse (s : State) (reply : Reply) : Decided s (s, reply) := ⟨rfl, rfl, rfl, fun _ => rfl⟩

theorem decided_accept {s t : State} {reply : Reply} (h : OuterKept s t) (haccepted : reply.reason = none) :
    Decided s (t, reply) :=
  ⟨h.ports, h.engine, h.freeDraws, fun hrefused => by rw [haccepted] at hrefused; cases hrefused⟩

theorem Decided.ite {c : Prop} [Decidable c] {s : State} {d e : State × Reply} (hd : Decided s d) (he : Decided s e) :
    Decided s (if c then d else e) := by
  split
  · exact hd
  · exact he

section
variable (p : PortId) (q : Request) (s : State)

theorem decided_decideHello : Decided s (decideHello p q s) := by
  unfold decideHello
  refine .ite (decided_refuse s _) ?_
  split
  · exact decided_refuse s _
  next order _ =>
    refine .ite (decided_refuse s _) ?_
    split
    · exact decided_refuse s _
    next form _ =>
      refine .ite (decided_refuse s _) ?_
      have hkept := outerKept_acceptHello p
        { id := BitVec.ofNat 32 (readField order q.payload 2 4)
          framePeriod := clampNat 12000 25000 (readField order q.payload 6 2), form := form, order := order } s
      exact ⟨hkept.ports, hkept.engine, hkept.freeDraws, nofun⟩

theorem decided_decideEnter : Decided s (decideEnter p q s) := by
  unfold decideEnter
  refine .ite (decided_refuse s _) (.ite (decided_refuse s _) ?_)
  split
  next =>
    exact .ite (decided_accept ((outerKept_race s _).trans (outerKept_joinEntryList p _)) rfl) (decided_refuse s _)
  next =>
    refine .ite (decided_refuse s _) (.ite (decided_refuse s _) (.ite (decided_refuse s _) (decided_accept ?_ rfl)))
    rcases joinLobby_eq p s with h | h <;> rw [h]
    · exact outerKept_joinEntryList p s
    · exact (outerKept_joinEntryList p s).trans (outerKept_closeLobby _)
  all_goals exact decided_refuse s _

theorem decided_decideReady : Decided s (decideReady p q s) := by
  unfold decideReady
  exact .ite (decided_refuse s _) (.ite (decided_refuse s _)
    (.ite (.ite (decided_accept (outerKept_acceptReady p s) rfl) (decided_refuse s _)) (decided_refuse s _)))

theorem decided_decideWithdraw : Decided s (decideWithdraw p q s) := by
  unfold decideWithdraw
  refine .ite (decided_refuse s _) (.ite (decided_refuse s _) ?_)
  split
  case h_1 | h_2 => exact .ite (decided_accept (outerKept_withdrawEntrant p s) rfl) (decided_refuse s _)
  case h_3 | h_4 | h_5 => exact .ite (decided_accept (outerKept_retireSeat p _ _ s) rfl) (decided_refuse s _)
  case h_6 => exact .ite (decided_accept (outerKept_withdrawInResults p s) rfl) (decided_refuse s _)
  all_goals exact decided_refuse s _

theorem decided_decideQuery (table length : Nat) (entry : List Byte → State → Option (List Field)) :
    Decided s (decideQuery table length entry p q s) := by
  have h := decideQuery_state table length entry p q s
  exact ⟨congrArg (·.ports) h, congrArg (·.engine) h, congrArg (·.freeDraws) h, fun _ => h⟩

theorem decided_decideSetup : Decided s (decideSetup p q s) := by
  unfold decideSetup
  refine .ite (decided_refuse s _) ?_
  split
  · exact decided_refuse s _
  next items _ =>
    refine .ite (decided_refuse s _) (.ite (decided_refuse s _) ?_)
    have hframe := foldl_frame items s
    exact ⟨congrArg (·.ports) hframe, congrArg (·.engine) hframe, congrArg (·.freeDraws) hframe, nofun⟩

end

/-! ## The take of a decided request (R27, R28) -/

section
variable {c : Instr} {wanted : Request → Bool} {decision : PortId → Request → State → State × Reply} {s : State}
  {p : PortId} {q : Request}

theorem exec_serve_unchanged (hc : effect c = serve wanted decision) (hreset : s.resetHeld = false)
    (hnext : s.nextRequest = some (p, q)) (hwanted : wanted q = true) {reply : Reply}
    (hdecision : decision p q (takeFrom p s) = (takeFrom p s, reply)) : exec c s = .next (s.taken p reply) := by
  rw [exec_running c hreset, hc, serve_unchanged hnext hwanted hdecision]

theorem answersOrRefuses_serve (hc : effect c = serve wanted decision) (hreset : s.resetHeld = false)
    (hnext : s.nextRequest = some (p, q)) (hwanted : wanted q = true)
    (hdecided : Decided (takeFrom p s) (decision p q (takeFrom p s))) : AnswersOrRefuses c p s := by
  obtain ⟨hserve, hanswered, -⟩ :=
    serve_answered (s := s) (decision := decision) hnext hwanted rfl hdecided.ports hdecided.engine hdecided.freeDraws
  refine ⟨_, _, (exec_running c hreset).trans (congrArg (fun f : State → State => Host.Outcome.next (f s)) hc), hanswered,
    fun hrefused => ?_⟩
  exact serve_unchanged hnext hwanted (Prod.ext (hdecided.refused hrefused) rfl)

end

/-! ## The checks of each request (R29) -/

section
variable {p : PortId} {q : Request} {s : State}

theorem decideHello_badValue (h : q.payload.length ≠ 9 ∨ markerOrder q.payload = none ∨
      (∃ order, markerOrder q.payload = some order ∧
        (BitVec.ofNat 32 (readField order q.payload 2 4) = 0 ∨ formOfCode (readField order q.payload 8 1) = none))) :
    decideHello p q s =
      (s, { Reply.refuse .hello .badValue (s.helloBody p) with order := markerOrder q.payload }) := by
  unfold decideHello
  by_cases hlength : q.payload.length = 9
  · rw [if_neg (not_not.2 hlength)]
    rcases h with h | h | ⟨order, horder, h⟩
    · exact absurd hlength h
    · rw [h]
    · rw [horder]
      by_cases hid : BitVec.ofNat 32 (readField order q.payload 2 4) = 0
      · exact if_pos hid
      · simp only [if_neg hid, h.resolve_left hid]
  · exact if_pos hlength

theorem decideEnter_vacant (h : (s.seat p).state = .vacant) : decideEnter p q s = refuseWith .enter p .notLinked s :=
  if_pos h

theorem decideEnter_badLength (h : (s.seat p).state ≠ .vacant) (hlength : q.payload.length ≠ 6) :
    decideEnter p q s = refuseWith .enter p .badValue s :=
  (if_neg h).trans (if_pos hlength)

theorem decideEnter_idle (h : (s.seat p).state ≠ .vacant) (hlength : q.payload.length = 6) (hrace : s.race.state = .idle) :
    decideEnter p q s = if (readDescriptor q.order q.payload).inRange = true then
        acceptWith .enter p (openLobby p (readDescriptor q.order q.payload) s)
      else refuseWith .enter p .badValue s := by
  rw [decideEnter, if_neg h, if_neg (not_not.2 hlength), hrace]

theorem decideEnter_lobby (h : (s.seat p).state ≠ .vacant) (hlength : q.payload.length = 6) (hrace : s.race.state = .lobby) :
    decideEnter p q s =
      if (s.seat p).state ≠ .linked then refuseWith .enter p .wrongState s
      else if (readDescriptor q.order q.payload).inRange = false then refuseWith .enter p .badValue s
      else if s.race.descriptor ≠ some (readDescriptor q.order q.payload) then refuseWith .enter p .mismatch s
      else acceptWith .enter p (joinLobby p s) := by
  rw [decideEnter, if_neg h, if_neg (not_not.2 hlength), hrace]
  simp only [Bool.not_eq_true']

theorem decideEnter_closed (h : (s.seat p).state ≠ .vacant) (hlength : q.payload.length = 6) (hidle : s.race.state ≠ .idle)
    (hlobby : s.race.state ≠ .lobby) : decideEnter p q s = refuseWith .enter p .closed s := by
  rw [decideEnter, if_neg h, if_neg (not_not.2 hlength)]
  cases hrace : s.race.state
  case idle => exact absurd hrace hidle
  case lobby => exact absurd hrace hlobby
  all_goals rfl

theorem decideReady_vacant (h : (s.seat p).state = .vacant) : decideReady p q s = refuseWith .ready p .notLinked s :=
  if_pos h

theorem decideReady_badLength (h : (s.seat p).state ≠ .vacant) (hlength : q.payload ≠ []) :
    decideReady p q s = refuseWith .ready p .badValue s :=
  (if_neg h).trans (if_pos (mt List.length_eq_zero_iff.1 hlength))

theorem decideReady_empty (h : (s.seat p).state ≠ .vacant) (hempty : q.payload = []) : decideReady p q s =
    if s.race.state = .grid ∧ (s.seat p).state = .entered then
      if (s.fit p).phase = .fitTracking then acceptWith .ready p (acceptReady p s) else refuseWith .ready p .notSynced s
    else refuseWith .ready p .wrongState s :=
  (if_neg h).trans (if_neg (not_not.2 (List.length_eq_zero_iff.2 hempty)))

theorem decideWithdraw_vacant (h : (s.seat p).state = .vacant) :
    decideWithdraw p q s = refuseWith .withdraw p .notLinked s :=
  if_pos h

theorem decideWithdraw_badLength (h : (s.seat p).state ≠ .vacant) (hlength : q.payload ≠ []) :
    decideWithdraw p q s = refuseWith .withdraw p .badValue s :=
  (if_neg h).trans (if_pos (mt List.length_eq_zero_iff.1 hlength))

/-- A WITHDRAW that passes its first checks is decided by the race state. -/
theorem decideWithdraw_empty (h : (s.seat p).state ≠ .vacant) (hempty : q.payload = []) : decideWithdraw p q s =
    if s.race.state = .lobby ∨ s.race.state = .grid then
      if (s.seat p).state = .entered ∨ (s.seat p).state = .ready then acceptWith .withdraw p (withdrawEntrant p s)
      else refuseWith .withdraw p .wrongState s
    else if s.race.state.live = true then
      if (s.seat p).state = .running ∨ (s.seat p).state = .stalled then
        acceptWith .withdraw p (retireSeat p .withdrawn (s.withdrawProgress p) s)
      else refuseWith .withdraw p .wrongState s
    else if s.race.state = .results ∧ (s.seat p).state.inField = true then
      acceptWith .withdraw p (withdrawInResults p s)
    else refuseWith .withdraw p .wrongState s := by
  rw [decideWithdraw, if_neg h, if_neg (not_not.2 (List.length_eq_zero_iff.2 hempty))]
  cases s.race.state <;> simp [RaceState.live]

theorem decideSetup_vacant (h : (s.seat p).state = .vacant) :
    decideSetup p q s = (s, Reply.refuse .setup .notLinked []) :=
  if_pos h

theorem decideSetup_unparsed (h : (s.seat p).state ≠ .vacant)
    (hparse : parseSetup q.order q.payload.length q.payload = none) :
    decideSetup p q s = (s, Reply.refuse .setup .badValue []) := by
  rw [decideSetup, if_neg h, hparse]

theorem decideSetup_parsed (h : (s.seat p).state ≠ .vacant) {items : List SetupItem}
    (hparse : parseSetup q.order q.payload.length q.payload = some items) : decideSetup p q s =
      if s.race.state ≠ .idle then (s, Reply.refuse .setup .wrongState [])
      else if items = [] ∨ ¬(items.map (·.number)).Nodup ∨ items.any (·.refused) = true then
        (s, Reply.refuse .setup .badValue [])
      else (items.foldl SetupItem.write s, Reply.accept .setup (items.any (·.clamped)) [wordField (clampMask items)]) := by
  rw [decideSetup, if_neg h, hparse]

theorem pacerModeOfCode_eq_none {v : Nat} (h : 2 < v) : pacerModeOfCode v = none := by
  rw [pacerModeOfCode, if_neg (by omega), if_neg (by omega), if_neg (by omega)]

theorem buildProfile_eq_none {shares : List Nat} (h : 255 < (shares.map clampShare).sum) (speeds : List Nat) :
    buildProfile shares speeds = none :=
  if_pos h

theorem any_refused_of_mode {items : List SetupItem} {v : Nat} (hv : 2 < v) (hitem : SetupItem.value 14 v ∈ items) :
    items.any (·.refused) = true := by
  refine List.any_eq_true.2 ⟨_, hitem, ?_⟩
  simp only [SetupItem.refused, pacerModeOfCode_eq_none hv]
  rfl

theorem any_refused_of_shares {items : List SetupItem} {shares speeds : List Nat}
    (hitem : SetupItem.profile shares speeds ∈ items) (hsum : 255 < (shares.map clampShare).sum) :
    items.any (·.refused) = true := by
  refine List.any_eq_true.2 ⟨_, hitem, ?_⟩
  simp only [SetupItem.refused, buildProfile_eq_none hsum]
  rfl

variable {table length : Nat} {entry : List Byte → State → Option (List Field)}

theorem decideQuery_vacant (h : (s.seat p).state = .vacant) :
    decideQuery table length entry p q s = (s, Reply.refuse .query .notLinked []) :=
  if_pos h

theorem decideQuery_badValue (h : (s.seat p).state ≠ .vacant)
    (hbad : q.payload.length ≠ length ∨ byteAt q.payload 0 ≠ table ∨ entry q.payload s = none) :
    decideQuery table length entry p q s = (s, Reply.refuse .query .badValue []) := by
  rw [decideQuery, if_neg h]
  by_cases hshape : q.payload.length ≠ length ∨ byteAt q.payload 0 ≠ table
  · exact if_pos hshape
  · rw [if_neg hshape]
    rw [← or_assoc] at hbad
    rw [hbad.resolve_left hshape]

theorem decideQuery_items (h : (s.seat p).state ≠ .vacant) (hlength : q.payload.length = length)
    (htable : byteAt q.payload 0 = table) {items : List Field} (hentry : entry q.payload s = some items) :
    decideQuery table length entry p q s =
      (s, Reply.accept .query false (byteField table :: byteField (byteAt q.payload 1) :: items)) := by
  have hshape : ¬(q.payload.length ≠ length ∨ byteAt q.payload 0 ≠ table) := by
    rw [not_or, not_not, not_not]
    exact ⟨hlength, htable⟩
  rw [decideQuery, if_neg h, if_neg hshape, hentry]

theorem asksTable_of_table (hkind : q.kind = .query) (htable : byteAt q.payload 0 = table) : asksTable table q = true := by
  simp [asksTable, hkind, htable]

/-- A QUERY that names no table is taken by every QUERY step and fails its checks (log 17). -/
theorem query_of_no_table (hkind : q.kind = .query)
    (h : q.payload = [] ∨ ∃ code rest, q.payload = code :: rest ∧ 7 ≤ code.toNat) (ht : table < 7) (hl : 0 < length) :
    asksTable table q = true ∧ (q.payload.length ≠ length ∨ byteAt q.payload 0 ≠ table) := by
  rcases h with h | ⟨code, rest, h, hcode⟩
  · refine ⟨by simp [asksTable, hkind, h], .inl ?_⟩
    rw [h]
    exact Nat.ne_of_lt hl
  · have hbyte : byteAt q.payload 0 = code.toNat := by rw [h, byteAt_cons0]
    refine ⟨by simp [asksTable, hkind, hbyte, hcode], .inr ?_⟩
    rw [hbyte]
    omega

end

end Sys2Proof.Machine
end

section
/-! O24: the refusals, request by request. -/

namespace Sys2Proof.Machine

section
variable {p : PortId} {q : Request} {s : State}

theorem queryRaceItems_none {payload : List Byte} (h : byteAt payload 1 ≠ 0) : queryRaceItems payload s = none := if_neg h

theorem portOfIndex_none {n : Nat} (h : 8 ≤ n) : portOfIndex n = none := dif_neg (by omega)

theorem carOfIndex_none {n : Nat} (h : 9 ≤ n) : carOfIndex n = none := dif_neg (by omega)

theorem querySeatItems_none {payload : List Byte} (h : 9 ≤ byteAt payload 1) : querySeatItems payload s = none := by
  rw [querySeatItems, carOfIndex_none h]
  rfl

theorem queryFitItems_none {payload : List Byte} (h : 8 ≤ byteAt payload 1) : queryFitItems payload s = none := by
  rw [queryFitItems, portOfIndex_none h]
  rfl

theorem queryLinkItems_none {payload : List Byte} (h : 8 ≤ byteAt payload 1) : queryLinkItems payload s = none := by
  rw [queryLinkItems, portOfIndex_none h]
  rfl

theorem queryFinishItems_none {payload : List Byte} (h : byteAt payload 1 = 0 ∨ 10 ≤ byteAt payload 1) :
    queryFinishItems payload s = none :=
  if_neg (by omega)

theorem queryParamItems_none {payload : List Byte} (h : 16 ≤ byteAt payload 1) : queryParamItems payload s = none :=
  if_neg (by omega)

/-- R32: no lap is in range while no descriptor is held. -/
theorem queryLapsItems_none {payload : List Byte} (h : s.race.descriptor = none ∨ 9 ≤ byteAt payload 1 ∨
      byteAt payload 2 = 0 ∨ ∃ held, s.race.descriptor = some held ∧ held.lapCount < byteAt payload 2) :
    queryLapsItems payload s = none := by
  unfold queryLapsItems
  by_cases hcar : 9 ≤ byteAt payload 1
  · rw [carOfIndex_none hcar]
  · cases hd : s.race.descriptor with
    | none => cases carOfIndex (byteAt payload 1) <;> rfl
    | some d =>
      have hlap : ¬(1 ≤ byteAt payload 2 ∧ byteAt payload 2 ≤ d.lapCount) := by
        rcases h with h | h | h | ⟨held, hheld, h⟩
        · exact absurd (hd.symm.trans h) nofun
        · exact absurd h hcar
        · omega
        · obtain rfl : d = held := Option.some.inj (hd.symm.trans hheld)
          omega
      cases carOfIndex (byteAt payload 1) with
      | none => rfl
      | some c => exact if_neg hlap

/-! ## The takes that refuse -/

variable (hreset : s.resetHeld = false) (hnext : s.nextRequest = some (p, q))
include hreset hnext

section
variable {c : Instr} {table length : Nat} {entry : List Byte → State → Option (List Field)}
  (hc : effect c = serve (asksTable table) (decideQuery table length entry))
include hc

theorem exec_query_badValue (hlinked : (s.seat p).state ≠ .vacant) (hasks : asksTable table q = true)
    (hbad : q.payload.length ≠ length ∨ byteAt q.payload 0 ≠ table ∨ entry q.payload (takeFrom p s) = none) :
    exec c s = .next (s.taken p (Reply.refuse .query .badValue [])) :=
  exec_serve_unchanged hc hreset hnext hasks (decideQuery_badValue (s := takeFrom p s) hlinked hbad)

theorem exec_query_notLinked (hvacant : (s.seat p).state = .vacant) (hasks : asksTable table q = true) :
    exec c s = .next (s.taken p (Reply.refuse .query .notLinked [])) :=
  exec_serve_unchanged hc hreset hnext hasks (decideQuery_vacant (s := takeFrom p s) hvacant)

theorem exec_query_noTable (hlinked : (s.seat p).state ≠ .vacant) (hkind : q.kind = .query)
    (h : q.payload = [] ∨ ∃ code rest, q.payload = code :: rest ∧ 7 ≤ code.toNat) (ht : table < 7) (hl : 0 < length) :
    exec c s = .next (s.taken p (Reply.refuse .query .badValue [])) := by
  obtain ⟨hasks, hshape⟩ := query_of_no_table hkind h ht hl
  exact exec_query_badValue hreset hnext hc hlinked hasks (by rw [← or_assoc]; exact .inl hshape)

/-- A QUERY of a table whose payload is of the wrong length. -/
theorem exec_query_badLength (hlinked : (s.seat p).state ≠ .vacant) (hkind : q.kind = .query) {code : Byte}
    {rest : List Byte} (hpayload : q.payload = code :: rest) (hcode : code.toNat = table) (hlength : rest.length + 1 ≠ length) :
    exec c s = .next (s.taken p (Reply.refuse .query .badValue [])) := by
  have htable : byteAt q.payload 0 = table := by rw [hpayload, byteAt_cons0, hcode]
  refine exec_query_badValue hreset hnext hc hlinked (asksTable_of_table hkind htable) (.inl ?_)
  rw [hpayload]
  exact hlength

/-- A QUERY of a table whose index lies outside it. -/
theorem exec_query_badIndex (hlinked : (s.seat p).state ≠ .vacant) (hkind : q.kind = .query) {code : Byte}
    {rest : List Byte} (hpayload : q.payload = code :: rest) (hcode : code.toNat = table)
    (hentry : entry (code :: rest) (takeFrom p s) = none) :
    exec c s = .next (s.taken p (Reply.refuse .query .badValue [])) := by
  have htable : byteAt q.payload 0 = table := by rw [hpayload, byteAt_cons0, hcode]
  exact exec_query_badValue hreset hnext hc hlinked (asksTable_of_table hkind htable) (.inr (.inr (by rw [hpayload, hentry])))

theorem answersOrRefuses_query (hasks : asksTable table q = true) : AnswersOrRefuses c p s :=
  answersOrRefuses_serve hc hreset hnext hasks (decided_decideQuery p q _ table length entry)

end

variable {c : Instr} {kind : ServiceKind} {decision : PortId → Request → State → State × Reply}
  (hc : effect c = serve (fun q => q.kind == kind) decision) (hkind : q.kind = kind)
include hc hkind

theorem answersOrRefuses_kind (hdecided : ∀ t, Decided t (decision p q t)) : AnswersOrRefuses c p s :=
  answersOrRefuses_serve hc hreset hnext (beq_iff_eq.2 hkind) (hdecided _)

/-- The take of a request that its decision refuses with this reason. -/
theorem exec_refused {reply : Reply} (hdecision : decision p q (takeFrom p s) = (takeFrom p s, reply)) :
    exec c s = .next (s.taken p reply) :=
  exec_serve_unchanged hc hreset hnext (beq_iff_eq.2 hkind) hdecision

end

/-- R44, R60: the race and seat states in which no WITHDRAW is admitted. -/
theorem withdraw_wrongState {p : PortId} {s : State} {accepted retired released refused : State × Reply}
    (h : s.race.state = .idle ∨ s.race.state = .void ∨
      ((s.race.state = .lobby ∨ s.race.state = .grid) ∧ (s.seat p).state ≠ .entered ∧ (s.seat p).state ≠ .ready) ∨
      (s.race.state.live = true ∧ (s.seat p).state ≠ .running ∧ (s.seat p).state ≠ .stalled) ∨
      (s.race.state = .results ∧ (s.seat p).state.inField = false)) :
    (if s.race.state = .lobby ∨ s.race.state = .grid then
      if (s.seat p).state = .entered ∨ (s.seat p).state = .ready then accepted else refused
    else if s.race.state.live = true then
      if (s.seat p).state = .running ∨ (s.seat p).state = .stalled then retired else refused
    else if s.race.state = .results ∧ (s.seat p).state.inField = true then released else refused) = refused := by
  rcases h with h | h | ⟨h, hentered, hready⟩ | ⟨h, hrunning, hstalled⟩ | ⟨h, hfield⟩
  · simp [h, RaceState.live]
  · simp [h, RaceState.live]
  · simp [h, hentered, hready]
  · simp only [h, hrunning, hstalled, or_self, if_false, if_true]
    refine if_neg ?_
    rintro (h' | h') <;> rw [h'] at h <;> cases h
  · simp [h, hfield, RaceState.live]

/-- Settles O24: each request's decision, case by case. -/
theorem refusalsChangeNothing : Obligations.RefusalsChangeNothing := by
  intro s p q hreset hnext refusal race d
  refine ⟨⟨?_, ?_, ?_, ?_, ?_, ?_, ?_, ?_, ?_, ?_, ?_, ?_⟩, fun hk hbad => ?_, fun hlinked hk => ⟨?_, ?_, ?_, ?_⟩,
    fun hlinked hk => ⟨?_, ?_⟩, fun hlinked hk => ⟨?_, ?_⟩, fun hlinked hk => ⟨?_, ?_⟩, fun hlinked hk => ⟨fun hnone => ?_, fun rest => ?_⟩,
    fun hvacant => ⟨?_, ?_, ?_, ?_, ?_, ?_, ?_, ?_, ?_, ?_, ?_⟩, fun hlinked hk k => ⟨?_, ?_, ?_, ?_, ?_, ?_, ?_⟩,
    fun hlinked hk hparsed hrace => ?_, fun hlinked hk hlength hidle hlobby => ?_⟩
  · exact fun hk => answersOrRefuses_kind hreset hnext rfl hk (decided_decideHello p q)
  · exact fun hk => answersOrRefuses_kind hreset hnext rfl hk (decided_decideEnter p q)
  · exact fun hk => answersOrRefuses_kind hreset hnext rfl hk (decided_decideReady p q)
  · exact fun hk => answersOrRefuses_kind hreset hnext rfl hk (decided_decideWithdraw p q)
  · exact fun hk => answersOrRefuses_kind hreset hnext rfl hk (decided_decideSetup p q)
  · exact answersOrRefuses_query hreset hnext rfl
  · exact answersOrRefuses_query hreset hnext rfl
  · exact answersOrRefuses_query hreset hnext rfl
  · exact answersOrRefuses_query hreset hnext rfl
  · exact answersOrRefuses_query hreset hnext rfl
  · exact answersOrRefuses_query hreset hnext rfl
  · exact answersOrRefuses_query hreset hnext rfl
  · have hbody : (takeFrom p s).helloBody p = [byteField p.val, wordField (s.port p).delay] := by
      rw [State.helloBody, takeFrom_port_self]
    have hdecision := decideHello_badValue (p := p) (s := takeFrom p s) hbad
    rw [hbody] at hdecision
    exact exec_refused hreset hnext rfl hk hdecision
  · exact fun hlength => exec_refused hreset hnext rfl hk (decideEnter_badLength (s := takeFrom p s) hlinked hlength)
  · intro hlength hidle hrange
    refine exec_refused hreset hnext rfl hk ((decideEnter_idle (s := takeFrom p s) hlinked hlength hidle).trans (if_neg ?_))
    exact fun h => Bool.false_ne_true (hrange.symm.trans h)
  · intro hlength hlobby hstate hrange
    refine exec_refused hreset hnext rfl hk ((decideEnter_lobby (s := takeFrom p s) hlinked hlength hlobby).trans ?_)
    exact (if_neg (not_not.2 hstate)).trans (if_pos hrange)
  · intro hlength hlobby hstate
    exact exec_refused hreset hnext rfl hk
      ((decideEnter_lobby (s := takeFrom p s) hlinked hlength hlobby).trans (if_pos hstate))
  · exact fun hempty => exec_refused hreset hnext rfl hk (decideReady_badLength (s := takeFrom p s) hlinked hempty)
  · intro hempty hstate
    refine exec_refused hreset hnext rfl hk ((decideReady_empty (s := takeFrom p s) hlinked hempty).trans (if_neg ?_))
    exact fun ⟨hgrid, hentered⟩ => hstate.elim (fun h => h hgrid) fun h => h hentered
  · exact fun hempty => exec_refused hreset hnext rfl hk (decideWithdraw_badLength (s := takeFrom p s) hlinked hempty)
  · intro hempty hstate
    refine exec_refused hreset hnext rfl hk ((decideWithdraw_empty (s := takeFrom p s) hlinked hempty).trans ?_)
    exact withdraw_wrongState (s := takeFrom p s) hstate
  · exact fun hparse => exec_refused hreset hnext rfl hk (decideSetup_unparsed (s := takeFrom p s) hlinked hparse)
  · intro items hparse hidle hbad
    refine exec_refused hreset hnext rfl hk ((decideSetup_parsed (s := takeFrom p s) hlinked hparse).trans ?_)
    refine (if_neg (not_not.2 hidle)).trans (if_pos ?_)
    rcases hbad with hempty | hrepeats | ⟨v, hv, hitem⟩ | ⟨shares, speeds, hitem, hsum⟩
    · exact .inl hempty
    · exact .inr (.inl hrepeats)
    · exact .inr (.inr (any_refused_of_mode hv hitem))
    · exact .inr (.inr (any_refused_of_shares hitem hsum))
  · have hrefused {c : Instr} {table length : Nat} {entry : List Byte → State → Option (List Field)}
        (hc : effect c = serve (asksTable table) (decideQuery table length entry)) (ht : table < 7) (hl : 0 < length) :=
      exec_query_noTable hreset hnext hc hlinked hk hnone ht hl
    exact ⟨hrefused rfl (by decide) (by decide), hrefused rfl (by decide) (by decide), hrefused rfl (by decide) (by decide),
      hrefused rfl (by decide) (by decide), hrefused rfl (by decide) (by decide), hrefused rfl (by decide) (by decide),
      hrefused rfl (by decide) (by decide)⟩
  · have hrefused {c : Instr} {table length : Nat} {entry : List Byte → State → Option (List Field)}
        (hc : effect c = serve (asksTable table) (decideQuery table length entry)) {code : Byte} (hcode : code.toNat = table)
        (hpayload : q.payload = code :: rest) (hlength : rest.length + 1 ≠ length) :=
      exec_query_badLength hreset hnext hc hlinked hk hpayload hcode hlength
    exact ⟨fun h hl => hrefused rfl rfl h (mt Nat.succ.inj hl), fun h hl => hrefused rfl rfl h (mt Nat.succ.inj hl),
      fun h hl => hrefused rfl rfl h (mt Nat.succ.inj hl), fun h hl => hrefused rfl rfl h (mt Nat.succ.inj hl),
      fun h hl => hrefused rfl rfl h (mt Nat.succ.inj hl), fun h hl => hrefused rfl rfl h (mt Nat.succ.inj hl),
      fun h hl => hrefused rfl rfl h (mt Nat.succ.inj hl)⟩
  · exact fun hk => exec_refused hreset hnext rfl hk (decideEnter_vacant (s := takeFrom p s) hvacant)
  · exact fun hk => exec_refused hreset hnext rfl hk (decideReady_vacant (s := takeFrom p s) hvacant)
  · exact fun hk => exec_refused hreset hnext rfl hk (decideWithdraw_vacant (s := takeFrom p s) hvacant)
  · exact fun hk => exec_refused hreset hnext rfl hk (decideSetup_vacant (s := takeFrom p s) hvacant)
  · exact exec_query_notLinked hreset hnext rfl hvacant
  · exact exec_query_notLinked hreset hnext rfl hvacant
  · exact exec_query_notLinked hreset hnext rfl hvacant
  · exact exec_query_notLinked hreset hnext rfl hvacant
  · exact exec_query_notLinked hreset hnext rfl hvacant
  · exact exec_query_notLinked hreset hnext rfl hvacant
  · exact exec_query_notLinked hreset hnext rfl hvacant
  · intro hpayload hindex
    refine exec_query_badIndex hreset hnext rfl hlinked hk hpayload rfl (queryRaceItems_none ?_)
    rw [byteAt_1]
    exact fun h => hindex (BitVec.eq_of_toNat_eq h)
  · intro hpayload hindex
    refine exec_query_badIndex hreset hnext rfl hlinked hk hpayload rfl (querySeatItems_none ?_)
    rw [byteAt_1]
    exact hindex
  · intro hpayload hindex
    refine exec_query_badIndex hreset hnext rfl hlinked hk hpayload rfl (queryFitItems_none ?_)
    rw [byteAt_1]
    exact hindex
  · intro hpayload hindex
    refine exec_query_badIndex hreset hnext rfl hlinked hk hpayload rfl (queryLinkItems_none ?_)
    rw [byteAt_1]
    exact hindex
  · intro c hpayload hindex
    refine exec_query_badIndex hreset hnext rfl hlinked hk hpayload rfl (queryLapsItems_none (s := takeFrom p s) ?_)
    rw [byteAt_1, byteAt_2]
    exact hindex.imp id (Or.imp id (Or.imp (congrArg BitVec.toNat) id))
  · intro hpayload hindex
    refine exec_query_badIndex hreset hnext rfl hlinked hk hpayload rfl (queryFinishItems_none ?_)
    rw [byteAt_1]
    exact hindex.imp (congrArg BitVec.toNat) id
  · intro hpayload hindex
    refine exec_query_badIndex hreset hnext rfl hlinked hk hpayload rfl (queryParamItems_none ?_)
    rw [byteAt_1]
    exact hindex
  · obtain ⟨items, hparse⟩ := Option.isSome_iff_exists.1 hparsed
    exact exec_refused hreset hnext rfl hk ((decideSetup_parsed (s := takeFrom p s) hlinked hparse).trans (if_pos hrace))
  · exact exec_refused hreset hnext rfl hk (decideEnter_closed (s := takeFrom p s) hlinked hlength hidle hlobby)

end Sys2Proof.Machine
end

section
/-! O23: the answers of an accepted QUERY, table by table. -/

namespace Sys2Proof.Machine

/-! ## The indices of R32 -/

theorem portOfIndex_val (r : PortId) : portOfIndex r.val = some r := dif_pos r.isLt

theorem carOfIndex_val (c : CarId) : carOfIndex c.val = some c := dif_pos c.isLt

theorem toNat_ofNat_port (r : PortId) : (BitVec.ofNat 8 r.val).toNat = r.val := by
  rw [BitVec.toNat_ofNat]
  exact Nat.mod_eq_of_lt (by have := r.isLt; omega)

theorem toNat_ofNat_car (c : CarId) : (BitVec.ofNat 8 c.val).toNat = c.val := by
  rw [BitVec.toNat_ofNat]
  exact Nat.mod_eq_of_lt (by have := c.isLt; omega)

/-! ## What the entries hold -/

theorem visibleEntryList_eq (s : State) : s.visibleEntryList =
    if s.race.state = .lobby ∨ s.race.state = .grid ∨ (s.race.state = .void ∧ s.race.epoch = none) then
      some s.race.entryList
    else none := by
  unfold State.visibleEntryList
  cases s.race.state <;> simp

/-- R63: the running timers of the race state. -/
theorem controllerTimers_eq (s : State) (h : HubTime) : s.controllerTimers h =
    (match s.race.state with
      | .lobby => [s.race.lobbyTimer]
      | .grid => [s.race.gridTimer]
      | .racing => [s.race.raceLimitTimer]
      | .finishing => [s.race.raceLimitTimer, s.race.finishWindowTimer]
      | .results => [s.race.resultsHoldTimer]
      | .void => [s.race.voidTimer]
      | .idle => []
      | .countdown => []).filterMap (remaining h) := by
  unfold State.controllerTimers
  cases s.race.state <;> rfl

section
variable {p : PortId} {q : Request} {s : State} {c : Instr} {table length : Nat}
  {entry : List Byte → State → Option (List Field)}

/-- The take of a QUERY whose index lies in its table. -/
theorem exec_query_items (hreset : s.resetHeld = false) (hnext : s.nextRequest = some (p, q))
    (hc : effect c = serve (asksTable table) (decideQuery table length entry)) (hlinked : (s.seat p).state ≠ .vacant)
    (hkind : q.kind = .query) {code index : Byte} {rest : List Byte} (hpayload : q.payload = code :: index :: rest)
    (hcode : code.toNat = table) (hlength : rest.length + 2 = length) {items : List Field}
    (hentry : entry (code :: index :: rest) (takeFrom p s) = some items) :
    exec c s = .next (s.taken p
      (Reply.accept .query false (byteField table :: byteField index.toNat :: items))) := by
  have htable : byteAt q.payload 0 = table := by rw [hpayload, byteAt_cons0, hcode]
  have hindex : byteAt q.payload 1 = index.toNat := by rw [hpayload, byteAt_1]
  have hdecision := decideQuery_items (p := p) (s := takeFrom p s) (entry := entry) (items := items) hlinked
    ((congrArg List.length hpayload).trans hlength) htable (by rw [hpayload, hentry])
  rw [hindex] at hdecision
  exact exec_serve_unchanged hc hreset hnext (asksTable_of_table hkind htable) hdecision

end

/-- Settles O23. -/
theorem queryReturnsTheLiveEntry : Obligations.QueryReturnsTheLiveEntry := by
  intro s p q hreset hnext hkind hlinked answer item byte word long time count flag race seat pacer fit link setting param
  have hitem {α : Type} (f : α → List Field) (x : Option α) : item (x.map f) = optionItem f x := by cases x <;> rfl
  have hbyte : byte = byteItem := funext fun x => hitem _ x
  have hword : word = wordItem := funext fun x => hitem _ x
  have hlong : long = longItem := funext fun x => hitem _ x
  have htime : time = timeItem := funext fun x => congrFun hlong _
  have hrace : race = raceEntry s := by
    have hlisted : item (if s.race.state = .lobby ∨ s.race.state = .grid ∨ (s.race.state = .void ∧ s.race.epoch = none) then
        some (count (s.race.entryList.map fun r => byteField r.val)) else none) =
        listItem (s.visibleEntryList.map fun l => l.map fun p => byteField p.val) := by
      rw [visibleEntryList_eq]
      split <;> rfl
    have hfield : item (s.race.epoch.map fun _ => count (s.race.fieldList.map fun c => byteField c.val)) =
        listItem (if s.race.epoch.isSome then some (s.race.fieldList.map fun c => byteField c.val) else none) := by
      cases s.race.epoch <;> rfl
    have htimers (l : List Nat) : item (if l = [] then none else some (count (l.map fun (n : Nat) => longField n))) =
        listItem (if l = [] then none else some (l.map fun (n : Nat) => longField n)) := by
      split <;> rfl
    simp only [race, raceEntry, hbyte, hword, htime, hlisted, hfield, htimers, controllerTimers_eq]
    simp only [hitem] <;> rfl
  have hseat (r : PortId) : seat r = seatEntry s r := by
    simp only [seat, seatEntry, hbyte, hlong]
    congr
    · funext f
      cases f <;> rfl
    · funext c
      cases c.order <;> rfl
  have hpacer : pacer = pacerSeatEntry s := by
    simp only [pacer, pacerSeatEntry, hbyte, hlong, carSeatState_pacer]
    rcases s.pacerRecord with - | x
    · rfl
    · cases x <;> rfl
  have hfit (r : PortId) : fit r = fitEntry s r := by
    simp only [fit, fitEntry, hbyte, hlong, htime]
    cases (s.fit r).phase <;> rfl
  have hlink (r : PortId) : link r = linkEntry (takeFrom p s) r := by
    rw [linkEntry_takeFrom]
    simp only [link, linkEntry, hbyte, hword]
    cases (s.port r).link <;> rfl
  have hparam (k : Nat) : param k = paramEntry s k := by
    have hsetting (k : Nat) : setting k = settingItem k (s.settings.get k) := by
      simp only [setting, settingItem, hbyte, hlong]
    have hmode : byteItem (some (match s.settings.pacerMode with | .off => 0 | .running => 1 | .ranked => 2)) =
        byteItem (some s.settings.pacerMode.code) := by
      cases s.settings.pacerMode <;> rfl
    by_cases h15 : k = 15
    · subst h15
      simp only [param, paramEntry, hbyte, hlong]
      rfl
    by_cases h14 : k = 14
    · subst h14
      simp only [param, paramEntry, hbyte]
      exact hmode
    by_cases h0 : k = 0
    · subst h0
      simp only [param, paramEntry, hlong, hsetting]
      rfl
    · simp only [param, paramEntry, hsetting, if_neg h15, if_neg h14, if_neg h0]
  have hanswers {c : Instr} {table length : Nat} {entry : List Byte → State → Option (List Field)}
      (hc : effect c = serve (asksTable table) (decideQuery table length entry)) {code index : Byte} {rest : List Byte}
      (hpayload : q.payload = code :: index :: rest) (hcode : code.toNat = table) (hlength : rest.length + 2 = length)
      {n : Nat} (hn : index.toNat = n) {items : List Field} (hentry : entry (code :: index :: rest) (takeFrom p s) = some items) :
      exec c s = .next (s.taken p (answer table n items)) := by
    subst hn
    exact exec_query_items hreset hnext hc hlinked hkind hpayload hcode hlength hentry
  refine ⟨fun hpayload => ?_, fun r hpayload => ?_, fun hpayload => ?_, fun r hpayload => ?_, fun r hpayload => ?_,
    fun c k d hpayload hd hlow hhigh => ?_, fun k hpayload hlow hhigh => ?_, fun k hpayload hhigh => ?_⟩
  · refine hanswers rfl hpayload rfl rfl rfl ?_
    rw [hrace]
    exact if_pos (byteAt_1 _ _ _)
  · refine hanswers rfl hpayload rfl rfl (toNat_ofNat_port r) ?_
    have hcar : carOfIndex r.val = some (carOf r) := carOfIndex_val (carOf r)
    rw [querySeatItems, byteAt_1, toNat_ofNat_port, hcar, hseat]
    simp only [Option.map_some, seatOf_carOf]
    rfl
  · refine hanswers rfl hpayload rfl rfl rfl ?_
    rw [hpacer]
    rfl
  · refine hanswers rfl hpayload rfl rfl (toNat_ofNat_port r) ?_
    rw [queryFitItems, byteAt_1, toNat_ofNat_port, portOfIndex_val, hfit]
    rfl
  · refine hanswers rfl hpayload rfl rfl (toNat_ofNat_port r) ?_
    rw [queryLinkItems, byteAt_1, toNat_ofNat_port, portOfIndex_val, hlink]
    rfl
  · intro lap
    refine hanswers rfl hpayload rfl rfl (toNat_ofNat_car c) ?_
    have hdescriptor : (takeFrom p s).race.descriptor = some d := hd
    rw [queryLapsItems, byteAt_1, byteAt_2, toNat_ofNat_car, carOfIndex_val, hdescriptor, hbyte, hlong]
    exact if_pos ⟨hlow, hhigh⟩
  · intro e
    refine hanswers rfl hpayload rfl rfl rfl ?_
    have hstanding (x : FinishEntry) :
        (if s.race.state = .results then Config.finalCode.toNat else Config.provisionalCode.toNat) =
          (if s.race.state = .results then Config.finalCode else Config.provisionalCode).toNat := by
      split <;> rfl
    rw [queryFinishItems, byteAt_1, if_pos ⟨hlow, hhigh⟩, hbyte, hlong, funext hstanding]
    rfl
  · refine hanswers rfl hpayload rfl rfl rfl ?_
    rw [queryParamItems, byteAt_1, if_pos hhigh, hparam]
    rfl

end Sys2Proof.Machine
end

section
/-! O25: an accepted SETUP. -/

namespace Sys2Proof.Machine

/-! ## What an item writes and reports (R35, R36, R191) -/

theorem clampNat_eq_self {lo hi : Nat} (h : lo ≤ hi) (v : Nat) : clampNat lo hi v = v ↔ lo ≤ v ∧ v ≤ hi := by
  unfold clampNat
  omega

theorem clamped_value {n v : Nat} (hn : n ≤ 14) : (SetupItem.value n v).clamped = true ↔
    n ≤ 13 ∧ ¬((settingRange n).1 ≤ v ∧ v ≤ (settingRange n).2) := by
  simp only [SetupItem.clamped, Bool.and_eq_true, bne_iff_ne]
  constructor
  · rintro ⟨hne, hclamped⟩
    have hle : n ≤ 13 := by omega
    exact ⟨hle, mt (clampNat_eq_self (settingRange_le hle) v).2 hclamped⟩
  · rintro ⟨hle, hout⟩
    exact ⟨by omega, mt (clampNat_eq_self (settingRange_le hle) v).1 hout⟩

theorem clamped_profile (shares speeds : List Nat) : (SetupItem.profile shares speeds).clamped = true ↔
    (∃ n ∈ shares, ¬(1 ≤ n ∧ n ≤ 255)) ∨ ∃ n ∈ speeds, ¬(100 ≤ n ∧ n ≤ 16383) := by
  simp only [SetupItem.clamped, Bool.or_eq_true, List.any_eq_true, bne_iff_ne, ne_eq, clampShare, clampSegmentSpeed]
  simp only [clampNat_eq_self (show 1 ≤ 255 by omega), clampNat_eq_self (show 100 ≤ 16383 by omega)]

theorem mode_code_of_code {v : Nat} (h : v ≤ 2) : ∃ mode, pacerModeOfCode v = some mode ∧ mode.code = v := by
  interval_cases v
  · exact ⟨.off, rfl, rfl⟩
  · exact ⟨.running, rfl, rfl⟩
  · exact ⟨.ranked, rfl, rfl⟩

theorem buildProfile_isSome {shares : List Nat} (h : (shares.map clampShare).sum ≤ 255) (speeds : List Nat) :
    ∃ profile, buildProfile shares speeds = some profile :=
  ⟨_, if_neg (Nat.not_lt.2 h)⟩

/-! ## A run of items (R34) -/

section
variable {items : List SetupItem}

theorem none_refused (hmode : ∀ v, SetupItem.value 14 v ∈ items → v ≤ 2)
    (hprofile : ∀ shares speeds, SetupItem.profile shares speeds ∈ items → (shares.map clampShare).sum ≤ 255) :
    ¬items.any (·.refused) = true := by
  rw [List.any_eq_true]
  rintro ⟨i, hi, hrefused⟩
  cases i with
  | value n v =>
    obtain ⟨hn, hnone⟩ := Bool.and_eq_true_iff.1 hrefused
    obtain rfl : n = 14 := beq_iff_eq.1 hn
    obtain ⟨mode, hsome, -⟩ := mode_code_of_code (hmode v hi)
    rw [hsome] at hnone
    cases hnone
  | profile shares speeds =>
    obtain ⟨profile, hsome⟩ := buildProfile_isSome (hprofile shares speeds hi) speeds
    rw [SetupItem.refused, hsome] at hrefused
    cases hrefused

theorem mode_write_of_ne {s : State} {i : SetupItem} (h : i.number ≠ 14) :
    (i.write s).settings.pacerMode = s.settings.pacerMode := by
  rw [mode_write]
  cases i with
  | value n v => exact if_neg h
  | profile => rfl

theorem profile_write_of_ne {s : State} {i : SetupItem} (h : ∀ shares speeds, i ≠ .profile shares speeds) :
    (i.write s).settings.profile = s.settings.profile := by
  rw [prof_write]
  cases i with
  | value => rfl
  | profile a b => exact absurd rfl (h a b)

theorem time_write_of_ne {s : State} {i : SetupItem} (h : i.number ≠ 0) : (i.write s).time = s.time := by
  rw [time_write]
  cases i with
  | value n v => exact if_neg h
  | profile => rfl

variable (s : State) (hnodup : (items.map (·.number)).Nodup)
include hnodup

theorem mode_fold_in {v : Nat} (hv : v ≤ 2) (h : SetupItem.value 14 v ∈ items) :
    (items.foldl SetupItem.write s).settings.pacerMode.code = v := by
  obtain ⟨u, hu, -⟩ := fold_hit (·.settings.pacerMode) 14 (fun _ _ => mode_write_of_ne) items s hnodup _ h rfl
  obtain ⟨mode, hmode, hcode⟩ := mode_code_of_code hv
  rw [show (items.foldl SetupItem.write s).settings.pacerMode = _ from hu, mode_write]
  simp only [if_true, hmode, Option.getD_some, hcode]

theorem profile_fold_in {shares speeds : List Nat} {profile : List ProfileSegment}
    (hbuild : buildProfile shares speeds = some profile) (h : SetupItem.profile shares speeds ∈ items) :
    (items.foldl SetupItem.write s).settings.profile = profile := by
  obtain ⟨u, hu, -⟩ := fold_hit (·.settings.profile) 15
    (fun _ _ hi => profile_write_of_ne fun _ _ heq => hi (by rw [heq]; rfl)) items s hnodup _ h rfl
  rw [show (items.foldl SetupItem.write s).settings.profile = _ from hu, prof_write]
  simp only [hbuild, Option.getD_some]

theorem time_fold_in {v : Nat} (h : SetupItem.value 0 v ∈ items) :
    (items.foldl SetupItem.write s).time = { s.time with pendingPeriod := some (clampSetting 0 v) } := by
  obtain ⟨u, hu, hkept⟩ := fold_hit (·.time) 0 (fun _ _ => time_write_of_ne) items s hnodup _ h rfl
  rw [show (items.foldl SetupItem.write s).time = _ from hu, time_write]
  simp only [if_true, show u.time = s.time from hkept]

omit hnodup in
/-- A part that only one number writes is kept where no item has it. -/
theorem fold_keep_number {α : Type} {f : State → α} {k : Nat}
    (hw : ∀ (s : State) (i : SetupItem), i.number ≠ k → f (i.write s) = f s) (h : ∀ i ∈ items, i.number ≠ k) :
    f (items.foldl SetupItem.write s) = f s :=
  fold_keep f (fun i => i.number = k) hw items s h

theorem clampMask_ne_zero : decide (clampMask items ≠ 0) = items.any (·.clamped) := by
  rw [Bool.eq_iff_iff, decide_eq_true_iff, List.any_eq_true]
  constructor
  · intro hne
    obtain ⟨k, hk⟩ := Nat.exists_testBit_of_ne_zero hne
    obtain ⟨i, hi, -, hclamped⟩ := (mask_bit items hnodup k).1 hk
    exact ⟨i, hi, hclamped⟩
  · rintro ⟨i, hi, hclamped⟩ hzero
    have hbit := (mask_bit items hnodup i.number).2 ⟨i, hi, rfl, hclamped⟩
    rw [hzero, Nat.zero_testBit] at hbit
    cases hbit

end

/-- Settles O25. -/
theorem setupWritesEveryItemClamped : Obligations.SetupWritesEveryItemClamped := by
  intro s p q items hreset hnext hkind hlinked hidle hparse hne hnodup hmode hprofile
  have hshaped := shaped_of_parse hparse
  have hnumber (n v : Nat) (h : SetupItem.value n v ∈ items) : n ≤ 14 := hshaped _ h
  have hframe := foldl_frame items (takeFrom p s)
  have hseats : (items.foldl SetupItem.write (takeFrom p s)).seats = s.seats := congrArg (·.seats) hframe
  have hfits : (items.foldl SetupItem.write (takeFrom p s)).fits = s.fits := congrArg (·.fits) hframe
  have hcars : (items.foldl SetupItem.write (takeFrom p s)).cars = s.cars := congrArg (·.cars) hframe
  have hdecision : decideSetup p q (takeFrom p s) = (items.foldl SetupItem.write (takeFrom p s),
      Reply.accept .setup (items.any (·.clamped)) [wordField (clampMask items)]) := by
    refine (decideSetup_parsed (s := takeFrom p s) hlinked hparse).trans ((if_neg (not_not.2 hidle)).trans (if_neg ?_))
    rintro (h | h | h)
    · exact hne h
    · exact h hnodup
    · exact none_refused hmode hprofile h
  obtain ⟨hserve, hanswered, hothers⟩ := serve_answered (wanted := fun q => q.kind == .setup) hnext (beq_iff_eq.2 hkind) hdecision
    (congrArg (·.ports) hframe) (congrArg (·.engine) hframe) (congrArg (·.freeDraws) hframe)
  have hexec : exec .setup s = .next (serve (fun q => q.kind == .setup) decideSetup s) := exec_running _ hreset
  rw [hserve] at hanswered hothers hexec
  refine ⟨_, hexec, fun k v hk h => ?_, fun k hk h => ?_, fun v h => ?_, fun h => ?_, fun shares speeds h => ?_, fun h => ?_,
    fun v h => ?_, fun h => ?_, ⟨clampMask items, ?_, fun k => ?_⟩, fun r hr => ⟨hothers r hr, ?_, ?_, ?_⟩, ?_, ?_, ?_, ?_⟩
  · exact get_fold_in items (takeFrom p s) k v hk hnumber hnodup h
  · exact get_fold_notin items (takeFrom p s) k hk hnumber h
  · exact mode_fold_in (takeFrom p s) hnodup (hmode v h) h
  · refine fold_keep_number (takeFrom p s) (f := (·.settings.pacerMode)) (k := 14) (fun _ _ => mode_write_of_ne) fun i hi hn => ?_
    cases i with
    | value n v =>
      obtain rfl : n = 14 := hn
      exact h v hi
    | profile => cases hn
  · obtain ⟨profile, hbuild⟩ := buildProfile_isSome (hprofile shares speeds h) speeds
    obtain ⟨-, hshares, hspeeds⟩ := buildProfile_columns hbuild (hshaped _ h).1
    have hwritten := profile_fold_in (takeFrom p s) hnodup hbuild h
    exact ⟨(congrArg (List.map (·.share)) hwritten).trans hshares, (congrArg (List.map (·.speed)) hwritten).trans hspeeds⟩
  · exact fold_keep (·.settings.profile) (fun i => ∃ shares speeds, i = .profile shares speeds)
      (fun _ _ hi => profile_write_of_ne fun a b heq => hi ⟨a, b, heq⟩) items (takeFrom p s)
      fun i hi ⟨a, b, heq⟩ => h a b (heq ▸ hi)
  · exact time_fold_in (takeFrom p s) hnodup h
  · refine fold_keep_number (takeFrom p s) (f := (·.time)) (k := 0) (fun _ _ => time_write_of_ne) fun i hi hn => ?_
    cases i with
    | value n v =>
      obtain rfl : n = 0 := hn
      exact h v hi
    | profile => cases hn
  · rw [clampMask_ne_zero hnodup]
    exact hanswered
  · rw [mask_bit items hnodup k]
    refine exists_congr fun i => and_congr_right fun hi => and_congr_right fun _ => ?_
    cases i with
    | value n v => exact clamped_value (hnumber n v hi)
    | profile shares speeds => exact clamped_profile shares speeds
  · exact congrArg (fun l : Vector Seat 8 => l[r]) hseats
  · exact congrArg (fun l : Vector Fit 8 => l[r]) hfits
  · exact congrArg (fun l : Vector CarRecord 8 => l[r]) hcars
  · exact congrArg (fun l : Vector Seat 8 => l[p]) hseats
  · exact congrArg (fun l : Vector Fit 8 => l[p]) hfits
  · exact congrArg (fun l : Vector CarRecord 8 => l[p]) hcars
  · have hsame := congrArg (fun t : State => { t with
      settings := s.settings, time := s.time, ports := s.ports, engine := s.engine, freeDraws := s.freeDraws }) hframe
    exact hsame

end Sys2Proof.Machine
end

section
/-! O27 to O29: an accepted HELLO, seat state by seat state. -/

namespace Sys2Proof.Machine

/-! ## What a HELLO writes at its own seat (R21 to R24, R147) -/

/-- The records of one port's seat, fit and car written. -/
def State.written (s : State) (p : PortId) (x : Seat) (f : Fit) (c : CarRecord) : State :=
  ((s.setSeat p x).setFit p f).setCar p c

section
variable (s : State) (p : PortId) (x : Seat) (f : Fit) (c : CarRecord)

theorem written_car_self : s.written p x f (s.car p) = (s.setSeat p x).setFit p f :=
  State.setCar_car ((s.setSeat p x).setFit p f) p

/-- What the take of a HELLO leaves when it writes its own seat's records and the event queue alone. -/
theorem written_leaves (events : EventQueue) (engine : ServiceEngine) (n : Nat) :
    let t : State := { (takeFrom p s).written p x f c with events := events, engine := engine, freeDraws := n }
    t.seat p = x ∧ t.fit p = f ∧ t.car p = c ∧ t.events = events ∧ OthersKept p s t ∧
      OutsideKept s { t with events := s.events } := by
  refine ⟨State.seat_setSeat_self (takeFrom p s) p x, State.fit_setFit_self (takeFrom p s) p f,
    State.car_setCar_self (takeFrom p s) p c, rfl, fun r hr => ⟨?_, ?_, ?_, ?_⟩, rfl⟩
  · exact takeFrom_port_ne s hr
  · exact State.seat_setSeat_ne (takeFrom p s) x hr
  · exact State.fit_setFit_ne (takeFrom p s) f hr
  · exact State.car_setCar_ne (takeFrom p s) c hr

theorem setSeat_setFit_setSeat (y : Seat) : ((s.setSeat p y).setFit p f).setSeat p x = (s.setSeat p x).setFit p f :=
  congrArg (fun t : State => t.setFit p f) (State.setSeat_setSeat s p y x)

theorem seat_setSeat_setFit : ((s.setSeat p x).setFit p f).seat p = x := State.seat_setSeat_self s p x

theorem newCabinet_written : newCabinet p ((s.setSeat p x).setFit p f) =
    s.written p
      { x with state := .linked, silenceTimer := none, duplicates := 0, outOfOrder := 0, implausible := 0, resyncs := 0 } f
      CarRecord.empty := by
  rw [newCabinet, seat_setSeat_setFit, setSeat_setFit_setSeat]
  rfl

end

section
variable {s : State} {p : PortId} {c : Cabinet}

theorem acceptHello_newCabinet (h : (s.seat p).state = .vacant ∨
      ((s.seat p).state = .linked ∧ (s.seat p).cabinet.map (·.id) ≠ some c.id)) : acceptHello p c s =
    s.written p
      { s.seat p with
        cabinet := some c, state := .linked, silenceTimer := none, duplicates := 0, outOfOrder := 0, implausible := 0
        resyncs := 0 } ((s.fit p).declare c.framePeriod) CarRecord.empty := by
  rw [← newCabinet_written s p { s.seat p with cabinet := some c }]
  unfold acceptHello
  rcases h with h | ⟨h, hother⟩
  · simp only [h]
  · have hnot : ((s.seat p).cabinet.map (·.id) == some c.id) = false := beq_eq_false_iff_ne.2 hother
    simp only [h, hnot]
    rfl

/-- A seat whose HELLO changes nothing but the cabinet's parameters and the fit. -/
theorem acceptHello_kept (h : ((s.seat p).state = .linked ∧ (s.seat p).cabinet.map (·.id) = some c.id) ∨
      (s.seat p).state = .finished ∨ (s.seat p).state = .retired) : acceptHello p c s =
    s.written p { s.seat p with cabinet := some c } ((s.fit p).declare c.framePeriod) (s.car p) := by
  rw [written_car_self]
  unfold acceptHello
  rcases h with ⟨h, hsame⟩ | h | h
  · simp only [h, beq_iff_eq.2 hsame, if_true]
  · simp only [h]
  · simp only [h]

theorem acceptHello_entrant_same (h : (s.seat p).state = .entered ∨ (s.seat p).state = .ready)
    (hsame : (s.seat p).cabinet.map (·.id) = some c.id) : acceptHello p c s =
    s.written p { s.seat p with cabinet := some c, state := .entered, silenceTimer := none }
      ((s.fit p).declare c.framePeriod) (s.car p) := by
  rw [written_car_self]
  unfold acceptHello
  rcases h with h | h <;> simp only [h, beq_iff_eq.2 hsame, if_true, setSeat_setFit_setSeat, seat_setSeat_setFit]

theorem acceptHello_entrant_other (h : (s.seat p).state = .entered ∨ (s.seat p).state = .ready)
    (hother : (s.seat p).cabinet.map (·.id) ≠ some c.id) : acceptHello p c s =
    departure (newCabinet p (leaveEntryList p
      ((s.setSeat p { s.seat p with cabinet := some c }).setFit p ((s.fit p).declare c.framePeriod)))) := by
  have hnot : ((s.seat p).cabinet.map (·.id) == some c.id) = false := beq_eq_false_iff_ne.2 hother
  unfold acceptHello
  rcases h with h | h <;> simp only [h, hnot] <;> rfl

theorem acceptHello_onTrack (hlive : s.race.state.live = true)
    (h : (s.seat p).state = .running ∨ (s.seat p).state = .stalled) : acceptHello p c s =
    rejoin p ((s.setSeat p { s.seat p with cabinet := some c }).setFit p ((s.fit p).declare c.framePeriod)) := by
  unfold acceptHello
  rcases h with h | h <;> simp only [h, hlive, if_true]

theorem rejoin_running (h : (s.seat p).state = .running) : rejoin p s = stallSeat p true s := by
  simp only [rejoin, h]

theorem rejoin_stalled (h : (s.seat p).state = .stalled) (hdrop : (s.seat p).dropTimer ≠ none) : rejoin p s =
    s.setSeat p { s.seat p with stallPhase := some .recovering, recoveryRun := some 0 } := by
  obtain ⟨instant, hinstant⟩ := Option.ne_none_iff_exists'.1 hdrop
  simp only [rejoin, h, hinstant]

theorem acceptHello_running (hlive : s.race.state.live = true) (h : (s.seat p).state = .running) : acceptHello p c s =
    { s.written p
        { s.seat p with
          cabinet := some c, state := .stalled, stallPhase := some .recovering, recoveryRun := some 0
          frozenProgress := some (s.freezeAt p), silenceTimer := none
          dropTimer := startTimer s.now (s.settings.dropLimit * 1000000) }
        ((s.fit p).declare c.framePeriod) (s.car p) with
      events := s.events.append (.stall p (s.raceTime s.now) true) } := by
  have hseat := seat_setSeat_setFit s p { s.seat p with cabinet := some c } ((s.fit p).declare c.framePeriod)
  rw [acceptHello_onTrack hlive (.inl h), rejoin_running (by rw [hseat]; exact h), written_car_self, stallSeat, hseat,
    setSeat_setFit_setSeat]
  rfl

theorem acceptHello_stalled (hlive : s.race.state.live = true) (h : (s.seat p).state = .stalled)
    (hdrop : (s.seat p).dropTimer ≠ none) : acceptHello p c s =
    s.written p { s.seat p with cabinet := some c, stallPhase := some .recovering, recoveryRun := some 0 }
      ((s.fit p).declare c.framePeriod) (s.car p) := by
  have hseat := seat_setSeat_setFit s p { s.seat p with cabinet := some c } ((s.fit p).declare c.framePeriod)
  rw [acceptHello_onTrack hlive (.inr h), rejoin_stalled (by rw [hseat]; exact h) (by rw [hseat]; exact hdrop),
    written_car_self, hseat, setSeat_setFit_setSeat]

end

/-! ## The takes -/

theorem decideHello_seatHeld {p : PortId} {q : Request} {s : State} {order : ByteOrder} {form : ReportForm}
    (hlength : q.payload.length = 9) (hmarker : markerOrder q.payload = some order)
    (hid : BitVec.ofNat 32 (readField order q.payload 2 4) ≠ 0)
    (hform : formOfCode (readField order q.payload 8 1) = some form) (hfield : (s.seat p).state.inField = true)
    (hother : (s.seat p).cabinet.map (·.id) ≠ some (BitVec.ofNat 32 (readField order q.payload 2 4))) :
    decideHello p q s = (s, { Reply.refuse .hello .seatHeld (s.helloBody p) with order := some order }) := by
  rw [decideHello, if_neg (not_not.2 hlength)]
  simp only [hmarker, if_neg hid, hform]
  exact if_pos ⟨hfield, hother⟩

/-- Settles O27. -/
theorem helloLinksACabinet : Obligations.HelloLinksACabinet := by
  intro s p q order form hreset hnext hkind hlength hmarker hid hform hstate declared period cabinet kept
  have hfree : ¬((s.seat p).state.inField = true ∧
      (s.seat p).cabinet.map (·.id) ≠ some (BitVec.ofNat 32 (readField order q.payload 2 4))) := by
    rintro ⟨hfield, -⟩
    rcases hstate with h | h <;> rw [h] at hfield <;> cases hfield
  obtain ⟨hexec, hanswered, -⟩ := hello_accepted hreset hnext hkind hlength hmarker hid hform hfree
  by_cases hkept : kept
  · have hseen := acceptHello_kept (s := takeFrom p s) (p := p) (c := cabinet) (.inl hkept)
    obtain ⟨hseat, hfit, hcar, -, hothers, houtside⟩ := written_leaves s p { s.seat p with cabinet := some cabinet }
      ((s.fit p).declare period) (s.car p) s.events _ (s.freeDraws + 1)
    rw [hseen] at hexec hanswered
    rw [if_pos hkept, if_pos hkept]
    exact ⟨_, hexec, hseat, hcar, hfit, hanswered, hothers, houtside⟩
  · have hnew : (s.seat p).state = .vacant ∨
        ((s.seat p).state = .linked ∧ (s.seat p).cabinet.map (·.id) ≠ some cabinet.id) :=
      hstate.imp id fun h => ⟨h, fun hsame => hkept ⟨h, hsame⟩⟩
    have hseen := acceptHello_newCabinet (s := takeFrom p s) (p := p) (c := cabinet) hnew
    obtain ⟨hseat, hfit, hcar, -, hothers, houtside⟩ := written_leaves s p
      { s.seat p with
        cabinet := some cabinet, state := .linked, silenceTimer := none, duplicates := 0, outOfOrder := 0
        implausible := 0, resyncs := 0 } ((s.fit p).declare period) CarRecord.empty s.events _ (s.freeDraws + 1)
    rw [hseen] at hexec hanswered
    rw [if_neg hkept, if_neg hkept]
    exact ⟨_, hexec, hseat, hcar, hfit, hanswered, hothers, houtside⟩

/-- Settles O28. -/
theorem helloFromAnEntrant : Obligations.HelloFromAnEntrant := by
  intro s p q order form hreset hnext hkind hlength hmarker hid hform hstate declared period cabinet fit reply
  have hfree : ¬((s.seat p).state.inField = true ∧
      (s.seat p).cabinet.map (·.id) ≠ some (BitVec.ofNat 32 (readField order q.payload 2 4))) := by
    rintro ⟨hfield, -⟩
    rcases hstate with h | h <;> rw [h] at hfield <;> cases hfield
  obtain ⟨hexec, hanswered, -⟩ := hello_accepted hreset hnext hkind hlength hmarker hid hform hfree
  refine ⟨fun hsame => ?_, fun hother hnodup => ?_⟩
  · have hseen := acceptHello_entrant_same (s := takeFrom p s) (p := p) (c := cabinet) hstate hsame
    obtain ⟨hseat, hfit, hcar, -, hothers, houtside⟩ := written_leaves s p
      { s.seat p with cabinet := some cabinet, state := .entered, silenceTimer := none } ((s.fit p).declare period) (s.car p)
      s.events _ (s.freeDraws + 1)
    rw [hseen] at hexec hanswered
    exact ⟨_, hexec, hseat, hcar, hfit, hanswered, hothers, houtside⟩
  · intro seat left
    have hseen := acceptHello_entrant_other (s := takeFrom p s) (p := p) (c := cabinet) hstate hother
    have hleft : newCabinet p (leaveEntryList p (((takeFrom p s).setSeat p { s.seat p with cabinet := some cabinet }).setFit p
        ((s.fit p).declare period))) = { left with engine := (takeFrom p s).engine } := by
      have hwritten := newCabinet_written (takeFrom p s) p { s.seat p with cabinet := some cabinet } ((s.fit p).declare period)
      exact congrArg (fun t : State => leaveEntryList p t) hwritten
    have hdeparted := departed_departure { left with engine := (takeFrom p s).engine } (hnodup.filter _)
    have hleaves := hseen.trans (congrArg departure hleft)
    rw [hleaves] at hexec hanswered
    exact ⟨_, hexec, departed_engine s.engine _ (s.freeDraws + 1) hdeparted, hanswered⟩

/-- Settles O29. -/
theorem helloInTheField : Obligations.HelloInTheField := by
  intro s p q order form hreset hnext hkind hlength hmarker hid hform declared period cabinet fit reply
  have haccepted (hsame : (s.seat p).cabinet.map (·.id) = some cabinet.id) :=
    hello_accepted hreset hnext hkind hlength hmarker hid hform fun h => h.2 hsame
  refine ⟨fun hfield hother => ?_, fun hsame hstate => ?_, fun hsame hlive hstate => ?_, fun hsame hlive hstate hdrop => ?_⟩
  · have hbody : (takeFrom p s).helloBody p = [byteField p.val, wordField (s.port p).delay] := by
      rw [State.helloBody, takeFrom_port_self]
    have hdecision := decideHello_seatHeld (s := takeFrom p s) hlength hmarker hid hform hfield hother
    rw [hbody] at hdecision
    exact exec_refused hreset hnext rfl hkind hdecision
  · obtain ⟨hexec, hanswered, -⟩ := haccepted hsame
    have hseen := acceptHello_kept (s := takeFrom p s) (p := p) (c := cabinet) (.inr hstate)
    obtain ⟨hseat, hfit, hcar, -, hothers, houtside⟩ := written_leaves s p { s.seat p with cabinet := some cabinet }
      ((s.fit p).declare period) (s.car p) s.events _ (s.freeDraws + 1)
    rw [hseen] at hexec hanswered
    exact ⟨_, hexec, hseat, hfit, hcar, hanswered, hothers, houtside⟩
  · obtain ⟨hexec, hanswered, -⟩ := haccepted hsame
    have hseen := acceptHello_running (s := takeFrom p s) (p := p) (c := cabinet) hlive hstate
    obtain ⟨hseat, hfit, hcar, hevents, hothers, houtside⟩ := written_leaves s p
      { s.seat p with
        cabinet := some cabinet, state := .stalled, stallPhase := some .recovering, recoveryRun := some 0
        frozenProgress := some (s.freezeAt p), silenceTimer := none
        dropTimer := startTimer s.now (s.settings.dropLimit * 1000000) }
      ((s.fit p).declare period) (s.car p) (s.events.append (.stall p (s.raceTime s.now) true)) _ (s.freeDraws + 1)
    rw [hseen] at hexec hanswered
    exact ⟨_, hexec, hseat, hfit, hcar, hevents, hanswered, hothers, houtside⟩
  · obtain ⟨hexec, hanswered, -⟩ := haccepted hsame
    have hseen := acceptHello_stalled (s := takeFrom p s) (p := p) (c := cabinet) hlive hstate hdrop
    obtain ⟨hseat, hfit, hcar, -, hothers, houtside⟩ := written_leaves s p
      { s.seat p with cabinet := some cabinet, stallPhase := some .recovering, recoveryRun := some 0 }
      ((s.fit p).declare period) (s.car p) s.events _ (s.freeDraws + 1)
    rw [hseen] at hexec hanswered
    exact ⟨_, hexec, hseat, hfit, hcar, hanswered, hothers, houtside⟩

end Sys2Proof.Machine
end

section
/-! O30 to O33: ENTER, READY and WITHDRAW as they are accepted. -/

namespace Sys2Proof.Machine

/-! ## The take of an accepted request (R27, R28) -/

/-- The state `u` that a decision left, with its reply in the service engine. -/
def State.answering (u s : State) (p : PortId) (reply : Reply) : State :=
  { u with
    engine := { pointer := p, inService := some { port := p, reply := reply, takenAt := s.now, draw := s.freeDraws } }
    freeDraws := s.freeDraws + 1 }

section
variable {c : Instr} {kind : ServiceKind} {decision : PortId → Request → State → State × Reply} {s : State} {p : PortId}
  {q : Request}

theorem exec_accepted (hc : effect c = serve (fun q => q.kind == kind) decision) (hreset : s.resetHeld = false)
    (hnext : s.nextRequest = some (p, q)) (hkind : q.kind = kind) {u : State} {reply : Reply}
    (hdecision : decision p q (takeFrom p s) = (u, reply)) (hkept : OuterKept (takeFrom p s) u) :
    exec c s = .next (u.answering s p reply) ∧ Answered p reply s (u.answering s p reply) := by
  obtain ⟨hserve, hanswered, -⟩ := serve_answered (wanted := fun q => q.kind == kind) hnext (beq_iff_eq.2 hkind) hdecision
    hkept.ports hkept.engine hkept.freeDraws
  rw [hserve] at hanswered
  exact ⟨by rw [exec_running c hreset, hc, hserve]; rfl, hanswered⟩

theorem raceReply_eq {u : State} {x : SeatState} {place : Option Nat} {r : RaceState} (hseat : (u.seat p).state = x)
    (hplace : placeIn p u.race.entryList = place) (hrace : u.race.state = r) :
    u.raceReply p = [byteField x.code, byteField (place.getD 0), byteField r.code] := by
  rw [State.raceReply, hseat, hplace, hrace]

/-- The take of a request whose decision writes its own seat and car, the race record and the event queue alone. -/
theorem exec_accepted_seat (hc : effect c = serve (fun q => q.kind == kind) decision) (hreset : s.resetHeld = false)
    (hnext : s.nextRequest = some (p, q)) (hkind : q.kind = kind) {u : State}
    (hdecision : decision p q (takeFrom p s) = acceptWith kind p u) {x : Seat} {car : CarRecord} {r : Race} {events : EventQueue}
    (hu : u = { ((takeFrom p s).setSeat p x).setCar p car with race := r, events := events }) {place : Option Nat}
    (hplace : placeIn p r.entryList = place) :
    ∃ t, exec c s = .next t ∧ t.race = r ∧ t.events = events ∧ t.seat p = x ∧ t.fit p = s.fit p ∧ t.car p = car ∧
      Answered p (Reply.accept kind false [byteField x.state.code, byteField (place.getD 0), byteField r.state.code]) s t ∧
      OthersKept p s t ∧ OutsideKept s { t with race := s.race, events := s.events } := by
  subst hu
  obtain ⟨hexec, hanswered⟩ := exec_accepted hc hreset hnext hkind hdecision ⟨rfl, rfl, rfl, rfl, rfl, rfl, rfl, rfl, rfl⟩
  have hseat := State.seat_setSeat_self (takeFrom p s) p x
  have hreply := raceReply_eq (p := p)
    (u := { ((takeFrom p s).setSeat p x).setCar p car with race := r, events := events }) (congrArg Seat.state hseat) hplace rfl
  rw [hreply] at hexec hanswered
  refine ⟨_, hexec, rfl, rfl, hseat, rfl, State.car_setCar_self (takeFrom p s) p car, hanswered, fun r hr => ⟨?_, ?_, rfl, ?_⟩,
    rfl⟩
  · exact takeFrom_port_ne s hr
  · exact State.seat_setSeat_ne (takeFrom p s) x hr
  · exact State.car_setCar_ne (takeFrom p s) car hr

end

theorem outsideKept_of_events {s t : State} {r : Race} (hevents : t.events = s.events)
    (h : OutsideKept s { t with race := r, events := s.events }) : OutsideKept s { t with race := r } := by
  rw [← hevents] at h
  exact h

theorem placeIn_append_self {p : PortId} {l : List PortId} (h : p ∉ l) : placeIn p (l ++ [p]) = some (l.length + 1) := by
  rw [placeIn, if_pos (List.mem_append_right l (List.mem_singleton_self p)), List.idxOf_append_of_notMem h,
    List.idxOf_cons_self]

theorem placeIn_notMem {p : PortId} {l : List PortId} (h : p ∉ l) : placeIn p l = none := if_neg h

/-! ## ENTER (R42, R43, R46) -/

theorem joinEntryList_eq (p : PortId) (s : State) : joinEntryList p s =
    { (s.setSeat p { s.seat p with state := .entered }).setCar p (s.car p) with
      race := { s.race with entryList := s.race.entryList ++ [p] } } := by
  rw [show s.car p = (s.setSeat p { s.seat p with state := .entered }).car p from rfl, State.setCar_car]
  rfl

/-- Settles O30. -/
theorem enterJoinsTheRace : Obligations.EnterJoinsTheRace := by
  intro s p q hreset hnext hkind hlength hlinked hrange d entered
  have hpresent : (s.seat p).state ≠ .vacant := by rw [hlinked]; nofun
  have hjoins (hlobby : s.race.state = .lobby) (hdescriptor : s.race.descriptor = some d) :
      decideEnter p q (takeFrom p s) = acceptWith .enter p (joinLobby p (takeFrom p s)) := by
    refine (decideEnter_lobby (s := takeFrom p s) hpresent hlength hlobby).trans ?_
    refine (if_neg (not_not.2 hlinked)).trans ((if_neg ?_).trans (if_neg (not_not.2 hdescriptor)))
    exact fun h => Bool.false_ne_true (h.symm.trans hrange)
  refine ⟨fun hidle => ?_, fun hlobby hdescriptor hnew hroom => ?_, fun hlobby hdescriptor hnew heighth hminimum => ?_,
    fun hlobby hother => ?_⟩
  · have hdecision := (decideEnter_idle (s := takeFrom p s) hpresent hlength hidle).trans (if_pos hrange)
    obtain ⟨t, hexec, hrace, hevents, hseat, hfit, hcar, hanswered, hothers, houtside⟩ :=
      exec_accepted_seat (c := .enter) rfl hreset hnext hkind hdecision (joinEntryList_eq p _)
        (placeIn_append_self (l := []) List.not_mem_nil)
    exact ⟨t, hexec, hrace, hseat, hfit, hcar, hanswered, hothers, outsideKept_of_events hevents houtside⟩
  · have hstays : joinLobby p (takeFrom p s) = joinEntryList p (takeFrom p s) := by
      refine if_neg fun h => hroom ?_
      have hcount : (s.race.entryList ++ [p]).length = 8 := h
      rw [List.length_append] at hcount
      exact Nat.succ.inj hcount
    obtain ⟨t, hexec, hrace, hevents, hseat, hfit, hcar, hanswered, hothers, houtside⟩ :=
      exec_accepted_seat (c := .enter) rfl hreset hnext hkind (hjoins hlobby hdescriptor)
        (hstays.trans (joinEntryList_eq p _)) (placeIn_append_self hnew)
    refine ⟨t, hexec, hrace, hseat, ?_, hfit, hcar, hothers, outsideKept_of_events hevents houtside⟩
    rw [show (takeFrom p s).race.state = .lobby from hlobby] at hanswered
    exact hanswered
  · have hcloses : joinLobby p (takeFrom p s) = closeLobby (joinEntryList p (takeFrom p s)) :=
      if_pos (show (s.race.entryList ++ [p]).length = 8 by rw [List.length_append, heighth]; rfl)
    have hgrid : closeLobby (joinEntryList p (takeFrom p s)) = { joinEntryList p (takeFrom p s) with
        race := { s.race with
          entryList := s.race.entryList ++ [p], state := .grid, lobbyTimer := none,
          gridTimer := startTimer s.now (s.settings.gridTime * 1000000) } } := by
      refine if_pos (show s.settings.minimumField ≤ (s.race.entryList ++ [p]).length from ?_)
      rw [List.length_append, heighth]
      exact hminimum
    rw [joinEntryList_eq] at hgrid
    obtain ⟨t, hexec, hrace, hevents, hseat, hfit, hcar, hanswered, hothers, houtside⟩ :=
      exec_accepted_seat (c := .enter) rfl hreset hnext hkind (hjoins hlobby hdescriptor)
        ((hcloses.trans (congrArg closeLobby (joinEntryList_eq p _))).trans hgrid) (placeIn_append_self hnew)
    rw [heighth] at hanswered
    exact ⟨t, hexec, hrace, hseat, hfit, hcar, hanswered, hothers, outsideKept_of_events hevents houtside⟩
  · refine exec_refused hreset hnext rfl hkind ((decideEnter_lobby (s := takeFrom p s) hpresent hlength hlobby).trans ?_)
    refine (if_neg (not_not.2 hlinked)).trans ((if_neg ?_).trans ((if_pos hother).trans ?_))
    · exact fun h => Bool.false_ne_true (h.symm.trans hrange)
    · rw [refuseWith, raceReply_takeFrom, raceReply_eq hlinked rfl hlobby]
      rfl

/-! ## READY (R47, R49) -/

theorem closesGrid_engine {s t : State} (e f : ServiceEngine) (n : Nat) (h : ClosesGrid { s with engine := e } t) :
    ClosesGrid s { t with engine := f, freeDraws := n } := h

/-- Settles O31. -/
theorem readyNeedsATrackingFit : Obligations.ReadyNeedsATrackingFit := by
  intro s p q hreset hnext hkind hempty hgrid hentered
  have hpresent : (s.seat p).state ≠ .vacant := by rw [hentered]; nofun
  have hdecided := (decideReady_empty (s := takeFrom p s) hpresent hempty).trans (if_pos ⟨hgrid, hentered⟩)
  have hseats (r : PortId) (x : Seat) (hr : r ≠ p) : ((takeFrom p s).setSeat p x).seat r = s.seat r :=
    State.seat_setSeat_ne (takeFrom p s) x hr
  refine ⟨fun htracking ⟨r, hlisted, hne, hwaits⟩ => ?_, fun htracking hnonempty hnodup hall => ?_, fun htracking => ?_⟩
  · have hopen : acceptReady p (takeFrom p s) = { ((takeFrom p s).setSeat p
        { s.seat p with state := .ready, silenceTimer := startTimer s.now (s.settings.stallLimit * 1000) }).setCar p
          (s.car p) with race := s.race, events := s.events } := by
      refine (if_neg fun h => hwaits ?_).trans ?_
      · have hready := beq_iff_eq.1 (List.all_eq_true.1 h.2 r hlisted)
        rwa [hseats r _ hne] at hready
      · exact (State.setCar_car ((takeFrom p s).setSeat p _) p).symm
    obtain ⟨t, hexec, hrace, hevents, hseat, hfit, hcar, hanswered, hothers, houtside⟩ :=
      exec_accepted_seat (c := .ready) rfl hreset hnext hkind (hdecided.trans (if_pos htracking)) hopen rfl
    refine ⟨t, hexec, hseat, hfit, hcar, ?_, hothers, ?_⟩
    · rw [hgrid] at hanswered
      exact hanswered
    · have hsame := outsideKept_of_events hevents houtside
      rw [← hrace] at hsame
      exact hsame
  · have hcloses : acceptReady p (takeFrom p s) = closeGrid ((takeFrom p s).setSeat p
        { s.seat p with state := .ready, silenceTimer := startTimer s.now (s.settings.stallLimit * 1000) }) := by
      refine if_pos ⟨hnonempty, List.all_eq_true.2 fun r hlisted => beq_iff_eq.2 ?_⟩
      by_cases hr : r = p
      · rw [hr]
        exact congrArg Seat.state (State.seat_setSeat_self (takeFrom p s) p _)
      · rw [hseats r _ hr]
        exact hall r hlisted hr
    have hdecision := hdecided.trans ((if_pos htracking).trans (congrArg (acceptWith .ready p) hcloses))
    obtain ⟨hexec, hanswered⟩ := exec_accepted (c := .ready) rfl hreset hnext hkind hdecision
      ((outerKept_setSeat (takeFrom p s) p _).trans (outerKept_closeGrid _))
    exact ⟨_, hexec, closesGrid_engine _ _ _ (closesGrid_closeGrid ((takeFrom p s).setSeat p _) hnodup), hanswered⟩
  · refine exec_refused hreset hnext rfl hkind ((hdecided.trans (if_neg htracking)).trans ?_)
    rw [refuseWith, raceReply_takeFrom, raceReply_eq hentered rfl hgrid]
    rfl

/-! ## WITHDRAW from the entry list (R44, R45) -/

/-- A LINKED seat off the entry list stays so through the consequences of a departure. -/
theorem departed_linked {s t : State} {p : PortId} (h : Departed s t) (hlinked : (s.seat p).state = .linked)
    (hunlisted : p ∉ s.race.entryList) : (t.seat p).state = .linked ∧ p ∉ t.race.entryList := by
  obtain ⟨hidle, hvoid, hcloses, hkept⟩ := h
  have hstays (hsame : KeptButEngine s t) : (t.seat p).state = .linked ∧ p ∉ t.race.entryList := by
    have hseats : t.seats = s.seats := congrArg (·.seats) hsame
    have hrace : t.race = s.race := congrArg (·.race) hsame
    rw [hrace]
    exact ⟨(congrArg (fun l : Vector Seat 8 => l[p].state) hseats).trans hlinked, hunlisted⟩
  by_cases hlobby : s.race.state = .lobby
  · by_cases hempty : s.race.entryList = []
    · obtain ⟨hrace, -, -, -, -, -, -, -, -, -, hseat, -⟩ := hidle hlobby hempty
      obtain ⟨hstate, -⟩ := hseat p
      rw [if_neg fun hheld => hheld.2 hlinked] at hstate
      rw [hrace]
      exact ⟨hstate.trans hlinked, List.not_mem_nil⟩
    · exact hstays (hkept (.inr (.inl ⟨hlobby, hempty⟩)))
  by_cases hgrid : s.race.state = .grid
  · by_cases hempty : s.race.entryList = []
    · obtain ⟨hrace, hseat, -⟩ := hvoid hgrid hempty
      rw [hrace, hseat p]
      exact ⟨hlinked, hunlisted⟩
    · by_cases hall : ∀ r ∈ s.race.entryList, (s.seat r).state = .ready
      · obtain ⟨-, -, hseat, -, hfew, henough, -⟩ := hcloses hgrid hempty hall
        refine ⟨(congrArg Seat.state (hseat p hunlisted (by rw [hlinked]; nofun))).trans hlinked, ?_⟩
        rcases Nat.lt_or_ge (s.race.entryList.filter fun r => (s.seat r).state == .ready).length s.settings.minimumField
          with hless | hmore
        · rw [(hfew hless).1]
          exact fun hmem => hunlisted (List.mem_of_mem_filter hmem)
        · rw [(henough hmore).1]
          exact List.not_mem_nil
      · push Not at hall
        exact hstays (hkept (.inr (.inr ⟨hgrid, hall⟩)))
  · exact hstays (hkept (.inl ⟨hlobby, hgrid⟩))

theorem withdrawEntrant_eq (p : PortId) (s : State) : withdrawEntrant p s = departure
    { (s.setSeat p { s.seat p with state := .linked, silenceTimer := none }).setCar p CarRecord.empty with
      race := { s.race with entryList := s.race.entryList.filter (· != p) } } := rfl

/-- Settles O32. -/
theorem withdrawFromTheEntryList : Obligations.WithdrawFromTheEntryList := by
  intro s p q hreset hnext hkind hempty hentrant hrace hnodup left
  have hpresent : (s.seat p).state ≠ .vacant := by rcases hentrant with h | h <;> rw [h] <;> nofun
  have hdecision := (decideWithdraw_empty (s := takeFrom p s) hpresent hempty).trans
    ((if_pos hrace).trans ((if_pos hentrant).trans (congrArg (acceptWith .withdraw p) (withdrawEntrant_eq p _))))
  obtain ⟨hexec, hanswered⟩ := exec_accepted (c := .withdraw) rfl hreset hnext hkind hdecision
    (outerKept_withdrawEntrant p (takeFrom p s))
  have hdeparted := departed_departure { left with engine := (takeFrom p s).engine } (hnodup.filter _)
  obtain ⟨hlinked, hunlisted⟩ := departed_linked (p := p) hdeparted
    (congrArg Seat.state (State.seat_setSeat_self (s.emptied p) p _)) (fun hmem => by simpa using (List.mem_filter.1 hmem).2)
  refine ⟨_, hexec, departed_engine s.engine _ (s.freeDraws + 1) hdeparted, ?_⟩
  have hreply := raceReply_eq hlinked (placeIn_notMem hunlisted) rfl
  exact hreply ▸ hanswered

end Sys2Proof.Machine
end

section
/-! O33: WITHDRAW from the field, during the race and in RESULTS. -/

namespace Sys2Proof.Machine

/-! ## During the race (R54, R56, R60) -/

/-- The seat as a withdrawal leaves it in the race. -/
def State.withdrawn (s : State) (p : PortId) : Seat :=
  { s.seat p with
    state := .retired, stallPhase := none, recoveryRun := none, frozenProgress := none
    retireReason := some .withdrawn, retireProgress := some (s.withdrawProgress p), retireTime := some (s.raceTime s.now)
    silenceTimer := none, dropTimer := none }

theorem withdrawProgress_eq (s : State) (p : PortId) : s.withdrawProgress p =
    match (s.seat p).state, (s.seat p).frozenProgress, s.lastProjected (carOf p), (s.car p).latest with
      | .stalled, some f, _, _ => f
      | .stalled, none, _, _ => -(s.lapLength : Int)
      | _, _, some r, _ => r
      | _, _, none, some cs => cs.progress
      | _, _, none, none => -(s.lapLength : Int) := by
  by_cases h : (s.seat p).state = .stalled
  · rw [State.withdrawProgress, if_pos h, h]
    cases (s.seat p).frozenProgress <;> rfl
  · rw [State.withdrawProgress, if_neg h]
    generalize (s.seat p).state = x at h
    cases x
    case stalled => exact absurd rfl h
    all_goals
      cases s.lastProjected (carOf p)
      · cases (s.car p).latest <;> rfl
      · rfl

theorem retireSeat_withdrawn (p : PortId) (s : State) : retireSeat p .withdrawn (s.withdrawProgress p) s =
    retirementNotice { s.setSeat p (s.withdrawn p) with
      events := s.events.append (.retire p (some (s.raceTime s.now)) .withdrawn) } := rfl

/-! ## In RESULTS (R60) -/

/-- The seat as a withdrawal leaves it in RESULTS. -/
def State.freed (s : State) (p : PortId) : Seat :=
  { s.seat p with
    state := .linked, stallPhase := none, recoveryRun := none, gridProgress := none, frozenProgress := none
    retireReason := none, retireProgress := none, retireTime := none, silenceTimer := none, dropTimer := none
    jumped := false, penalty := 0 }

/-- The seat freed is no longer counted, and the others are as they were (R58). -/
theorem counted_freed (s : State) (p r : PortId) (x : Seat) (hx : x.state = .linked) :
    (s.setSeat p x).counted r = if r = p then false else s.counted r := by
  unfold State.counted
  rw [State.seat_setSeat]
  split
  · rw [hx]
    exact Bool.and_false _
  · rfl

/-- Settles O33. -/
theorem withdrawFromTheField : Obligations.WithdrawFromTheField := by
  intro s p q hreset hnext hkind hempty reply retired freed
  have hretired : retired = (takeFrom p s).withdrawn p := by
    rw [State.withdrawn, withdrawProgress_eq]
    rfl
  have hrace (hlive : s.race.state.live = true) (hstate : (s.seat p).state = .running ∨ (s.seat p).state = .stalled) :
      decideWithdraw p q (takeFrom p s) = acceptWith .withdraw p (retirementNotice
        { (takeFrom p s).setSeat p retired with
          events := s.events.append (.retire p (some (s.raceTime s.now)) .withdrawn) }) := by
    rw [hretired]
    have hpresent : (s.seat p).state ≠ .vacant := by rcases hstate with h | h <;> rw [h] <;> nofun
    refine (decideWithdraw_empty (s := takeFrom p s) hpresent hempty).trans ((if_neg ?_).trans
      ((if_pos hlive).trans (if_pos hstate)))
    rintro (h | h) <;> rw [show s.race.state = _ from h] at hlive <;> cases hlive
  have hresults (hstate : s.race.state = .results) (hfield : (s.seat p).state.inField = true) :
      decideWithdraw p q (takeFrom p s) = acceptWith .withdraw p (withdrawInResults p (takeFrom p s)) := by
    have hpresent : (s.seat p).state ≠ .vacant := fun h => by rw [h] at hfield; cases hfield
    refine (decideWithdraw_empty (s := takeFrom p s) hpresent hempty).trans ((if_neg ?_).trans
      ((if_neg ?_).trans (if_pos ⟨hstate, hfield⟩)))
    · rw [takeFrom_race, hstate]
      rintro (h | h) <;> cases h
    · rw [takeFrom_race, hstate]
      nofun
  refine ⟨fun hlive hstate => ?_, fun hlive hstate ⟨r, hne, hlisted, hrunning⟩ => ?_,
    fun hstate hfield ⟨r, hne, hcounted, hup, hmark⟩ => ?_, fun hstate hfield hall => ?_⟩
  · intro left
    have hkept := outerKept_retireSeat p .withdrawn ((takeFrom p s).withdrawProgress p) (takeFrom p s)
    rw [retireSeat_withdrawn, ← hretired] at hkept
    obtain ⟨hexec, hanswered⟩ := exec_accepted (c := .withdraw) rfl hreset hnext hkind (hrace hlive hstate)
      hkept
    have htold := retirementTold_notice { left with engine := (takeFrom p s).engine }
    exact ⟨_, hexec, retirementTold_engine s.engine _ (s.freeDraws + 1) htold, hanswered⟩
  · have hgoes : retirementNotice { (takeFrom p s).setSeat p retired with
          events := s.events.append (.retire p (some (s.raceTime s.now)) .withdrawn) } =
        { ((takeFrom p s).setSeat p retired).setCar p (s.car p) with
          race := s.race, events := s.events.append (.retire p (some (s.raceTime s.now)) .withdrawn) } := by
      refine (retirementNotice_goesOn (s := { (takeFrom p s).setSeat p retired with
        events := s.events.append (.retire p (some (s.raceTime s.now)) .withdrawn) }) (r := r) hlisted ?_).trans ?_
      · exact (congrArg Seat.state (State.seat_setSeat_ne (takeFrom p s) retired hne)).trans hrunning
      · rw [show s.car p = ((takeFrom p s).setSeat p retired).car p from rfl, State.setCar_car]
        rfl
    obtain ⟨t, hexec, hrace', hevents, hseat, hfit, hcar, hanswered, hothers, houtside⟩ :=
      exec_accepted_seat (c := .withdraw) rfl hreset hnext hkind (hrace hlive hstate) hgoes rfl
    refine ⟨t, hexec, hseat, hevents, hfit, hcar, hanswered, hothers, ?_⟩
    rw [← hrace'] at houtside
    exact houtside
  · have hfreed : withdrawInResults p (takeFrom p s) =
        { ((takeFrom p s).setSeat p freed).setCar p CarRecord.empty with race := s.race, events := s.events } := by
      refine checkRelease_waits (Bool.eq_false_iff.2 fun hall => hmark ?_)
      refine (allSeen_iff _).1 hall r ?_ ?_
      · exact (counted_freed (takeFrom p s) p r freed rfl).trans ((if_neg hne).trans hcounted)
      · exact (congrArg (·.link == .up) (takeFrom_port_ne s hne)).trans hup
    obtain ⟨t, hexec, hrace', hevents, hseat, hfit, hcar, hanswered, hothers, houtside⟩ :=
      exec_accepted_seat (c := .withdraw) rfl hreset hnext hkind (hresults hstate hfield) hfreed rfl
    refine ⟨t, hexec, hseat, hcar, hfit, hanswered, hothers, ?_⟩
    have hsame := outsideKept_of_events hevents houtside
    rw [← hrace'] at hsame
    exact hsame
  · have hreleased : withdrawInResults p (takeFrom p s) =
        enterIdle (((takeFrom p s).setSeat p freed).setCar p CarRecord.empty) := by
      refine if_pos ⟨hstate, (allSeen_iff _).2 fun r hcounted hup => ?_⟩
      have hcount := counted_freed (takeFrom p s) p r freed rfl
      by_cases hr : r = p
      · rw [if_pos hr] at hcount
        exact absurd (hcounted.symm.trans hcount) nofun
      · rw [if_neg hr] at hcount
        exact hall r hr (hcount.symm.trans hcounted) ((congrArg (·.link == .up) (takeFrom_port_ne s hr)).symm.trans hup)
    have hdecision := (hresults hstate hfield).trans (congrArg (acceptWith .withdraw p) hreleased)
    obtain ⟨hexec, hanswered⟩ := exec_accepted (c := .withdraw) rfl hreset hnext hkind hdecision
      (((outerKept_setSeat (takeFrom p s) p _).trans (outerKept_setCar _ p _)).trans (outerKept_enterIdle _))
    have hidle := entersIdle_enterIdle (((takeFrom p s).setSeat p freed).setCar p CarRecord.empty)
    obtain ⟨hrace', -, -, -, -, -, -, -, -, -, hseats, -⟩ := id hidle
    obtain ⟨hstate', -⟩ := hseats p
    have hlinked : (((takeFrom p s).setSeat p freed).setCar p CarRecord.empty |>.seat p).state = .linked :=
      congrArg Seat.state (State.seat_setSeat_self (takeFrom p s) p freed)
    rw [if_neg fun hheld => hheld.2 hlinked] at hstate'
    have hreply := raceReply_eq (p := p) (hstate'.trans hlinked) (placeIn_notMem (by rw [hrace']; exact List.not_mem_nil))
      (congrArg Race.state hrace')
    exact ⟨_, hexec, hidle, hreply ▸ hanswered⟩

end Sys2Proof.Machine
end

section
/-! O41: the path of a REPORT to the clock fit. -/

namespace Sys2Proof.Machine

/-! ## The fit's discards (R68, R69) -/

section
variable {f : Fit} {a : Anchor} {frame : FrameCount} {observed now : HubTime}

theorem take_anchored (hphase : f.phase ≠ .fitNone) (hanchor : f.anchor = some a) : f.take frame observed now =
    if (frame - a.frame).toNat = 0 then { fit := f, kind := .duplicate, fitted := none }
    else if (frame - a.frame).toNat ≤ 16 then f.normal a frame (frame - a.frame).toNat observed now
    else if (frame - a.frame).toNat ≤ 32767 then f.resync frame observed now
    else { fit := f, kind := .outOfOrder, fitted := none } := by
  unfold Fit.take
  rw [hanchor]
  cases h : f.phase
  case fitNone => exact absurd h hphase
  all_goals rfl

theorem take_duplicate (hphase : f.phase ≠ .fitNone) (hanchor : f.anchor = some a) (h : frame = a.frame) :
    f.take frame observed now = { fit := f, kind := .duplicate, fitted := none } :=
  (take_anchored hphase hanchor).trans (if_pos (by rw [h, BitVec.sub_self]; rfl))

theorem take_outOfOrder (hphase : f.phase ≠ .fitNone) (hanchor : f.anchor = some a) (h : 32768 ≤ (frame - a.frame).toNat) :
    f.take frame observed now = { fit := f, kind := .outOfOrder, fitted := none } := by
  rw [take_anchored hphase hanchor, if_neg (by omega), if_neg (by omega), if_neg (by omega)]

end

/-- R92: a class that is not discarded raises the resync counter or none. -/
theorem countClass_of_taken {x : Seat} {kind : FitClass} (hduplicate : kind ≠ .duplicate) (horder : kind ≠ .outOfOrder) :
    x.countClass kind = { x with resyncs := if kind = .resync then min 255 (x.resyncs + 1) else x.resyncs } := by
  cases kind
  case duplicate => exact absurd rfl hduplicate
  case outOfOrder => exact absurd rfl horder
  all_goals rfl

/-! ## The arrival (R19, R66, R84) -/

section
variable {p : PortId} {m : Inbound} {s : State}

/-- The state as a REPORT leaves the staging of its frame. -/
def State.unstaged (s : State) (p : PortId) : State := s.setPort p { s.port p with handed := none }

theorem unstaged_port : (s.unstaged p).port p = { s.port p with handed := none } := State.port_setPort_self s p _

theorem exec_report_unless_up (hreset : s.resetHeld = false) (hlink : (s.port p).link ≠ .up) :
    exec (.report p m) s = .next (s.unstaged p) := by
  rw [exec_running _ hreset]
  cases h : (s.port p).link
  case up => exact absurd h hlink
  all_goals
    simp only [effect, reportArrives, State.port_setPort_self, h]
    rw [← h]
    rfl

theorem exec_report_vacant (hreset : s.resetHeld = false) (hlink : (s.port p).link = .up)
    (hvacant : (s.seat p).state = .vacant) : exec (.report p m) s = .next (s.unstaged p) := by
  rw [exec_running _ hreset]
  simp only [effect, reportArrives, State.port_setPort_self, hlink, State.seat_setPort, hvacant]
  rw [← hlink]
  rfl

theorem exec_report_up (hreset : s.resetHeld = false) (hlink : (s.port p).link = .up) {c : Cabinet}
    (hcabinet : (s.seat p).cabinet = some c) (hlinked : (s.seat p).state ≠ .vacant) : exec (.report p m) s = .next
      (if m.payload.length = c.form.length then reportPath p c.form m (s.unstaged p)
      else (s.unstaged p).setPort p ((s.unstaged p).port p).countError) := by
  rw [exec_running _ hreset]
  cases h : (s.seat p).state
  case vacant => exact absurd h hlinked
  all_goals
    simp only [effect, reportArrives, State.port_setPort_self, hlink, State.seat_setPort, h, hcabinet, State.unstaged]

/-- The observation time of a REPORT (R66). -/
def State.observed (s : State) (p : PortId) (m : Inbound) : HubTime := m.stamp - BitVec.ofNat 32 (s.port p).delay

/-- What the fit makes of a REPORT (R66 to R79). -/
def State.fitResult (s : State) (p : PortId) (m : Inbound) : FitResult :=
  (s.fit p).take (readReport m).frame (s.observed p m) s.now

/-- The state with the fit's record written and the class counted (R85, step 1). -/
def State.fitted (s : State) (p : PortId) (r : FitResult) : State := (s.setFit p r.fit).setSeat p ((s.seat p).countClass r.kind)

theorem reportPath_eq (form : ReportForm) : reportPath p form m s = match (s.fitResult p m).fitted with
    | none => s.fitted p (s.fitResult p m)
    | some time => captureRoundSeen p (readReport m).roundSeen
        (carFields p form (readReport m) (s.fitResult p m).kind time (s.fitted p (s.fitResult p m))) := rfl

theorem fitResult_unstaged : (s.unstaged p).fitResult p m = s.fitResult p m := by
  rw [State.fitResult, State.observed, unstaged_port]
  rfl

theorem fitted_discarded {kind : FitClass} :
    s.fitted p { fit := s.fit p, kind := kind, fitted := none } = s.setSeat p ((s.seat p).countClass kind) :=
  congrArg (fun t : State => t.setSeat p ((s.seat p).countClass kind)) (State.setFit_fit s p)

theorem captureRoundSeen_outside {seen : RoundNo} (h : s.race.state ≠ .results ∨ (s.seat p).state.inField = false) :
    captureRoundSeen p seen s = s := by
  refine if_neg ?_
  rintro ⟨hresults, hfield⟩
  rcases h with h | h
  · exact h hresults
  · exact Bool.false_ne_true (h.symm.trans hfield)

theorem carFields_linked {form : ReportForm} {r : ReportFields} {kind : FitClass} {time : HubTime}
    (h : (s.seat p).state = .linked) : carFields p form r kind time s = s := by
  simp only [carFields, h]

theorem fitted_seat {r : FitResult} : (s.fitted p r).seat p = (s.seat p).countClass r.kind :=
  State.seat_setSeat_self (s.setFit p r.fit) p _

/-- R84: a LINKED seat's report changes its fit and the fit's counters alone. -/
theorem reportPath_linked {form : ReportForm} (h : (s.seat p).state = .linked) :
    reportPath p form m s = s.fitted p (s.fitResult p m) := by
  have hstate : ((s.fitted p (s.fitResult p m)).seat p).state = .linked := by rw [fitted_seat, countClass_state, h]
  rw [reportPath_eq]
  split
  · rfl
  · rw [carFields_linked hstate, captureRoundSeen_outside (.inr (by rw [hstate]; rfl))]

end

/-- Settles O41. -/
theorem reportReachesTheFitFirst : Obligations.ReportReachesTheFitFirst := by
  intro p m s hreset hlink frame observed r
  have hresult : (s.unstaged p).fitResult p m = r := fitResult_unstaged
  refine ⟨fun hvacant => exec_report_vacant hreset hlink hvacant, fun c hcabinet hpresent => ?_⟩
  have hexec := exec_report_up (m := m) hreset hlink hcabinet hpresent
  have hform : c.form.length = match c.form with | .full => 10 | .short => 8 := by cases c.form <;> rfl
  refine ⟨fun hlength => ?_, fun hlength => ⟨fun a hphase hanchor hsame => ?_, fun a hphase hanchor hbehind => ?_,
    fun hlinked hduplicate horder => ?_⟩⟩
  · have hbad : m.payload.length ≠ c.form.length := by rw [hform]; exact hlength
    rw [hexec, if_neg hbad, unstaged_port]
    exact congrArg Host.Outcome.next (State.setPort_setPort s p _ _)
  all_goals
    have hgood : m.payload.length = c.form.length := by rw [hform]; exact hlength
    rw [hexec, if_pos hgood]
  · have hr : r = { fit := s.fit p, kind := .duplicate, fitted := none } := take_duplicate hphase hanchor hsame
    rw [reportPath_eq, hresult, hr]
    exact congrArg Host.Outcome.next (fitted_discarded (s := s.unstaged p))
  · have hr : r = { fit := s.fit p, kind := .outOfOrder, fitted := none } := take_outOfOrder hphase hanchor hbehind
    rw [reportPath_eq, hresult, hr]
    exact congrArg Host.Outcome.next (fitted_discarded (s := s.unstaged p))
  · rw [reportPath_linked (s := s.unstaged p) hlinked, hresult, State.fitted, countClass_of_taken hduplicate horder]
    rfl

end Sys2Proof.Machine
end

section
/-! O43: a car-accepted REPORT, through the steps of R85. -/

namespace Sys2Proof.Machine

/-! ## Plausibility and the new car state (R86 to R91) -/

theorem plausible_iff {n : Nat} {field : Bool} {latest : Option CarState} {lap : Lap} :
    plausible n field latest lap = true ↔
      lap.number ≤ n ∧ (field = true →
        ∀ before, latest = some before → (lap.number - before.lap.number).natAbs ≤ 1) := by
  have hrange : lapInRange n lap = true ↔ lap.number ≤ n := by
    cases lap with
    | preLine => simp [lapInRange, Lap.number]
    | count k => simp [lapInRange, Lap.number]
  have hcontinuous : lapContinuous latest lap = true ↔
      ∀ before, latest = some before → (lap.number - before.lap.number).natAbs ≤ 1 := by
    cases latest with
    | none => simp [lapContinuous]
    | some before =>
      simp only [lapContinuous, Bool.and_eq_true, decide_eq_true_eq, Option.some.injEq, forall_eq']
      omega
  cases field <;> simp [plausible, hrange, hcontinuous]

/-! ## The steps at one seat (R85) -/

section
variable {p : PortId} {s : State}

/-- R95, R96: a field seat whose grid progress is missing takes it, and is judged by it otherwise; a progress just taken is never
beyond itself. -/
theorem judgeJump_setSeat {x : Seat} (cs : CarState) (hlive : s.race.state.live = true) (hfield : x.state.inField = true) :
    judgeJump p cs (s.setSeat p x) =
      if x.state = .running ∧ s.raceTime cs.time < 0 ∧ x.jumped = false ∧
          x.gridProgress.getD cs.progress + s.settings.jumpTolerance < cs.progress then
        { s.setSeat p { x with
            gridProgress := some (x.gridProgress.getD cs.progress), jumped := true
            penalty := s.settings.jumpPenalty * 1000 } with
          events := s.events.append (.jump p (s.raceTime cs.time)) }
      else s.setSeat p { x with gridProgress := some (x.gridProgress.getD cs.progress) } := by
  have hguard : ((s.setSeat p x).race.state.live && x.state.inField) = true := by
    rw [hfield, Bool.and_true]
    exact hlive
  unfold judgeJump
  simp only [State.seat_setSeat_self, hguard, if_true]
  cases hgrid : x.gridProgress with
  | none =>
    rw [if_neg (by rintro ⟨-, -, -, h⟩; simp only [Option.getD_none] at h; omega)]
    exact State.setSeat_setSeat s p x _
  | some grid =>
    have hsame : { x with gridProgress := some grid } = x := by rw [← hgrid]
    simp only [Option.getD_some, hsame]
    by_cases hearly : x.state = .running ∧ s.raceTime cs.time < 0 ∧ x.jumped = false ∧
        grid + s.settings.jumpTolerance < cs.progress
    · obtain ⟨hrunning, hbefore, hfirst, hbeyond⟩ := hearly
      refine (if_pos ⟨hrunning, hbefore, hbeyond, hfirst⟩).trans
        (Eq.trans ?_ (if_pos ⟨hrunning, hbefore, hfirst, hbeyond⟩).symm)
      rw [State.setSeat_setSeat, ← hgrid]
      rfl
    · exact (if_neg fun ⟨hrunning, hbefore, hbeyond, hfirst⟩ => hearly ⟨hrunning, hbefore, hfirst, hbeyond⟩).trans
        (if_neg hearly).symm

theorem judgeJump_outside (cs : CarState) (hfield : (s.seat p).state.inField = false) : judgeJump p cs s = s := by
  refine if_neg ?_
  rw [hfield, Bool.and_false]
  exact Bool.false_ne_true

theorem handToLapTiming_outside (latest : Option CarState) (cs : CarState)
    (h : (s.seat p).state ≠ .running ∧ (s.seat p).state ≠ .stalled) : handToLapTiming p latest cs s = s :=
  if_neg fun hon => hon.2.elim h.1 h.2

/-! ## The crossings of one report (R97, R120) -/

variable {latest : Option CarState} {cs : CarState} {high : Lap} {d : Descriptor} {seen : RoundNo}

theorem neg_one_le_number (lap : Lap) : -1 ≤ lap.number := by
  cases lap with
  | preLine => exact le_rfl
  | count k => simp only [Lap.number]; omega

/-- A crossing of the lap timing unit, as one report of seat `p` brings it. -/
def reportCrossing (p : PortId) (lapLength : Nat) (latest : Option CarState) (cs : CarState) (stalled : Bool) (k : Nat)
    (s : State) : State :=
  recordCrossing (carOf p) k (crossingTime lapLength k latest cs).1 (crossingTime lapLength k latest cs).2 stalled true s

theorem handToLapTiming_eq (hlive : s.race.state.live = true)
    (hon : (s.seat p).state = .running ∨ (s.seat p).state = .stalled)
    (hhigh : (s.lapRecord (carOf p)).highWater = some high) : handToLapTiming p latest cs s =
      recordCrossings (carOf p) latest cs ((s.seat p).state == .stalled) (cs.lap.number - high.number).toNat
        (high.number + 1).toNat s := by
  refine (if_pos ⟨hlive, hon⟩).trans ?_
  rw [takeCarReport, hhigh]
  rfl

/-- R120: a new lap not above the high-water brings no crossing. -/
theorem handToLapTiming_none (hlive : s.race.state.live = true)
    (hon : (s.seat p).state = .running ∨ (s.seat p).state = .stalled)
    (hhigh : (s.lapRecord (carOf p)).highWater = some high) (hle : cs.lap.number ≤ high.number) :
    handToLapTiming p latest cs s = s := by
  rw [handToLapTiming_eq hlive hon hhigh, Int.toNat_of_nonpos (by omega)]
  rfl

/-- R120: a new lap `n` above the high-water brings `n` crossings in rising order. -/
theorem handToLapTiming_run (hlive : s.race.state.live = true)
    (hon : (s.seat p).state = .running ∨ (s.seat p).state = .stalled)
    (hhigh : (s.lapRecord (carOf p)).highWater = some high) (hd : s.race.descriptor = some d)
    (hrange : cs.lap.number ≤ d.lapCount) {n : Nat} (hn : cs.lap.number = high.number + n) :
    handToLapTiming p latest cs s = (List.range n).foldl (fun u (i : Nat) =>
      reportCrossing p d.lapLength latest cs ((s.seat p).state == .stalled) (high.number + 1 + (i : Int)).toNat u) s := by
  have hnonneg := neg_one_le_number high
  have hcount : s.lapCount = d.lapCount := by rw [State.lapCount, hd]
  have hlength : s.lapLength = d.lapLength := by rw [State.lapLength, hd]
  rw [handToLapTiming_eq hlive hon hhigh, show (cs.lap.number - high.number).toNat = n by omega,
    recordCrossings_eq _ _ _ _ _ _ _ (by rw [hcount]; omega), hlength]
  refine congrArg (fun f : State → Nat → State => (List.range n).foldl f s) (funext fun u => funext fun i => ?_)
  rw [show (high.number + 1).toNat + i = (high.number + 1 + (i : Int)).toNat by omega]
  rfl

/-- R120: a new lap next above the high-water brings one crossing. -/
theorem handToLapTiming_one (hlive : s.race.state.live = true)
    (hon : (s.seat p).state = .running ∨ (s.seat p).state = .stalled)
    (hhigh : (s.lapRecord (carOf p)).highWater = some high) (hd : s.race.descriptor = some d)
    (hrange : cs.lap.number ≤ d.lapCount) {k : Nat} (hlap : cs.lap = .count k) (hk : (k : Int) = high.number + 1) :
    handToLapTiming p latest cs s = reportCrossing p d.lapLength latest cs ((s.seat p).state == .stalled) k s := by
  have hnumber : cs.lap.number = k := congrArg Lap.number hlap
  rw [handToLapTiming_run hlive hon hhigh hd hrange (n := 1) (by omega)]
  show reportCrossing p d.lapLength latest cs _ (high.number + 1 + ((0 : Nat) : Int)).toNat s = _
  rw [show (high.number + 1 + ((0 : Nat) : Int)).toNat = k by omega]

/-- R55, R56: a finish after which some car still runs leaves the race out of RESULTS. -/
theorem finishCar_state_ne_results {crossing : HubTime} {unverified : Bool} (hlive : s.race.state.live = true)
    (hgo : s.race.state = .countdown ∨ ∃ r : PortId, r ≠ p ∧ carOf r ∈ s.race.fieldList ∧ (s.seat r).state = .running) :
    (finishCar (carOf p) crossing unverified true s).race.state ≠ .results := by
  have hstands : s.race.state ≠ .results := fun h => by rw [h] at hlive; cases hlive
  have hfinish : ∃ r : PortId, s.race.state ≠ .countdown →
      r ≠ p ∧ carOf r ∈ s.race.fieldList ∧ (s.seat r).state = .running := by
    rcases hgo with hcountdown | ⟨r, hr⟩
    · exact ⟨p, fun h => absurd hcountdown h⟩
    · exact ⟨r, fun _ => hr⟩
  obtain ⟨r, hr⟩ := hfinish
  rw [finishCar_goesOn hlive hr crossing unverified]
  show (if s.race.state = .racing then _ else s.race : Race).state ≠ .results
  split
  · nofun
  · exact hstands

/-- R55, R56: a crossing after which some car still runs leaves the race out of RESULTS. -/
theorem recordCrossing_state_ne_results {k : Nat} {crossing : HubTime} {resolved stalled : Bool}
    (hlive : s.race.state.live = true) (hgo : k = s.lapCount → s.race.state = .countdown ∨
      ∃ r : PortId, r ≠ p ∧ carOf r ∈ s.race.fieldList ∧ (s.seat r).state = .running) :
    (recordCrossing (carOf p) k crossing resolved stalled true s).race.state ≠ .results := by
  by_cases hmid : k = 0 ∨ k ≠ s.lapCount
  · rw [recordCrossing_race _ _ _ _ _ _ hmid]
    exact fun h => by rw [h] at hlive; cases hlive
  · rw [not_or, not_not] at hmid
    rw [recordCrossing_eq (carOf p) k crossing resolved stalled true s hmid.1, if_pos hmid.2]
    exact finishCar_state_ne_results hlive (hgo hmid.2)

/-! ## The report from step 5 on -/

/-- R94, R97: a report in the race that brings no crossing ends with the seat table; one that brings one crossing, after which
the race goes on, ends with it; and one that brings more ends with the round it has seen. -/
theorem captureRoundSeen_handToLapTiming {stalled : Bool} (hlive : s.race.state.live = true)
    (hon : (s.seat p).state = .running ∨ (s.seat p).state = .stalled) (hstalled : ((s.seat p).state == .stalled) = stalled)
    (hhigh : (s.lapRecord (carOf p)).highWater = some high) (hd : s.race.descriptor = some d)
    (hrange : cs.lap.number ≤ d.lapCount) :
    let ended := captureRoundSeen p seen (handToLapTiming p latest cs s)
    (cs.lap.number ≤ high.number → ended = s) ∧
      (∀ k : Nat, cs.lap = .count k → (k : Int) = high.number + 1 →
        (k = d.lapCount → s.race.state = .countdown ∨
          ∃ r : PortId, r ≠ p ∧ carOf r ∈ s.race.fieldList ∧ (s.seat r).state = .running) →
        ended = reportCrossing p d.lapLength latest cs stalled k s) ∧
      (∀ n : Nat, cs.lap.number = high.number + n → ended = captureRoundSeen p seen ((List.range n).foldl
        (fun u (i : Nat) => reportCrossing p d.lapLength latest cs stalled (high.number + 1 + (i : Int)).toNat u) s)) := by
  intro ended
  subst hstalled
  have hcount : s.lapCount = d.lapCount := by rw [State.lapCount, hd]
  refine ⟨fun hle => ?_, fun k hlap hk hgo => ?_, fun n hn => ?_⟩
  · refine (congrArg (captureRoundSeen p seen) (handToLapTiming_none hlive hon hhigh hle)).trans ?_
    exact captureRoundSeen_outside (.inl fun h => by rw [h] at hlive; cases hlive)
  · refine (congrArg (captureRoundSeen p seen) (handToLapTiming_one hlive hon hhigh hd hrange hlap hk)).trans ?_
    exact captureRoundSeen_outside (.inl (recordCrossing_state_ne_results hlive (by rw [hcount]; exact hgo)))
  · exact congrArg (captureRoundSeen p seen) (handToLapTiming_run hlive hon hhigh hd hrange hn)

/-- R94, R97: the same of a report that has rewritten its own seat, and perhaps appended an event, since the state `s`. -/
theorem captureRoundSeen_handToLapTiming_told {u : State} {y : Seat} {queue : EventQueue} {stalled : Bool}
    (hrace : u.race = s.race) (hlaps : u.lapRecord (carOf p) = s.lapRecord (carOf p))
    (hseats : ∀ q, q ≠ p → u.seat q = s.seat q) (hlive : s.race.state.live = true)
    (hstate : y.state = if stalled then .stalled else .running) (hhigh : (s.lapRecord (carOf p)).highWater = some high)
    (hd : s.race.descriptor = some d) (hrange : cs.lap.number ≤ d.lapCount) :
    let told : State := { u.setSeat p y with events := queue }
    let ended := captureRoundSeen p seen (handToLapTiming p latest cs told)
    (cs.lap.number ≤ high.number → ended = told) ∧
      (∀ k : Nat, cs.lap = .count k → (k : Int) = high.number + 1 →
        (k = d.lapCount → s.race.state = .countdown ∨
          ∃ q : PortId, q ≠ p ∧ carOf q ∈ s.race.fieldList ∧ (s.seat q).state = .running) →
        ended = reportCrossing p d.lapLength latest cs stalled k told) ∧
      (∀ n : Nat, cs.lap.number = high.number + n → ended = captureRoundSeen p seen ((List.range n).foldl
        (fun t (i : Nat) => reportCrossing p d.lapLength latest cs stalled (high.number + 1 + (i : Int)).toNat t) told)) := by
  intro told ended
  have hself : told.seat p = y := State.seat_setSeat_self u p y
  have hother : ∀ q, q ≠ p → told.seat q = s.seat q := fun q hne => (State.seat_setSeat_ne u y hne).trans (hseats q hne)
  have htold : told.race = s.race := hrace
  obtain ⟨hnone, hone, hrun⟩ := captureRoundSeen_handToLapTiming (p := p) (s := told) (latest := latest) (cs := cs)
    (high := high) (d := d) (seen := seen) (stalled := stalled) (by rw [htold]; exact hlive)
    (by rw [hself, hstate]; cases stalled <;> simp) (by rw [hself, hstate]; cases stalled <;> rfl)
    ((congrArg LapRecord.highWater hlaps).trans hhigh) (by rw [htold]; exact hd) hrange
  refine ⟨hnone, fun k hlap hk hgo => hone k hlap hk fun hlast => ?_, hrun⟩
  rw [htold]
  exact (hgo hlast).imp id fun ⟨q, hne, hin, hq⟩ => ⟨q, hne, hin, by rw [hother q hne]; exact hq⟩

end

/-! ## The report up to step 4 -/

section
variable {p : PortId} {s : State} {d : Descriptor} {form : ReportForm} {r : ReportFields} {kind : FitClass} {time : HubTime}

theorem carFields_eq (hvacant : (s.seat p).state ≠ .vacant) (hlinked : (s.seat p).state ≠ .linked)
    (hd : s.race.descriptor = some d) : carFields p form r kind time s = carStage p d form r kind time s := by
  unfold carFields
  rw [hd]
  cases h : (s.seat p).state
  case vacant => exact absurd h hvacant
  case linked => exact absurd h hlinked
  all_goals rfl

theorem seatTold_running (hlive : s.race.state.live = true) (h : (s.seat p).state = .running) : seatTold p kind s =
    s.setSeat p { s.seat p with silenceTimer := startTimer s.now (ofMs s.settings.stallLimit) } := by
  simp only [seatTold, h, hlive, if_true]

theorem seatTold_done (h : (s.seat p).state = .finished ∨ (s.seat p).state = .retired) : seatTold p kind s = s := by
  rcases h with h | h <;> simp only [seatTold, h]

/-- R93: before the race the silence timer of a READY seat in GRID restarts, and no other. -/
theorem seatTold_entrant (h : (s.seat p).state = .entered ∨ (s.seat p).state = .ready) : seatTold p kind s =
    s.setSeat p { s.seat p with
      silenceTimer := if (s.seat p).state = .ready ∧ s.race.state = .grid then
        startTimer s.now (ofMs s.settings.stallLimit) else (s.seat p).silenceTimer } := by
  rcases h with h | h
  · simp only [seatTold, h, reduceCtorEq, false_and, if_false]
    rw [← h]
    exact (State.setSeat_seat s p).symm
  · by_cases hgrid : s.race.state = .grid
    · simp only [seatTold, h, hgrid, and_self, if_true]
    · simp only [seatTold, h, hgrid, and_false, if_false]
      rw [← h]
      exact (State.setSeat_seat s p).symm

end

section
variable {p : PortId} {s : State} {d : Descriptor} {form : ReportForm} {r : ReportFields} {kind : FitClass} {time : HubTime}
  {latest : Option CarState} {cs : CarState}

theorem carStage_plausible (hlatest : (s.car p).latest = latest) (hcs : newCarState d form latest r time = cs)
    (h : plausible d.lapCount (s.seat p).state.inField latest r.lap = true) : carStage p d form r kind time s =
      handToLapTiming p latest cs (judgeJump p cs (seatTold p kind (s.setCar p { latest := some cs, previous := latest }))) := by
  subst hlatest hcs
  exact if_pos h

theorem carStage_implausible (hlatest : (s.car p).latest = latest)
    (h : ¬plausible d.lapCount (s.seat p).state.inField latest r.lap = true) : carStage p d form r kind time s =
      s.setSeat p { s.seat p with implausible := bump 255 (s.seat p).implausible } := by
  subst hlatest
  exact if_neg h

/-! ## Steps 3 and 4 in the race -/

/-- R93, R95, R96: a RUNNING seat's silence timer restarts and its jump start is judged. -/
theorem judgeJump_seatTold_running (hlive : s.race.state.live = true) (hrunning : (s.seat p).state = .running) :
    judgeJump p cs (seatTold p kind s) =
      if s.raceTime cs.time < 0 ∧ (s.seat p).jumped = false ∧
          (s.seat p).gridProgress.getD cs.progress + s.settings.jumpTolerance < cs.progress then
        { s.setSeat p { s.seat p with
            gridProgress := some ((s.seat p).gridProgress.getD cs.progress)
            silenceTimer := startTimer s.now (s.settings.stallLimit * 1000), jumped := true
            penalty := s.settings.jumpPenalty * 1000 } with
          events := s.events.append (.jump p (s.raceTime cs.time)) }
      else s.setSeat p { s.seat p with
        gridProgress := some ((s.seat p).gridProgress.getD cs.progress)
        silenceTimer := startTimer s.now (s.settings.stallLimit * 1000) } := by
  rw [seatTold_running hlive hrunning]
  refine (judgeJump_setSeat cs hlive (by rw [hrunning]; rfl)).trans ?_
  by_cases hearly : s.raceTime cs.time < 0 ∧ (s.seat p).jumped = false ∧
      (s.seat p).gridProgress.getD cs.progress + s.settings.jumpTolerance < cs.progress
  · exact (if_pos ⟨hrunning, hearly⟩).trans (if_pos hearly).symm
  · exact (if_neg fun h => hearly h.2).trans (if_neg hearly).symm

/-- R95, R96: a seat that is not RUNNING makes no jump start. -/
theorem judgeJump_setSeat_of_ne_running {x : Seat} (hlive : s.race.state.live = true) (hfield : x.state.inField = true)
    (hstands : x.state ≠ .running) :
    judgeJump p cs (s.setSeat p x) = s.setSeat p { x with gridProgress := some (x.gridProgress.getD cs.progress) } :=
  (judgeJump_setSeat cs hlive hfield).trans (if_neg fun h => hstands h.1)

theorem judgeJump_seatTold_done (hlive : s.race.state.live = true)
    (hdone : (s.seat p).state = .finished ∨ (s.seat p).state = .retired) :
    judgeJump p cs (seatTold p kind s) =
      s.setSeat p { s.seat p with gridProgress := some ((s.seat p).gridProgress.getD cs.progress) } := by
  have hjudged := judgeJump_setSeat_of_ne_running (p := p) (s := s) (cs := cs) (x := s.seat p) hlive
    (by rcases hdone with h | h <;> rw [h] <;> rfl) (by rcases hdone with h | h <;> rw [h] <;> decide)
  rw [State.setSeat_seat] at hjudged
  rw [seatTold_done hdone, hjudged]

/-- R95, R141: a SILENT seat begins its recovery. -/
theorem judgeJump_seatTold_silent (hlive : s.race.state.live = true) (hstalled : (s.seat p).state = .stalled)
    (hsilent : (s.seat p).stallPhase = some .silent) : judgeJump p cs (seatTold p kind s) =
      s.setSeat p { s.seat p with
        gridProgress := some ((s.seat p).gridProgress.getD cs.progress), stallPhase := some .recovering
        recoveryRun := some 0 } := by
  rw [seatTold_silent hlive hstalled hsilent]
  exact judgeJump_setSeat_of_ne_running hlive (by rw [hstalled]; rfl) (by rw [hstalled]; decide)

end

/-- R88, R90: the speed of a report, by its form. -/
theorem newCarState_speed (d : Descriptor) (form : ReportForm) (latest : Option CarState) (r : ReportFields) (time : HubTime) :
    (newCarState d form latest r time).speed = match form, latest with
      | .full, _ => max (-4096) (min 16383 r.speed)
      | .short, none => 0
      | .short, some before =>
        if diff time before.time ≤ 0 then before.speed
        else max (-4096) (min 16383 (Int.tdiv
          ((reportProgress d r.lap (min r.distance (d.lapLength - 1)) - before.progress) * 1000000)
          (diff time before.time))) := by
  cases form
  · rfl
  · cases latest <;> rfl

/-- Settles O43. -/
theorem reportBecomesTheCarState : Obligations.ReportBecomesTheCarState := by
  intro p m s hreset
  refine ⟨exec_report_unless_up hreset, ?_⟩
  intro c d time hlink hcabinet hvacant hlinked hd hlength r seen word lap distance progress latest speed cs x graded fitted
    moved plausibly silence hfitted
  obtain ⟨hduplicate, horder⟩ := take_fitted hfitted
  have hresult : (s.unstaged p).fitResult p m = r := fitResult_unstaged
  have hstarted : (s.unstaged p).fitted p r = fitted :=
    congrArg (((s.unstaged p).setFit p r.fit).setSeat p) (countClass_of_taken (x := s.seat p) hduplicate horder)
  have hseat : fitted.seat p = x := State.seat_setSeat_self ((s.unstaged p).setFit p r.fit) p x
  have hmoved : moved.seat p = x := hseat
  have hcs : newCarState d c.form latest (readReport m) time = cs := by
    have hspeed : (newCarState d c.form latest (readReport m) time).speed = speed := newCarState_speed d c.form latest _ time
    show ({ newCarState d c.form latest (readReport m) time with
      speed := (newCarState d c.form latest (readReport m) time).speed } : CarState) = cs
    rw [hspeed]
    rfl
  have hpath : exec (.report p m) s =
      .next (captureRoundSeen p seen (carStage p d c.form (readReport m) r.kind time fitted)) := by
    rw [exec_report_up hreset hlink hcabinet hvacant, if_pos hlength, reportPath_eq, hresult, hfitted, hstarted]
    have hstage := carFields_eq (p := p) (s := fitted) (form := c.form) (r := readReport m) (kind := r.kind) (time := time)
      (d := d) (by rw [hseat]; exact hvacant) (by rw [hseat]; exact hlinked) hd
    exact congrArg (fun u => Host.Outcome.next (captureRoundSeen p seen u)) hstage
  have hplausible : plausible d.lapCount (fitted.seat p).state.inField latest (readReport m).lap = true ↔ plausibly := by
    rw [hseat]
    exact plausible_iff
  have hbad : ¬plausibly → exec (.report p m) s = .next (captureRoundSeen p seen
      (fitted.setSeat p { x with implausible := min 255 (x.implausible + 1) })) := by
    intro hnot
    rw [hpath]
    rw [carStage_implausible rfl (mt hplausible.1 hnot), hseat]
    rfl
  have hgood : plausibly → exec (.report p m) s = .next (captureRoundSeen p seen
      (handToLapTiming p latest cs (judgeJump p cs (seatTold p r.kind moved)))) := by
    intro hholds
    rw [hpath, carStage_plausible (s := fitted) (latest := latest) rfl hcs (hplausible.2 hholds)]
  refine ⟨fun hnot houtside => ?_, hbad, hgood, fun hholds hentrant => ?_, fun hholds hlive => ⟨fun hdone => ?_, ?_⟩⟩
  · rw [hbad hnot]
    refine congrArg Host.Outcome.next (captureRoundSeen_outside (houtside.imp id fun h => ?_))
    rw [State.seat_setSeat_self]
    exact h
  · have htold := seatTold_entrant (p := p) (s := moved) (kind := r.kind) (by rw [hmoved]; exact hentrant)
    rw [hmoved] at htold
    have houtside : x.state.inField = false ∧ x.state ≠ .running ∧ x.state ≠ .stalled := by
      rcases hentrant with h | h <;> rw [h] <;> decide
    obtain ⟨hfield, hrunning, hstalled⟩ := houtside
    rw [hgood hholds, htold, judgeJump_outside cs (by rw [State.seat_setSeat_self]; exact hfield),
      handToLapTiming_outside latest cs (by rw [State.seat_setSeat_self]; exact ⟨hrunning, hstalled⟩),
      captureRoundSeen_outside (.inr (by rw [State.seat_setSeat_self]; exact hfield))]
    rfl
  · have hjudged := judgeJump_seatTold_done (p := p) (s := moved) (kind := r.kind) (cs := cs) hlive (by rw [hmoved]; exact hdone)
    rw [hmoved] at hjudged
    rw [hgood hholds, hjudged, handToLapTiming_outside latest cs (by
        rw [State.seat_setSeat_self]
        rcases hdone with h | h <;> exact ⟨by rw [h]; decide, by rw [h]; decide⟩),
      captureRoundSeen_outside (.inl fun h => by rw [show s.race.state = .results from h] at hlive; cases hlive)]
  · intro high hhigh crossed
    have hexec := hgood hholds
    have hseats : ∀ q, q ≠ p → moved.seat q = s.seat q := fun q hne =>
      State.seat_setSeat_ne ((s.unstaged p).setFit p r.fit) x hne
    refine ⟨fun hrunning => ?_, fun hstalled hsilent => ?_⟩
    · intro early told
      have hjudged := judgeJump_seatTold_running (p := p) (s := moved) (kind := r.kind) (cs := cs) hlive
        (by rw [hmoved]; exact hrunning)
      rw [hmoved] at hjudged
      obtain ⟨y, queue, hy, htold⟩ : ∃ (y : Seat) (queue : EventQueue), y.state = .running ∧
          told = { moved.setSeat p y with events := queue } := by
        by_cases hearly : early
        · exact ⟨{ graded with silenceTimer := silence, jumped := true, penalty := s.settings.jumpPenalty * 1000 }, _,
            hrunning, if_pos hearly⟩
        · exact ⟨{ graded with silenceTimer := silence }, s.events, hrunning, if_neg hearly⟩
      obtain ⟨hnone, hone, hrun⟩ := captureRoundSeen_handToLapTiming_told (p := p) (s := s) (u := moved) (y := y)
        (queue := queue) (latest := latest) (cs := cs) (seen := seen) (stalled := false) rfl rfl hseats hlive hy hhigh hd hholds.1
      rw [hjudged.trans htold] at hexec
      rw [htold]
      exact ⟨fun hle => hexec.trans (congrArg _ (hnone hle)),
        fun k hlap hk hgo => hexec.trans (congrArg _ (hone k hlap hk hgo)),
        fun n hn => hexec.trans (congrArg _ (hrun n hn))⟩
    · have hjudged := judgeJump_seatTold_silent (p := p) (s := moved) (kind := r.kind) (cs := cs) hlive
        (by rw [hmoved]; exact hstalled) (by rw [hmoved]; exact hsilent)
      rw [hmoved] at hjudged
      rw [hjudged] at hexec
      obtain ⟨hnone, hone, hrun⟩ := captureRoundSeen_handToLapTiming_told (p := p) (s := s) (u := moved)
        (y := { graded with stallPhase := some .recovering, recoveryRun := some 0 }) (queue := s.events)
        (latest := latest) (cs := cs) (seen := seen) (stalled := true) rfl rfl hseats hlive hstalled hhigh hd hholds.1
      exact ⟨fun hle => hexec.trans (congrArg _ (hnone hle)),
        fun k hlap hk hgo => hexec.trans (congrArg _ (hone k hlap hk fun hlast => .inr (hgo hlast))),
        fun n hn => hexec.trans (congrArg _ (hrun n hn))⟩

end Sys2Proof.Machine
end

section
/-! O51: the ranking progress of a car (R103 to R105, R159). -/

namespace Sys2Proof.Machine

section
variable {snap : Snapshot} {horizon : Nat} {x : SnapCar} {lapLength lapCount : Nat}

theorem clampProgress_mem (hlength : 1 ≤ lapLength) (hcount : 1 ≤ lapCount) (p : Int) :
    -(lapLength : Int) ≤ clampProgress lapLength lapCount p ∧
      clampProgress lapLength lapCount p ≤ (lapCount : Int) * lapLength - 1 := by
  have htrack : (1 : Int) ≤ (lapCount : Int) * lapLength := by exact_mod_cast Nat.mul_pos hcount hlength
  simp only [clampProgress, clampInt]
  omega

theorem clampProgress_lowest (hlength : 1 ≤ lapLength) (hcount : 1 ≤ lapCount) :
    clampProgress lapLength lapCount (-(lapLength : Int)) = -(lapLength : Int) := by
  have htrack : (1 : Int) ≤ (lapCount : Int) * lapLength := by exact_mod_cast Nat.mul_pos hcount hlength
  simp only [clampProgress, clampInt]
  omega

/-! ## A ranking entry by the car's state -/

theorem rankingEntry_finished (h : x.state = .finished) : snap.rankingEntry horizon x =
    { car := x.car, projected := some ((snap.lapCount : Int) * snap.lapLength), stale := false } := by
  simp only [Snapshot.rankingEntry, h]

theorem rankingEntry_stalled (h : x.state = .stalled) : snap.rankingEntry horizon x =
    { car := x.car, stale := false
      projected := some (clampProgress snap.lapLength snap.lapCount (x.frozen.getD (-(snap.lapLength : Int)))) } := by
  simp only [Snapshot.rankingEntry, h]

theorem rankingEntry_retired (h : x.state = .retired) : snap.rankingEntry horizon x =
    { car := x.car, stale := false
      projected := some (clampProgress snap.lapLength snap.lapCount (x.retireProgress.getD (-(snap.lapLength : Int)))) } := by
  simp only [Snapshot.rankingEntry, h]

/-- R103, R104, R159: the entry of a car that neither stands still nor has ended its race. -/
theorem rankingEntry_moving (h : x.state ≠ .finished ∧ x.state ≠ .stalled ∧ x.state ≠ .retired) :
    snap.rankingEntry horizon x =
      if x.car = pacerCar then
        { car := x.car, stale := false
          projected := some (clampProgress snap.lapLength snap.lapCount ((snap.pacerView.map (·.progress)).getD 0)) }
      else
        match x.latest with
        | some cs =>
          { car := x.car, projected := some (projectCar horizon snap.lapLength snap.lapCount snap.instant cs).1
            stale := (projectCar horizon snap.lapLength snap.lapCount snap.instant cs).2 }
        | none => { car := x.car, projected := some (-(snap.lapLength : Int)), stale := true } := by
  obtain ⟨hfinished, hstalled, hretired⟩ := h
  unfold Snapshot.rankingEntry
  cases hstate : x.state
  case finished => exact absurd hstate hfinished
  case stalled => exact absurd hstate hstalled
  case retired => exact absurd hstate hretired
  all_goals rfl

theorem rankingEntry_running (h : x.state = .running) (hcar : x.car ≠ pacerCar) : snap.rankingEntry horizon x =
    match x.latest with
    | some cs =>
      { car := x.car, projected := some (projectCar horizon snap.lapLength snap.lapCount snap.instant cs).1
        stale := (projectCar horizon snap.lapLength snap.lapCount snap.instant cs).2 }
    | none => { car := x.car, projected := some (-(snap.lapLength : Int)), stale := true } := by
  refine (rankingEntry_moving ?_).trans (if_neg hcar)
  rw [h]
  exact ⟨nofun, nofun, nofun⟩

theorem rankingEntry_pacer (h : x.state = .running) (hcar : x.car = pacerCar) : snap.rankingEntry horizon x =
    { car := x.car, stale := false
      projected := some (clampProgress snap.lapLength snap.lapCount ((snap.pacerView.map (·.progress)).getD 0)) } := by
  refine (rankingEntry_moving ?_).trans (if_pos hcar)
  rw [h]
  exact ⟨nofun, nofun, nofun⟩

/-- R105: a car that has not finished has a clamped progress. -/
theorem rankingEntry_clamped (hlength : 1 ≤ snap.lapLength) (hcount : 1 ≤ snap.lapCount) (h : x.state ≠ .finished) :
    ∃ progress stale, snap.rankingEntry horizon x =
      { car := x.car, projected := some (clampProgress snap.lapLength snap.lapCount progress), stale := stale } := by
  by_cases hstalled : x.state = .stalled
  · exact ⟨_, _, rankingEntry_stalled hstalled⟩
  by_cases hretired : x.state = .retired
  · exact ⟨_, _, rankingEntry_retired hretired⟩
  rw [rankingEntry_moving ⟨h, hstalled, hretired⟩]
  split
  · exact ⟨_, _, rfl⟩
  · cases x.latest with
    | some cs => exact ⟨_, _, rfl⟩
    | none => exact ⟨-(snap.lapLength : Int), true, by rw [clampProgress_lowest hlength hcount]⟩

end

/-- Settles O51. -/
theorem projectionStaysOnTheTrack : Obligations.ProjectionStaysOnTheTrack := by
  intro snap horizon x d hd hlength hcount e low high
  have hL : snap.lapLength = d.lapLength := by rw [Snapshot.lapLength, hd]
  have hN : snap.lapCount = d.lapCount := by rw [Snapshot.lapCount, hd]
  have hclamped : x.state ≠ .finished → ∃ progress stale, e =
      { car := x.car, projected := some (clampProgress d.lapLength d.lapCount progress), stale := stale } := by
    rw [← hL, ← hN]
    exact rankingEntry_clamped (by rw [hL]; exact hlength) (by rw [hN]; exact hcount)
  have hfinished : x.state = .finished → e = { car := x.car, projected := some high, stale := false } := fun h => by
    show snap.rankingEntry horizon x = _
    rw [rankingEntry_finished h, hL, hN]
  refine ⟨?_, ?_, fun hrunning hcar cs hlatest => ?_, fun hrunning hcar hlatest => ?_, fun hstalled => ?_, fun hretired => ?_,
    fun h => by rw [hfinished h]; exact ⟨rfl, rfl⟩, fun hrunning hcar v hview => ?_⟩
  · by_cases h : x.state = .finished
    · rw [hfinished h]
    · obtain ⟨progress, stale, he⟩ := hclamped h
      rw [he]
  · by_cases h : x.state = .finished
    · obtain ⟨hlow, hhigh⟩ := clampProgress_mem hlength hcount 0
      exact ⟨high, by rw [hfinished h], (hlow.trans hhigh).trans (Int.sub_le_self _ (by decide)), le_rfl,
        fun hne => absurd h hne⟩
    · obtain ⟨progress, stale, he⟩ := hclamped h
      obtain ⟨hlow, hhigh⟩ := clampProgress_mem hlength hcount progress
      exact ⟨_, by rw [he], hlow, hhigh.trans (Int.sub_le_self _ (by decide)), fun _ => hhigh⟩
  all_goals show (snap.rankingEntry horizon x).projected = _ ∧ (snap.rankingEntry horizon x).stale = _
  · rw [rankingEntry_running hrunning hcar, hlatest, hL, hN]
    exact ⟨rfl, rfl⟩
  · rw [rankingEntry_running hrunning hcar, hlatest, hL]
    exact ⟨rfl, rfl⟩
  · rw [rankingEntry_stalled hstalled, hL, hN]
    exact ⟨rfl, rfl⟩
  · rw [rankingEntry_retired hretired, hL, hN]
    exact ⟨rfl, rfl⟩
  · rw [rankingEntry_pacer hrunning hcar, hview, hL, hN]
    exact ⟨rfl, rfl⟩

end Sys2Proof.Machine
end

section
/-! O50: the pacer's segment table and its progress (R153 to R155). -/

namespace Sys2Proof.Machine

/-! ## Segments laid end to end -/

/-- A segment takes the time of its length at its speed, rounded up (R153). -/
def Segment.Timed (g : Segment) : Prop :=
  1 ≤ g.length ∧ g.length * 1000000 ≤ g.time * g.speed ∧ g.time * g.speed < g.length * 1000000 + g.speed

/-- Segments that follow one another from a place and a time of the lap on. -/
def Laid : Nat → Nat → List Segment → Prop
  | _, _, [] => True
  | start, startTime, g :: rest =>
    g.start = start ∧ g.startTime = startTime ∧ g.Timed ∧ Laid (start + g.length) (startTime + g.time) rest

theorem ceilDiv_timed {length speed : Nat} (hspeed : 1 ≤ speed) :
    length * 1000000 ≤ ceilDiv (length * 1000000) speed * speed ∧
      ceilDiv (length * 1000000) speed * speed < length * 1000000 + speed := by
  have hdiv := Nat.div_add_mod (length * 1000000 + speed - 1) speed
  have hmod := Nat.mod_lt (length * 1000000 + speed - 1) hspeed
  rw [Nat.mul_comm] at hdiv
  rw [ceilDiv]
  omega

theorem Segment.Timed.time_pos {g : Segment} (h : g.Timed) : 1 ≤ g.time := by
  obtain ⟨hlength, hlow, -⟩ := h
  refine Nat.pos_of_ne_zero fun hzero => ?_
  rw [hzero, Nat.zero_mul] at hlow
  omega

/-! ## The scaled table (R153) -/

section
variable {lapLength : Nat}

theorem scaleSegments_last (x : ProfileSegment) (start startTime : Nat) : scaleSegments lapLength [x] start startTime =
    [{ length := lapLength - start, start := start, speed := x.speed,
       time := ceilDiv ((lapLength - start) * 1000000) x.speed, startTime := startTime }] := rfl

theorem scaleSegments_cons (x y : ProfileSegment) (rest : List ProfileSegment) (start startTime : Nat) :
    scaleSegments lapLength (x :: y :: rest) start startTime =
      { length := lapLength * x.share / 256, start := start, speed := x.speed,
        time := ceilDiv (lapLength * x.share / 256 * 1000000) x.speed, startTime := startTime } ::
      scaleSegments lapLength (y :: rest) (start + lapLength * x.share / 256)
        (startTime + ceilDiv (lapLength * x.share / 256 * 1000000) x.speed) := rfl

theorem scaleSegments_length (profile : List ProfileSegment) (start startTime : Nat) :
    (scaleSegments lapLength profile start startTime).length = profile.length := by
  induction profile generalizing start startTime with
  | nil => rfl
  | cons x rest ih =>
    cases rest with
    | nil => rfl
    | cons y rest =>
      rw [scaleSegments_cons, List.length_cons, List.length_cons (a := x)]
      exact congrArg (· + 1) (ih _ _)

/-- R153: a segment's speed, its time and, but for the last, its length. -/
theorem scaleSegments_getElem? {profile : List ProfileSegment} {start startTime i : Nat} {g : Segment} {x : ProfileSegment}
    (hg : (scaleSegments lapLength profile start startTime)[i]? = some g) (hx : profile[i]? = some x) :
    g.speed = x.speed ∧ (i + 1 < profile.length → g.length = lapLength * x.share / 256) := by
  induction profile generalizing start startTime i with
  | nil => cases hx
  | cons y rest ih =>
    cases rest with
    | nil =>
      cases i with
      | zero =>
        cases hg; cases hx
        exact ⟨rfl, fun h => absurd h (lt_irrefl 1)⟩
      | succ i => cases hx
    | cons z rest =>
      cases i with
      | zero =>
        cases hg; cases hx
        exact ⟨rfl, fun _ => rfl⟩
      | succ i =>
        obtain ⟨hspeed, hlength⟩ := ih hg hx
        exact ⟨hspeed, fun h => hlength (Nat.lt_of_succ_lt_succ h)⟩

/-- R153: with shares that fit what is left of the lap, the segments lie end to end, take all of it, and none is shorter than
39 cm. -/
theorem scaleSegments_laid {profile : List ProfileSegment} {start startTime : Nat} (hlap : 10000 ≤ lapLength)
    (hne : profile ≠ []) (hsound : ∀ x ∈ profile, 1 ≤ x.share ∧ 1 ≤ x.speed)
    (hfit : 256 * start + lapLength * (profile.map (·.share)).sum ≤ 256 * lapLength) :
    Laid start startTime (scaleSegments lapLength profile start startTime) ∧
      start + ((scaleSegments lapLength profile start startTime).map (·.length)).sum = lapLength ∧
      ∀ g ∈ scaleSegments lapLength profile start startTime, 39 ≤ g.length := by
  induction profile generalizing start startTime with
  | nil => exact absurd rfl hne
  | cons x rest ih =>
    obtain ⟨hshare, hspeed⟩ := hsound x List.mem_cons_self
    have hproduct : lapLength * 1 ≤ lapLength * x.share := Nat.mul_le_mul_left lapLength hshare
    rw [List.map_cons, List.sum_cons, Nat.mul_add] at hfit
    cases rest with
    | nil =>
      rw [scaleSegments_last]
      refine ⟨⟨rfl, rfl, ⟨?_, ceilDiv_timed hspeed⟩, trivial⟩, ?_, ?_⟩
      · show 1 ≤ lapLength - start
        omega
      · simp only [List.map_cons, List.map_nil, List.sum_singleton]
        omega
      · simp only [List.mem_singleton, forall_eq]
        omega
    | cons y rest =>
      obtain ⟨hlaid, hsum, hlong⟩ := ih (start := start + lapLength * x.share / 256)
        (startTime := startTime + ceilDiv (lapLength * x.share / 256 * 1000000) x.speed) (List.cons_ne_nil _ _)
        (fun z hz => hsound z (List.mem_cons_of_mem _ hz)) (by omega)
      rw [scaleSegments_cons]
      refine ⟨⟨rfl, rfl, ⟨?_, ceilDiv_timed hspeed⟩, hlaid⟩, ?_, ?_⟩
      · show 1 ≤ lapLength * x.share / 256
        omega
      · rw [List.map_cons, List.sum_cons, ← Nat.add_assoc]
        exact hsum
      · rw [List.forall_mem_cons]
        exact ⟨show 39 ≤ lapLength * x.share / 256 by omega, hlong⟩

end

/-! ## Places in a laid table -/

section
variable {start startTime : Nat} {l : List Segment} {r : Nat} {g : Segment}

/-- R153: a segment starts where and when those before it end. -/
theorem Laid.getElem? (h : Laid start startTime l) {i : Nat} (hg : l[i]? = some g) :
    g.start = start + ((l.take i).map (·.length)).sum ∧ g.startTime = startTime + ((l.take i).map (·.time)).sum ∧ g.Timed := by
  induction l generalizing start startTime i with
  | nil => cases hg
  | cons x rest ih =>
    obtain ⟨hstart, hstartTime, htimed, hrest⟩ := h
    cases i with
    | zero =>
      cases hg
      exact ⟨hstart, hstartTime, htimed⟩
    | succ i =>
      obtain ⟨hs, ht, htimed'⟩ := ih hrest hg
      rw [List.take_succ_cons, List.map_cons, List.map_cons, List.sum_cons, List.sum_cons]
      exact ⟨by omega, by omega, htimed'⟩

/-- A segment of the table lies within it. -/
theorem Laid.mem (h : Laid start startTime l) (hg : g ∈ l) :
    startTime ≤ g.startTime ∧ g.startTime + g.time ≤ startTime + (l.map (·.time)).sum := by
  induction l generalizing start startTime with
  | nil => cases hg
  | cons x rest ih =>
    obtain ⟨hstart, hstartTime, htimed, hrest⟩ := h
    rw [List.map_cons, List.sum_cons]
    rcases List.mem_cons.1 hg with rfl | hg
    · omega
    · have hin := ih hrest hg
      omega

/-- R155: the segment that contains `r` is the one found. -/
theorem Laid.find?_eq (h : Laid start startTime l) (hg : g ∈ l) (hfrom : g.startTime ≤ r) (hto : r < g.startTime + g.time) :
    l.find? (fun x => r < x.startTime + x.time) = some g := by
  induction l generalizing start startTime with
  | nil => cases hg
  | cons x rest ih =>
    obtain ⟨hstart, hstartTime, htimed, hrest⟩ := h
    rcases List.mem_cons.1 hg with rfl | hg
    · exact List.find?_cons_of_pos (by simpa using hto)
    · have hin := hrest.mem hg
      rw [List.find?_cons_of_neg (by simp only [decide_eq_true_eq]; omega)]
      exact ih hrest hg

/-- R155: every offset within the lap lies in some segment. -/
theorem Laid.exists_mem (h : Laid start startTime l) (hfrom : startTime ≤ r) (hto : r < startTime + (l.map (·.time)).sum) :
    ∃ g ∈ l, g.startTime ≤ r ∧ r < g.startTime + g.time := by
  induction l generalizing start startTime with
  | nil => simp only [List.map_nil, List.sum_nil] at hto; omega
  | cons x rest ih =>
    obtain ⟨hstart, hstartTime, htimed, hrest⟩ := h
    rw [List.map_cons, List.sum_cons] at hto
    by_cases hr : r < x.startTime + x.time
    · exact ⟨x, List.mem_cons_self, by omega, hr⟩
    · obtain ⟨g, hg, hin⟩ := ih hrest (by omega) (by omega)
      exact ⟨g, List.mem_cons_of_mem _ hg, hin⟩

/-- The progress within the lap at the offset `r` into it (R155). -/
def lapProgress (l : List Segment) (r : Nat) : Nat :=
  match l.find? (fun x => r < x.startTime + x.time) with
  | some g => g.start + g.speed * (r - g.startTime) / 1000000
  | none => 0

theorem lapProgress_cons (x : Segment) (rest : List Segment) (r : Nat) : lapProgress (x :: rest) r =
    if r < x.startTime + x.time then x.start + x.speed * (r - x.startTime) / 1000000 else lapProgress rest r := by
  by_cases h : r < x.startTime + x.time
  · rw [if_pos h, lapProgress, List.find?_cons_of_pos (by simpa using h)]
  · rw [if_neg h, lapProgress, List.find?_cons_of_neg (by simpa using h)]
    rfl

/-- R155: within its time a segment's length is not reached. -/
theorem Segment.Timed.progress_lt (h : g.Timed) (hr : r < g.startTime + g.time) :
    g.speed * (r - g.startTime) / 1000000 < g.length := by
  have htime := h.time_pos
  obtain ⟨-, -, hhigh⟩ := h
  refine Nat.div_lt_of_lt_mul ?_
  have hproduct : g.speed * (r - g.startTime) ≤ g.speed * (g.time - 1) := Nat.mul_le_mul_left _ (by omega)
  have hlast : g.speed * (g.time - 1) + g.speed = g.time * g.speed := by
    rw [← Nat.mul_succ, Nat.mul_comm]
    exact congrArg (· * g.speed) (by omega)
  omega

theorem Laid.lapProgress_mem (h : Laid start startTime l) (hto : r < startTime + (l.map (·.time)).sum) (hfrom : startTime ≤ r) :
    start ≤ lapProgress l r ∧ lapProgress l r < start + (l.map (·.length)).sum := by
  induction l generalizing start startTime with
  | nil => simp only [List.map_nil, List.sum_nil] at hto; omega
  | cons x rest ih =>
    obtain ⟨hstart, hstartTime, htimed, hrest⟩ := h
    rw [List.map_cons, List.sum_cons] at hto ⊢
    rw [lapProgress_cons]
    split
    · have hwithin := htimed.progress_lt (r := r) (by omega)
      omega
    · have hin := ih hrest (by omega) (by omega)
      omega

/-- R155: the progress within a lap never falls. -/
theorem Laid.lapProgress_mono (h : Laid start startTime l) {r' : Nat} (hto : r' < startTime + (l.map (·.time)).sum)
    (hfrom : startTime ≤ r) (hle : r ≤ r') : lapProgress l r ≤ lapProgress l r' := by
  induction l generalizing start startTime with
  | nil => exact le_rfl
  | cons x rest ih =>
    obtain ⟨hstart, hstartTime, htimed, hrest⟩ := h
    rw [List.map_cons, List.sum_cons] at hto
    rw [lapProgress_cons, lapProgress_cons]
    by_cases hr' : r' < x.startTime + x.time
    · rw [if_pos hr', if_pos (by omega)]
      exact Nat.add_le_add_left (Nat.div_le_div_right (Nat.mul_le_mul_left _ (by omega))) _
    · rw [if_neg hr']
      by_cases hr : r < x.startTime + x.time
      · have hwithin := htimed.progress_lt hr
        have hin := hrest.lapProgress_mem (r := r') (by omega) (by omega)
        rw [if_pos hr]
        omega
      · rw [if_neg hr]
        exact ih hrest (by omega) (by omega)

/-- R155: a lap starts at its line. -/
theorem Laid.lapProgress_start (h : Laid start startTime l) (hne : l ≠ []) : lapProgress l startTime = start := by
  cases l with
  | nil => exact absurd rfl hne
  | cons x rest =>
    obtain ⟨hstart, hstartTime, htimed, -⟩ := h
    have htime := htimed.time_pos
    rw [lapProgress_cons, if_pos (by omega), hstartTime, Nat.sub_self, Nat.mul_zero, Nat.zero_div, hstart, Nat.add_zero]

end

/-! ## The race (R155) -/

/-- The pacer's progress at the race time `n`, from the green on. -/
def raceProgress (table : ScaledProfile) (lapLength lapCount n : Nat) : Nat :=
  if lapCount ≤ n / table.lapTime then lapCount * lapLength
  else n / table.lapTime * lapLength + lapProgress table.segments (n % table.lapTime)

section
variable {table : ScaledProfile} {lapLength lapCount : Nat}

theorem view_of_nonpos {t : Int} (h : t ≤ 0) : table.view lapLength lapCount t = { progress := 0, speed := 0 } := if_pos h

theorem view_finished {n : Nat} (hpos : 0 < n) (h : lapCount ≤ n / table.lapTime) :
    table.view lapLength lapCount (n : Int) = { progress := (lapCount : Int) * lapLength, speed := 0 } :=
  (if_neg (by omega)).trans (if_pos h)

/-- R155: in lap `k` the segment that contains the offset gives the progress and the speed. -/
theorem view_running (hlaid : Laid 0 0 table.segments) {n : Nat} (hpos : 0 < n) (h : n / table.lapTime < lapCount) {g : Segment}
    (hg : g ∈ table.segments) (hfrom : g.startTime ≤ n % table.lapTime) (hto : n % table.lapTime < g.startTime + g.time) :
    table.view lapLength lapCount (n : Int) =
      { progress := (n / table.lapTime * lapLength + (g.start + g.speed * (n % table.lapTime - g.startTime) / 1000000) : Nat)
        speed := g.speed } := by
  refine (if_neg (by omega)).trans ((if_neg (Nat.not_le.2 h)).trans ?_)
  rw [Int.toNat_natCast, hlaid.find?_eq hg hfrom hto]
  push_cast [hfrom]
  rfl

variable (hlaid : Laid 0 0 table.segments) (htime : table.lapTime = (table.segments.map (·.time)).sum)
  (hne : table.segments ≠ []) (hlength : (table.segments.map (·.length)).sum = lapLength)
include hlaid htime hne

theorem lapTime_pos : 0 < table.lapTime := by
  obtain ⟨g, rest, hl⟩ := List.exists_cons_of_ne_nil hne
  rw [hl] at hlaid
  obtain ⟨-, -, htimed, -⟩ := hlaid
  have hfirst := htimed.time_pos
  rw [htime, hl, List.map_cons, List.sum_cons]
  omega

/-- R155: the progress at any race time, 0 up to the green. -/
theorem view_progress (t : Int) :
    (table.view lapLength lapCount t).progress = (raceProgress table lapLength lapCount t.toNat : Nat) := by
  have htp := lapTime_pos hlaid htime hne
  rcases le_or_gt t 0 with hle | hpos
  · rw [view_of_nonpos hle, Int.toNat_of_nonpos hle, raceProgress, Nat.zero_div, Nat.zero_mod,
      hlaid.lapProgress_start hne, Nat.zero_mul]
    split
    · rename_i hnone
      rw [Nat.le_zero.1 hnone, Nat.zero_mul]
      rfl
    · rfl
  · obtain ⟨n, rfl⟩ := Int.eq_ofNat_of_zero_le hpos.le
    rw [Int.toNat_natCast, raceProgress]
    by_cases hdone : lapCount ≤ n / table.lapTime
    · rw [view_finished (by omega) hdone, if_pos hdone]
      push_cast
      rfl
    · obtain ⟨g, hg, hfrom, hto⟩ := hlaid.exists_mem (Nat.zero_le (n % table.lapTime))
        (by rw [Nat.zero_add, ← htime]; exact Nat.mod_lt _ htp)
      rw [view_running hlaid (by omega) (Nat.not_le.1 hdone) hg hfrom hto, if_neg hdone, lapProgress,
        hlaid.find?_eq hg hfrom hto]

/-- R155: at the end of lap `k` the pacer stands at the line. -/
theorem raceProgress_lap {k : Nat} (hk : k ≤ lapCount) :
    raceProgress table lapLength lapCount (k * table.lapTime) = k * lapLength := by
  rw [raceProgress, Nat.mul_div_cancel _ (lapTime_pos hlaid htime hne), Nat.mul_mod_left, hlaid.lapProgress_start hne]
  split
  · rw [Nat.le_antisymm hk (by assumption)]
  · rfl

include hlength

/-- R155: below lap `N` the pacer has not reached the line into the next lap. -/
theorem raceProgress_lt {n : Nat} (h : n / table.lapTime < lapCount) :
    raceProgress table lapLength lapCount n < (n / table.lapTime + 1) * lapLength := by
  obtain ⟨-, hbelow⟩ := hlaid.lapProgress_mem (r := n % table.lapTime)
    (by rw [Nat.zero_add, ← htime]; exact Nat.mod_lt _ (lapTime_pos hlaid htime hne)) (Nat.zero_le _)
  rw [raceProgress, if_neg (Nat.not_le.2 h), Nat.succ_mul]
  omega

theorem raceProgress_le (n : Nat) : raceProgress table lapLength lapCount n ≤ lapCount * lapLength := by
  by_cases h : n / table.lapTime < lapCount
  · exact (raceProgress_lt hlaid htime hne hlength h).le.trans (Nat.mul_le_mul_right _ h)
  · rw [raceProgress, if_pos (Nat.not_lt.1 h)]

/-- R155: the pacer's progress never falls. -/
theorem raceProgress_mono {n n' : Nat} (hle : n ≤ n') :
    raceProgress table lapLength lapCount n ≤ raceProgress table lapLength lapCount n' := by
  have htp := lapTime_pos hlaid htime hne
  have hlaps : n / table.lapTime ≤ n' / table.lapTime := Nat.div_le_div_right hle
  by_cases hdone : lapCount ≤ n' / table.lapTime
  · refine (raceProgress_le hlaid htime hne hlength n).trans ?_
    rw [raceProgress, if_pos hdone]
  · have hruns : n / table.lapTime < lapCount := by omega
    rcases hlaps.lt_or_eq with hlt | heq
    · calc raceProgress table lapLength lapCount n
          ≤ (n / table.lapTime + 1) * lapLength := (raceProgress_lt hlaid htime hne hlength hruns).le
        _ ≤ n' / table.lapTime * lapLength := Nat.mul_le_mul_right _ hlt
        _ ≤ raceProgress table lapLength lapCount n' := by
          rw [raceProgress, if_neg hdone]
          exact Nat.le_add_right _ _
    · rw [raceProgress, raceProgress, if_neg hdone, if_neg (Nat.not_le.2 hruns), heq]
      have hoffset : n % table.lapTime ≤ n' % table.lapTime := by
        have hn := Nat.div_add_mod n table.lapTime
        have hn' := Nat.div_add_mod n' table.lapTime
        rw [heq] at hn
        omega
      exact Nat.add_le_add_left (hlaid.lapProgress_mono
        (by rw [Nat.zero_add, ← htime]; exact Nat.mod_lt _ htp) (Nat.zero_le _) hoffset) _

end

/-- Settles O50. -/
theorem pacerProgressIsExactAndMonotone : Obligations.PacerProgressIsExactAndMonotone := by
  intro profile lapLength lapCount hprofile hlap table progress
  obtain ⟨hsome, -, hshares, hsound⟩ := (profileSound_iff profile).1 hprofile
  have hcount : table.segments.length = profile.length := scaleSegments_length profile 0 0
  obtain ⟨(hlaid : Laid 0 0 table.segments), hsum, hlong⟩ := scaleSegments_laid (profile := profile)
    (start := 0) (startTime := 0) hlap (List.length_pos_iff.1 hsome)
    (fun x hx => ⟨(hsound x hx).1, le_trans (by decide) (hsound x hx).2.1⟩) (by rw [hshares]; omega)
  rw [Nat.zero_add] at hsum
  have htime : table.lapTime = (table.segments.map (·.time)).sum := rfl
  have hne : table.segments ≠ [] := List.length_pos_iff.1 (by omega)
  have htp := lapTime_pos hlaid htime hne
  have hprogress : ∀ t, progress t = (raceProgress table lapLength lapCount t.toNat : Nat) := view_progress hlaid htime hne
  refine ⟨hsum, hlong, htime, hcount, fun i g x hg hx => ?_, fun k r g hk hg hfrom hto hpos => ?_, fun t => view_of_nonpos,
    fun k hk => ?_, fun t => ?_, fun t t' hle => ?_, fun t hsomeLap hdone => ?_⟩
  · obtain ⟨hspeed, hlength⟩ := scaleSegments_getElem? hg hx
    obtain ⟨hstart, hstartTime, -, hlow, hhigh⟩ := hlaid.getElem? hg
    rw [Nat.zero_add] at hstart hstartTime
    exact ⟨fun h => by simpa [hcount] using hlength h, hstart, hstartTime, hspeed, hspeed ▸ hlow, hspeed ▸ hhigh⟩
  · have hin := (hlaid.mem hg).2
    have hr : r < table.lapTime := by omega
    have hdiv : (k * table.lapTime + r) / table.lapTime = k := by
      rw [Nat.mul_comm, Nat.mul_add_div htp, Nat.div_eq_of_lt hr, Nat.add_zero]
    have hmod : (k * table.lapTime + r) % table.lapTime = r := by
      rw [Nat.mul_comm, Nat.mul_add_mod, Nat.mod_eq_of_lt hr]
    rw [view_running (lapLength := lapLength) (lapCount := lapCount) hlaid hpos (by rw [hdiv]; exact hk) hg
      (by rw [hmod]; exact hfrom) (by rw [hmod]; exact hto), hdiv, hmod, Nat.add_assoc]
  · rw [hprogress, ← Nat.cast_mul, Int.toNat_natCast, raceProgress_lap hlaid htime hne hk, Nat.cast_mul]
  · rw [hprogress]
    exact ⟨Int.natCast_nonneg _, by exact_mod_cast raceProgress_le hlaid htime hne hsum _⟩
  · rw [hprogress, hprogress]
    exact_mod_cast raceProgress_mono hlaid htime hne hsum (Int.toNat_le_toNat hle)
  · have hfirst : 0 < lapCount * table.lapTime := Nat.mul_pos hsomeLap htp
    have hgreen : (0 : Int) ≤ t := le_trans (by exact_mod_cast hfirst.le) hdone
    obtain ⟨n, rfl⟩ := Int.eq_ofNat_of_zero_le hgreen
    have hn : lapCount * table.lapTime ≤ n := by exact_mod_cast hdone
    exact view_finished (by omega) ((Nat.le_div_iff_mul_le htp).2 hn)

end Sys2Proof.Machine
end

section
/-! O47: a crossing's lap entry and the finish (R123 to R128, R55, R56). -/

namespace Sys2Proof.Machine

/-! ## A lap entry (R123 to R127) -/

section
variable {s : State} {c : CarId} {k : Nat} {crossing : HubTime} {resolved stalled ranked : Bool}

/-- R124: lap 1 is timed from E, a later lap from the car's last crossing. -/
theorem lapTimeOf_eq {last : Crossing} {e : HubTime} (hk : 1 ≤ k) (hlast : 2 ≤ k → (s.lapRecord c).lastCrossing = some last)
    (he : s.race.epoch = some e) :
    s.lapTimeOf c k crossing = if k = 1 then diff crossing e else diff crossing last.time := by
  have hrace : s.raceTime crossing = diff crossing e := by rw [State.raceTime, he]
  by_cases hfirst : k = 1
  · exact ((if_pos hfirst).trans hrace).trans (if_pos hfirst).symm
  · rw [State.lapTimeOf, if_neg hfirst, if_neg hfirst, hlast (by omega)]

/-- R124: what marks a lap UNVERIFIED. -/
theorem lapUnverified_eq {last : Crossing} (hlast : 2 ≤ k → (s.lapRecord c).lastCrossing = some last) (time : Int) :
    s.lapUnverified c k time resolved stalled =
      (stalled || !resolved || (decide (2 ≤ k) && !last.resolved) || decide (time ≤ 0)) := by
  by_cases hlater : 2 ≤ k
  · rw [State.lapUnverified, hlast hlater]
    simp only [Bool.or_assoc, Bool.or_comm (decide (time ≤ 0))]
  · simp only [State.lapUnverified, decide_eq_false hlater, Bool.false_and, Bool.or_false]

/-- R125: the best lap follows a strictly smaller verified time. -/
theorem betterLap_eq {best : Option BestLap} {time : Int} {unverified : Bool} {takes : Prop} [Decidable takes]
    (htakes : takes ↔ unverified = false ∧ ∀ b, best = some b → time < b.time) :
    betterLap best k time unverified = if takes then some { lap := k, time := time } else best := by
  cases unverified
  · cases best with
    | none => exact (if_pos (htakes.2 ⟨rfl, nofun⟩)).symm
    | some b =>
      by_cases hless : time < b.time
      · refine (if_pos hless).trans (if_pos (htakes.2 ⟨rfl, fun b' hb => ?_⟩)).symm
        cases hb
        exact hless
      · exact (if_neg hless).trans (if_neg fun h => hless ((htakes.1 h).2 b rfl)).symm
  · exact (if_neg fun h => Bool.noConfusion (htakes.1 h).1).symm

/-- A lap record with the entry of one more lap (R124, R125). -/
def LapRecord.lapped (r : LapRecord) (k : Nat) (crossing : HubTime) (resolved : Bool) (time : Int) (unverified : Bool) :
    LapRecord :=
  { r with
    lastCrossing := some { lap := k, time := crossing, resolved := resolved }
    highWater := some (.count k)
    history := r.history ++ [{ time := time, unverified := unverified }]
    bestLap := betterLap r.bestLap k time unverified }

/-- The state after the lap entry, the fastest lap and the LAP event of one crossing (R123 to R127). -/
def State.lapped (s : State) (c : CarId) (k : Nat) (crossing : HubTime) (resolved ranked : Bool) (time : Int)
    (unverified : Bool) : State :=
  let fastest := ranked && takesFastest s.fastestLap time unverified
  { s.setLapRecord c ((s.lapRecord c).lapped k crossing resolved time unverified) with
    fastestLap := if fastest then some { car := c, lap := k, time := time } else s.fastestLap
    events := if ranked then s.events.append (.lap c k time fastest unverified) else s.events }

theorem recordCrossing_lapped {time : Int} {unverified : Bool} (hk : 1 ≤ k) (htime : s.lapTimeOf c k crossing = time)
    (hunverified : s.lapUnverified c k time resolved stalled = unverified) :
    recordCrossing c k crossing resolved stalled ranked s =
      if k = s.lapCount then
        finishCar c crossing unverified ranked (s.lapped c k crossing resolved ranked time unverified)
      else s.lapped c k crossing resolved ranked time unverified := by
  subst htime hunverified
  exact recordCrossing_eq c k crossing resolved stalled ranked s (by omega)

/-! ## The finish (R128) -/

/-- The state after a ranked finish, before the race controller is told of it (R128). -/
def State.carFinished (s : State) (c : CarId) (crossing : HubTime) (unverified : Bool) : State :=
  let raw := s.raceTime crossing
  let corrected := raw + s.penaltyOf c
  let standing := makeFinished c (s.setLapRecord c { s.lapRecord c with finish := some { raw := raw, corrected := corrected } })
  { standing with
    finishList := insertFinish { car := c, raw := raw, corrected := corrected } standing.finishList
    events := standing.events.append (.finish c s.lapCount corrected (decide (0 < s.penaltyOf c)) unverified) }

theorem finishCar_ranked {unverified : Bool} :
    finishCar c crossing unverified true s = finishNotice (s.carFinished c crossing unverified) := rfl

/-- R53, R55: what a finish leaves of the race while it goes on. -/
theorem finishNotice_live (hlive : s.race.state.live = true)
    (hgo : s.race.state ≠ .countdown → ∃ r : PortId, carOf r ∈ s.race.fieldList ∧ (s.seat r).state = .running) :
    finishNotice s =
      { s with race := if s.race.state = .racing then
          { s.race with
            state := .finishing, finishWindowTimer := startTimer s.now (s.settings.finishWindow * 1000000) }
        else s.race } := by
  by_cases hcountdown : s.race.state = .countdown
  · rw [finishNotice_countdown hcountdown, if_neg (by rw [hcountdown]; nofun)]
  · obtain ⟨r, hfield, hrunning⟩ := hgo hcountdown
    have hstate : s.race.state = .racing ∨ s.race.state = .finishing := by
      cases h : s.race.state <;> simp_all [RaceState.live]
    rw [finishNotice_goesOn hfield hrunning hstate]
    by_cases hracing : s.race.state = .racing
    · rw [if_pos hracing, if_pos hracing]
      rfl
    · rw [if_neg hracing, if_neg hracing]

theorem lapped_setLapRecord {time : Int} {unverified : Bool} (y : LapRecord) :
    (s.lapped c k crossing resolved ranked time unverified).setLapRecord c y =
      { s.setLapRecord c y with
        fastestLap := (s.lapped c k crossing resolved ranked time unverified).fastestLap
        events := (s.lapped c k crossing resolved ranked time unverified).events } :=
  congrArg (fun u : State => { u with
    fastestLap := (s.lapped c k crossing resolved ranked time unverified).fastestLap
    events := (s.lapped c k crossing resolved ranked time unverified).events }) (State.setLapRecord_setLapRecord s c _ y)

/-- The state after the last lap of a cabinet car and its finish, before the race controller is told of it (R123 to R129). -/
def State.lapFinished (s : State) (p : PortId) (k : Nat) (crossing : HubTime) (resolved : Bool) (time : Int)
    (unverified : Bool) : State :=
  let raw := s.raceTime crossing
  let corrected := raw + (s.seat p).penalty
  let fastest := takesFastest s.fastestLap time unverified
  { (s.setLapRecord (carOf p)
      { (s.lapRecord (carOf p)).lapped k crossing resolved time unverified with
        finish := some { raw := raw, corrected := corrected } }).setSeat p
      { s.seat p with
        state := .finished, stallPhase := none, recoveryRun := none, frozenProgress := none, silenceTimer := none
        dropTimer := none } with
    fastestLap := if fastest then some { car := carOf p, lap := k, time := time } else s.fastestLap
    finishList := insertFinish { car := carOf p, raw := raw, corrected := corrected } s.finishList
    events := (s.events.append (.lap (carOf p) k time fastest unverified)).append
      (.finish (carOf p) s.lapCount corrected (decide (0 < (s.seat p).penalty)) unverified) }

section
variable {p : PortId} {time : Int} {unverified : Bool}

theorem lapFinished_lapRecord_self :
    (s.lapFinished p k crossing resolved time unverified).lapRecord (carOf p) =
      { (s.lapRecord (carOf p)).lapped k crossing resolved time unverified with
        finish := some { raw := s.raceTime crossing, corrected := s.raceTime crossing + (s.seat p).penalty } } :=
  State.lapRecord_setLapRecord_self s (carOf p) _

theorem lapFinished_lapRecord_ne (hne : c ≠ carOf p) :
    (s.lapFinished p k crossing resolved time unverified).lapRecord c = s.lapRecord c :=
  State.lapRecord_setLapRecord_ne s _ hne

theorem lapFinished_seat_self : (s.lapFinished p k crossing resolved time unverified).seat p =
    { s.seat p with
      state := .finished, stallPhase := none, recoveryRun := none, frozenProgress := none, silenceTimer := none
      dropTimer := none } :=
  State.seat_setSeat_self (s.setLapRecord (carOf p) _) p _

theorem lapFinished_seat_ne {r : PortId} (hne : r ≠ p) :
    (s.lapFinished p k crossing resolved time unverified).seat r = s.seat r :=
  State.seat_setSeat_ne (s.setLapRecord (carOf p) _) _ hne

/-- R128: the lap of a cabinet car, then its finish. -/
theorem lapped_carFinished :
    (s.lapped (carOf p) k crossing resolved true time unverified).carFinished (carOf p) crossing unverified =
      s.lapFinished p k crossing resolved time unverified := by
  have hpenalty : (s.lapped (carOf p) k crossing resolved true time unverified).penaltyOf (carOf p) = (s.seat p).penalty := by
    simp only [State.penaltyOf, seatOf_carOf]
    rfl
  have hmade : ∀ u : State, makeFinished (carOf p) u = u.setSeat p { u.seat p with
      state := .finished, stallPhase := none, recoveryRun := none, frozenProgress := none, silenceTimer := none
      dropTimer := none } := fun u => by simp only [makeFinished, seatOf_carOf]
  have hrecord : (s.lapped (carOf p) k crossing resolved true time unverified).lapRecord (carOf p) =
      (s.lapRecord (carOf p)).lapped k crossing resolved time unverified := State.lapRecord_setLapRecord_self s (carOf p) _
  simp only [State.carFinished, hpenalty, hmade, hrecord, lapped_setLapRecord]
  rfl

/-- R56: the crossing into lap N ends with what the race controller makes of the finish. -/
theorem recordCrossing_last (hk : 1 ≤ k) (htime : s.lapTimeOf (carOf p) k crossing = time)
    (hunverified : s.lapUnverified (carOf p) k time resolved stalled = unverified) (hN : k = s.lapCount) :
    recordCrossing (carOf p) k crossing resolved stalled true s =
      finishNotice (s.lapFinished p k crossing resolved time unverified) := by
  rw [recordCrossing_lapped hk htime hunverified, if_pos hN, finishCar_ranked, lapped_carFinished]

/-- R55: the crossing into lap N while the race goes on. -/
theorem recordCrossing_last_goesOn (hk : 1 ≤ k) (htime : s.lapTimeOf (carOf p) k crossing = time)
    (hunverified : s.lapUnverified (carOf p) k time resolved stalled = unverified) (hN : k = s.lapCount)
    (hlive : s.race.state.live = true) (hgo : s.race.state ≠ .countdown →
      ∃ r : PortId, r ≠ p ∧ carOf r ∈ s.race.fieldList ∧ (s.seat r).state = .running) :
    recordCrossing (carOf p) k crossing resolved stalled true s =
      { s.lapFinished p k crossing resolved time unverified with
        race := if s.race.state = .racing then
          { s.race with
            state := .finishing, finishWindowTimer := startTimer s.now (s.settings.finishWindow * 1000000) }
          else s.race } := by
  rw [recordCrossing_last hk htime hunverified hN]
  refine finishNotice_live (s := s.lapFinished p k crossing resolved time unverified) hlive fun hstate => ?_
  obtain ⟨r, hne, hfield, hrunning⟩ := hgo hstate
  exact ⟨r, hfield, by rw [lapFinished_seat_ne hne]; exact hrunning⟩

end

end

/-- Settles O47. -/
theorem crossingRecordsLapAndFinish : Obligations.CrossingRecordsLapAndFinish := by
  refine ⟨fun p at_ resolved stalled s => rfl, ?_, ?_⟩
  · intro p k at_ resolved stalled s last e hk hlast he hlive hgo c time unverified best takesBest fastest t lapEvent
    have htime : s.lapTimeOf c k at_ = time := lapTimeOf_eq hk hlast he
    have hunverified : s.lapUnverified c k time resolved stalled = unverified := lapUnverified_eq hlast time
    have hbest : betterLap best k time unverified = if takesBest then some { lap := k, time := time } else best :=
      betterLap_eq Iff.rfl
    have hraw : s.raceTime at_ = diff at_ e := by rw [State.raceTime, he]
    have hlapped : k ≠ s.lapCount → t = s.lapped c k at_ resolved true time unverified := fun hN =>
      (recordCrossing_lapped hk htime hunverified).trans (if_neg hN)
    have hfinished := fun hN => recordCrossing_last_goesOn hk htime hunverified hN hlive (hgo hN)
    obtain ⟨finish, hrecord, hothers, hfastest, hseats⟩ : ∃ finish,
        t.lapRecord c = { (s.lapRecord c).lapped k at_ resolved time unverified with finish := finish } ∧
        (∀ c', c' ≠ c → t.lapRecord c' = s.lapRecord c') ∧
        t.fastestLap = (if fastest then some { car := c, lap := k, time := time } else s.fastestLap) ∧
        ∀ r', r' ≠ p → t.seat r' = s.seat r' := by
      by_cases hN : k = s.lapCount
      · rw [show t = _ from hfinished hN]
        exact ⟨_, lapFinished_lapRecord_self, fun c' => lapFinished_lapRecord_ne, rfl, fun r' => lapFinished_seat_ne⟩
      · rw [hlapped hN]
        exact ⟨_, State.lapRecord_setLapRecord_self s c _, fun c' => State.lapRecord_setLapRecord_ne s _, rfl, fun _ _ => rfl⟩
    refine ⟨by rw [hrecord]; rfl, by rw [hrecord]; rfl, by rw [hrecord]; rfl, by rw [hrecord]; exact hbest, hfastest, hothers,
      hseats, fun hN => ?_, fun hN => ?_⟩
    · rw [hlapped hN]
      exact ⟨rfl, rfl, rfl⟩
    · intro raw corrected
      rw [show t = _ from hfinished hN]
      refine ⟨?_, lapFinished_seat_self, ?_, ?_, rfl, rfl⟩
      · refine (congrArg LapRecord.finish lapFinished_lapRecord_self).trans ?_
        rw [hraw]
      · simp only [State.lapFinished, hraw]
        rfl
      · simp only [State.lapFinished, hraw, ← hN]
        rfl
  · intro p at_ resolved stalled s last e hk hlast he hlive c k time unverified best takesBest fastest raw corrected finished t
    have htime : s.lapTimeOf c k at_ = time := lapTimeOf_eq hk hlast he
    have hunverified : s.lapUnverified c k time resolved stalled = unverified := lapUnverified_eq hlast time
    have hbest : betterLap best k time unverified = if takesBest then some { lap := k, time := time } else best :=
      betterLap_eq Iff.rfl
    have hraw : s.raceTime at_ = raw := by rw [State.raceTime, he]
    have hkept := outerKept_recordCrossing c k at_ resolved stalled true s
    refine ⟨?_, hkept.engine, hkept.freeDraws⟩
    have hfinished : s.lapFinished p k at_ resolved time unverified = finished := by
      simp only [State.lapFinished, LapRecord.lapped, hraw]
      rw [hbest]
      rfl
    rw [← hfinished, show t = _ from recordCrossing_last hk htime hunverified rfl]
    exact finishTold_notice _

end Sys2Proof.Machine
end

section
/-! O49: the pacer's crossings and its finish (R132, R156, R157). -/

namespace Sys2Proof.Machine

/-! ## The crossing that is due (R156) -/

section
variable {s : State} {x : PacerCrossing} {e : HubTime} {table : ScaledProfile} {last : Crossing}

theorem pacerCrossingDue_eq (hstate : s.race.state = .racing ∨ s.race.state = .finishing) (he : s.race.epoch = some e)
    (hnext : s.pacer.nextCrossing = some x) (hdue : (x.raceTime : Int) ≤ diff s.now e) : s.pacerCrossingDue = some x := by
  have hrace : s.raceTime s.now = diff s.now e := by rw [State.raceTime, he]
  rw [State.pacerCrossingDue, if_pos hstate, hnext, hrace]
  exact Option.filter_some_pos (by simpa using hdue)

theorem exec_pacerCrossing (hreset : s.resetHeld = false) (he : s.race.epoch = some e) (hdue : s.pacerCrossingDue = some x) :
    exec .pacerCrossing s = .next (recordCrossing pacerCar x.lap (e + BitVec.ofNat 32 x.raceTime) true false
      (s.race.pacerMode == some .ranked) { s with pacer := { s.pacer with nextCrossing := s.crossingAfter x.lap } }) := by
  rw [exec_running _ hreset]
  simp only [effect, pacerCrosses, hdue, he]

/-- R2: an instant `n` µs after `e`. -/
theorem diff_add_ofNat_self (e : HubTime) {n : Nat} (h : n < 2 ^ 31) : diff (e + BitVec.ofNat 32 n) e = (n : Int) := by
  have hdiff := diff_add_ofNat e 0 n (Nat.zero_le n) (by omega)
  rw [show e + BitVec.ofNat 32 0 = e from BitVec.add_zero e] at hdiff
  exact hdiff

/-- R156: each lap of the pacer takes exactly Tp. -/
theorem lapTimeOf_pacer (he : s.race.epoch = some e) (hlap : 1 ≤ x.lap) (htime : x.raceTime = x.lap * table.lapTime)
    (hshort : table.lapTime < 2 ^ 31) (hlast : 2 ≤ x.lap → (s.lapRecord pacerCar).lastCrossing = some last ∧
      last.resolved = true ∧ last.time = e + BitVec.ofNat 32 ((x.lap - 1) * table.lapTime)) :
    s.lapTimeOf pacerCar x.lap (e + BitVec.ofNat 32 x.raceTime) = table.lapTime := by
  rw [lapTimeOf_eq hlap (fun h => (hlast h).1) he, htime]
  split
  · rename_i hfirst
    rw [hfirst, Nat.one_mul]
    exact diff_add_ofNat_self e hshort
  · obtain ⟨-, -, hat⟩ := hlast (by omega)
    obtain ⟨k, hk⟩ : ∃ k, x.lap = k + 1 := ⟨x.lap - 1, by omega⟩
    have hstep : (k + 1) * table.lapTime = k * table.lapTime + table.lapTime := Nat.succ_mul k table.lapTime
    rw [hat, hk, Nat.add_sub_cancel, diff_add_ofNat e _ _ (by omega) (by omega)]
    omega

/-- R156: the pacer's laps are verified. -/
theorem lapUnverified_pacer (hpositive : 0 < table.lapTime)
    (hlast : 2 ≤ x.lap → (s.lapRecord pacerCar).lastCrossing = some last ∧
      last.resolved = true ∧ last.time = e + BitVec.ofNat 32 ((x.lap - 1) * table.lapTime)) :
    s.lapUnverified pacerCar x.lap (table.lapTime : Int) true false = false := by
  rw [lapUnverified_eq fun h => (hlast h).1]
  have hlater : (decide (2 ≤ x.lap) && !last.resolved) = false := by
    by_cases h : 2 ≤ x.lap
    · rw [(hlast h).2.1, Bool.not_true, Bool.and_false]
    · rw [decide_eq_false h, Bool.false_and]
  rw [hlater, decide_eq_false (by omega)]
  rfl

/-- R126: what takes the race fastest lap. -/
theorem takesFastest_iff {fastest : Option FastestLap} {time : Int} {unverified : Bool} :
    takesFastest fastest time unverified = true ↔ unverified = false ∧ ∀ f, fastest = some f → time < f.time := by
  cases unverified <;> cases fastest <;> simp [takesFastest]

end

/-! ## The pacer's finish (R157) -/

section
variable {s : State} {k : Nat} {crossing : HubTime} {resolved ranked unverified : Bool} {time : Int}

/-- The state after the ranked pacer's last lap and its finish, before the race controller is told of it (R157). -/
def State.pacerFinished (s : State) (k : Nat) (crossing : HubTime) (resolved : Bool) (time : Int) (unverified : Bool) : State :=
  let raw := s.raceTime crossing
  let fastest := takesFastest s.fastestLap time unverified
  { s.setLapRecord pacerCar
      { (s.lapRecord pacerCar).lapped k crossing resolved time unverified with
        finish := some { raw := raw, corrected := raw } } with
    pacerRecord := some .finished
    fastestLap := if fastest then some { car := pacerCar, lap := k, time := time } else s.fastestLap
    finishList := insertFinish { car := pacerCar, raw := raw, corrected := raw } s.finishList
    events := (s.events.append (.lap pacerCar k time fastest unverified)).append
      (.finish pacerCar s.lapCount raw false unverified) }

theorem lapped_lapRecord_self {c : CarId} : (s.lapped c k crossing resolved ranked time unverified).lapRecord c =
    (s.lapRecord c).lapped k crossing resolved time unverified := State.lapRecord_setLapRecord_self s c _

theorem lapped_carFinished_pacer :
    (s.lapped pacerCar k crossing resolved true time unverified).carFinished pacerCar crossing unverified =
      s.pacerFinished k crossing resolved time unverified := by
  have hraw : s.raceTime crossing + ((0 : Nat) : Int) = s.raceTime crossing := Int.add_zero _
  have hpenalty : (s.lapped pacerCar k crossing resolved true time unverified).penaltyOf pacerCar = 0 := rfl
  have hrace : (s.lapped pacerCar k crossing resolved true time unverified).raceTime crossing = s.raceTime crossing := rfl
  simp only [State.carFinished, hpenalty, hrace, hraw, lapped_lapRecord_self, lapped_setLapRecord]
  rfl

/-- R157: the unranked pacer's finish enters no list and is not told. -/
theorem finishCar_lapped_unranked :
    finishCar pacerCar crossing unverified false (s.lapped pacerCar k crossing resolved false time unverified) =
      { s.setLapRecord pacerCar
          { (s.lapRecord pacerCar).lapped k crossing resolved time unverified with
            finish := some { raw := s.raceTime crossing, corrected := s.raceTime crossing } } with
        pacerRecord := some .finished } := by
  have hraw : s.raceTime crossing + ((0 : Nat) : Int) = s.raceTime crossing := Int.add_zero _
  have hpenalty : (s.lapped pacerCar k crossing resolved false time unverified).penaltyOf pacerCar = 0 := rfl
  have hrace : (s.lapped pacerCar k crossing resolved false time unverified).raceTime crossing = s.raceTime crossing := rfl
  simp only [finishCar, hpenalty, hrace, hraw, lapped_lapRecord_self, lapped_setLapRecord]
  rfl

end

/-- What the pacer's lap leaves in the lap records, whether or not it finishes (R123 to R125). -/
theorem lapRecord_of_pacer_lapped {s t : State} {r : LapRecord}
    (h : t.lapRecords = (s.setLapRecord pacerCar r).lapRecords) :
    t.lapRecord pacerCar = r ∧ ∀ p : PortId, t.lapRecord (carOf p) = s.lapRecord (carOf p) := by
  have hrecord : ∀ c, t.lapRecord c = (s.setLapRecord pacerCar r).lapRecord c := fun c =>
    congrArg (fun l : Vector LapRecord 9 => l[c]) h
  exact ⟨(hrecord _).trans (State.lapRecord_setLapRecord_self s _ _),
    fun p => (hrecord _).trans (State.lapRecord_setLapRecord_ne s _ (carOf_ne_pacerCar p))⟩

/-- Settles O49. -/
theorem pacerCrossesOnTime : Obligations.PacerCrossesOnTime := by
  intro s x e table last hreset hstate he htable hnext hdue hlap hrace hpositive hshort hlast next best
  let crossing : HubTime := e + BitVec.ofNat 32 x.raceTime
  let s1 : State := { s with pacer := next }
  have hafter : { s.pacer with nextCrossing := s.crossingAfter x.lap } = next := by
    rw [State.crossingAfter, htable]
    rfl
  have hexec := exec_pacerCrossing hreset he (pacerCrossingDue_eq hstate he hnext hdue)
  rw [hafter] at hexec
  have hlimit : x.raceTime < 2 ^ 31 := by
    have hbound := BitVec.toInt_lt (x := s.now - e)
    unfold diff at hdue
    omega
  have hraw : s1.raceTime crossing = x.raceTime := by
    rw [State.raceTime, show s1.race.epoch = some e from he]
    exact diff_add_ofNat_self e hlimit
  have htime : s1.lapTimeOf pacerCar x.lap crossing = table.lapTime := lapTimeOf_pacer (s := s1) he hlap hrace hshort hlast
  have hverified : s1.lapUnverified pacerCar x.lap (table.lapTime : Int) true false = false :=
    lapUnverified_pacer (s := s1) hpositive hlast
  have hbest : betterLap (s.lapRecord pacerCar).bestLap x.lap table.lapTime false = best :=
    betterLap_eq ⟨fun h => ⟨rfl, h⟩, fun h => h.2⟩
  have hlive : s.race.state.live = true := by rcases hstate with h | h <;> rw [h] <;> rfl
  have hcrossed : ∀ ranked, recordCrossing pacerCar x.lap crossing true false ranked s1 =
      if x.lap = s.lapCount then
        finishCar pacerCar crossing false ranked (s1.lapped pacerCar x.lap crossing true ranked table.lapTime false)
      else s1.lapped pacerCar x.lap crossing true ranked table.lapTime false := fun ranked =>
    recordCrossing_lapped hlap htime hverified
  have hshared : ∀ (t : State) (finish : Option FinishTimes) (rest : Prop), t.lapRecords = (s.setLapRecord pacerCar
      { (s.lapRecord pacerCar).lapped x.lap crossing true table.lapTime false with finish := finish }).lapRecords →
      t.pacer = next → t.seats = s.seats → rest →
      (t.lapRecord pacerCar).lastCrossing = some { lap := x.lap, time := crossing, resolved := true } ∧
      (t.lapRecord pacerCar).highWater = some (.count x.lap) ∧
      (t.lapRecord pacerCar).history = (s.lapRecord pacerCar).history ++ [{ time := table.lapTime, unverified := false }] ∧
      (t.lapRecord pacerCar).bestLap = best ∧ t.pacer = next ∧
      (∀ p : PortId, t.lapRecord (carOf p) = s.lapRecord (carOf p) ∧ t.seat p = s.seat p) ∧ rest := by
    intro t finish rest hrecords hpacer hseats hrest
    obtain ⟨hrecord, hothers⟩ := lapRecord_of_pacer_lapped hrecords
    rw [hrecord]
    exact ⟨rfl, rfl, rfl, hbest, hpacer, fun p => ⟨hothers p, congrArg (fun l : Vector Seat 8 => l[p]) hseats⟩, hrest⟩
  have hlast1 : x.lap = s.lapCount → recordCrossing pacerCar x.lap crossing true false true s1 =
      finishNotice (s1.pacerFinished x.lap crossing true table.lapTime false) := fun hN => by
    rw [hcrossed, if_pos hN, finishCar_ranked, lapped_carFinished_pacer]
  refine ⟨fun hmode hN => ?_, fun hgo => ?_⟩
  · intro fastest finished
    have hfinished : s1.pacerFinished x.lap crossing true table.lapTime false = finished := by
      simp only [State.pacerFinished, LapRecord.lapped, hraw]
      rw [show betterLap (s1.lapRecord pacerCar).bestLap x.lap table.lapTime false = best from hbest,
        show s1.lapCount = x.lap from hN.symm]
      rfl
    have hkept := outerKept_recordCrossing pacerCar x.lap crossing true false (s.race.pacerMode == some .ranked) s1
    refine ⟨_, hexec, ?_, hkept.engine, hkept.freeDraws⟩
    rw [← hfinished, show (s.race.pacerMode == some .ranked) = true by rw [hmode]; rfl, hlast1 hN]
    exact finishTold_notice _
  refine ⟨_, hexec, ?_⟩
  by_cases hmode : s.race.pacerMode = some .ranked
  · rw [show (s.race.pacerMode == some .ranked) = true by rw [hmode]; rfl]
    have hfastest : takesFastest s.fastestLap (table.lapTime : Int) false = true ↔
        ∀ f, s.fastestLap = some f → (table.lapTime : Int) < f.time := takesFastest_iff.trans (and_iff_right rfl)
    have hnot : s.race.pacerMode ≠ some .running := by rw [hmode]; nofun
    by_cases hN : x.lap = s.lapCount
    · have ht : recordCrossing pacerCar x.lap crossing true false true s1 =
          { s1.pacerFinished x.lap crossing true table.lapTime false with
            race := if s.race.state = .racing then
              { s.race with
                state := .finishing, finishWindowTimer := startTimer s.now (s.settings.finishWindow * 1000000) }
              else s.race } := by
        rw [hlast1 hN]
        exact finishNotice_live (s := s1.pacerFinished x.lap crossing true table.lapTime false) hlive fun _ => hgo hmode hN
      rw [ht]
      refine hshared _ _ _ rfl rfl rfl ⟨fun h => absurd h hnot, fun _ => ⟨_, ?_, rfl, hfastest⟩, fun _ h => absurd hN h,
        fun _ _ => ⟨rfl, ?_, ?_, rfl⟩⟩
      · simp only [State.pacerFinished, hraw, if_pos hN]
        rw [show s1.lapCount = x.lap from hN.symm]
      · simp only [State.pacerFinished, hraw]
        rfl
      · refine (congrArg LapRecord.finish (State.lapRecord_setLapRecord_self s1 pacerCar _)).trans ?_
        rw [hraw]
    · rw [hcrossed, if_neg hN]
      exact hshared _ _ _ rfl rfl rfl ⟨fun h => absurd h hnot, fun _ => ⟨_, (if_neg hN).symm, rfl, hfastest⟩,
        fun _ _ => ⟨rfl, rfl, rfl⟩, fun _ h => absurd h hN⟩
  · rw [show (s.race.pacerMode == some .ranked) = false from beq_false_of_ne hmode, hcrossed]
    by_cases hN : x.lap = s.lapCount
    · rw [if_pos hN, finishCar_lapped_unranked]
      exact hshared _ _ _ rfl rfl rfl ⟨fun _ => ⟨rfl, rfl, rfl, rfl, (if_pos hN).symm⟩, fun h => absurd h hmode,
        fun h => absurd h hmode, fun h => absurd h hmode⟩
    · rw [if_neg hN]
      exact hshared _ _ _ rfl rfl rfl ⟨fun _ => ⟨rfl, rfl, rfl, rfl, (if_neg hN).symm⟩, fun h => absurd h hmode,
        fun h => absurd h hmode, fun h => absurd h hmode⟩

end Sys2Proof.Machine
end
